-- ==== Sys2Proof/Word.lean ====
section
/-! DEFINITION. The plain word types of HAC: bytes, 64-bit registers, bit sequences, the word size, the direction of a
cursor, and the two bytes of an alphabet word. Their arithmetic stands in Machine/Bits.lean. -/

namespace Sys2Proof

/-- One byte of a file, of DB or of a cursor buffer. -/
abbrev Byte := BitVec 8

/-- One 64-bit register (R21, R25). -/
abbrev Reg := BitVec 64

/-- A bit sequence in stream order, first bit first (R8). -/
abbrev Bits := List Bool

/-- The word size `CFG.W`: 1 or 2 bytes, never 0 or 3 (R26). -/
inductive WordSize where
  | one
  | two
  deriving DecidableEq, Repr

/-- The direction of a cursor, `MODE` (R30): 0 = read, 1 = write. -/
inductive Mode where
  | read
  | write
  deriving DecidableEq, Repr

/-- The two bytes `WB[0..1]` of an alphabet word, in file order (R34, R35). -/
structure WordBytes where
  b0 : Byte
  b1 : Byte
  deriving DecidableEq, Repr

end Sys2Proof
end

