-- ==== Sys2Proof/Config.lean ====
section
/-! DEFINITION. What an implementation of HAC fixes (R5), and the values the spec leaves open. A free value has no body:
no proof can see what it is. -/

namespace Sys2Proof

/-- The parameters of R5 that a claim quantifies over: configuration, fixed for a run (R44; log entry 16). -/
structure Params where
  /-- `NCUR`, the number of BitCursor instances. -/
  ncur : Nat
  /-- `BUF_MAX`, the largest `buffer_size` an open accepts, in bytes. -/
  bufMax : Nat
  /-- `DB_BYTES`, the size of the data staging buffer DB. -/
  dbBytes : Nat
  /-- `NFID`, the number of file identifiers. -/
  nfid : Nat
  /-- `MAX_FILE_BYTES`, the largest file length. -/
  maxFileBytes : Nat
  deriving DecidableEq, Repr

/-- The parameters fit the fields that carry them: a cursor number 4 bits (R90), `BUFSZ` 13 bits (R30), `FID` 16 bits
(R30), a bit position and a count of bits of DB 64 bits (R5, R12, R61). -/
def Params.ok (p : Params) : Bool :=
  decide (p.ncur ≤ 16 ∧ p.bufMax < 2 ^ 13 ∧ p.dbBytes < 2 ^ 61 ∧ p.nfid ≤ 2 ^ 16 ∧ p.maxFileBytes < 2 ^ 61)

end Sys2Proof

namespace Sys2Proof.Config

/-- The number of cursors the 4-bit cursor fields of a command word can name (R90); `NCUR` of them exist. -/
abbrev curSlots : Nat := 16

/-- The values the spec decides for the parameters of R5 (D4, D5, D6, D7, D46). -/
def params : Params := { ncur := 4, bufMax := 4096, dbBytes := 256, nfid := 65536, maxFileBytes := 2305843009213693951 }

/-- `LENF`, the width of the tail-leaf length field of the tree stream (R5, R101). -/
def lenf : Nat := 8

/-- `W`, the word size in bytes (R5). -/
def wbytes : WordSize → Nat
  | .one => 1
  | .two => 2

/-- `WBITS = 8*W`, the bit length of a full word (R5). -/
def wbits (w : WordSize) : Nat := 8 * wbytes w

/-- `TAILIDX = 2^(8*W)`, the reserved slot of the tail word (R5). -/
def tailIdx (w : WordSize) : Nat := 2 ^ wbits w

/-- `NSYM = 2^(8*W) + 1`, the number of slots of FREQ and CODE (R5). -/
def nsym (w : WordSize) : Nat := tailIdx w + 1

/-- `HEAP_CAP = NSYM`, the heap capacity (R5, D23). -/
def heapCap (w : WordSize) : Nat := nsym w

/-- `NODE_CAP = 2*NSYM - 1`, the node pool capacity (R5, D23). -/
def nodeCap (w : WordSize) : Nat := 2 * nsym w - 1

/-- FREE VALUE (log entry 3, DESIGN CHOICE: the spec states no value). `holeByte k j` is byte `j` of the hole left in a
file by a flush that stores beyond its end, after a COPEN for write has truncated it under the flushing cursor; `k` is
`Env.freeIx`, which each use advances. -/
opaque holeByte : Nat → Nat → Byte

/-- FREE VALUE (log entry 4, DESIGN CHOICE: the spec states no value). `wideResult n` is what a 64-bit result register
holds after a command computes the number `n` for it and `n` does not fit 64 bits. -/
opaque wideResult : Nat → Reg

end Sys2Proof.Config
end

