-- ==== Sys2Proof/Syntax.lean ====
section
/-! DEFINITION. The commands of HAC-CMD version 1: one constructor per row of spec/opcode_table.json (R93). -/

namespace Sys2Proof

/-- A command. `ca` and `cb` are the 4-bit cursor fields, `imm` the 16-bit immediate, `m` the mode bit of COPEN (R90,
R91). An operand that does not fit the word is taken from A0 to A3 when the command runs (R91). -/
inductive Instr where
  | nop
  | srst
  | cfgw (imm : BitVec 16)
  | copen (ca : BitVec 4) (m : Mode)
  | cclose (ca : BitVec 4)
  | crdbits (ca : BitVec 4)
  | cwrbits (ca : BitVec 4)
  | crdbytes (ca : BitVec 4)
  | cwrbytes (ca : BitVec 4)
  | cflush (ca : BitVec 4)
  | cseekbits (ca : BitVec 4)
  | ctell (ca : BitVec 4)
  | chseek (ca : BitVec 4)
  | hclr
  | hscan (ca : BitVec 4)
  | frd
  | fwr
  | tbinit
  | tbins
  | tbext
  | tbuild
  | nrd
  | ctbuild
  | ctrd
  | twrite (ca : BitVec 4)
  | tread (ca : BitVec 4)
  | encode (ca cb : BitVec 4)
  | decode (ca cb : BitVec 4)
  deriving DecidableEq, Repr

end Sys2Proof
end

