-- ==== Sys2Proof/WellFormed.lean ====
section
/-! DEFINITION. The well-formed commands: every cursor number a format uses is below `NCUR` (R92, R94 item 3). Nothing
else can be wrong with a term of `Instr`: the immediate of CFGW may be any 16-bit value (R92), and `ca = cb` is legal
to decode (R94 item 4). -/

namespace Sys2Proof

/-- A cursor number names one of the `n` cursors, `n` being `NCUR`. -/
def cursorNoOk (n : Nat) (c : BitVec 4) : Bool := c.toNat < n

/-- The check of R94 item 3. -/
def Instr.wf (n : Nat) : Instr → Bool
  | .nop => true
  | .srst => true
  | .cfgw _ => true
  | .copen ca _ => cursorNoOk n ca
  | .cclose ca => cursorNoOk n ca
  | .crdbits ca => cursorNoOk n ca
  | .cwrbits ca => cursorNoOk n ca
  | .crdbytes ca => cursorNoOk n ca
  | .cwrbytes ca => cursorNoOk n ca
  | .cflush ca => cursorNoOk n ca
  | .cseekbits ca => cursorNoOk n ca
  | .ctell ca => cursorNoOk n ca
  | .chseek ca => cursorNoOk n ca
  | .hclr => true
  | .hscan ca => cursorNoOk n ca
  | .frd => true
  | .fwr => true
  | .tbinit => true
  | .tbins => true
  | .tbext => true
  | .tbuild => true
  | .nrd => true
  | .ctbuild => true
  | .ctrd => true
  | .twrite ca => cursorNoOk n ca
  | .tread ca => cursorNoOk n ca
  | .encode ca cb => cursorNoOk n ca && cursorNoOk n cb
  | .decode ca cb => cursorNoOk n ca && cursorNoOk n cb

end Sys2Proof
end

