-- ==== Sys2Proof/Decode.lean ====
section
/-! DEFINITION. Decoding the value written to CMD (R90 to R94), total on all 2^64 values and rejecting by name, and the
encoder after it. A command is one 32-bit word: `op[31:24] ca[23:20] cb[19:16] imm16[15:0]` (R90). -/

namespace Sys2Proof

/-- Why a value written to CMD is no command (R94). -/
inductive DecodeError where
  /-- R94 item 1: `v[63:32]` is not 0. -/
  | upperHalf
  /-- R94 item 2: the opcode is unassigned. -/
  | unassigned
  /-- R94 item 2: a field the format says must be 0 is not. -/
  | reservedField
  /-- R94 item 3: a cursor number is `NCUR` or more. -/
  | cursorNumber
  deriving DecidableEq, Repr

/-- A command word laid out from its fields (R90). -/
def packWord (op : BitVec 8) (ca cb : BitVec 4) (imm : BitVec 16) : BitVec 32 := op ++ ca ++ cb ++ imm

/-- Field `op`, bits 31:24 (R90). -/
def opField (w : BitVec 32) : BitVec 8 := w.extractLsb' 24 8

/-- Field `ca`, bits 23:20 (R90). -/
def caField (w : BitVec 32) : BitVec 4 := w.extractLsb' 20 4

/-- Field `cb`, bits 19:16 (R90). -/
def cbField (w : BitVec 32) : BitVec 4 := w.extractLsb' 16 4

/-- Field `imm16`, bits 15:0 (R90). -/
def immField (w : BitVec 32) : BitVec 16 := w.extractLsb' 0 16

/-- Format N: no field carries a value (R91). -/
def decodeN (w : BitVec 32) (i : Instr) : Except DecodeError Instr :=
  if caField w = 0 ∧ cbField w = 0 ∧ immField w = 0 then .ok i else .error .reservedField

/-- Format C: `ca` is a cursor (R91). -/
def decodeC (n : Nat) (w : BitVec 32) (mk : BitVec 4 → Instr) : Except DecodeError Instr :=
  if cbField w = 0 ∧ immField w = 0 then
    if cursorNoOk n (caField w) then .ok (mk (caField w)) else .error .cursorNumber
  else .error .reservedField

/-- Format CC: `ca` is the read cursor, `cb` the write cursor (R91). -/
def decodeCC (n : Nat) (w : BitVec 32) (mk : BitVec 4 → BitVec 4 → Instr) : Except DecodeError Instr :=
  if immField w = 0 then
    if cursorNoOk n (caField w) && cursorNoOk n (cbField w) then .ok (mk (caField w) (cbField w))
    else .error .cursorNumber
  else .error .reservedField

/-- Format CM: `ca` is a cursor, `imm16[0]` the mode, the other bits of `imm16` are 0 (R91, R92). -/
def decodeCM (n : Nat) (w : BitVec 32) (mk : BitVec 4 → Mode → Instr) : Except DecodeError Instr :=
  if cbField w = 0 ∧ (immField w = 0 ∨ immField w = 1) then
    if cursorNoOk n (caField w) then .ok (mk (caField w) (if immField w = 0 then .read else .write))
    else .error .cursorNumber
  else .error .reservedField

/-- Format I: `imm16` is the value (R91). -/
def decodeI (w : BitVec 32) (mk : BitVec 16 → Instr) : Except DecodeError Instr :=
  if caField w = 0 ∧ cbField w = 0 then .ok (mk (immField w)) else .error .reservedField

/-- The opcode map (R93) over one command word; `n` is `NCUR`. -/
def decodeWord (n : Nat) (w : BitVec 32) : Except DecodeError Instr :=
  match (opField w).toNat with
  | 0x00 => decodeN w .nop
  | 0x01 => decodeN w .srst
  | 0x02 => decodeI w .cfgw
  | 0x10 => decodeCM n w .copen
  | 0x11 => decodeC n w .cclose
  | 0x12 => decodeC n w .crdbits
  | 0x13 => decodeC n w .cwrbits
  | 0x14 => decodeC n w .crdbytes
  | 0x15 => decodeC n w .cwrbytes
  | 0x16 => decodeC n w .cflush
  | 0x17 => decodeC n w .cseekbits
  | 0x18 => decodeC n w .ctell
  | 0x19 => decodeC n w .chseek
  | 0x20 => decodeN w .hclr
  | 0x21 => decodeC n w .hscan
  | 0x22 => decodeN w .frd
  | 0x23 => decodeN w .fwr
  | 0x30 => decodeN w .tbinit
  | 0x31 => decodeN w .tbins
  | 0x32 => decodeN w .tbext
  | 0x33 => decodeN w .tbuild
  | 0x34 => decodeN w .nrd
  | 0x40 => decodeN w .ctbuild
  | 0x41 => decodeN w .ctrd
  | 0x50 => decodeC n w .twrite
  | 0x51 => decodeC n w .tread
  | 0x60 => decodeCC n w .encode
  | 0x61 => decodeCC n w .decode
  | _ => .error .unassigned

/-- Decoding the 64-bit value written to CMD (R22, R94): the upper half must be 0, the lower half is the word;
`n` is `NCUR`. -/
def decodeCmd (n : Nat) (v : Reg) : Except DecodeError Instr :=
  if v.extractLsb' 32 32 = 0 then decodeWord n (v.extractLsb' 0 32) else .error .upperHalf

/-- The command the decoder reads from a row of spec/opcode_table.json whose bits are `w` (the bits above `nbits` are
0); `none` where it refuses. `NCUR` has the value the spec decides, which is that of the reset state. -/
def decodeTableWord (nbits w : Nat) : Option Instr :=
  match decodeCmd Config.params.ncur (BitVec.ofNat 64 (w % 2 ^ nbits)) with
  | .ok i => some i
  | .error _ => none

/-- The mode bit `imm16[0]` of COPEN (R92). -/
def modeImm : Mode → BitVec 16
  | .read => 0
  | .write => 1

/-- The command word of a command, from the `match` column of R93 and the formats of R91. -/
def encodeWord : Instr → BitVec 32
  | .nop => packWord 0x00 0 0 0
  | .srst => packWord 0x01 0 0 0
  | .cfgw imm => packWord 0x02 0 0 imm
  | .copen ca m => packWord 0x10 ca 0 (modeImm m)
  | .cclose ca => packWord 0x11 ca 0 0
  | .crdbits ca => packWord 0x12 ca 0 0
  | .cwrbits ca => packWord 0x13 ca 0 0
  | .crdbytes ca => packWord 0x14 ca 0 0
  | .cwrbytes ca => packWord 0x15 ca 0 0
  | .cflush ca => packWord 0x16 ca 0 0
  | .cseekbits ca => packWord 0x17 ca 0 0
  | .ctell ca => packWord 0x18 ca 0 0
  | .chseek ca => packWord 0x19 ca 0 0
  | .hclr => packWord 0x20 0 0 0
  | .hscan ca => packWord 0x21 ca 0 0
  | .frd => packWord 0x22 0 0 0
  | .fwr => packWord 0x23 0 0 0
  | .tbinit => packWord 0x30 0 0 0
  | .tbins => packWord 0x31 0 0 0
  | .tbext => packWord 0x32 0 0 0
  | .tbuild => packWord 0x33 0 0 0
  | .nrd => packWord 0x34 0 0 0
  | .ctbuild => packWord 0x40 0 0 0
  | .ctrd => packWord 0x41 0 0 0
  | .twrite ca => packWord 0x50 ca 0 0
  | .tread ca => packWord 0x51 ca 0 0
  | .encode ca cb => packWord 0x60 ca cb 0
  | .decode ca cb => packWord 0x61 ca cb 0

/-- The value a host writes to CMD to issue a command: the word, upper half 0 (R22, R90). -/
def encodeCmd (i : Instr) : Reg := (0 : BitVec 32) ++ encodeWord i

/-- One row of the opcode table: the mask of its format (R91) and its match (R93). -/
structure OpcodeRow where
  mnemonic : String
  mask : BitVec 32
  pattern : BitVec 32
  deriving DecidableEq, Repr

/-- Rows of one format: the mask, then the mnemonics with their matches. -/
def rowsOf (mask : BitVec 32) (l : List (String × BitVec 32)) : List OpcodeRow :=
  l.map fun p => ⟨p.1, mask, p.2⟩

/-- The opcode table of R91 and R93. -/
def opcodeTable : List OpcodeRow :=
  rowsOf 0xFFFFFFFF [("NOP", 0x00000000), ("SRST", 0x01000000), ("HCLR", 0x20000000), ("FRD", 0x22000000),
    ("FWR", 0x23000000), ("TBINIT", 0x30000000)]
  ++ rowsOf 0xFFFFFFFF [("TBINS", 0x31000000), ("TBEXT", 0x32000000), ("TBUILD", 0x33000000), ("NRD", 0x34000000),
    ("CTBUILD", 0x40000000), ("CTRD", 0x41000000)]
  ++ rowsOf 0xFF0FFFFF [("CCLOSE", 0x11000000), ("CRDBITS", 0x12000000), ("CWRBITS", 0x13000000),
    ("CRDBYTES", 0x14000000), ("CWRBYTES", 0x15000000), ("CFLUSH", 0x16000000)]
  ++ rowsOf 0xFF0FFFFF [("CSEEKBITS", 0x17000000), ("CTELL", 0x18000000), ("CHSEEK", 0x19000000),
    ("HSCAN", 0x21000000), ("TWRITE", 0x50000000), ("TREAD", 0x51000000)]
  ++ rowsOf 0xFF00FFFF [("ENCODE", 0x60000000), ("DECODE", 0x61000000)]
  ++ rowsOf 0xFF0FFFFE [("COPEN", 0x10000000)]
  ++ rowsOf 0xFFFF0000 [("CFGW", 0x02000000)]

/-- The row a word selects (R91, R94 item 2). -/
def OpcodeRow.selects (r : OpcodeRow) (w : BitVec 32) : Bool := w &&& r.mask == r.pattern

end Sys2Proof
end

