-- ==== Sys2Proof/Machine/State.lean ====
section
/-! DEFINITION. The state of HAC as plain data (10_state.md), the reasons a step can stop, the errors a command can
raise, and the reset state (R43). A count, position, length or index is a natural number whose width bound is an
invariant (log entry 2); registers, bytes and frequencies are bit vectors. -/

namespace Sys2Proof.Machine

open Sys2Proof

/-- Why the machine stops without a next state. No command and no data stops it from a state that satisfies `Inv`
(Safety.lean); each stop is a move the spec gives no outcome for. -/
inductive Fault where
  /-- Raised by the host's step that deletes a file a cursor has open, or shortens it below that cursor's `FPOS`: R79
  and U24 give that step no move. Safe. -/
  | hostDuty
  /-- Raised by the host's step that would make a file longer than `MAX_FILE_BYTES`: R60 says no such file exists.
  Safe. -/
  | hostFileTooLong
  /-- Raised by the host's access to a file identifier `NFID` or more, which R60 says does not exist (log entry 20).
  Safe. -/
  | hostNoSuchFile
  /-- Raised by a cursor primitive whose cursor is bound to an absent file, which R62 and R63 require to be present.
  Unreachable while the host keeps R79. Safe. -/
  | fileAbsent
  /-- Raised by CTBUILD and TWRITE when the walk from ROOT visits more levels than there are nodes, so that the nodes
  form a cycle, which R36 excludes. Unreachable. Safe. -/
  | treeCyclic
  /-- Raised when a loop that reads a stream to its end runs longer than the bits there are. Proved unreachable from
  every state that satisfies `Inv` (Laws/Ends.lean). Safe. -/
  | loopUnbounded
  deriving DecidableEq, Repr

/-- Why an instruction has no meaning in the model. -/
inductive Refusal where
  /-- Raised by `exec` for an instruction whose meaning is not written yet. Safe. -/
  | notModelled (mnemonic : String)
  deriving DecidableEq, Repr

/-- The errors a command can end with (R265); the argument is the information value of R266. -/
inductive Err where
  /-- Code 1. -/
  | ioFailure
  /-- Code 2; sub-cause 1 node pool, 2 heap. -/
  | outOfMemory (sub : Nat)
  /-- Code 3; sub-cause 1 to 7 of R268. -/
  | corruptedTree (sub : Nat)
  /-- Code 4; bits consumed before the file ended. -/
  | unexpectedEof (bits : Nat)
  /-- Code 5; reserved for the host, never raised by HAC. -/
  | unsupportedFileType
  /-- Code 6; the byte offset asked for. -/
  | positionFailure (off : Reg)
  /-- Code 16; the value written to CMD. -/
  | illegalCommand (v : Reg)
  /-- Code 17; 0 out of range, 1 malformed tail descriptor, 2 no tail word recorded. -/
  | badOperand (sub : Nat)
  /-- Code 18; 1 not open, 2 already open, 3 wrong direction, 4 buffer not empty. -/
  | cursorState (sub : Nat)
  /-- Code 19; the slot without a code. -/
  | noCode (slot : Nat)
  /-- Code 20. -/
  | emptyInput
  /-- Code 21. -/
  | freqOverflow
  deriving DecidableEq, Repr

/-- One BitCursor (R30). -/
structure Cursor where
  /-- `OPEN`. -/
  isOpen : Bool
  /-- `MODE`. -/
  mode : Mode
  /-- `FID`, 16 bits. -/
  fid : BitVec 16
  /-- `FPOS`, 64 bits. -/
  fpos : Nat
  /-- `BUFSZ`, 13 bits. -/
  bufsz : Nat
  /-- `BUF[0..BUFSZ-1]`. -/
  buf : List Byte
  /-- `BYTE_P`, 13 bits. -/
  byteP : Nat
  /-- `BIT_P`, 3 bits, 0 = most significant. -/
  bitP : Fin 8
  /-- `VALID`, 13 bits. -/
  valid : Nat
  deriving DecidableEq, Repr

/-- The tail word record (R34). -/
structure Tail where
  /-- `TAIL_VALID`. -/
  valid : Bool
  /-- `TAIL_WB[0..1]`. -/
  wb : WordBytes
  /-- `TAIL_BITS`, 5 bits. -/
  bits : Nat
  deriving DecidableEq, Repr

/-- One node of the pool (R35). `KIND` is 1 for a leaf. `none` is `NULLN`. -/
structure Node where
  /-- `KIND` = 1. -/
  leaf : Bool
  /-- `WB[0..1]`. -/
  wb : WordBytes
  /-- `BITLEN`, 5 bits. -/
  bitLen : Nat
  /-- `FREQ`, 64 bits. -/
  freq : BitVec 64
  /-- `LEFT`, 32 bits. -/
  left : Option Nat
  /-- `RIGHT`, 32 bits. -/
  right : Option Nat
  deriving DecidableEq, Repr

/-- The backing store `FILE` (R60): file identifier and bytes, identifiers rising; an unlisted file is absent. -/
abbrev Memory := List (Nat × List Byte)

/-- What R44 sets apart from the state of the block, and HAC's reset does not touch: the parameters, the backing store
(R60) and the answers of `IO_FAIL` (R64). -/
structure Env where
  /-- The parameters of R5, fixed for a run (R44; log entry 16). -/
  par : Params
  /-- The backing store (R60). -/
  files : Memory
  /-- The answers of `IO_FAIL` (R64) that the next store accesses get, first first; when it is empty the answer is
  "never fails" (D38). -/
  ioFail : List Bool
  /-- MODEL's own: the index of the next free value (log entry 3). -/
  freeIx : Nat
  deriving DecidableEq, Repr

/-- One act of the host or of the environment (R20, R246, R79, R290): an input of the step (R24, R44). -/
inductive HostEvent where
  /-- A 64-bit register write at a byte offset; at CMD it executes a command (R22, R39, R40). -/
  | write (off : Nat) (v : Reg)
  /-- A register read (R40). -/
  | read (off : Nat)
  /-- The host makes file `f` hold these bytes, or deletes it (R79). -/
  | setFile (f : BitVec 16) (bytes : Option (List Byte))
  /-- The host reads file `f` (R79). -/
  | readFile (f : BitVec 16)
  /-- The environment fixes the answers of `IO_FAIL` for the next store accesses (R64). -/
  | answerIO (fails : List Bool)
  /-- The hardware reset input (R290). -/
  | reset
  deriving DecidableEq, Repr

/-- What the host got from its latest read. -/
inductive HostSeen where
  | nothing
  | reg (v : Reg)
  | file (bytes : Option (List Byte))
  deriving DecidableEq, Repr

/-- The whole state. -/
structure State where
  /-- General registers A0 to A3 (R21). -/
  a0 : Reg
  a1 : Reg
  a2 : Reg
  a3 : Reg
  /-- `STATUS.ERR` (R23). -/
  err : BitVec 8
  /-- `STATUS.STICKY` (R23). -/
  sticky : Bool
  /-- `STATUS.FIRSTERR` (R23). -/
  firstErr : BitVec 8
  /-- `EINFO` (R25). -/
  einfo : Reg
  /-- `CFG.W` (R26). -/
  w : WordSize
  /-- The cursors (R30), one for each number a cursor field can hold; only the first `NCUR` can be reached (R94). -/
  cursors : Vector Cursor Config.curSlots
  /-- `DB[0..DB_BYTES-1]` (R32). -/
  db : List Byte
  /-- `FREQ` (R33): slot and count, slots rising, no count 0; an unlisted slot holds 0. -/
  freq : List (Nat × BitVec 64)
  /-- The tail word (R34). -/
  tail : Tail
  /-- `NODE[0..NNODES-1]`, the allocated nodes; `NNODES` is the length (R35). -/
  nodes : List Node
  /-- `ROOT`; `none` is `NULLN` (R36). -/
  root : Option Nat
  /-- `HEAP[0..HEAPN-1]`; `HEAPN` is the length (R37). -/
  heap : List Nat
  /-- `CODE` (R38): slot and pattern of the valid entries, slots rising; `LEN` is the pattern's length, an unlisted slot
  has `VALID = 0`. -/
  code : List (Nat × Bits)
  /-- The environment (R44). -/
  env : Env
  /-- The acts of the host still to come, first first: the step's input (R24, R44; log entry 1). -/
  inbox : List HostEvent
  /-- MODEL's own: what the host's latest read returned (log entry 1). -/
  seen : HostSeen
  deriving DecidableEq, Repr

/-- A closed cursor as reset leaves it (R43). -/
def Cursor.reset : Cursor :=
  { isOpen := false, mode := .read, fid := 0, fpos := 0, bufsz := 0, buf := [], byteP := 0, bitP := 0, valid := 0 }

/-- No tail word (R43). -/
def Tail.none : Tail := { valid := false, wb := ⟨0, 0⟩, bits := 0 }

/-- The environment before anything happens: the parameters have the values the spec decides (R5), no file exists, no
store access is to fail (D38; log entry 5). -/
def Env.initial : Env := { par := Config.params, files := [], ioFail := [], freeIx := 0 }

/-- The machine right after reset (R43, R290). -/
def State.reset : State :=
  { a0 := 0, a1 := 0, a2 := 0, a3 := 0
    err := 0, sticky := false, firstErr := 0, einfo := 0
    w := .one
    cursors := Vector.replicate Config.curSlots Cursor.reset
    db := List.replicate Config.params.dbBytes 0
    freq := [], tail := Tail.none
    nodes := [], root := none, heap := []
    code := []
    env := Env.initial
    inbox := [], seen := .nothing }

end Sys2Proof.Machine
end

