-- ==== Sys2Proof/Machine/Flags.lean ====
section
/-! DEFINITION. The error codes and the three fields of STATUS, the block's only flags (R23, R265, R266, R270). -/

namespace Sys2Proof.Machine

open Sys2Proof

/-- The code of an error, the value of `STATUS.ERR` (R265). -/
def Err.code : Err → BitVec 8
  | .ioFailure => 1
  | .outOfMemory _ => 2
  | .corruptedTree _ => 3
  | .unexpectedEof _ => 4
  | .unsupportedFileType => 5
  | .positionFailure _ => 6
  | .illegalCommand _ => 16
  | .badOperand _ => 17
  | .cursorState _ => 18
  | .noCode _ => 19
  | .emptyInput => 20
  | .freqOverflow => 21

/-- The value EINFO takes with an error (R266). -/
def Err.info : Err → Reg
  | .ioFailure => 0
  | .outOfMemory sub => BitVec.ofNat 64 sub
  | .corruptedTree sub => BitVec.ofNat 64 sub
  | .unexpectedEof bits => BitVec.ofNat 64 bits
  | .unsupportedFileType => 0
  | .positionFailure off => off
  | .illegalCommand v => v
  | .badOperand sub => BitVec.ofNat 64 sub
  | .cursorState sub => BitVec.ofNat 64 sub
  | .noCode slot => BitVec.ofNat 64 slot
  | .emptyInput => 0
  | .freqOverflow => 0

/-- `FIRSTERR` after a command that ends with the code `c` (R23, R270). -/
def firstErrAfter (sticky : Bool) (old c : BitVec 8) : BitVec 8 := if sticky then old else c

/-- The register STATUS as the host reads it; the reserved bits read as 0 (R23). -/
def statusWord (err : BitVec 8) (sticky : Bool) (firstErr : BitVec 8) : Reg :=
  (0 : BitVec 40) ++ firstErr ++ (0 : BitVec 7) ++ BitVec.ofBool sticky ++ err

end Sys2Proof.Machine
end

