-- ==== Sys2Proof/Machine/Bits.lean ====
section
/-! DEFINITION. Bits of byte buffers, bit sequences and the integer value of a word (R6 to R8, R65, R66). Bit 0 of a
buffer is the most significant bit of byte 0. -/

namespace Sys2Proof.Machine

open Sys2Proof

/-- Buffer bit `j` (0 = most significant) of one byte (R7). -/
def byteBit (x : Byte) (j : Nat) : Bool := x.getLsbD (7 - j)

/-- The byte with only buffer bit `j` as given, 0 elsewhere: `b << (7 - j)` (R7). -/
def bitMask (j : Nat) (b : Bool) : Byte := (if b then (1 : Byte) else 0) <<< (7 - j)

/-- One byte with buffer bit `j` set to `b` (R7). -/
def setByteBit (x : Byte) (j : Nat) (b : Bool) : Byte := (x &&& ~~~(bitMask j true)) ||| bitMask j b

/-- `bufbit(B, i)` (R7). -/
def bufbit (B : List Byte) (i : Nat) : Bool := byteBit (B.getD (i / 8) 0) (i % 8)

/-- `setbufbit(B, i, b)` (R7). -/
def setbufbit (B : List Byte) (i : Nat) (b : Bool) : List Byte :=
  B.modify (i / 8) fun x => setByteBit x (i % 8) b

/-- `bufbits(B, s, n)` (R7). -/
def bufbits (B : List Byte) (s n : Nat) : Bits := (List.range n).map fun k => bufbit B (s + k)

/-- `for k in 0 .. len(s)-1: setbufbit(B, i + k, s[k])`. -/
def setBits (B : List Byte) (i : Nat) : Bits → List Byte
  | [] => B
  | b :: bs => setBits (setbufbit B i b) (i + 1) bs

/-- The bits of one byte, in stream order (R7). -/
def byteBits (x : Byte) : Bits := (List.range 8).map (byteBit x)

/-- The bits of a byte array, in stream order (R7, R61). -/
def bytesBits (B : List Byte) : Bits := B.flatMap byteBits

/-- `uintbits_n(v)`, most significant bit first (R8). -/
def uintbits (n v : Nat) : Bits := (List.range n).map fun i => v.testBit (n - 1 - i)

/-- `bitsuint(s)` (R8). -/
def bitsuint (s : Bits) : Nat := s.foldl (fun acc b => 2 * acc + b.toNat) 0

/-- The two bytes of a word as a byte array. -/
def wordList (x : WordBytes) : List Byte := [x.b0, x.b1]

/-- The word `[0, 0]`. -/
def wordZero : WordBytes := ⟨0, 0⟩

/-- `bufbits(WB, 0, n)`, the bits of a word of bit length `n` (R34, R35). -/
def wordBits (x : WordBytes) (n : Nat) : Bits := bufbits (wordList x) 0 n

/-- `WB <- [0, 0]` and then `setbufbit(WB, k, s[k])` for every `k` (R150, R209). -/
def wordOfBits (s : Bits) : WordBytes :=
  let B := setBits [0, 0] 0 s
  ⟨B.getD 0 0, B.getD 1 0⟩

/-- Every buffer bit of `WB` at position `n` or later is 0 (R34, R35, R154). -/
def wordClear (x : WordBytes) (n : Nat) : Bool :=
  (List.range (16 - n)).all fun j => !bufbit (wordList x) (n + j)

/-- `widx(WB)`, the little-endian value of a full word (R66). -/
def widx (w : WordSize) (x : WordBytes) : Nat :=
  match w with
  | .one => x.b0.toNat
  | .two => x.b0.toNat + 256 * x.b1.toNat

/-- `idxword(v)` (R66). -/
def idxword (w : WordSize) (v : Nat) : WordBytes :=
  match w with
  | .one => ⟨BitVec.ofNat 8 (v % 256), 0⟩
  | .two => ⟨BitVec.ofNat 8 (v % 256), BitVec.ofNat 8 (v / 256)⟩

/-- A node reference as a 32-bit number, `NULLN = 0xFFFFFFFF` for none (R35, R36). -/
def refWord : Option Nat → BitVec 32
  | none => 0xFFFFFFFF
  | some n => BitVec.ofNat 32 n

/-- A computed number as the value of a 64-bit result register. R12 item 5 says that results fit 64 bits; for a number
that does not, the spec states no value and the register takes a free one (log entry 4). -/
def resultReg (n : Nat) : Reg := if n < 2 ^ 64 then BitVec.ofNat 64 n else Config.wideResult n

end Sys2Proof.Machine
end

