-- ==== Sys2Proof/Machine/Tables.lean ====
section
/-! DEFINITION. Sparse tables in canonical form: a list of key and value pairs, keys strictly rising. The backing store,
FREQ and CODE are such lists, so equal contents are equal data. -/

namespace Sys2Proof.Machine

open Sys2Proof

/-- The value listed for a key, if any. -/
def tableGet {α : Type} (t : List (Nat × α)) (k : Nat) : Option α :=
  match t with
  | [] => none
  | (j, x) :: rest => if j = k then some x else tableGet rest k

/-- The table with `k` listed as `x`. -/
def tableSet {α : Type} (t : List (Nat × α)) (k : Nat) (x : α) : List (Nat × α) :=
  match t with
  | [] => [(k, x)]
  | (j, y) :: rest =>
    if k < j then (k, x) :: (j, y) :: rest
    else if k = j then (k, x) :: rest
    else (j, y) :: tableSet rest k x

/-- The table with `k` not listed. -/
def tableErase {α : Type} (t : List (Nat × α)) (k : Nat) : List (Nat × α) :=
  match t with
  | [] => []
  | (j, y) :: rest => if j = k then rest else (j, y) :: tableErase rest k

/-- The keys rise strictly and every one is `lo` or more. -/
def tableRises {α : Type} (lo : Nat) (t : List (Nat × α)) : Bool :=
  match t with
  | [] => true
  | (j, _) :: rest => decide (lo ≤ j) && tableRises (j + 1) rest

/-- The canonical form of the backing store (R60): identifiers rising and below `NFID`, no file longer than
`MAX_FILE_BYTES`. An absent file is not listed, so equal stores are equal data. -/
def Memory.wf (p : Params) (m : Memory) : Bool :=
  tableRises 0 m && m.all fun e => decide (e.1 < p.nfid ∧ e.2.length ≤ p.maxFileBytes)

/-- `FREQ[i]` (R33): an unlisted slot holds 0. -/
def freqGet (t : List (Nat × BitVec 64)) (i : Nat) : BitVec 64 := (tableGet t i).getD 0

/-- `FREQ[i] <- x` (R33): a count of 0 is not listed. -/
def freqSet (t : List (Nat × BitVec 64)) (i : Nat) (x : BitVec 64) : List (Nat × BitVec 64) :=
  if x = 0 then tableErase t i else tableSet t i x

end Sys2Proof.Machine
end

