-- ==== Sys2Proof/Machine/Operands.lean ====
section
/-! DEFINITION. The operand forms of the commands (R91, R92): cursor fields, counts, slots and offsets in A0 and A1, the
tail descriptor in A2, and the views of cursors, nodes and tables that the commands read. -/

namespace Sys2Proof.Machine

open Sys2Proof

/-- The cursor a 4-bit field names; `none` for a number `NCUR` or more (R92). -/
def State.cursorOf? (s : State) (c : BitVec 4) : Option (Fin Config.curSlots) :=
  if c.toNat < s.env.par.ncur then some ⟨c.toNat, c.isLt⟩ else none

/-- Cursor `k`. -/
def State.cur (s : State) (k : Fin Config.curSlots) : Cursor := s.cursors[k]

/-- The state with cursor `k` replaced. -/
def State.setCur (s : State) (k : Fin Config.curSlots) (c : Cursor) : State :=
  { s with cursors := s.cursors.set k.val c k.isLt }

/-- `NSYM` of the current word size (R33). -/
def State.nsym (s : State) : Nat := Config.nsym s.w

/-- `WBITS` of the current word size. -/
def State.wbits (s : State) : Nat := Config.wbits s.w

/-- `TAILIDX` of the current word size. -/
def State.tailIdx (s : State) : Nat := Config.tailIdx s.w

/-- The operand slot in A0, or `none` outside `0..NSYM-1` (R153, R154, R169, R193). -/
def State.slotOperand (s : State) : Option Nat := if s.a0.toNat < s.nsym then some s.a0.toNat else none

/-- Tail descriptor in A2: bits 7:0 and 15:8 are the bytes (R154). -/
def descBytes (a2 : Reg) : WordBytes := ⟨a2.extractLsb' 0 8, a2.extractLsb' 8 8⟩

/-- Tail descriptor in A2: bits 20:16 are the length (R154). -/
def descLen (a2 : Reg) : Nat := (a2.extractLsb' 16 5).toNat

/-- The tail descriptor is well formed: bits 63:21 are 0, the length is less than `WBITS`, unused bits are 0 (R154). -/
def descOk (w : WordSize) (a2 : Reg) : Bool :=
  (a2.extractLsb' 21 43 == 0) && decide (descLen a2 < Config.wbits w) && wordClear (descBytes a2) (descLen a2)

/-- `FREQ[i]`. -/
def State.freqAt (s : State) (i : Nat) : BitVec 64 := freqGet s.freq i

/-- The pattern of `CODE[i]`, `none` when `VALID = 0` (R38). -/
def State.codeAt (s : State) (i : Nat) : Option Bits := tableGet s.code i

/-- What reading an unallocated NODE entry gives: no rule reads one (R35, U22; log entry 6). -/
def Node.unallocated : Node :=
  { leaf := false, wb := wordZero, bitLen := 0, freq := 0, left := none, right := none }

/-- `NODE[n]`. -/
def nodeAt (nodes : List Node) (n : Nat) : Node := nodes.getD n Node.unallocated

/-- `NODE[n].FREQ` as a natural number, `F(n)` of 42_treebuilder.md. -/
def freqOf (nodes : List Node) (n : Nat) : Nat := (nodeAt nodes n).freq.toNat

/-- `SlotOf(n)` for a leaf (R192). -/
def slotOf (w : WordSize) (n : Node) : Nat :=
  if n.bitLen = Config.wbits w then widx w n.wb else Config.tailIdx w

/-- The slot of a pair a stream yields: a full word's value, or the tail's slot (R150, R221). -/
def wordSlot (w : WordSize) (x : WordBytes) (len : Nat) : Nat :=
  if len = Config.wbits w then widx w x else Config.tailIdx w

/-- The fields NRD packs into A0 (R176). -/
def nodeWord (n : Node) : Reg :=
  BitVec.ofNat 64 n.leaf.toNat ||| (BitVec.ofNat 64 n.bitLen <<< 8) ||| (n.wb.b0.setWidth 64 <<< 16) |||
    (n.wb.b1.setWidth 64 <<< 24)

end Sys2Proof.Machine
end

