-- ==== Sys2Proof/Machine/Ops.lean ====
section
/-! DEFINITION. The named operations the commands share: how a command ends (R270), the accesses to the backing store
(R60 to R64), and the BitCursor primitives (R121 to R127, R135). -/

namespace Sys2Proof.Machine

open Sys2Proof

/-- The outcome of a piece of a command: a value and a state; a `raise` with the state left behind (R270, R271); or no
outcome at all. -/
inductive Res (σ α : Type) where
  | ok (a : α) (s : σ)
  | raise (e : Err) (s : σ)
  | stuck (f : Fault)
  deriving Repr

/-- One piece after another; a `raise` ends the command at that point (R270). -/
def Res.bind {σ α β : Type} (r : Res σ α) (k : α → σ → Res σ β) : Res σ β :=
  match r with
  | .ok a s => k a s
  | .raise e s => .raise e s
  | .stuck f => .stuck f

/-! ## How a command ends -/

/-- A command that ends without error (R270): `ERR <- 0`, `EINFO <- 0`. -/
def endOk (s : State) : State := { s with err := 0, einfo := 0 }

/-- TAKING AN ERROR, the block's only exception (R270): `ERR` and EINFO are written, `FIRSTERR` when `STICKY` was 0, and
`STICKY` is set. Nothing else happens, and there is no return from it but the host's next command (R273). -/
def takeError (e : Err) (s : State) : State :=
  { s with err := e.code, einfo := e.info, sticky := true, firstErr := firstErrAfter s.sticky s.firstErr e.code }

/-- The end of a command, as an outcome of the step. -/
def finish (r : Res State Unit) : Host.Outcome State Fault Refusal :=
  match r with
  | .ok _ s => .next (endOk s)
  | .raise e s => .next (takeError e s)
  | .stuck f => .fault f

/-- A command with one cursor operand. A number `NCUR` or more makes the command illegal (R92, R94 item 3, R276); the
decoder refuses it before it comes here. -/
def onCursor (i : Instr) (c : BitVec 4) (body : Fin Config.curSlots → State → Res State Unit) (s : State) :
    Host.Outcome State Fault Refusal :=
  match s.cursorOf? c with
  | some k => finish (body k s)
  | none => .next (takeError (.illegalCommand (encodeCmd i)) s)

/-- A command with two cursor operands (format CC). -/
def onCursors (i : Instr) (ca cb : BitVec 4) (body : Fin Config.curSlots → Fin Config.curSlots → State → Res State Unit)
    (s : State) : Host.Outcome State Fault Refusal :=
  match s.cursorOf? ca, s.cursorOf? cb with
  | some k, some m => finish (body k m s)
  | _, _ => .next (takeError (.illegalCommand (encodeCmd i)) s)

/-! ## The backing store -/

/-- `FILE[f]` (R60). -/
def Env.file (e : Env) (f : BitVec 16) : Option (List Byte) := tableGet e.files f.toNat

/-- `FILE[f] <- bytes`. -/
def Env.setFile (e : Env) (f : BitVec 16) (bytes : List Byte) : Env :=
  { e with files := tableSet e.files f.toNat bytes }

/-- The file is deleted. -/
def Env.dropFile (e : Env) (f : BitVec 16) : Env := { e with files := tableErase e.files f.toNat }

/-- The next answer of `IO_FAIL` (R64): true = fail. -/
def Env.ioAnswer (e : Env) : Bool := e.ioFail.headD false

/-- The environment after one question to `IO_FAIL` (R64). -/
def Env.asked (e : Env) : Env := { e with ioFail := e.ioFail.tail }

/-- `MemRead((f, off), n)` (R62). -/
def memRead (e : Env) (f : BitVec 16) (off n : Nat) : Res Env (List Byte) :=
  match e.file f with
  | none => .stuck .fileAbsent
  | some bytes =>
    if e.ioAnswer then .raise .ioFailure e.asked else .ok ((bytes.drop off).take n) e.asked

/-- The `off - len` bytes between the end of a file and a store beyond it; the spec states no value for them (R63 says
`off <= FLEN[f]` always holds, which a COPEN for write on a file another write cursor has open breaks; log entry 3). -/
def holeBytes (ix len off : Nat) : List Byte := (List.range (off - len)).map (Config.holeByte ix)

/-- A byte array after `v` is stored at `off`: bytes inside the old length are overwritten, bytes beyond it extend the
array (R63). -/
def overlay (ix : Nat) (old : List Byte) (off : Nat) (v : List Byte) : List Byte :=
  old.take off ++ holeBytes ix old.length off ++ v ++ old.drop (off + v.length)

/-- `MemWrite((f, off), n, v)` with `n = len(v)` (R63, R64): refused with `IOFailure` and the store unchanged when the
environment answers so or the file would pass `MAX_FILE_BYTES`. -/
def memWrite (e : Env) (f : BitVec 16) (off : Nat) (v : List Byte) : Res Env Unit :=
  match e.file f with
  | none => .stuck .fileAbsent
  | some old =>
    if e.ioAnswer || decide (e.par.maxFileBytes < off + v.length) then .raise .ioFailure e.asked
    else
      .ok () { (e.asked.setFile f (overlay e.freeIx old off v)) with
        freeIx := if old.length < off then e.freeIx + 1 else e.freeIx }

/-! ## The BitCursor primitives -/

/-- A cursor with the environment it reaches. -/
structure Chan where
  cur : Cursor
  env : Env
  deriving DecidableEq, Repr

/-- The cursor `k` of the block with the environment. -/
def State.chan (s : State) (k : Fin Config.curSlots) : Chan := ⟨s.cur k, s.env⟩

/-- The state with cursor `k` and the environment replaced. -/
def State.putChan (s : State) (k : Fin Config.curSlots) (ch : Chan) : State := { (s.setCur k ch.cur) with env := ch.env }

/-- A cursor primitive on cursor `k` of the block; what it did stays done when it raises (R126, R271). -/
def onChan {α : Type} (k : Fin Config.curSlots) (f : Chan → Res Chan α) (s : State) : Res State α :=
  match f (s.chan k) with
  | .ok a ch => .ok a (s.putChan k ch)
  | .raise e ch => .raise e (s.putChan k ch)
  | .stuck r => .stuck r

/-- How many bytes a fill at byte `p` of a file of `len` bytes takes (R121, R136). -/
def fillCount (bufsz p len : Nat) : Nat := if len ≤ p then 0 else min bufsz (len - p)

/-- A cursor whose buffer has taken `n` bytes from byte position `p` (R121, R136). -/
def loaded (c : Cursor) (p n : Nat) (got : List Byte) : Cursor :=
  { c with buf := got ++ c.buf.drop n, fpos := p + n, valid := n, byteP := 0 }

/-- The fill of R121 and R136 at byte position `p`: `BUF[0..n-1]` from the file, `FPOS <- p + n`, `VALID <- n`,
`BYTE_P <- 0`. A fill of 0 bytes makes no store access. -/
def fillAt (p : Nat) (ch : Chan) : Res Chan Nat :=
  match ch.env.file ch.cur.fid with
  | none => .stuck .fileAbsent
  | some bytes =>
    if fillCount ch.cur.bufsz p bytes.length = 0 then
      .ok 0 { ch with cur := { ch.cur with fpos := p, valid := 0, byteP := 0 } }
    else
      match memRead ch.env ch.cur.fid p (fillCount ch.cur.bufsz p bytes.length) with
      | .ok got env =>
        .ok (fillCount ch.cur.bufsz p bytes.length) ⟨loaded ch.cur p (fillCount ch.cur.bufsz p bytes.length) got, env⟩
      | .raise e env => .raise e { ch with env := env }
      | .stuck f => .stuck f

/-- `Refill(c)` (R121); `BIT_P` is not changed. -/
def refill (ch : Chan) : Res Chan Nat := fillAt ch.cur.fpos ch

/-- How many bytes of a write buffer are in use: the whole ones and a partial one (R124). -/
def pendingBytes (c : Cursor) : Nat := c.byteP + (if c.bitP.val = 0 then 0 else 1)

/-- `Flush(c)` (R124). -/
def flush (ch : Chan) : Res Chan Unit :=
  if pendingBytes ch.cur = 0 then .ok () { ch with cur := { ch.cur with byteP := 0, bitP := 0 } }
  else
    match memWrite ch.env ch.cur.fid ch.cur.fpos (ch.cur.buf.take (pendingBytes ch.cur)) with
    | .ok _ env =>
      .ok () ⟨{ ch.cur with fpos := ch.cur.fpos + pendingBytes ch.cur, byteP := 0, bitP := 0 }, env⟩
    | .raise e env => .raise e { ch with env := env }
    | .stuck f => .stuck f

/-- The next bit position: `BIT_P <- (BIT_P + 1) mod 8` and `BYTE_P <- BYTE_P + 1` when it comes round to 0 (R122,
R125). -/
def advance (c : Cursor) : Cursor :=
  { c with bitP := c.bitP + 1, byteP := if c.bitP.val = 7 then c.byteP + 1 else c.byteP }

/-- The byte the next bit goes into: cleared when its first bit arrives (R122, R123). -/
def openByte (c : Cursor) : Byte := if c.bitP.val = 0 then 0 else c.buf.getD c.byteP 0

/-- One bit put into a buffer that has room (R122). -/
def putBit (b : Bool) (c : Cursor) : Cursor :=
  advance { c with buf := c.buf.set c.byteP (openByte c ||| bitMask c.bitP.val b) }

/-- `WriteBit(c, b)` (R122): a full buffer is flushed when the next bit arrives. -/
def writeBit (b : Bool) (ch : Chan) : Res Chan Unit :=
  if ch.cur.byteP = ch.cur.bufsz then
    (flush ch).bind fun _ ch => .ok () { ch with cur := putBit b ch.cur }
  else .ok () { ch with cur := putBit b ch.cur }

/-- `WriteBits(c, s)` (R126). -/
def writeBits : Bits → Chan → Res Chan Unit
  | [], ch => .ok () ch
  | b :: bs, ch => (writeBit b ch).bind fun _ ch => writeBits bs ch

/-- The bit at the cursor's position in its buffer (R125). -/
def bitAt (c : Cursor) : Bool := byteBit (c.buf.getD c.byteP 0) c.bitP.val

/-- The bit of a buffer that holds one, and the cursor after it (R125). -/
def takeBit (ch : Chan) : Res Chan (Option Bool) :=
  .ok (some (bitAt ch.cur)) { ch with cur := advance ch.cur }

/-- `ReadBit(c)` (R125); `none` is `EOF`. -/
def readBit (ch : Chan) : Res Chan (Option Bool) :=
  if ch.cur.valid ≤ ch.cur.byteP then
    (refill ch).bind fun n ch => if n = 0 then .ok none ch else takeBit ch
  else takeBit ch

/-- `ReadBits(c, n)` (R126): stops early at the first `EOF`. -/
def readBits : Nat → Chan → Res Chan Bits
  | 0, ch => .ok [] ch
  | n + 1, ch =>
    (readBit ch).bind fun b ch =>
      match b with
      | none => .ok [] ch
      | some b => (readBits n ch).bind fun bs ch => .ok (b :: bs) ch

/-- `AbsBitPos(c)` (R127). -/
def absBitPos (c : Cursor) : Nat :=
  match c.mode with
  | .write => 8 * (c.fpos + c.byteP) + c.bitP.val
  | .read => 8 * (c.fpos - c.valid + c.byteP) + c.bitP.val

/-- `CurCheck(c, m)` (R135). -/
def curCheck (k : Fin Config.curSlots) (m : Mode) (s : State) : Res State Unit :=
  if (s.cur k).isOpen = false then .raise (.cursorState 1) s
  else if (s.cur k).mode ≠ m then .raise (.cursorState 3) s
  else .ok () s

/-- `FreeTree()` (R35). -/
def freeTree (s : State) : State := { s with nodes := [], root := none, heap := [] }

/-- `ClearCodes()` (R194). -/
def clearCodes (s : State) : State := { s with code := [] }

/-- The body of HCLR (R151): FREQ and the tail word are cleared. -/
def clearHistogram (s : State) : State := { s with freq := [], tail := Tail.none }

/-- Every item of R43 at its reset value; the environment and the host's own are not touched (R236, R290, R291). -/
def resetBlock (s : State) : State :=
  { State.reset with db := List.replicate s.env.par.dbBytes 0, env := s.env, inbox := s.inbox, seen := s.seen }

/-- A number no loop that reads words from `ch` can reach: more than the bits its buffer and its file can ever hold
(log entry 7). -/
def streamFuel (ch : Chan) : Nat :=
  8 * (ch.cur.valid + max ((ch.env.file ch.cur.fid).getD []).length ch.env.par.maxFileBytes) + 1

end Sys2Proof.Machine
end

