-- ==== Sys2Proof/Machine/BitCursor.lean ====
section
/-! DEFINITION. The BitCursor commands (40_bitcursor.md). -/

namespace Sys2Proof.Machine

open Sys2Proof

/-- A cursor COPEN has just bound (R128). `BUF` is immaterial then (U22): it is `BUFSZ` bytes 0 (log entry 8). -/
def openedCursor (f : BitVec 16) (m : Mode) (size : Nat) : Cursor :=
  { isOpen := true, mode := m, fid := f, fpos := 0, bufsz := size, buf := List.replicate size 0, byteP := 0, bitP := 0,
    valid := 0 }

/-- The store after an open that succeeds: a file opened for write is created or truncated (R128, D17). -/
def openedEnv (e : Env) (f : BitVec 16) : Mode → Env
  | .read => e
  | .write => e.setFile f []

/-- COPEN on cursor `k` (R128). -/
def copen (m : Mode) (k : Fin Config.curSlots) (s : State) : Res State Unit :=
  if (s.cur k).isOpen then .raise (.cursorState 2) s
  else if s.env.par.nfid ≤ s.a0.toNat ∨ s.a1.toNat < 1 ∨ s.env.par.bufMax < s.a1.toNat then .raise (.badOperand 0) s
  else if m = .read ∧ s.env.file (s.a0.setWidth 16) = none then .raise .ioFailure s
  else if s.env.ioAnswer then .raise .ioFailure { s with env := s.env.asked }
  else
    .ok () (s.putChan k ⟨openedCursor (s.a0.setWidth 16) m s.a1.toNat, openedEnv s.env.asked (s.a0.setWidth 16) m⟩)

/-- COPEN `c`, mode (R128). -/
def execCopen (ca : BitVec 4) (m : Mode) (s : State) : Host.Outcome State Fault Refusal :=
  onCursor (.copen ca m) ca (copen m) s

/-- CCLOSE on cursor `k` (R129). -/
def cclose (k : Fin Config.curSlots) (s : State) : Res State Unit :=
  if (s.cur k).isOpen = false then .raise (.cursorState 1) s
  else
    (if (s.cur k).mode = .write then onChan k flush s else .ok () s).bind fun _ s =>
      .ok () (s.setCur k { s.cur k with isOpen := false })

/-- CCLOSE `c` (R129). -/
def execCclose (ca : BitVec 4) (s : State) : Host.Outcome State Fault Refusal := onCursor (.cclose ca) ca cclose s

/-- `n` bits read into DB from buffer bit 0, their number in A0 (R130, R132). -/
def readToDb (n : Nat) (k : Fin Config.curSlots) (s : State) : Res State Unit :=
  (onChan k (readBits n) s).bind fun bits s =>
    .ok () { s with db := setBits s.db 0 bits, a0 := resultReg bits.length }

/-- CRDBITS on cursor `k` (R130). -/
def crdbits (k : Fin Config.curSlots) (s : State) : Res State Unit :=
  (curCheck k .read s).bind fun _ s =>
    if 8 * s.env.par.dbBytes < s.a0.toNat then .raise (.badOperand 0) s else readToDb s.a0.toNat k s

/-- CRDBITS `c` (R130). -/
def execCrdbits (ca : BitVec 4) (s : State) : Host.Outcome State Fault Refusal := onCursor (.crdbits ca) ca crdbits s

/-- CWRBITS on cursor `k` (R131): the sum of the operands is of naturals. -/
def cwrbits (k : Fin Config.curSlots) (s : State) : Res State Unit :=
  (curCheck k .write s).bind fun _ s =>
    if 8 * s.env.par.dbBytes < s.a1.toNat + s.a0.toNat then .raise (.badOperand 0) s
    else onChan k (writeBits (bufbits s.db s.a1.toNat s.a0.toNat)) s

/-- CWRBITS `c` (R131). -/
def execCwrbits (ca : BitVec 4) (s : State) : Host.Outcome State Fault Refusal := onCursor (.cwrbits ca) ca cwrbits s

/-- CRDBYTES on cursor `k` (R132): the bit variant with `count*8`; the result counts bits. -/
def crdbytes (k : Fin Config.curSlots) (s : State) : Res State Unit :=
  (curCheck k .read s).bind fun _ s =>
    if s.env.par.dbBytes < s.a0.toNat then .raise (.badOperand 0) s else readToDb (8 * s.a0.toNat) k s

/-- CRDBYTES `c` (R132). -/
def execCrdbytes (ca : BitVec 4) (s : State) : Host.Outcome State Fault Refusal := onCursor (.crdbytes ca) ca crdbytes s

/-- CWRBYTES on cursor `k` (R133): from buffer bit 0 of DB; A1 is not read. -/
def cwrbytes (k : Fin Config.curSlots) (s : State) : Res State Unit :=
  (curCheck k .write s).bind fun _ s =>
    if s.env.par.dbBytes < s.a0.toNat then .raise (.badOperand 0) s
    else onChan k (writeBits (bufbits s.db 0 (8 * s.a0.toNat))) s

/-- CWRBYTES `c` (R133). -/
def execCwrbytes (ca : BitVec 4) (s : State) : Host.Outcome State Fault Refusal := onCursor (.cwrbytes ca) ca cwrbytes s

/-- CFLUSH on cursor `k` (R134). -/
def cflush (k : Fin Config.curSlots) (s : State) : Res State Unit :=
  (curCheck k .write s).bind fun _ s => onChan k flush s

/-- CFLUSH `c` (R134). -/
def execCflush (ca : BitVec 4) (s : State) : Host.Outcome State Fault Refusal := onCursor (.cflush ca) ca cflush s

/-- The seek of R136: a fresh fill at byte `p div 8`, then `BIT_P <- p mod 8`. -/
def seekTo (p : Nat) (ch : Chan) : Res Chan Unit :=
  (fillAt (p / 8) ch).bind fun _ ch =>
    .ok () { ch with cur := { ch.cur with bitP := ⟨p % 8, Nat.mod_lt p (by decide)⟩ } }

/-- CSEEKBITS on cursor `k` (R136): every 64-bit offset is legal. -/
def cseekbits (k : Fin Config.curSlots) (s : State) : Res State Unit :=
  (curCheck k .read s).bind fun _ s => onChan k (seekTo s.a0.toNat) s

/-- CSEEKBITS `c` (R136). -/
def execCseekbits (ca : BitVec 4) (s : State) : Host.Outcome State Fault Refusal :=
  onCursor (.cseekbits ca) ca cseekbits s

/-- CTELL on cursor `k` (R137): computed from registers, no store access. -/
def ctell (k : Fin Config.curSlots) (s : State) : Res State Unit :=
  if (s.cur k).isOpen = false then .raise (.cursorState 1) s
  else .ok () { s with a0 := resultReg (absBitPos (s.cur k)) }

/-- CTELL `c` (R137). -/
def execCtell (ca : BitVec 4) (s : State) : Host.Outcome State Fault Refusal := onCursor (.ctell ca) ca ctell s

/-- CHSEEK on cursor `k` (R138): refused while the buffer is not empty; never beyond the end of the file. -/
def chseek (k : Fin Config.curSlots) (s : State) : Res State Unit :=
  (curCheck k .write s).bind fun _ s =>
    if (s.cur k).byteP ≠ 0 ∨ (s.cur k).bitP ≠ 0 then .raise (.cursorState 4) s
    else
      match s.env.file (s.cur k).fid with
      | none => .stuck .fileAbsent
      | some bytes =>
        if bytes.length < s.a0.toNat then .raise (.positionFailure s.a0) s
        else .ok () (s.setCur k { s.cur k with fpos := s.a0.toNat })

/-- CHSEEK `c` (R138). -/
def execChseek (ca : BitVec 4) (s : State) : Host.Outcome State Fault Refusal := onCursor (.chseek ca) ca chseek s

end Sys2Proof.Machine
end

