-- ==== Sys2Proof/Machine/CodeTable.lean ====
section
/-! DEFINITION. The CodeTable commands (43_codetable.md). A code is the path of its leaf; no code is reassigned (R196). -/

namespace Sys2Proof.Machine

open Sys2Proof

/-- `Store(n, pat)` (R194). -/
def storeCode (n : Node) (pat : Bits) (s : State) : Res State Unit :=
  match s.codeAt (slotOf s.w n) with
  | some _ => .raise (.corruptedTree 7) (clearCodes s)
  | none => .ok () { s with code := tableSet s.code (slotOf s.w n) pat }

/-- `Walk(n, pat)` (R191), pre-order, left before right; the first argument bounds the depth. -/
def codeWalk : Nat → Nat → Bits → State → Res State Unit
  | 0, _, _, _ => .stuck .treeCyclic
  | fuel + 1, n, pat, s =>
    if (nodeAt s.nodes n).leaf then storeCode (nodeAt s.nodes n) pat s
    else
      match (nodeAt s.nodes n).left, (nodeAt s.nodes n).right with
      | some l, some r =>
        (codeWalk fuel l (pat ++ [false]) s).bind fun _ s => codeWalk fuel r (pat ++ [true]) s
      | _, _ => .raise (.corruptedTree 6) (clearCodes s)

/-- CTBUILD after `ClearCodes()` (R191): a leaf root gets the code `0` of length 1. -/
def buildCodes (s : State) : Res State Unit :=
  match s.root with
  | none => .raise .emptyInput s
  | some r =>
    if (nodeAt s.nodes r).leaf then storeCode (nodeAt s.nodes r) [false] s else codeWalk s.nodes.length r [] s

/-- CTBUILD (R191). -/
def execCtbuild (s : State) : Host.Outcome State Fault Refusal := finish (buildCodes (clearCodes s))

/-- The window of a pattern CTRD delivers: at most `8*DB_BYTES` bits from bit `off` (R193); `size` is `DB_BYTES`. -/
def codeWindow (size : Nat) (pat : Bits) (off : Nat) : Bits := (pat.drop off).take (8 * size)

/-- CTRD's body (R193). -/
def ctrd (s : State) : Res State Unit :=
  match s.slotOperand with
  | none => .raise (.badOperand 0) s
  | some i =>
    match s.codeAt i with
    | none => .ok () { s with a0 := 0, a1 := 0 }
    | some pat =>
      .ok () { s with
        db := setBits s.db 0 (codeWindow s.env.par.dbBytes pat s.a1.toNat), a0 := resultReg pat.length,
        a1 := resultReg (codeWindow s.env.par.dbBytes pat s.a1.toNat).length }

/-- CTRD (R193). -/
def execCtrd (s : State) : Host.Outcome State Fault Refusal := finish (ctrd s)

end Sys2Proof.Machine
end

