-- ==== Sys2Proof/Machine/Histogram.lean ====
section
/-! DEFINITION. The tokeniser and the histogram commands (41_wordalphabet_histogram.md). -/

namespace Sys2Proof.Machine

open Sys2Proof

/-- `NextWord(c)` (R150): the next pair of word bytes and bit length, `none` at the end of the stream. -/
def nextWord (k : Fin Config.curSlots) (s : State) : Res State (Option (WordBytes × Nat)) :=
  (onChan k (readBits s.wbits) s).bind fun bits s =>
    match bits with
    | [] => .ok none s
    | b :: bs => .ok (some (wordOfBits (b :: bs), (b :: bs).length)) s

/-- HCLR (R151). -/
def execHclr (s : State) : Host.Outcome State Fault Refusal := finish (.ok () (clearHistogram s))

/-- A full word is counted (R152). -/
def countWord (x : WordBytes) (s : State) : State :=
  { s with freq := freqSet s.freq (widx s.w x) (s.freqAt (widx s.w x) + 1) }

/-- The tail word is recorded (R152). -/
def recordTail (x : WordBytes) (len : Nat) (s : State) : State :=
  { s with tail := ⟨true, x, len⟩, freq := freqSet s.freq s.tailIdx 1 }

/-- The loop of HSCAN (R152): `nw` words so far; answers the number of full words and the tail's length. -/
def scanLoop (k : Fin Config.curSlots) : Nat → Nat → State → Res State (Nat × Nat)
  | 0, _, _ => .stuck .loopUnbounded
  | fuel + 1, nw, s =>
    (nextWord k s).bind fun r s =>
      match r with
      | none => .ok (nw, 0) s
      | some (x, len) =>
        if len = s.wbits then scanLoop k fuel (nw + 1) (countWord x s) else .ok (nw, len) (recordTail x len s)

/-- HSCAN on cursor `k` (R152). -/
def hscan (k : Fin Config.curSlots) (s : State) : Res State Unit :=
  (curCheck k .read s).bind fun _ s =>
    (scanLoop k (streamFuel (s.chan k)) 0 (clearHistogram s)).bind fun r s =>
      .ok () { s with a0 := resultReg r.1, a1 := resultReg r.2 }

/-- HSCAN `c` (R152). -/
def execHscan (ca : BitVec 4) (s : State) : Host.Outcome State Fault Refusal := onCursor (.hscan ca) ca hscan s

/-- FRD's body (R153). -/
def frd (s : State) : Res State Unit :=
  match s.slotOperand with
  | none => .raise (.badOperand 0) s
  | some i => .ok () { s with a0 := s.freqAt i }

/-- FRD (R153). -/
def execFrd (s : State) : Host.Outcome State Fault Refusal := finish (frd s)

/-- FWR's body (R154): the tail descriptor in A2 is read for the tail's slot only. -/
def fwr (s : State) : Res State Unit :=
  match s.slotOperand with
  | none => .raise (.badOperand 0) s
  | some i =>
    if i = s.tailIdx then
      if descOk s.w s.a2 then
        .ok () { s with tail := ⟨true, descBytes s.a2, descLen s.a2⟩, freq := freqSet s.freq i s.a1 }
      else .raise (.badOperand 1) s
    else .ok () { s with freq := freqSet s.freq i s.a1 }

/-- FWR (R154). -/
def execFwr (s : State) : Host.Outcome State Fault Refusal := finish (fwr s)

end Sys2Proof.Machine
end

