-- ==== Sys2Proof/Machine/Payload.lean ====
section
/-! DEFINITION. The payload stream commands ENCODE and DECODE (45_payload_codec.md). -/

namespace Sys2Proof.Machine

open Sys2Proof

/-- The loop of ENCODE (R221): `tot` bits written so far. -/
def encodeLoop (ka kb : Fin Config.curSlots) : Nat → Nat → State → Res State Nat
  | 0, _, _ => .stuck .loopUnbounded
  | fuel + 1, tot, s =>
    (nextWord ka s).bind fun r s =>
      match r with
      | none => .ok tot s
      | some (x, len) =>
        match s.codeAt (wordSlot s.w x len) with
        | none => .raise (.noCode (wordSlot s.w x len)) s
        | some pat =>
          (onChan kb (writeBits pat) s).bind fun _ s =>
            if len < s.wbits then .ok (tot + pat.length) s else encodeLoop ka kb fuel (tot + pat.length) s

/-- ENCODE from cursor `ka` to cursor `kb` (R221). -/
def encodeStream (ka kb : Fin Config.curSlots) (s : State) : Res State Unit :=
  (curCheck ka .read s).bind fun _ s =>
    (curCheck kb .write s).bind fun _ s =>
      (encodeLoop ka kb (streamFuel (s.chan ka)) 0 s).bind fun tot s => .ok () { s with a0 := resultReg tot }

/-- ENCODE `ca`, `cb` (R221). -/
def execEncode (ca cb : BitVec 4) (s : State) : Host.Outcome State Fault Refusal :=
  onCursors (.encode ca cb) ca cb encodeStream s

/-- What one payload bit does to the walk from node `cur` of the tree at `root` (R223, R224). -/
inductive WalkStep where
  /-- The walk goes on at an internal node. -/
  | goto (n : Nat)
  /-- A leaf is reached: its word is emitted and the walk is back at the root. -/
  | emit (n : Nat)
  /-- The bit cannot be followed: a sub-cause of `CorruptedTree` (R268). -/
  | fail (sub : Nat)
  deriving DecidableEq, Repr

/-- One payload bit at node `cur` of the tree at `root` (R223). -/
def walkStep (nodes : List Node) (root cur : Nat) (b : Bool) : WalkStep :=
  if (nodeAt nodes root).leaf then if b then .fail 3 else .emit root
  else
    match (if b then (nodeAt nodes cur).right else (nodeAt nodes cur).left) with
    | none => .fail 4
    | some nx => if (nodeAt nodes nx).leaf then .emit nx else .goto nx

/-- `Emit(cb, n)`: the bits of a leaf's word (R223). -/
def leafBits (n : Node) : Bits := wordBits n.wb n.bitLen

/-- The loop of DECODE (R223) over the bits still to come: `k` bits consumed, `em` words emitted, `cur` the current node;
answers the words emitted and the node the walk ended at. -/
def decodeLoop (ka kb : Fin Config.curSlots) : Nat → Nat → Nat → Option Nat → State → Res State (Nat × Option Nat)
  | 0, _, em, cur, s => .ok (em, cur) s
  | n + 1, k, em, cur, s =>
    match s.root with
    | none => .raise (.corruptedTree 5) s
    | some root =>
      (onChan ka readBit s).bind fun b s =>
        match b with
        | none => .raise (.unexpectedEof k) s
        | some b =>
          match walkStep s.nodes root (cur.getD root) b with
          | .fail sub => .raise (.corruptedTree sub) s
          | .goto nx => decodeLoop ka kb n (k + 1) em (some nx) s
          | .emit leaf =>
            (onChan kb (writeBits (leafBits (nodeAt s.nodes leaf))) s).bind fun _ s =>
              decodeLoop ka kb n (k + 1) (em + 1) (some root) s

/-- DECODE from cursor `ka` to cursor `kb` (R223): A1 is 0 when the walk ended at the root. -/
def decodeStream (ka kb : Fin Config.curSlots) (s : State) : Res State Unit :=
  (curCheck ka .read s).bind fun _ s =>
    (curCheck kb .write s).bind fun _ s =>
      (decodeLoop ka kb s.a0.toNat 0 0 s.root s).bind fun r s =>
        .ok () { s with a0 := resultReg r.1, a1 := if r.2 = s.root then 0 else 1 }

/-- DECODE `ca`, `cb` (R223). -/
def execDecode (ca cb : BitVec 4) (s : State) : Host.Outcome State Fault Refusal :=
  onCursors (.decode ca cb) ca cb decodeStream s

end Sys2Proof.Machine
end

