-- ==== Sys2Proof/Machine/System.lean ====
section
/-! DEFINITION. The system commands NOP, SRST and CFGW (46_system.md). -/

namespace Sys2Proof.Machine

open Sys2Proof

/-- NOP (R235): no state change but the end of a command. -/
def execNop (s : State) : Host.Outcome State Fault Refusal := finish (.ok () s)

/-- SRST (R236): every item of R43 takes its reset value; an open write cursor is not flushed. -/
def execSrst (s : State) : Host.Outcome State Fault Refusal := finish (.ok () (resetBlock s))

/-- The word size an immediate names (R92, R237). -/
def wordSizeOf? (imm : BitVec 16) : Option WordSize :=
  if imm = 1 then some .one else if imm = 2 then some .two else none

/-- The state of CFGW with a legal operand (R237): every table that depends on `W` is emptied. -/
def setWordSize (w : WordSize) (s : State) : State := freeTree (clearHistogram (clearCodes { s with w := w }))

/-- CFGW (R237). -/
def cfgw (imm : BitVec 16) (s : State) : Res State Unit :=
  match wordSizeOf? imm with
  | none => .raise (.badOperand 0) s
  | some w => .ok () (setWordSize w s)

/-- CFGW `w` (R237). -/
def execCfgw (imm : BitVec 16) (s : State) : Host.Outcome State Fault Refusal := finish (cfgw imm s)

end Sys2Proof.Machine
end

