-- ==== Sys2Proof/Machine/Heap.lean ====
section
/-! DEFINITION. The node pool and the binary min-heap of HuffmanTreeBuilder (R35, R37, R166, R167, R170, R177). The tie
order of the heap decides the tree (R173), so the two algorithms are kept to the letter. -/

namespace Sys2Proof.Machine

open Sys2Proof

/-- `swap HEAP[i], HEAP[j]`. -/
def swapAt (h : List Nat) (i j : Nat) : List Nat := (h.set i (h.getD j 0)).set j (h.getD i 0)

/-- The sift-up loop of `HeapInsert` from position `i` (R166); `F` gives a node's frequency. The first argument bounds
the loop: a position halves at each turn. -/
def siftUp (F : Nat → Nat) : Nat → Nat → List Nat → List Nat
  | 0, _, h => h
  | fuel + 1, i, h =>
    if i = 0 then h
    else if F (h.getD i 0) < F (h.getD ((i - 1) / 2) 0) then siftUp F fuel ((i - 1) / 2) (swapAt h i ((i - 1) / 2))
    else h

/-- `HeapInsert(n)` (R166). -/
def heapInsert (F : Nat → Nat) (n : Nat) (h : List Nat) : List Nat := siftUp F h.length h.length (h ++ [n])

/-- `m` after the comparison with the left child (R167). -/
def smallerLeft (F : Nat → Nat) (h : List Nat) (i : Nat) : Nat :=
  if 2 * i + 1 < h.length ∧ F (h.getD (2 * i + 1) 0) < F (h.getD i 0) then 2 * i + 1 else i

/-- `m` after both comparisons: the right child is compared with the smaller so far (R167). -/
def smallest (F : Nat → Nat) (h : List Nat) (i : Nat) : Nat :=
  if 2 * i + 2 < h.length ∧ F (h.getD (2 * i + 2) 0) < F (h.getD (smallerLeft F h i) 0) then 2 * i + 2
  else smallerLeft F h i

/-- The sift-down loop of `HeapExtract` from position `i` (R167). The first argument bounds the loop: a position grows at
each turn and stays below the heap's length. -/
def siftDown (F : Nat → Nat) : Nat → Nat → List Nat → List Nat
  | 0, _, h => h
  | fuel + 1, i, h =>
    if smallest F h i = i then h else siftDown F fuel (smallest F h i) (swapAt h i (smallest F h i))

/-- `HeapExtract()` on the heap `top :: rest` (R167): the heap left, `top` being the node returned. -/
def heapRest (F : Nat → Nat) (rest : List Nat) : List Nat :=
  match rest.getLast? with
  | none => []
  | some last => siftDown F rest.length 0 (last :: rest.dropLast)

/-- `Alloc(node)` (R177). -/
def alloc (n : Node) (s : State) : Res State Nat :=
  if s.nodes.length = Config.nodeCap s.w then .raise (.outOfMemory 1) s
  else .ok s.nodes.length { s with nodes := s.nodes ++ [n] }

/-- `LeafOf(i)` (R177). -/
def leafOf (s : State) (i : Nat) : Node :=
  if i = s.tailIdx then
    { leaf := true, wb := s.tail.wb, bitLen := s.tail.bits, freq := s.freqAt i, left := none, right := none }
  else
    { leaf := true, wb := idxword s.w i, bitLen := s.wbits, freq := s.freqAt i, left := none, right := none }

/-- `HeapInsert(n)` on the block's heap. -/
def pushHeap (n : Nat) (s : State) : State := { s with heap := heapInsert (freqOf s.nodes) n s.heap }

/-- The left and right child of a merge (R170): the strictly lower frequency is left, the first extracted on a tie. -/
def mergeOrder (F : Nat → Nat) (a b : Nat) : Nat × Nat := if F b < F a then (b, a) else (a, b)

/-- The internal node of a merge (R170). -/
def mergedNode (nodes : List Node) (a b : Nat) : Node :=
  { leaf := false, wb := wordZero, bitLen := 0
    freq := BitVec.ofNat 64 (freqOf nodes a + freqOf nodes b)
    left := some (mergeOrder (freqOf nodes) a b).1, right := some (mergeOrder (freqOf nodes) a b).2 }

/-- `Merge(a, b)` (R170). -/
def merge (a b : Nat) (s : State) : Res State Nat :=
  if 2 ^ 64 ≤ freqOf s.nodes a + freqOf s.nodes b then .raise .freqOverflow (freeTree s)
  else if s.nodes.length = Config.nodeCap s.w then .raise (.outOfMemory 1) (freeTree s)
  else alloc (mergedNode s.nodes a b) s

/-- The loop of TBEXT and the last extraction (R171, R174): while two nodes are in the heap, extract two, merge, insert;
then the one left is ROOT. The first argument bounds the loop: each turn leaves the heap one shorter. -/
def buildTree : Nat → State → Res State Unit
  | 0, s => .ok () s
  | fuel + 1, s =>
    match s.heap with
    | [] => .raise .emptyInput s
    | [r] => .ok () { s with heap := [], root := some r }
    | a :: rest =>
      match heapRest (freqOf s.nodes) rest with
      | [] => .ok () s
      | b :: rest' =>
        (merge a b { s with heap := heapRest (freqOf s.nodes) rest' }).bind fun n s => buildTree fuel (pushHeap n s)

end Sys2Proof.Machine
end

