-- ==== Sys2Proof/Machine/TreeBuilder.lean ====
section
/-! DEFINITION. The HuffmanTreeBuilder commands (42_treebuilder.md). -/

namespace Sys2Proof.Machine

open Sys2Proof

/-- TBINIT (R168). -/
def execTbinit (s : State) : Host.Outcome State Fault Refusal := finish (.ok () (freeTree s))

/-- The leaf of slot `i` into the pool and the heap: `HeapInsert(Alloc(LeafOf(i)))` (R169, R174). -/
def addLeaf (i : Nat) (s : State) : Res State Unit :=
  (alloc (leafOf s i) s).bind fun n s => .ok () (pushHeap n s)

/-- TBINS's body (R169). -/
def tbins (s : State) : Res State Unit :=
  match s.slotOperand with
  | none => .raise (.badOperand 0) s
  | some i =>
    if i = s.tailIdx ∧ s.tail.valid = false then .raise (.badOperand 2) s
    else if s.heap.length = Config.heapCap s.w then .raise (.outOfMemory 2) s
    else addLeaf i s

/-- TBINS (R169). -/
def execTbins (s : State) : Host.Outcome State Fault Refusal := finish (tbins s)

/-- TBEXT's body (R171). -/
def tbext (s : State) : Res State Unit :=
  if s.heap = [] then .raise .emptyInput s else buildTree s.heap.length s

/-- TBEXT (R171). -/
def execTbext (s : State) : Host.Outcome State Fault Refusal := finish (tbext s)

/-- One leaf for each slot listed, in that order (R174). -/
def addLeaves : List Nat → State → Res State Unit
  | [], s => .ok () s
  | i :: is, s =>
    if i = s.tailIdx ∧ s.tail.valid = false then .raise (.badOperand 2) (freeTree s)
    else (addLeaf i s).bind fun _ s => addLeaves is s

/-- The slots with a non-zero bucket, in ascending order: FREQ lists exactly these (R33, R174). -/
def State.usedSlots (s : State) : List Nat := s.freq.map Prod.fst

/-- TBUILD's body (R174). -/
def tbuild (s : State) : Res State Unit :=
  (addLeaves s.usedSlots (freeTree s)).bind fun _ s =>
    if s.heap = [] then .raise .emptyInput s else buildTree s.heap.length s

/-- TBUILD (R174). -/
def execTbuild (s : State) : Host.Outcome State Fault Refusal := finish (tbuild s)

/-- The registers after NRD of a node (R176). -/
def showNode (n : Node) (s : State) : State :=
  { s with a0 := nodeWord n, a1 := n.freq, a2 := (refWord n.left).setWidth 64, a3 := (refWord n.right).setWidth 64 }

/-- NRD's body (R176). -/
def nrd (s : State) : Res State Unit :=
  if s.nodes.length ≤ s.a0.toNat then .raise (.badOperand 0) s
  else .ok () (showNode (nodeAt s.nodes s.a0.toNat) s)

/-- NRD (R176). -/
def execNrd (s : State) : Host.Outcome State Fault Refusal := finish (nrd s)

end Sys2Proof.Machine
end

