-- ==== Sys2Proof/Machine/TreeCodec.lean ====
section
/-! DEFINITION. The TreeCodec commands (44_treecodec.md) over the tree stream of R100 and R101. -/

namespace Sys2Proof.Machine

open Sys2Proof

/-- The stream of a leaf, its state bit included (R100, R101, R207). -/
def leafStream (w : WordSize) (n : Node) : Bits :=
  if n.bitLen = Config.wbits w then [true, false] ++ wordBits n.wb n.bitLen
  else [true, true] ++ uintbits Config.lenf n.bitLen ++ wordBits n.wb n.bitLen

/-- `WriteNode(c, n)` (R207): the number of bits written; the first argument bounds the depth. -/
def writeNode (k : Fin Config.curSlots) : Nat → Nat → State → Res State Nat
  | 0, _, _ => .stuck .treeCyclic
  | fuel + 1, n, s =>
    if (nodeAt s.nodes n).leaf then
      (onChan k (writeBits (leafStream s.w (nodeAt s.nodes n))) s).bind fun _ s' =>
        .ok (leafStream s.w (nodeAt s.nodes n)).length s'
    else
      (onChan k (writeBit false) s).bind fun _ s =>
        match (nodeAt s.nodes n).left, (nodeAt s.nodes n).right with
        | some l, some r =>
          (writeNode k fuel l s).bind fun a s => (writeNode k fuel r s).bind fun b s => .ok (1 + a + b) s
        | _, _ => .raise (.corruptedTree 4) s

/-- TWRITE on cursor `k` (R206). -/
def twrite (k : Fin Config.curSlots) (s : State) : Res State Unit :=
  (curCheck k .write s).bind fun _ s =>
    match s.root with
    | none => .raise .emptyInput s
    | some r => (writeNode k s.nodes.length r s).bind fun n s => .ok () { s with a0 := resultReg n }

/-- TWRITE `c` (R206). -/
def execTwrite (ca : BitVec 4) (s : State) : Host.Outcome State Fault Refusal := onCursor (.twrite ca) ca twrite s

/-- `ReadBits` inside TREAD: a failing refill frees the tree (R208, R209). -/
def readOrFree (k : Fin Config.curSlots) (n : Nat) (s : State) : Res State Bits :=
  match onChan k (readBits n) s with
  | .ok bits s => .ok bits s
  | .raise e s => .raise e (freeTree s)
  | .stuck f => .stuck f

/-- `Need(c, n)` (R209): the field's bits; `D` is the declared size, `cnt` the bits consumed before the field. -/
def need (k : Fin Config.curSlots) (D cnt n : Nat) (s : State) : Res State Bits :=
  if D < cnt + n then .raise (.corruptedTree 1) (freeTree s)
  else
    (readOrFree k n s).bind fun bits s =>
      if bits.length < n then .raise (.unexpectedEof cnt) (freeTree s) else .ok bits s

/-- The node `ReadNode` allocates first (R209). -/
def freshNode : Node :=
  { leaf := false, wb := wordZero, bitLen := 0, freq := 0, left := none, right := none }

/-- The node made a leaf with the word bits `bits` (R209). -/
def asLeaf (bits : Bits) (n : Node) : Node := { n with leaf := true, bitLen := bits.length, wb := wordOfBits bits }

/-- `NODE[n]` changed by `f`. -/
def updateNode (n : Nat) (f : Node → Node) (s : State) : State := { s with nodes := s.nodes.modify n f }

/-- The flag and, for a word that differs, the length field of a leaf (R209): the word's length and the bits consumed. -/
def readLeafLen (k : Fin Config.curSlots) (D cnt : Nat) (s : State) : Res State (Nat × Nat) :=
  (need k D cnt 1 s).bind fun fl s =>
    if fl = [false] then .ok (s.wbits, cnt + 1) s
    else
      (need k D (cnt + 1) Config.lenf s).bind fun len s =>
        if s.wbits ≤ bitsuint len then .raise (.corruptedTree 2) (freeTree s)
        else .ok (bitsuint len, cnt + 1 + Config.lenf) s

/-- The rest of a leaf after its state bit (R209): the word's bits, and the bits consumed. -/
def readLeaf (k : Fin Config.curSlots) (D cnt : Nat) (s : State) : Res State (Bits × Nat) :=
  (readLeafLen k D cnt s).bind fun r s =>
    (need k D r.2 r.1 s).bind fun bits s => .ok (bits, r.2 + r.1) s

/-- `ReadNode(c)` (R209): the node's number and the bits consumed so far. The first argument bounds the depth; it starts
above `NODE_CAP`, and each call takes a node, so the pool is full before it runs out (R310). -/
def readNode (k : Fin Config.curSlots) (D : Nat) : Nat → Nat → State → Res State (Nat × Nat)
  | 0, _, s => .raise (.outOfMemory 1) (freeTree s)
  | fuel + 1, cnt, s =>
    if s.nodes.length = Config.nodeCap s.w then .raise (.outOfMemory 1) (freeTree s)
    else
      (alloc freshNode s).bind fun n s =>
        (need k D cnt 1 s).bind fun st s =>
          if st = [true] then
            (readLeaf k D (cnt + 1) s).bind fun r s => .ok (n, r.2) (updateNode n (asLeaf r.1) s)
          else
            (readNode k D fuel (cnt + 1) s).bind fun l s =>
              (readNode k D fuel l.2 (updateNode n (fun x => { x with left := some l.1 }) s)).bind fun r s =>
                .ok (n, r.2) (updateNode n (fun x => { x with right := some r.1 }) s)

/-- TREAD on cursor `k` (R208). -/
def tread (k : Fin Config.curSlots) (s : State) : Res State Unit :=
  (curCheck k .read s).bind fun _ s =>
    (readNode k s.a0.toNat (Config.nodeCap s.w + 1) 0 (freeTree s)).bind fun r s =>
      .ok () { s with root := some r.1, a0 := resultReg r.2 }

/-- TREAD `c` (R208). -/
def execTread (ca : BitVec 4) (s : State) : Host.Outcome State Fault Refusal := onCursor (.tread ca) ca tread s

end Sys2Proof.Machine
end

