-- ==== Sys2Proof/Machine/Dispatch.lean ====
section
/-! DEFINITION. One arm per command (R93). -/

namespace Sys2Proof.Machine

open Sys2Proof

def exec (i : Instr) (s : State) : Host.Outcome State Fault Refusal :=
  match i with
  | .nop => Sys2Proof.Machine.execNop s
  | .srst => Sys2Proof.Machine.execSrst s
  | .cfgw imm => Sys2Proof.Machine.execCfgw imm s
  | .copen ca m => Sys2Proof.Machine.execCopen ca m s
  | .cclose ca => Sys2Proof.Machine.execCclose ca s
  | .crdbits ca => Sys2Proof.Machine.execCrdbits ca s
  | .cwrbits ca => Sys2Proof.Machine.execCwrbits ca s
  | .crdbytes ca => Sys2Proof.Machine.execCrdbytes ca s
  | .cwrbytes ca => Sys2Proof.Machine.execCwrbytes ca s
  | .cflush ca => Sys2Proof.Machine.execCflush ca s
  | .cseekbits ca => Sys2Proof.Machine.execCseekbits ca s
  | .ctell ca => Sys2Proof.Machine.execCtell ca s
  | .chseek ca => Sys2Proof.Machine.execChseek ca s
  | .hclr => Sys2Proof.Machine.execHclr s
  | .hscan ca => Sys2Proof.Machine.execHscan ca s
  | .frd => Sys2Proof.Machine.execFrd s
  | .fwr => Sys2Proof.Machine.execFwr s
  | .tbinit => Sys2Proof.Machine.execTbinit s
  | .tbins => Sys2Proof.Machine.execTbins s
  | .tbext => Sys2Proof.Machine.execTbext s
  | .tbuild => Sys2Proof.Machine.execTbuild s
  | .nrd => Sys2Proof.Machine.execNrd s
  | .ctbuild => Sys2Proof.Machine.execCtbuild s
  | .ctrd => Sys2Proof.Machine.execCtrd s
  | .twrite ca => Sys2Proof.Machine.execTwrite ca s
  | .tread ca => Sys2Proof.Machine.execTread ca s
  | .encode ca cb => Sys2Proof.Machine.execEncode ca cb s
  | .decode ca cb => Sys2Proof.Machine.execDecode ca cb s

end Sys2Proof.Machine
end

