-- ==== Sys2Proof/Machine/HostAccess.lean ====
section
/-! DEFINITION. What the host does between commands: the register map (R39, R40 and the rule of each register), its
accesses to the backing store (R79), and the hardware reset (R290). -/

namespace Sys2Proof.Machine

open Sys2Proof

/-- Offset of CMD (R22). -/
def cmdOffset : Nat := 0x000

/-- The 2-bit value of `CFG.W` (R26). -/
def wField : WordSize → BitVec 2
  | .one => 1
  | .two => 2

/-- Register CFG (R26). -/
def cfgReg (s : State) : Reg := (0 : BitVec 62) ++ wField s.w

/-- Register TREE (R27): `NNODES` above `ROOT`. -/
def treeReg (s : State) : Reg := BitVec.ofNat 32 s.nodes.length ++ refWord s.root

/-- Register HEAPN (R28). -/
def heapnReg (s : State) : Reg := (0 : BitVec 32) ++ BitVec.ofNat 32 s.heap.length

/-- Register TAIL (R29). -/
def tailReg (t : Tail) : Reg :=
  (0 : BitVec 39) ++ BitVec.ofBool t.valid ++ (0 : BitVec 3) ++ BitVec.ofNat 5 t.bits ++ t.wb.b1 ++ t.wb.b0

/-- The bit `MODE` of CSTAT (R30, R31). -/
def modeBit : Mode → BitVec 1
  | .read => 0
  | .write => 1

/-- Register CSTAT of a cursor (R31). -/
def cstatReg (c : Cursor) : Reg :=
  (0 : BitVec 32) ++ c.fid ++ (0 : BitVec 9) ++ BitVec.ofNat 3 c.bitP.val ++ (0 : BitVec 2) ++ modeBit c.mode ++
    BitVec.ofBool c.isOpen

/-- The register of a cursor at an offset from its base (R31); unmapped offsets read 0 (R40). -/
def cursorReg (c : Cursor) (d : Nat) : Reg :=
  match d with
  | 0x00 => cstatReg c
  | 0x08 => BitVec.ofNat 64 c.byteP
  | 0x10 => BitVec.ofNat 64 c.valid
  | 0x18 => BitVec.ofNat 64 c.bufsz
  | 0x20 => BitVec.ofNat 64 c.fpos
  | _ => 0

/-- The registers above 0x100 (R39): the cursors' at `0x100 + 0x40*c`, DB at `0x800 + i`. -/
def readHigh (s : State) (off : Nat) : Reg :=
  if 0x800 ≤ off then
    if off < 0x800 + s.env.par.dbBytes then (s.db.getD (off - 0x800) 0).setWidth 64 else 0
  else if h : (0x100 ≤ off ∧ (off - 0x100) / 0x40 < s.env.par.ncur) ∧ (off - 0x100) / 0x40 < Config.curSlots then
    cursorReg (s.cur ⟨(off - 0x100) / 0x40, h.2⟩) ((off - 0x100) % 0x40)
  else 0

/-- What a host read of the register at a byte offset returns (R39, R40): CMD and unmapped offsets read 0. -/
def readReg (s : State) (off : Nat) : Reg :=
  match off with
  | 0x008 => statusWord s.err s.sticky s.firstErr
  | 0x010 => s.einfo
  | 0x018 => cfgReg s
  | 0x020 => s.a0
  | 0x028 => s.a1
  | 0x030 => s.a2
  | 0x038 => s.a3
  | 0x040 => treeReg s
  | 0x048 => heapnReg s
  | 0x050 => tailReg s.tail
  | off => readHigh s off

/-- A host write to DB, one byte; a write to any other offset is ignored (R39, R40). -/
def writeHigh (off : Nat) (v : Reg) (s : State) : State :=
  if 0x800 ≤ off ∧ off < 0x800 + s.env.par.dbBytes then { s with db := s.db.set (off - 0x800) (v.setWidth 8) } else s

/-- A host write to a register other than CMD (R21, R32, R39, R40). -/
def writeReg (off : Nat) (v : Reg) (s : State) : State :=
  match off with
  | 0x020 => { s with a0 := v }
  | 0x028 => { s with a1 := v }
  | 0x030 => { s with a2 := v }
  | 0x038 => { s with a3 := v }
  | off => writeHigh off v s

/-- A change of file `f` to `bytes` would break the duty of R79 towards the cursor `c`: the file is deleted under it, or
shortened below its `FPOS`. -/
def breaksDuty (c : Cursor) (f : BitVec 16) (old : Nat) (bytes : Option (List Byte)) : Bool :=
  c.isOpen && c.fid == f &&
    match bytes with
    | none => true
    | some b => decide (b.length < old ∧ b.length < c.fpos)

/-- Some cursor forbids the change. -/
def someDuty (s : State) (f : BitVec 16) (bytes : Option (List Byte)) : Bool :=
  (List.finRange Config.curSlots).any fun k => breaksDuty (s.cur k) f ((s.env.file f).getD []).length bytes

/-- The environment after the host has set a file. -/
def hostFileEnv (e : Env) (f : BitVec 16) : Option (List Byte) → Env
  | none => e.dropFile f
  | some b => e.setFile f b

/-- The host creates, replaces, extends, shortens or deletes a file between two commands (R60, R79, U24). -/
def hostSetFile (f : BitVec 16) (bytes : Option (List Byte)) (s : State) : Host.Outcome State Fault Refusal :=
  if s.env.par.nfid ≤ f.toNat then .fault .hostNoSuchFile
  else if someDuty s f bytes then .fault .hostDuty
  else if s.env.par.maxFileBytes < (bytes.getD []).length then .fault .hostFileTooLong
  else .next { s with env := hostFileEnv s.env f bytes }

/-- A host read of a register (R40): no side effect on the block. -/
def hostRead (off : Nat) (s : State) : State := { s with seen := .reg (readReg s off) }

/-- A host read of a file (R79): no side effect on the block or the store. -/
def hostReadFile (f : BitVec 16) (s : State) : Host.Outcome State Fault Refusal :=
  if s.env.par.nfid ≤ f.toNat then .fault .hostNoSuchFile else .next { s with seen := .file (s.env.file f) }

/-- The environment's answers to the next questions of `IO_FAIL` (R64). -/
def setAnswers (fails : List Bool) (s : State) : State := { s with env := { s.env with ioFail := fails } }

/-- The hardware reset input: the same state as SRST (R290). -/
def hardReset (s : State) : State := resetBlock s

/-- A value written to CMD that is no command (R94, R276): EINFO is the value written. -/
def illegalCommand (v : Reg) (s : State) : State := takeError (.illegalCommand v) s

end Sys2Proof.Machine
end

