-- ==== Sys2Proof/Machine/Step.lean ====
section
/-! DEFINITION. One step of the machine: the host's next act (R20, R24; log entry 1). A command is one step, and so is
each host access. -/

namespace Sys2Proof.Machine

open Sys2Proof

/-- A value written to CMD: the command it names, or `IllegalCommand` (R22, R94). -/
def runCmd (v : Reg) (s : State) : Host.Outcome State Fault Refusal :=
  match decodeCmd s.env.par.ncur v with
  | .ok i => exec i s
  | .error _ => .next (illegalCommand v s)

/-- One act of the host, already taken from the inbox. -/
def hostStep (e : HostEvent) (s : State) : Host.Outcome State Fault Refusal :=
  match e with
  | .write off v => if off = cmdOffset then runCmd v s else .next (writeReg off v s)
  | .read off => .next (hostRead off s)
  | .setFile f bytes => hostSetFile f bytes s
  | .readFile f => hostReadFile f s
  | .answerIO fails => .next (setAnswers fails s)
  | .reset => .next (hardReset s)

/-- One step. With nothing in the inbox the block is idle and nothing changes (R275, R290). -/
def step (s : State) : Host.Outcome State Fault Refusal :=
  match s.inbox with
  | [] => .next s
  | e :: rest => hostStep e { s with inbox := rest }

/-- The state whose very next step is the host's write to CMD of a table row's bits `w` (log entry 1). -/
def State.withFetchWord (s : State) (nbits w : Nat) : State :=
  { s with inbox := .write cmdOffset (BitVec.ofNat 64 (w % 2 ^ nbits)) :: s.inbox }

end Sys2Proof.Machine
end

