-- ==== Sys2Proof/Safety.lean ====
section
/-! DEFINITION. What counts as a safe state, and the pure notions the claims are stated with: the bits a read cursor will
deliver, the file as a write cursor's flush would leave it, the words of a bit stream, the codes and the stream of a
tree. -/

namespace Sys2Proof.Machine

open Sys2Proof

/-! ## The invariant -/

/-- What holds of every open cursor (R30): the widths of its fields, its buffer's size, its positions, the zero bits of a
partial byte (R123), and that its file is present (R79). -/
structure CursorInv (e : Env) (c : Cursor) : Prop where
  sizePos : 1 ≤ c.bufsz
  sizeMax : c.bufsz ≤ e.par.bufMax
  bufLen : c.buf.length = c.bufsz
  fposMax : c.fpos < 2 ^ 61
  fposWrite : c.mode = .write → c.fpos ≤ e.par.maxFileBytes
  byteLe : c.byteP ≤ c.bufsz
  validLe : c.valid ≤ c.bufsz
  readPos : c.mode = .read → c.byteP ≤ c.valid ∧ c.valid ≤ c.fpos
  writePos : c.mode = .write → c.byteP = c.bufsz → c.bitP = 0
  padZero : c.mode = .write → c.bitP.val ≠ 0 → ∀ j, c.bitP.val ≤ j → j < 8 → byteBit (c.buf.getD c.byteP 0) j = false
  filePresent : (e.file c.fid).isSome = true

/-- What holds of every allocated node (R35, R36): a leaf's word fits and its unused bits are 0; an internal node has two
children, both allocated. -/
structure NodeInv (w : WordSize) (len : Nat) (n : Node) : Prop where
  leafOk : n.leaf = true →
    n.bitLen ≤ Config.wbits w ∧ wordClear n.wb n.bitLen = true ∧ n.left = none ∧ n.right = none
  innerOk : n.leaf = false →
    n.wb = wordZero ∧ n.bitLen = 0 ∧ ∃ l r, n.left = some l ∧ n.right = some r ∧ l < len ∧ r < len

/-- Node `n` is the root of a finite tree of at most `fuel` levels in which every internal node has two children
(R36). -/
def treeOk (nodes : List Node) : Nat → Nat → Bool
  | 0, _ => false
  | fuel + 1, n =>
    decide (n < nodes.length) &&
      ((nodeAt nodes n).leaf ||
        match (nodeAt nodes n).left, (nodeAt nodes n).right with
        | some l, some r => treeOk nodes fuel l && treeOk nodes fuel r
        | _, _ => false)

/-- The tail word record (R34). -/
def tailOk (w : WordSize) (t : Tail) : Bool :=
  if t.valid then decide (t.bits < Config.wbits w) && wordClear t.wb t.bits else decide (t = Tail.none)

/-- The canonical form of FREQ (R33). -/
def freqOk (w : WordSize) (t : List (Nat × BitVec 64)) : Bool :=
  tableRises 0 t && t.all fun p => decide (p.1 < Config.nsym w ∧ p.2 ≠ 0)

/-- The canonical form of CODE (R38): a valid code has length at least 1. -/
def codeOk (w : WordSize) (t : List (Nat × Bits)) : Bool :=
  tableRises 0 t && t.all fun p => decide (p.1 < Config.nsym w ∧ p.2 ≠ [])

/-- The invariant of the block and its store. -/
structure Inv (s : State) : Prop where
  params : s.env.par.ok = true
  memory : Memory.wf s.env.par s.env.files = true
  cursors : ∀ k, (s.cur k).isOpen = true → CursorInv s.env (s.cur k)
  db : s.db.length = s.env.par.dbBytes
  freq : freqOk s.w s.freq = true
  tail : tailOk s.w s.tail = true
  bucket : s.freqAt s.tailIdx ≠ 0 → s.tail.valid = true
  code : codeOk s.w s.code = true
  poolCap : s.nodes.length ≤ Config.nodeCap s.w
  pool : ∀ n ∈ s.nodes, NodeInv s.w s.nodes.length n
  heapCap : s.heap.length ≤ Config.heapCap s.w
  heap : ∀ n ∈ s.heap, treeOk s.nodes s.nodes.length n = true
  root : ∀ r, s.root = some r → treeOk s.nodes s.nodes.length r = true
  status : (s.err ≠ 0 → s.sticky = true) ∧ (s.sticky = true ↔ s.firstErr ≠ 0)

/-- The heap property (R37): no entry is less frequent than its parent. -/
def heapOrdered (F : Nat → Nat) (h : List Nat) : Prop :=
  ∀ i, 0 < i → i < h.length → F (h.getD ((i - 1) / 2) 0) ≤ F (h.getD i 0)

/-! ## What streams deliver and take -/

/-- No store access to come is answered "fail" (R64, D38). -/
def noFail (e : Env) : Prop := ∀ b ∈ e.ioFail, b = false

/-- The content of a cursor's file; an absent file counts as empty. -/
def fileBytes (ch : Chan) : List Byte := (ch.env.file ch.cur.fid).getD []

/-- The bits a read cursor will deliver: those left in its buffer, then those of its file from `FPOS` on (R125, R72). -/
def pending (ch : Chan) : Bits :=
  (bytesBits ((ch.cur.buf.take ch.cur.valid).drop ch.cur.byteP ++ (fileBytes ch).drop ch.cur.fpos)).drop
    ch.cur.bitP.val

/-- The file as a flush of a write cursor would leave it (R71, R124). -/
def image (ch : Chan) : List Byte :=
  if pendingBytes ch.cur = 0 then fileBytes ch
  else overlay ch.env.freeIx (fileBytes ch) ch.cur.fpos (ch.cur.buf.take (pendingBytes ch.cur))

/-- The byte whose buffer bits are the first eight of `s`, 0 where `s` has none (R65). -/
def byteOfBits (s : Bits) : Byte := (setBits [0] 0 (s.take 8)).getD 0 0

/-- A bit sequence as bytes, the unused bits of a partial last byte 0 (R65, R123). -/
def packBits (s : Bits) : List Byte := (List.range ((s.length + 7) / 8)).map fun i => byteOfBits (s.drop (8 * i))

/-- A file after the bits `s` are written at bit address `p`: the bits before `p`, then `s`, the last byte filled up with
zeros, then the bytes after it as they were (R63, R65, R123). -/
def written (B : List Byte) (p : Nat) (s : Bits) : List Byte :=
  if s = [] then B else packBits ((bytesBits B).take p ++ s) ++ B.drop ((p + s.length + 7) / 8)

/-- The words of a bit stream, tail word last (R150): the bits cut into pieces of `WBITS`. -/
def words (w : WordSize) : Nat → Bits → List (WordBytes × Nat)
  | 0, _ => []
  | fuel + 1, bits =>
    if bits = [] then []
    else
      (wordOfBits (bits.take (Config.wbits w)), (bits.take (Config.wbits w)).length) ::
        words w fuel (bits.drop (Config.wbits w))

/-- The words of a whole bit stream (R150). -/
def wordsOf (w : WordSize) (bits : Bits) : List (WordBytes × Nat) := words w bits.length bits

/-- The full words of a stream. -/
def fullWords (w : WordSize) (bits : Bits) : List (WordBytes × Nat) :=
  (wordsOf w bits).filter fun p => p.2 = Config.wbits w

/-- A lawful block with a cursor that is ready to read: open for read, its store accesses not to fail. -/
structure Readable (s : State) (k : Fin Config.curSlots) : Prop where
  inv : Inv s
  isOpen : (s.cur k).isOpen = true
  mode : (s.cur k).mode = .read
  noFail : noFail s.env

/-- A lawful block with a cursor that is ready to write `n` bits: open for write, at most at the end of its file (R63),
its store accesses not to fail, and the file not to pass `MAX_FILE_BYTES`. -/
structure Writable (s : State) (k : Fin Config.curSlots) (n : Nat) : Prop where
  inv : Inv s
  isOpen : (s.cur k).isOpen = true
  mode : (s.cur k).mode = .write
  noHole : (s.cur k).fpos ≤ (fileBytes (s.chan k)).length
  noFail : noFail s.env
  fits : absBitPos (s.cur k) + n ≤ 8 * s.env.par.maxFileBytes

/-! ## What a command leaves alone -/

/-- One byte of the backing store (R61): byte `off` of file `f`. -/
def Env.byteAt (e : Env) (f : BitVec 16) (off : Nat) : Option Byte := (e.file f).bind fun b => b[off]?

/-- The cursors other than `k` are untouched, and `k` keeps its binding. -/
structure OnlyCursor (s t : State) (k : Fin Config.curSlots) : Prop where
  others : ∀ j, j ≠ k → t.cur j = s.cur j
  isOpen : (t.cur k).isOpen = (s.cur k).isOpen
  mode : (t.cur k).mode = (s.cur k).mode
  fid : (t.cur k).fid = (s.cur k).fid
  bufsz : (t.cur k).bufsz = (s.cur k).bufsz

/-- The cursors other than `k` and `m` are untouched, and these two keep their bindings. -/
structure OnlyCursors (s t : State) (k m : Fin Config.curSlots) : Prop where
  others : ∀ j, j ≠ k → j ≠ m → t.cur j = s.cur j
  isOpen : ∀ j, (t.cur j).isOpen = (s.cur j).isOpen
  mode : ∀ j, (t.cur j).mode = (s.cur j).mode
  fid : ∀ j, (t.cur j).fid = (s.cur j).fid
  bufsz : ∀ j, (t.cur j).bufsz = (s.cur j).bufsz

/-- What reading `n` bits through cursor `k` does: they are no longer pending, the position has moved by those that were
there, and no byte of the store is touched (R62, R126). -/
structure Delivered (s t : State) (k : Fin Config.curSlots) (n : Nat) : Prop where
  pending : pending (t.chan k) = (pending (s.chan k)).drop n
  pos : absBitPos (t.cur k) = absBitPos (s.cur k) + min n (Machine.pending (s.chan k)).length
  bytes : ∀ f off, t.env.byteAt f off = s.env.byteAt f off
  files : t.env.files = s.env.files

/-- How many bytes the automatic flushes store when `n` bits are written to a cursor: a full buffer is stored when the
next bit arrives (R122). -/
def flushedBytes (c : Cursor) (n : Nat) : Nat := c.bufsz * ((8 * c.byteP + c.bitP.val + n - 1) / (8 * c.bufsz))

/-- What writing `bits` through cursor `k` stores: the bytes from `FPOS` on that the automatic flushes fill, with the bits
of the file being made; every other byte of every file is as it was, and the position has moved by the bits (R63, R71,
R122, R126). -/
structure Stored (s t : State) (k : Fin Config.curSlots) (bits : Bits) : Prop where
  image : image (t.chan k) = written (image (s.chan k)) (absBitPos (s.cur k)) bits
  pos : absBitPos (t.cur k) = absBitPos (s.cur k) + bits.length
  fpos : (t.cur k).fpos = (s.cur k).fpos + flushedBytes (s.cur k) bits.length
  inside : ∀ off, off < (t.cur k).fpos → t.env.byteAt (s.cur k).fid off = (Machine.image (t.chan k))[off]?
  outside : ∀ f off, ¬ (f = (s.cur k).fid ∧ (s.cur k).fpos ≤ off ∧ off < (t.cur k).fpos) →
    t.env.byteAt f off = s.env.byteAt f off

/-! ## Store accesses that are refused -/

/-- The next `j` store accesses are granted (R64). -/
def granted (e : Env) (j : Nat) : Prop := ∀ b ∈ e.ioFail.take j, b = false

/-- How many bits a read cursor delivers before its fill number `j`, counted from 0 (R121, R125). -/
def bitsBeforeFill (c : Cursor) (j : Nat) : Nat := 8 * (c.fpos + j * c.bufsz) - absBitPos c

/-- How many bits a write cursor takes before its automatic flush number `j`, counted from 0 (R122). -/
def bitsBeforeFlush (c : Cursor) (j : Nat) : Nat := 8 * (c.fpos + (j + 1) * c.bufsz) - absBitPos c

/-- A lawful block with an open read cursor whose fills are granted up to fill number `j`, which is refused, and whose
stream goes on beyond what those fills deliver. -/
structure FillRefused (s : State) (k : Fin Config.curSlots) (j : Nat) : Prop where
  inv : Inv s
  isOpen : (s.cur k).isOpen = true
  mode : (s.cur k).mode = .read
  before : granted s.env j
  refused : s.env.ioFail.getD j false = true
  goesOn : bitsBeforeFill (s.cur k) j < (pending (s.chan k)).length

/-- A lawful block with an open write cursor, at most at the end of its file (R63), whose automatic flushes are granted and
fit up to flush number `j`, which is refused or does not fit. -/
structure FlushRefused (s : State) (k : Fin Config.curSlots) (j : Nat) : Prop where
  inv : Inv s
  isOpen : (s.cur k).isOpen = true
  mode : (s.cur k).mode = .write
  noHole : (s.cur k).fpos ≤ (fileBytes (s.chan k)).length
  before : granted s.env j
  fits : (s.cur k).fpos + j * (s.cur k).bufsz ≤ s.env.par.maxFileBytes
  refused : s.env.ioFail.getD j false = true ∨ s.env.par.maxFileBytes < (s.cur k).fpos + (j + 1) * (s.cur k).bufsz

/-- What a refused fill number `j` leaves (R126, R271): the bits of the earlier fills are taken, the buffer is used up, and
no file has changed. -/
structure FillStopped (s t : State) (k : Fin Config.curSlots) (j : Nat) : Prop where
  only : OnlyCursor s t k
  pending : pending (t.chan k) = (Machine.pending (s.chan k)).drop (bitsBeforeFill (s.cur k) j)
  pos : absBitPos (t.cur k) = absBitPos (s.cur k) + bitsBeforeFill (s.cur k) j
  fpos : (t.cur k).fpos = (s.cur k).fpos + j * (s.cur k).bufsz
  usedUp : (t.cur k).valid ≤ (t.cur k).byteP
  env : t.env = { s.env with ioFail := s.env.ioFail.drop (j + 1) }

/-- What a refused automatic flush number `j` leaves of the bits that were to be written (R126, R271): those before it are
in the file or in the buffer, which is still full. -/
structure FlushStopped (s t : State) (k : Fin Config.curSlots) (j : Nat) (bits : Bits) : Prop where
  only : OnlyCursor s t k
  stored : Stored s t k (bits.take (bitsBeforeFlush (s.cur k) j))
  full : (t.cur k).byteP = (t.cur k).bufsz ∧ (t.cur k).bitP = 0
  answers : t.env.ioFail = s.env.ioFail.drop (j + 1)

/-! ## Trees -/

/-- A prefix tree as the tree stream describes it (R100, R101): full, its leaves holding the bits of a word. -/
inductive PrefixTree where
  | leaf (word : Bits)
  | inner (left right : PrefixTree)
  deriving DecidableEq, Repr

/-- Every leaf holds a word of at most `WBITS` bits (R35). -/
def PrefixTree.ok (w : WordSize) : PrefixTree → Bool
  | .leaf word => decide (word.length ≤ Config.wbits w)
  | .inner l r => l.ok w && r.ok w

/-- The nodes of a tree in pre-order, each as the fields it has in the tree stream (R100, R101, R209): a state bit; for a
leaf the flag, the length where the word is not a full one, and the word. -/
def PrefixTree.nodeFields (w : WordSize) : PrefixTree → List (List Bits)
  | .leaf word =>
    if word.length = Config.wbits w then [[[true], [false], word]]
    else [[[true], [true], uintbits Config.lenf word.length, word]]
  | .inner l r => [[false]] :: (l.nodeFields w ++ r.nodeFields w)

/-- What a TREAD that ends with an error after the cursor checks leaves (R208, R271): no tree and no heap, and the cursor
after the `n` bits it took. -/
structure TreadFailed (s t : State) (k : Fin Config.curSlots) (code : BitVec 8) (info : Reg) (n : Nat) : Prop where
  state : t =
    { s with
      nodes := [], root := none, heap := [], cursors := t.cursors, env := t.env, err := code, einfo := info
      sticky := true, firstErr := if s.sticky then s.firstErr else code }
  only : OnlyCursor s t k
  taken : Delivered s t k n

/-- The leaves under node `n` in pre-order, each with the path that leads to it (R191). -/
def leafPaths (nodes : List Node) : Nat → Nat → Bits → List (Node × Bits)
  | 0, _, _ => []
  | fuel + 1, n, path =>
    if (nodeAt nodes n).leaf then [(nodeAt nodes n, path)]
    else
      match (nodeAt nodes n).left, (nodeAt nodes n).right with
      | some l, some r => leafPaths nodes fuel l (path ++ [false]) ++ leafPaths nodes fuel r (path ++ [true])
      | _, _ => []

/-- The codes CTBUILD is to give the leaves of the tree at `r`: the path, or `0` for a leaf root (R191). -/
def treeCodes (s : State) (r : Nat) : List (Nat × Bits) :=
  if (nodeAt s.nodes r).leaf then [(slotOf s.w (nodeAt s.nodes r), [false])]
  else (leafPaths s.nodes s.nodes.length r []).map fun p => (slotOf s.w p.1, p.2)

/-- The serialised form of the tree at node `n` (R100, R101). -/
def treeStream (w : WordSize) (nodes : List Node) : Nat → Nat → Bits
  | 0, _ => []
  | fuel + 1, n =>
    if (nodeAt nodes n).leaf then leafStream w (nodeAt nodes n)
    else
      match (nodeAt nodes n).left, (nodeAt nodes n).right with
      | some l, some r => [false] ++ treeStream w nodes fuel l ++ treeStream w nodes fuel r
      | _, _ => []

/-- The number of nodes of the tree at node `n`. -/
def treeSize (nodes : List Node) : Nat → Nat → Nat
  | 0, _ => 0
  | fuel + 1, n =>
    if (nodeAt nodes n).leaf then 1
    else
      match (nodeAt nodes n).left, (nodeAt nodes n).right with
      | some l, some r => 1 + treeSize nodes fuel l + treeSize nodes fuel r
      | _, _ => 0

/-- The leaves a bit sequence walks to from node `cur` of the tree at `root`, and the node it ends at; `none` where the
walk fails (R223, R224). -/
def walkBits (nodes : List Node) (root : Nat) : Nat → Bits → Option (List Nat × Nat)
  | cur, [] => some ([], cur)
  | cur, b :: bs =>
    match walkStep nodes root cur b with
    | .fail _ => none
    | .goto nx => walkBits nodes root nx bs
    | .emit leaf => (walkBits nodes root root bs).map fun p => (leaf :: p.1, p.2)

/-- The leaves of the tree at node `n`, by number, in pre-order. -/
def leavesOf (nodes : List Node) : Nat → Nat → List Nat
  | 0, _ => []
  | fuel + 1, n =>
    if (nodeAt nodes n).leaf then [n]
    else
      match (nodeAt nodes n).left, (nodeAt nodes n).right with
      | some l, some r => leavesOf nodes fuel l ++ leavesOf nodes fuel r
      | _, _ => []

/-- The nodes of the tree at node `n`, by number, in pre-order. -/
def nodesUnder (nodes : List Node) : Nat → Nat → List Nat
  | 0, _ => []
  | fuel + 1, n =>
    if (nodeAt nodes n).leaf then [n]
    else
      match (nodeAt nodes n).left, (nodeAt nodes n).right with
      | some l, some r => n :: (nodesUnder nodes fuel l ++ nodesUnder nodes fuel r)
      | _, _ => [n]

/-- What a copy of the tree at `r` keeps (R210): the leaves in pre-order, each with its word and its path. -/
def treeShape (nodes : List Node) (r : Nat) : List (WordBytes × Nat × Bits) :=
  (leafPaths nodes nodes.length r []).map fun p => (p.1.wb, p.1.bitLen, p.2)

/-- No node is reached by two paths, in the tree at ROOT or in the trees in the heap (R36). -/
structure Owned (s : State) : Prop where
  root : ∀ r, s.root = some r → (nodesUnder s.nodes s.nodes.length r).Nodup
  heap : (s.heap.flatMap (nodesUnder s.nodes s.nodes.length)).Nodup

/-- No code is longer than `TAILIDX` bits (R38). -/
def codesShort (s : State) : Prop := ∀ p ∈ s.code, p.2.length ≤ Config.tailIdx s.w

/-! ## Errors and operands of a command -/

/-- The cursors a command names. -/
def cursorsOf : Instr → List (BitVec 4)
  | .copen ca _ => [ca]
  | .cclose ca => [ca]
  | .crdbits ca => [ca]
  | .cwrbits ca => [ca]
  | .crdbytes ca => [ca]
  | .cwrbytes ca => [ca]
  | .cflush ca => [ca]
  | .cseekbits ca => [ca]
  | .ctell ca => [ca]
  | .chseek ca => [ca]
  | .hscan ca => [ca]
  | .twrite ca => [ca]
  | .tread ca => [ca]
  | .encode ca cb => [ca, cb]
  | .decode ca cb => [ca, cb]
  | .nop => []
  | .srst => []
  | .cfgw _ => []
  | .hclr => []
  | .frd => []
  | .fwr => []
  | .tbinit => []
  | .tbins => []
  | .tbext => []
  | .tbuild => []
  | .nrd => []
  | .ctbuild => []
  | .ctrd => []

/-- The errors each command can end with (R285): the code, and the information value where R285 fixes one. -/
def errorsOf : Instr → List (BitVec 8 × Option Reg)
  | .nop => []
  | .srst => []
  | .hclr => []
  | .tbinit => []
  | .cfgw _ => [(17, some 0)]
  | .copen _ _ => [(18, some 2), (17, some 0), (1, some 0)]
  | .cclose _ => [(18, some 1), (1, some 0)]
  | .crdbits _ => [(18, some 1), (18, some 3), (17, some 0), (1, some 0)]
  | .crdbytes _ => [(18, some 1), (18, some 3), (17, some 0), (1, some 0)]
  | .cwrbits _ => [(18, some 1), (18, some 3), (17, some 0), (1, some 0)]
  | .cwrbytes _ => [(18, some 1), (18, some 3), (17, some 0), (1, some 0)]
  | .cflush _ => [(18, some 1), (18, some 3), (1, some 0)]
  | .cseekbits _ => [(18, some 1), (18, some 3), (1, some 0)]
  | .ctell _ => [(18, some 1)]
  | .chseek _ => [(18, some 1), (18, some 3), (18, some 4), (6, none)]
  | .hscan _ => [(18, some 1), (18, some 3), (1, some 0)]
  | .frd => [(17, some 0)]
  | .fwr => [(17, some 0), (17, some 1)]
  | .tbins => [(17, some 0), (17, some 2), (2, some 2), (2, some 1)]
  | .tbext => [(20, some 0), (21, some 0), (2, some 1)]
  | .tbuild => [(17, some 2), (20, some 0), (21, some 0)]
  | .nrd => [(17, some 0)]
  | .ctbuild => [(20, some 0), (3, some 6), (3, some 7)]
  | .ctrd => [(17, some 0)]
  | .twrite _ => [(18, some 1), (18, some 3), (20, some 0), (3, some 4), (1, some 0)]
  | .tread _ => [(18, some 1), (18, some 3), (2, some 1), (3, some 1), (1, some 0), (4, none), (3, some 2)]
  | .encode _ _ => [(18, some 1), (18, some 3), (1, some 0), (19, none)]
  | .decode _ _ => [(18, some 1), (18, some 3), (3, some 5), (1, some 0), (4, none), (3, some 3), (3, some 4)]

/-- A pair of error code and information value is one of those listed. -/
def listsError (l : List (BitVec 8 × Option Reg)) (code : BitVec 8) (info : Reg) : Prop :=
  ∃ p ∈ l, p.1 = code ∧ ∀ v, p.2 = some v → v = info

/-- The general registers a command writes when it ends without error (R21, R305). -/
def resultRegs : Instr → List Nat
  | .srst => [0, 1, 2, 3]
  | .nrd => [0, 1, 2, 3]
  | .hscan _ => [0, 1]
  | .ctrd => [0, 1]
  | .decode _ _ => [0, 1]
  | .crdbits _ => [0]
  | .crdbytes _ => [0]
  | .ctell _ => [0]
  | .frd => [0]
  | .twrite _ => [0]
  | .tread _ => [0]
  | .encode _ _ => [0]
  | .nop => []
  | .cfgw _ => []
  | .copen _ _ => []
  | .cclose _ => []
  | .cwrbits _ => []
  | .cwrbytes _ => []
  | .cflush _ => []
  | .cseekbits _ => []
  | .chseek _ => []
  | .hclr => []
  | .fwr => []
  | .tbinit => []
  | .tbins => []
  | .tbext => []
  | .tbuild => []
  | .ctbuild => []

/-- The parts of the block that are neither registers nor cursors. -/
inductive Part where
  /-- `CFG.W`. -/
  | wordSize
  /-- FREQ and the tail word. -/
  | histogram
  /-- The node pool, ROOT and the heap. -/
  | tree
  /-- CODE. -/
  | codes
  /-- DB. -/
  | buffer
  deriving DecidableEq, Repr

/-- The parts a command may change (R26, R303, R304, R305). -/
def partsOf : Instr → List Part
  | .srst => [.wordSize, .histogram, .tree, .codes, .buffer]
  | .cfgw _ => [.wordSize, .histogram, .tree, .codes]
  | .crdbits _ => [.buffer]
  | .crdbytes _ => [.buffer]
  | .ctrd => [.buffer]
  | .hclr => [.histogram]
  | .hscan _ => [.histogram]
  | .fwr => [.histogram]
  | .tbinit => [.tree]
  | .tbins => [.tree]
  | .tbext => [.tree]
  | .tbuild => [.tree]
  | .tread _ => [.tree]
  | .ctbuild => [.codes]
  | .nop => []
  | .copen _ _ => []
  | .cclose _ => []
  | .cwrbits _ => []
  | .cwrbytes _ => []
  | .cflush _ => []
  | .cseekbits _ => []
  | .ctell _ => []
  | .chseek _ => []
  | .frd => []
  | .nrd => []
  | .twrite _ => []
  | .encode _ _ => []
  | .decode _ _ => []

/-- The mnemonic of a command in the opcode table (R93). -/
def mnemonicOf : Instr → String
  | .nop => "NOP"
  | .srst => "SRST"
  | .cfgw _ => "CFGW"
  | .copen _ _ => "COPEN"
  | .cclose _ => "CCLOSE"
  | .crdbits _ => "CRDBITS"
  | .cwrbits _ => "CWRBITS"
  | .crdbytes _ => "CRDBYTES"
  | .cwrbytes _ => "CWRBYTES"
  | .cflush _ => "CFLUSH"
  | .cseekbits _ => "CSEEKBITS"
  | .ctell _ => "CTELL"
  | .chseek _ => "CHSEEK"
  | .hclr => "HCLR"
  | .hscan _ => "HSCAN"
  | .frd => "FRD"
  | .fwr => "FWR"
  | .tbinit => "TBINIT"
  | .tbins => "TBINS"
  | .tbext => "TBEXT"
  | .tbuild => "TBUILD"
  | .nrd => "NRD"
  | .ctbuild => "CTBUILD"
  | .ctrd => "CTRD"
  | .twrite _ => "TWRITE"
  | .tread _ => "TREAD"
  | .encode _ _ => "ENCODE"
  | .decode _ _ => "DECODE"

/-- The word `w` selects the row `r` and every cursor number `r`'s format uses is below `NCUR` (R91, R94): a format uses
`ca` when its mask leaves out bits 23:20, and `cb` when it leaves out bits 19:16. -/
def selectsLegally (n : Nat) (r : OpcodeRow) (w : BitVec 32) : Prop :=
  r.selects w = true ∧ (r.mask &&& 0x00F00000 = 0 → (caField w).toNat < n) ∧
    (r.mask &&& 0x000F0000 = 0 → (cbField w).toNat < n)

/-- A value written to CMD that is a command by the opcode table (R94). -/
def legalCmd (n : Nat) (v : Reg) : Prop :=
  v.extractLsb' 32 32 = 0 ∧ ∃ r ∈ opcodeTable, selectsLegally n r (v.extractLsb' 0 32)

/-- The state after a command that ended with an error (R270). -/
def failed (s : State) (code : BitVec 8) (info : Reg) : State :=
  { s with err := code, einfo := info, sticky := true, firstErr := if s.sticky then s.firstErr else code }

/-! ## Reset -/

/-- A closed cursor with every field 0 (R43). -/
structure CursorAtReset (c : Cursor) : Prop where
  isOpen : c.isOpen = false
  mode : c.mode = .read
  fid : c.fid = 0
  fpos : c.fpos = 0
  bufsz : c.bufsz = 0
  byteP : c.byteP = 0
  bitP : c.bitP = 0
  valid : c.valid = 0
  buf : ∀ b ∈ c.buf, b = 0

/-- The table of R43, but for its last line (the backing store, which reset does not change). -/
structure AtReset (s : State) : Prop where
  registers : s.a0 = 0 ∧ s.a1 = 0 ∧ s.a2 = 0 ∧ s.a3 = 0
  status : s.err = 0 ∧ s.sticky = false ∧ s.firstErr = 0
  einfo : s.einfo = 0
  wordSize : s.w = .one
  cursors : ∀ k, CursorAtReset (s.cur k)
  db : s.db.length = s.env.par.dbBytes ∧ ∀ b ∈ s.db, b = 0
  histogram : ∀ i, s.freqAt i = 0
  tail : s.tail.valid = false ∧ s.tail.wb = ⟨0, 0⟩ ∧ s.tail.bits = 0
  nodes : s.nodes.length = 0
  heap : s.heap.length = 0
  root : s.root = none
  codes : ∀ i, s.codeAt i = none

end Sys2Proof.Machine
end

