-- ==== Sys2Proof/Certificates/Slice0/Obligations.lean ====
section
/-! DEFINITION. The statements for the provers, in the order of the spec's files: encoding, the step, reset and invariants,
how a command ends, the cursors, the histogram, the tree builder, the codes, the tree stream, the payload, frames, the
host. -/

open Sys2Proof Sys2Proof.Machine

/-! ## Encoding (30_encoding.md) -/

/-- Seven words, the three of R97 and one of each format among them, written out bit by bit from R90 and R93; and one word
for each of the four ways a value can be illegal (R94). `NCUR` is 4. -/
def Obligations.DecodeKnownWords : Prop :=
  decodeCmd 4 0x60010000 = .ok (.encode 0 1) ∧ decodeCmd 4 0x10200001 = .ok (.copen 2 .write) ∧
  decodeCmd 4 0x02000002 = .ok (.cfgw 2) ∧ decodeCmd 4 0x33000000 = .ok .tbuild ∧
  decodeCmd 4 0x17300000 = .ok (.cseekbits 3) ∧ decodeCmd 4 0x61120000 = .ok (.decode 1 2) ∧
  decodeCmd 4 0x0000000100000000 = .error .upperHalf ∧ decodeCmd 4 0x03000000 = .error .unassigned ∧
  decodeCmd 4 0x33000001 = .error .reservedField ∧ decodeCmd 4 0x12400000 = .error .cursorNumber ∧
  decodeTableWord 32 0x21100000 = some (.hscan 1)

/-- R94: a 64-bit value is a command exactly when its upper half is 0 and its lower half selects a row of the opcode table
with legal cursor numbers; the row is then the command's own. R91: at most one row matches a word. -/
def Obligations.DecoderFollowsTable : Prop :=
  (∀ (n : Nat) (v : Reg), ((∃ i, decodeCmd n v = .ok i) ↔ legalCmd n v) ∧
    ∀ i, decodeCmd n v = .ok i → ∀ r ∈ opcodeTable, r.selects (v.extractLsb' 0 32) = true → r.mnemonic = mnemonicOf i) ∧
  ∀ (w : BitVec 32) (r r' : OpcodeRow), r ∈ opcodeTable → r' ∈ opcodeTable → r.selects w = true →
    r'.selects w = true → r = r'

/-- Decoding the word of a well-formed command gives the command back, with every operand at every value. -/
def Obligations.DecodeEncode : Prop := ∀ (n : Nat) (i : Instr), i.wf n = true → decodeCmd n (encodeCmd i) = .ok i

/-- A value that decodes is the word of its command, and the command is well formed: every command has one encoding. -/
def Obligations.EncodeDecode : Prop :=
  ∀ (n : Nat) (v : Reg) (i : Instr), decodeCmd n v = .ok i → encodeCmd i = v ∧ i.wf n = true

/-! ## The step (R20, R22, R24, R276) -/

/-- A step takes the host's next act. A write to CMD runs the command it decodes to, on the state with that act taken; with
nothing to take, nothing changes (log entry 1); and a state made by `withFetchWord` runs its word. -/
def Obligations.StepRunsCommand : Prop :=
  (∀ s v rest i, s.inbox = .write 0x000 v :: rest → decodeCmd s.env.par.ncur v = .ok i →
    step s = exec i { s with inbox := rest }) ∧
  (∀ s, s.inbox = [] → step s = .next s) ∧
  (∀ s (w : BitVec 32) i, decodeCmd s.env.par.ncur (w.setWidth 64) = .ok i →
    step (s.withFetchWord 32 w.toNat) = exec i s)

/-- R276: a value written to CMD that is no command raises `IllegalCommand`, code 16, EINFO the whole value; no state other
than STATUS and EINFO changes. -/
def Obligations.IllegalCommand : Prop :=
  ∀ s v rest, s.inbox = .write 0x000 v :: rest → ¬ legalCmd s.env.par.ncur v →
    step s = .next (failed { s with inbox := rest } 16 v)

/-! ## Reset and invariants -/

/-- R43, R236, R290, R291: the reset state, and what SRST and the reset input leave; the store is not touched. The parameters
of the reset state are those of R5. That the acts still to come and the host's latest read are kept is the model's choice
(log entry 1), and that the reset input leaves what SRST leaves is log entry 18. -/
def Obligations.ResetValues : Prop :=
  AtReset State.reset ∧
  State.reset.env.par = { ncur := 4, bufMax := 4096, dbBytes := 256, nfid := 65536, maxFileBytes := 2 ^ 61 - 1 } ∧
  (∀ s, ∃ t, exec .srst s = .next t ∧ AtReset t ∧ t.env = s.env ∧ t.inbox = s.inbox ∧ t.seen = s.seen) ∧
  (∀ s rest, s.inbox = .reset :: rest →
    ∃ t, step s = .next t ∧ AtReset t ∧ t.env = s.env ∧ t.inbox = rest ∧ t.seen = s.seen) ∧
  encodeWord .srst = 0x01000000

/-- The invariant holds after reset. -/
def Obligations.ResetInv : Prop := Machine.Inv State.reset

/-- Every step keeps the invariant, whatever the host does. -/
def Obligations.StepKeepsInv : Prop := ∀ s t, Machine.Inv s → step s = .next t → Machine.Inv t

/-- R292: every command is defined in every state that satisfies the invariant: it always ends, with a next state.
For a term with a cursor number of `NCUR` or more, which no value of CMD decodes to, this rests on log entry 12. -/
def Obligations.CommandAlwaysEnds : Prop := ∀ s i, Machine.Inv s → ∃ t, exec i s = .next t

/-- R37: the heap stays a min-heap. -/
def Obligations.HeapStaysOrdered : Prop :=
  ∀ s t, Machine.Inv s → heapOrdered (freqOf s.nodes) s.heap → step s = .next t → heapOrdered (freqOf t.nodes) t.heap

/-- R36: no step makes two paths to one node. -/
def Obligations.TreesStayOwned : Prop := ∀ s t, Machine.Inv s → Owned s → step s = .next t → Owned t

/-- R38: no step makes a code longer than `TAILIDX` bits. -/
def Obligations.CodesStayShort : Prop :=
  ∀ s t, Machine.Inv s → Owned s → codesShort s → step s = .next t → codesShort t

/-! ## How a command ends (60_exceptions.md) -/

/-- R270, R273: a command ends without error, `ERR` and EINFO 0 and `STICKY`, `FIRSTERR` kept (SRST clears them); or with an
error, whose code `ERR` takes and `FIRSTERR` takes if it is the first, and then A0 to A3 keep their values. -/
def Obligations.EndOfCommand : Prop :=
  ∀ i s t, exec i s = .next t →
    (t.err = 0 ∧ t.einfo = 0 ∧ (i ≠ .srst → t.sticky = s.sticky ∧ t.firstErr = s.firstErr)) ∨
    (t.err ≠ 0 ∧ t.sticky = true ∧ t.firstErr = (if s.sticky then s.firstErr else t.err) ∧
      t.a0 = s.a0 ∧ t.a1 = s.a1 ∧ t.a2 = s.a2 ∧ t.a3 = s.a3)

/-- R285: the errors each command can end with. -/
def Obligations.ErrorsOfCommand : Prop :=
  ∀ i s t, Machine.Inv s → i.wf s.env.par.ncur = true → exec i s = .next t → t.err ≠ 0 → listsError (errorsOf i) t.err t.einfo

/-- R271: what a failure frees. TBEXT (on `FreqOverflow` and `OutOfMemory`), TBUILD (on any error) and TREAD (on any error
after the cursor checks) leave no tree and no heap; CTBUILD leaves no code. -/
def Obligations.FailureFrees : Prop :=
  ∀ s t, Machine.Inv s → t.err ≠ 0 →
    ((exec .tbext s = .next t ∧ t.err ≠ 20) ∨ exec .tbuild s = .next t ∨
        (∃ ca, cursorNoOk s.env.par.ncur ca = true ∧ exec (.tread ca) s = .next t ∧ t.err ≠ 18) →
      t.nodes = [] ∧ t.root = none ∧ t.heap = []) ∧
    (exec .ctbuild s = .next t → t.code = [])

/-- R135: every streaming command first checks that its cursor is open, then its direction; ENCODE and DECODE check the
read cursor before the write cursor. -/
def Obligations.CursorChecks : Prop :=
  ∀ s ca k, s.cursorOf? ca = some k →
    (∀ mk ∈ [Instr.crdbits, Instr.crdbytes, Instr.cseekbits, Instr.hscan, Instr.tread],
      ((s.cur k).isOpen = false → exec (mk ca) s = .next (failed s 18 1)) ∧
      ((s.cur k).isOpen = true → (s.cur k).mode = .write → exec (mk ca) s = .next (failed s 18 3))) ∧
    (∀ mk ∈ [Instr.cwrbits, Instr.cwrbytes, Instr.cflush, Instr.chseek, Instr.twrite],
      ((s.cur k).isOpen = false → exec (mk ca) s = .next (failed s 18 1)) ∧
      ((s.cur k).isOpen = true → (s.cur k).mode = .read → exec (mk ca) s = .next (failed s 18 3))) ∧
    (∀ mk ∈ [Instr.encode, Instr.decode], ∀ cb m, s.cursorOf? cb = some m →
      ((s.cur k).isOpen = false → exec (mk ca cb) s = .next (failed s 18 1)) ∧
      ((s.cur k).isOpen = true → (s.cur k).mode = .write → exec (mk ca cb) s = .next (failed s 18 3)) ∧
      ((s.cur k).isOpen = true → (s.cur k).mode = .read →
        ((s.cur m).isOpen = false → exec (mk ca cb) s = .next (failed s 18 1)) ∧
        ((s.cur m).isOpen = true → (s.cur m).mode = .read → exec (mk ca cb) s = .next (failed s 18 3))))

/-- R63, R64, R124, R271: a flush that the environment refuses, or that would pass `MAX_FILE_BYTES`, makes CFLUSH and CCLOSE
end with `IOFailure`; the cursor stays open and unchanged and no file changes. That a flush refused for `MAX_FILE_BYTES`
also uses up one answer of `IO_FAIL` is log entry 14. -/
def Obligations.FailedFlush : Prop :=
  ∀ s ca k, Machine.Inv s → s.cursorOf? ca = some k → (s.cur k).isOpen = true → (s.cur k).mode = .write →
    pendingBytes (s.cur k) ≠ 0 →
    (s.env.ioAnswer = true ∨ s.env.par.maxFileBytes < (s.cur k).fpos + pendingBytes (s.cur k)) →
    ∀ mk ∈ [Instr.cflush, Instr.cclose], exec (mk ca) s = .next (failed { s with env := s.env.asked } 1 0)

/-- R62, R64, R126, R152, R208, R271: a fill that the environment refuses ends a reading command with `IOFailure`. The bits
of the earlier fills stay taken. CRDBITS and CRDBYTES leave DB, HSCAN leaves the counts of the full words taken, TREAD
leaves no tree. -/
def Obligations.RefusedFill : Prop :=
  ∀ s ca k j, s.cursorOf? ca = some k → FillRefused s k j →
    (∀ i n, (i = .crdbits ca ∧ n = s.a0.toNat ∨ i = .crdbytes ca ∧ n = 8 * s.a0.toNat) → n ≤ 8 * s.env.par.dbBytes →
      bitsBeforeFill (s.cur k) j < n → ∃ t, exec i s = .next t ∧
        t = failed { s with cursors := t.cursors, env := t.env } 1 0 ∧ FillStopped s t k j) ∧
    (∃ t, exec (.hscan ca) s = .next t ∧
      t = failed
        { s with freq := t.freq, tail := ⟨false, ⟨0, 0⟩, 0⟩, cursors := t.cursors, env := t.env } 1 0 ∧
      FillStopped s t k j ∧
      (∀ v, v < Config.tailIdx s.w → t.freqAt v = BitVec.ofNat 64
        ((fullWords s.w ((pending (s.chan k)).take (bitsBeforeFill (s.cur k) j))).filter fun p => widx s.w p.1 = v).length) ∧
      t.freqAt (Config.tailIdx s.w) = 0) ∧
    (∀ (T : PrefixTree) bits rest, T.ok s.w = true → (T.nodeFields s.w).length ≤ Config.nodeCap s.w →
      bits = (T.nodeFields s.w).flatten.flatten → pending (s.chan k) = bits ++ rest → bits.length ≤ s.a0.toNat →
      bitsBeforeFill (s.cur k) j < bits.length → ∃ t, exec (.tread ca) s = .next t ∧
        t = failed { s with nodes := [], root := none, heap := [], cursors := t.cursors, env := t.env } 1 0 ∧
        FillStopped s t k j)

/-- R63, R64, R122, R126, R206, R271: an automatic flush that the environment refuses, or that would pass `MAX_FILE_BYTES`,
ends a writing command with `IOFailure`. The bits before it are in the file or in the buffer, which is still full; the
bit that needed the flush and those after it are not written. That a flush refused for `MAX_FILE_BYTES` also uses up one
answer of `IO_FAIL` is log entry 14. -/
def Obligations.RefusedFlush : Prop :=
  ∀ s ca k j, s.cursorOf? ca = some k → FlushRefused s k j →
    ∀ i bits,
      (i = .cwrbits ca ∧ bits = bufbits s.db s.a1.toNat s.a0.toNat ∧ s.a1.toNat + s.a0.toNat ≤ 8 * s.env.par.dbBytes ∨
        i = .cwrbytes ca ∧ bits = bufbits s.db 0 (8 * s.a0.toNat) ∧ s.a0.toNat ≤ s.env.par.dbBytes ∨
        i = .twrite ca ∧ ∃ r, s.root = some r ∧ bits = treeStream s.w s.nodes s.nodes.length r) →
      bitsBeforeFlush (s.cur k) j < bits.length →
      ∃ t, exec i s = .next t ∧ t = failed { s with cursors := t.cursors, env := t.env } 1 0 ∧ FlushStopped s t k j bits

/-- R221, R223, R271: what ENCODE and DECODE leave when a store access of theirs is refused. The codes and words written so
far stay, the last perhaps in part, and the read cursor is after the last bit taken. Either a fill was refused, with
every code or word of the bits taken written, or an automatic flush was refused, in the middle of the last one. The two
cursors are on different files. -/
def Obligations.RefusedInCodec : Prop :=
  ∀ s t ca cb ka kb, Machine.Inv s → s.cursorOf? ca = some ka → s.cursorOf? cb = some kb →
    (s.cur ka).isOpen = true → (s.cur ka).mode = .read → (s.cur kb).isOpen = true → (s.cur kb).mode = .write →
    (s.cur ka).fid ≠ (s.cur kb).fid → (s.cur kb).fpos ≤ (fileBytes (s.chan kb)).length → t.err = 1 →
    (exec (.encode ca cb) s = .next t →
      t = failed { s with cursors := t.cursors, env := t.env } 1 0 ∧ OnlyCursors s t ka kb ∧
      ∃ (n x : Nat) (pats : List Bits), pending (t.chan ka) = (pending (s.chan ka)).drop n ∧
        absBitPos (t.cur ka) = absBitPos (s.cur ka) + n ∧ Stored s t kb (pats.flatten.take x) ∧
        (n < (pending (s.chan ka)).length ∧ (t.cur ka).valid ≤ (t.cur ka).byteP ∧ x = pats.flatten.length ∧
            (fullWords s.w ((pending (s.chan ka)).take n)).map (fun p => s.codeAt (wordSlot s.w p.1 p.2)) =
              pats.map some ∨
          n ≤ (pending (s.chan ka)).length ∧ (t.cur kb).byteP = (t.cur kb).bufsz ∧
            pats.dropLast.flatten.length ≤ x ∧ x < pats.flatten.length ∧
            (wordsOf s.w ((pending (s.chan ka)).take n)).map (fun p => s.codeAt (wordSlot s.w p.1 p.2)) =
              pats.map some)) ∧
    (exec (.decode ca cb) s = .next t →
      t = failed { s with cursors := t.cursors, env := t.env } 1 0 ∧ OnlyCursors s t ka kb ∧
      ∃ (n x r last : Nat) (leaves : List Nat), s.root = some r ∧ n ≤ s.a0.toNat ∧
        n ≤ (pending (s.chan ka)).length ∧
        walkBits s.nodes r r ((pending (s.chan ka)).take n) = some (leaves, last) ∧
        pending (t.chan ka) = (pending (s.chan ka)).drop n ∧ absBitPos (t.cur ka) = absBitPos (s.cur ka) + n ∧
        Stored s t kb ((leaves.flatMap fun m => leafBits (nodeAt s.nodes m)).take x) ∧
        (n < s.a0.toNat ∧ n < (pending (s.chan ka)).length ∧ (t.cur ka).valid ≤ (t.cur ka).byteP ∧
            x = (leaves.flatMap fun m => leafBits (nodeAt s.nodes m)).length ∨
          last = r ∧ (t.cur kb).byteP = (t.cur kb).bufsz ∧
            (leaves.dropLast.flatMap fun m => leafBits (nodeAt s.nodes m)).length ≤ x ∧
            x < (leaves.flatMap fun m => leafBits (nodeAt s.nodes m)).length))

/-- R64: a command uses up the answers of `IO_FAIL` in order. One that does not end with `IOFailure` got none that refused.
One that does got grants only, and then a refusal or a flush that does not fit `MAX_FILE_BYTES` (R63), which uses up an
answer too (log entry 14); or it is a COPEN that was to read an absent file (R128), which asks nothing. -/
def Obligations.AnswersDecide : Prop :=
  ∀ i s t, Machine.Inv s → exec i s = .next t →
    (t.err ≠ 1 → ∃ j, granted s.env j ∧ t.env.ioFail = s.env.ioFail.drop j) ∧
    (t.err = 1 →
      (∃ j, granted s.env j ∧ t.env.ioFail = s.env.ioFail.drop (j + 1) ∧
        (s.env.ioFail.getD j false = true ∨
          ∃ c ∈ cursorsOf i, ∃ k, s.cursorOf? c = some k ∧ (t.cur k).mode = .write ∧
            s.env.par.maxFileBytes < (t.cur k).fpos + pendingBytes (t.cur k))) ∨
      ∃ c, i = .copen c .read ∧ s.env.file (s.a0.setWidth 16) = none ∧ t.env = s.env)

/-! ## System commands (46_system.md) -/

/-- R235: NOP only ends without error. R237: CFGW sets the word size and empties every table that depends on it; any other
operand than 1 and 2 is `BadOperand(0)`. -/
def Obligations.NopEndsAndCfgwEmpties : Prop :=
  (∀ s, exec .nop s = .next { s with err := 0, einfo := 0 } ∧ encodeWord .nop = 0x00000000) ∧
  ∀ s (imm : BitVec 16),
    (imm ≠ 1 → imm ≠ 2 → exec (.cfgw imm) s = .next (failed s 17 0)) ∧
    (∀ w, (imm = 1 ∧ w = .one ∨ imm = 2 ∧ w = .two) → exec (.cfgw imm) s = .next
      { s with
        w := w, freq := [], code := [], tail := ⟨false, ⟨0, 0⟩, 0⟩, nodes := [], root := none, heap := [], err := 0
        einfo := 0 }) ∧
    encodeWord (.cfgw imm) = 0x02000000 ||| imm.setWidth 32

/-! ## Cursors (40_bitcursor.md) -/

/-- R128: COPEN, its checks in order, and what it binds. A file opened for write is created or truncated. -/
def Obligations.CopenBindsCursor : Prop :=
  ∀ s ca k m, s.cursorOf? ca = some k →
    ((s.cur k).isOpen = true → exec (.copen ca m) s = .next (failed s 18 2)) ∧
    ((s.cur k).isOpen = false →
      (s.env.par.nfid ≤ s.a0.toNat ∨ s.a1.toNat < 1 ∨ s.env.par.bufMax < s.a1.toNat →
        exec (.copen ca m) s = .next (failed s 17 0)) ∧
      (s.a0.toNat < s.env.par.nfid → 1 ≤ s.a1.toNat → s.a1.toNat ≤ s.env.par.bufMax →
        (m = .read → s.env.file (s.a0.setWidth 16) = none → exec (.copen ca m) s = .next (failed s 1 0)) ∧
        ((m = .read → s.env.file (s.a0.setWidth 16) ≠ none) →
          (s.env.ioAnswer = true → exec (.copen ca m) s = .next (failed { s with env := s.env.asked } 1 0)) ∧
          (s.env.ioAnswer = false → ∃ t, exec (.copen ca m) s = .next t ∧
            t = { s with cursors := t.cursors, env := t.env, err := 0, einfo := 0 } ∧
            (∀ j, j ≠ k → t.cur j = s.cur j) ∧
            t.cur k = { (t.cur k) with
              isOpen := true, mode := m, fid := s.a0.setWidth 16, fpos := 0, bufsz := s.a1.toNat, byteP := 0, bitP := 0
              valid := 0 } ∧
            ∀ f, t.env.file f = if m = .write ∧ f = s.a0.setWidth 16 then some [] else s.env.file f)))) ∧
    encodeWord (.copen ca m) = 0x10000000 ||| ca.setWidth 32 <<< 20 ||| (if m = .write then 1 else 0)

/-- R129: CCLOSE. A read cursor is only closed; a write cursor is flushed first, so that its file is the one that was being
made. -/
def Obligations.CcloseFlushesAndCloses : Prop :=
  ∀ s ca k, s.cursorOf? ca = some k →
    ((s.cur k).isOpen = false → exec (.cclose ca) s = .next (failed s 18 1)) ∧
    ((s.cur k).isOpen = true → (s.cur k).mode = .read →
      exec (.cclose ca) s = .next { (s.setCur k { s.cur k with isOpen := false }) with err := 0, einfo := 0 }) ∧
    (Writable s k 0 → ∃ t, exec (.cclose ca) s = .next t ∧
      t = { s with cursors := t.cursors, env := t.env, err := 0, einfo := 0 } ∧
      (∀ j, j ≠ k → t.cur j = s.cur j) ∧
      t.cur k = { s.cur k with
        isOpen := false, fpos := (s.cur k).fpos + pendingBytes (s.cur k), byteP := 0, bitP := 0 } ∧
      t.env.file (s.cur k).fid = some (image (s.chan k)) ∧
      (∀ j, j < pendingBytes (s.cur k) →
        t.env.byteAt (s.cur k).fid ((s.cur k).fpos + j) = some ((s.cur k).buf.getD j 0)) ∧
      ∀ f off, ¬ (f = (s.cur k).fid ∧ (s.cur k).fpos ≤ off ∧ off < (s.cur k).fpos + pendingBytes (s.cur k)) →
        t.env.byteAt f off = s.env.byteAt f off)

/-- R134, R71: CFLUSH. Every bit written through the cursor is then in the file; the buffer is empty. -/
def Obligations.CflushStoresBuffer : Prop :=
  ∀ s ca k, s.cursorOf? ca = some k → Writable s k 0 → ∃ t, exec (.cflush ca) s = .next t ∧
    t = { s with cursors := t.cursors, env := t.env, err := 0, einfo := 0 } ∧
    (∀ j, j ≠ k → t.cur j = s.cur j) ∧
    t.cur k = { s.cur k with fpos := (s.cur k).fpos + pendingBytes (s.cur k), byteP := 0, bitP := 0 } ∧
    t.env.file (s.cur k).fid = some (image (s.chan k)) ∧
    absBitPos (t.cur k) = 8 * ((absBitPos (s.cur k) + 7) / 8) ∧
    (∀ j, j < pendingBytes (s.cur k) →
      t.env.byteAt (s.cur k).fid ((s.cur k).fpos + j) = some ((s.cur k).buf.getD j 0)) ∧
    ∀ f off, ¬ (f = (s.cur k).fid ∧ (s.cur k).fpos ≤ off ∧ off < (s.cur k).fpos + pendingBytes (s.cur k)) →
      t.env.byteAt f off = s.env.byteAt f off

/-- R130, R132: CRDBITS and CRDBYTES deliver the pending bits to DB from buffer bit 0 and their number to A0; the other bits
of DB keep their value; too large a count is `BadOperand(0)`. -/
def Obligations.ReadToBuffer : Prop :=
  ∀ s ca k, s.cursorOf? ca = some k → Readable s k →
    ∀ i n, (i = .crdbits ca ∧ n = s.a0.toNat ∨ i = .crdbytes ca ∧ n = 8 * s.a0.toNat) →
      (8 * s.env.par.dbBytes < n → exec i s = .next (failed s 17 0)) ∧
      (n ≤ 8 * s.env.par.dbBytes → ∃ t, exec i s = .next t ∧
        t = { s with
          a0 := BitVec.ofNat 64 ((pending (s.chan k)).take n).length, db := t.db, cursors := t.cursors, env := t.env
          err := 0, einfo := 0 } ∧
        t.db.length = s.db.length ∧
        (∀ j, bufbit t.db j = if j < ((pending (s.chan k)).take n).length then (pending (s.chan k)).getD j false
          else bufbit s.db j) ∧
        OnlyCursor s t k ∧ Delivered s t k n)

/-- R131, R133: CWRBITS and CWRBYTES append bits of DB to the stream of a write cursor. -/
def Obligations.WriteFromBuffer : Prop :=
  ∀ s ca k, s.cursorOf? ca = some k →
    ∀ i a n, (i = .cwrbits ca ∧ a = s.a1.toNat ∧ n = s.a0.toNat ∨ i = .cwrbytes ca ∧ a = 0 ∧ n = 8 * s.a0.toNat) →
      ((s.cur k).isOpen = true → (s.cur k).mode = .write → 8 * s.env.par.dbBytes < a + n →
        exec i s = .next (failed s 17 0)) ∧
      (Writable s k n → a + n ≤ 8 * s.env.par.dbBytes → ∃ t, exec i s = .next t ∧
        t = { s with cursors := t.cursors, env := t.env, err := 0, einfo := 0 } ∧
        OnlyCursor s t k ∧ Stored s t k (bufbits s.db a n))

/-- R136: CSEEKBITS fills the buffer afresh at byte `A0 div 8`: afterwards the pending bits are those of the file from bit
`A0` on. A failing fill leaves the cursor unchanged. -/
def Obligations.CseekbitsFillsAfresh : Prop :=
  ∀ s ca k n, Machine.Inv s → s.cursorOf? ca = some k → (s.cur k).isOpen = true → (s.cur k).mode = .read →
    n = (if (fileBytes (s.chan k)).length ≤ s.a0.toNat / 8 then 0
      else min (s.cur k).bufsz ((fileBytes (s.chan k)).length - s.a0.toNat / 8)) →
    (n ≠ 0 → s.env.ioAnswer = true →
      exec (.cseekbits ca) s = .next (failed { s with env := s.env.asked } 1 0)) ∧
    ((n ≠ 0 → s.env.ioAnswer = false) → ∃ t, exec (.cseekbits ca) s = .next t ∧
      t = { s with cursors := t.cursors, env := if n = 0 then s.env else s.env.asked, err := 0, einfo := 0 } ∧
      (∀ j, j ≠ k → t.cur j = s.cur j) ∧
      t.cur k = { s.cur k with
        buf := (t.cur k).buf, fpos := s.a0.toNat / 8 + n, valid := n, byteP := 0
        bitP := Fin.ofNat 8 (s.a0.toNat % 8) } ∧
      (t.cur k).buf.take n = ((fileBytes (s.chan k)).drop (s.a0.toNat / 8)).take n ∧
      absBitPos (t.cur k) = s.a0.toNat ∧
      pending (t.chan k) = (bytesBits (fileBytes (s.chan k))).drop s.a0.toNat) ∧
    encodeWord (.cseekbits ca) = 0x17000000 ||| ca.setWidth 32 <<< 20

/-- R137: CTELL gives the absolute bit position, for a cursor of either direction. The position is one that fits the
register (log entry 4). -/
def Obligations.CtellGivesPosition : Prop :=
  ∀ s ca k, s.cursorOf? ca = some k →
    ((s.cur k).isOpen = false → exec (.ctell ca) s = .next (failed s 18 1)) ∧
    ((s.cur k).isOpen = true → absBitPos (s.cur k) < 2 ^ 64 →
      exec (.ctell ca) s = .next { s with a0 := BitVec.ofNat 64 (absBitPos (s.cur k)), err := 0, einfo := 0 })

/-- R138: CHSEEK moves the handle of a flushed write cursor, never beyond the end of its file. -/
def Obligations.ChseekMovesHandle : Prop :=
  ∀ s ca k B, s.cursorOf? ca = some k → (s.cur k).isOpen = true → (s.cur k).mode = .write →
    s.env.file (s.cur k).fid = some B →
    ((s.cur k).byteP ≠ 0 ∨ (s.cur k).bitP ≠ 0 → exec (.chseek ca) s = .next (failed s 18 4)) ∧
    ((s.cur k).byteP = 0 → (s.cur k).bitP = 0 →
      (B.length < s.a0.toNat → exec (.chseek ca) s = .next (failed s 6 s.a0)) ∧
      (s.a0.toNat ≤ B.length → exec (.chseek ca) s =
        .next { (s.setCur k { s.cur k with fpos := s.a0.toNat }) with err := 0, einfo := 0 }))

/-- R127: the laws of the absolute bit position. -/
def Obligations.PositionLaws : Prop :=
  ∀ ch ch' : Chan, CursorInv ch.env ch.cur →
    (ch.cur.mode = .read →
      (∀ b, readBit ch = .ok (some b) ch' → absBitPos ch'.cur = absBitPos ch.cur + 1) ∧
      (readBit ch = .ok none ch' → absBitPos ch'.cur = absBitPos ch.cur) ∧
      (∀ n, ch.cur.valid ≤ ch.cur.byteP → refill ch = .ok n ch' → absBitPos ch'.cur = absBitPos ch.cur) ∧
      (∀ b, ch.cur.valid ≤ ch.cur.byteP → readBit ch = .ok (some b) ch' →
        b = bufbit (fileBytes ch) (absBitPos ch.cur))) ∧
    (ch.cur.mode = .write →
      (∀ b, writeBit b ch = .ok () ch' → absBitPos ch'.cur = absBitPos ch.cur + 1) ∧
      (ch.cur.byteP = ch.cur.bufsz → flush ch = .ok () ch' → absBitPos ch'.cur = absBitPos ch.cur) ∧
      (flush ch = .ok () ch' → absBitPos ch'.cur = 8 * ((absBitPos ch.cur + 7) / 8)))

/-! ## Words and histogram (41_wordalphabet_histogram.md) -/

/-- R150, R66: the words of a stream joined are the stream; every word but the last has `WBITS` bits, the last has 1 to
`WBITS`; unused bits of a word are 0. The slot of a full word and the word of a slot are inverse to each other. -/
def Obligations.WordsOfStream : Prop :=
  ∀ (w : WordSize) (bits : Bits),
    (wordsOf w bits).flatMap (fun p => wordBits p.1 p.2) = bits ∧
    (∀ p ∈ (wordsOf w bits).dropLast, p.2 = Config.wbits w) ∧
    (∀ p ∈ wordsOf w bits, 1 ≤ p.2 ∧ p.2 ≤ Config.wbits w ∧ wordClear p.1 p.2 = true) ∧
    (∀ v, v < Config.tailIdx w → widx w (idxword w v) = v ∧ wordClear (idxword w v) (Config.wbits w) = true) ∧
    ∀ x, wordClear x (Config.wbits w) = true → widx w x < Config.tailIdx w ∧ idxword w (widx w x) = x

/-- R151: HCLR clears the histogram and the tail word. R168: TBINIT frees every node and empties the heap. -/
def Obligations.ClearsEmptyTables : Prop :=
  (∀ s, (∃ t, exec .hclr s = .next t ∧
    t = { s with freq := t.freq, tail := ⟨false, ⟨0, 0⟩, 0⟩, err := 0, einfo := 0 } ∧ ∀ i, t.freqAt i = 0) ∧
    encodeWord .hclr = 0x20000000) ∧
  ∀ s, exec .tbinit s = .next { s with nodes := [], root := none, heap := [], err := 0, einfo := 0 } ∧
    encodeWord .tbinit = 0x30000000

/-- R152: HSCAN counts the words of the pending stream, from an empty histogram, and records the tail word. -/
def Obligations.HscanCountsWords : Prop :=
  ∀ s ca k, s.cursorOf? ca = some k → Readable s k → ∃ t, exec (.hscan ca) s = .next t ∧
    t = { s with
      freq := t.freq, tail := t.tail, a0 := BitVec.ofNat 64 (fullWords s.w (pending (s.chan k))).length, a1 := t.a1
      cursors := t.cursors, env := t.env, err := 0, einfo := 0 } ∧
    (∀ v, v < Config.tailIdx s.w → t.freqAt v = BitVec.ofNat 64
      ((fullWords s.w (pending (s.chan k))).filter fun p => widx s.w p.1 = v).length) ∧
    (∀ p, (wordsOf s.w (pending (s.chan k))).getLast? = some p → p.2 < Config.wbits s.w →
      t.tail = ⟨true, p.1, p.2⟩ ∧ t.freqAt (Config.tailIdx s.w) = 1 ∧ t.a1 = BitVec.ofNat 64 p.2) ∧
    ((∀ p ∈ wordsOf s.w (pending (s.chan k)), p.2 = Config.wbits s.w) →
      t.tail = ⟨false, ⟨0, 0⟩, 0⟩ ∧ t.freqAt (Config.tailIdx s.w) = 0 ∧ t.a1 = 0) ∧
    OnlyCursor s t k ∧ Delivered s t k (pending (s.chan k)).length

/-- R153: FRD reads one bucket. R154: FWR writes one bucket, and the tail word with the tail's bucket; the tail descriptor
is read for that bucket only. -/
def Obligations.BucketAccess : Prop :=
  (∀ s, (Config.nsym s.w ≤ s.a0.toNat → exec .frd s = .next (failed s 17 0)) ∧
    (s.a0.toNat < Config.nsym s.w →
      exec .frd s = .next { s with a0 := s.freqAt s.a0.toNat, err := 0, einfo := 0 }) ∧
    encodeWord .frd = 0x22000000) ∧
  ∀ s x len, Machine.Inv s → x = ⟨s.a2.extractLsb' 0 8, s.a2.extractLsb' 8 8⟩ → len = (s.a2.extractLsb' 16 5).toNat →
    (Config.nsym s.w ≤ s.a0.toNat → exec .fwr s = .next (failed s 17 0)) ∧
    (s.a0.toNat = Config.tailIdx s.w →
      (s.a2.extractLsb' 21 43 ≠ 0 ∨ Config.wbits s.w ≤ len ∨ (∃ j, len ≤ j ∧ j < 16 ∧ bufbit [x.b0, x.b1] j = true)) →
      exec .fwr s = .next (failed s 17 1)) ∧
    (s.a0.toNat < Config.nsym s.w →
      (s.a0.toNat = Config.tailIdx s.w → s.a2.extractLsb' 21 43 = 0 ∧ len < Config.wbits s.w ∧
        ∀ j, len ≤ j → j < 16 → bufbit [x.b0, x.b1] j = false) →
      ∃ t, exec .fwr s = .next t ∧
        t = { s with
          freq := t.freq, tail := if s.a0.toNat = Config.tailIdx s.w then ⟨true, x, len⟩ else s.tail, err := 0
          einfo := 0 } ∧
        t.freqAt s.a0.toNat = s.a1 ∧ ∀ j, j ≠ s.a0.toNat → t.freqAt j = s.freqAt j) ∧
    encodeWord .fwr = 0x23000000

/-! ## The tree builder (42_treebuilder.md) -/

/-- R166, R167, R170: `HeapInsert` and `HeapExtract` keep the heap property and the entries; `HeapExtract` returns an entry
of least frequency; so of two nodes extracted in a row the first is the left child. -/
def Obligations.HeapLaws : Prop :=
  ∀ (F : Nat → Nat) (n : Nat) (h : List Nat), heapOrdered F h →
    (heapOrdered F (heapInsert F n h) ∧ (heapInsert F n h).Perm (n :: h)) ∧
    ∀ top rest, h = top :: rest →
      heapOrdered F (heapRest F rest) ∧ (heapRest F rest).Perm rest ∧ (∀ x ∈ rest, F top ≤ F x) ∧
      ∀ b rest', heapRest F rest = b :: rest' → mergeOrder F top b = (top, b)

/-- R169, R177: TBINS takes the next node for the leaf of a slot and puts it in the heap. -/
def Obligations.TbinsAddsLeaf : Prop :=
  ∀ s leaf, leaf =
      (if s.a0.toNat = Config.tailIdx s.w then
        (⟨true, s.tail.wb, s.tail.bits, s.freqAt s.a0.toNat, none, none⟩ : Node)
      else ⟨true, idxword s.w s.a0.toNat, Config.wbits s.w, s.freqAt s.a0.toNat, none, none⟩) →
    (Config.nsym s.w ≤ s.a0.toNat → exec .tbins s = .next (failed s 17 0)) ∧
    (s.a0.toNat = Config.tailIdx s.w → s.tail.valid = false → exec .tbins s = .next (failed s 17 2)) ∧
    (s.a0.toNat < Config.nsym s.w → (s.a0.toNat = Config.tailIdx s.w → s.tail.valid = true) →
      (s.heap.length = Config.heapCap s.w → exec .tbins s = .next (failed s 2 2)) ∧
      (s.heap.length ≠ Config.heapCap s.w →
        (s.nodes.length = Config.nodeCap s.w → exec .tbins s = .next (failed s 2 1)) ∧
        (s.nodes.length ≠ Config.nodeCap s.w → exec .tbins s = .next
          { s with
            nodes := s.nodes ++ [leaf], heap := heapInsert (freqOf (s.nodes ++ [leaf])) s.nodes.length s.heap, err := 0
            einfo := 0 }))) ∧
    encodeWord .tbins = 0x31000000

/-- R171, R172: TBEXT merges the nodes of the heap into one tree: `k - 1` internal nodes with consecutive numbers, each with
the frequency of its two children together, the left one's not larger; the leaves are those of the heap, the root's
frequency is the sum. A sum of `2^64` or more is `FreqOverflow`, a full pool `OutOfMemory(1)`, an empty heap
`EmptyInput`. -/
def Obligations.TbextMergesHeap : Prop :=
  ∀ s, Machine.Inv s → heapOrdered (freqOf s.nodes) s.heap →
    (s.heap = [] → exec .tbext s = .next (failed s 20 0)) ∧
    (s.heap ≠ [] →
      (2 ^ 64 ≤ (s.heap.map (freqOf s.nodes)).sum → s.nodes.length + s.heap.length - 1 ≤ Config.nodeCap s.w →
        exec .tbext s = .next (failed { s with nodes := [], root := none, heap := [] } 21 0)) ∧
      ((s.heap.map (freqOf s.nodes)).sum < 2 ^ 64 → Config.nodeCap s.w < s.nodes.length + s.heap.length - 1 →
        exec .tbext s = .next (failed { s with nodes := [], root := none, heap := [] } 2 1)) ∧
      ((s.heap.map (freqOf s.nodes)).sum < 2 ^ 64 → s.nodes.length + s.heap.length - 1 ≤ Config.nodeCap s.w →
        ∃ t r, exec .tbext s = .next t ∧
          t = { s with nodes := t.nodes, root := some r, heap := [], err := 0, einfo := 0 } ∧
          t.nodes.length = s.nodes.length + s.heap.length - 1 ∧ s.nodes <+: t.nodes ∧
          freqOf t.nodes r = (s.heap.map (freqOf s.nodes)).sum ∧
          (leavesOf t.nodes t.nodes.length r).Perm (s.heap.flatMap (leavesOf s.nodes s.nodes.length)) ∧
          ∀ n, s.nodes.length ≤ n → n < t.nodes.length → ∃ l r', l < n ∧ r' < n ∧
            nodeAt t.nodes n = ⟨false, ⟨0, 0⟩, 0, (nodeAt t.nodes n).freq, some l, some r'⟩ ∧
            freqOf t.nodes n = freqOf t.nodes l + freqOf t.nodes r' ∧ freqOf t.nodes l ≤ freqOf t.nodes r'))

/-- R174, R172: TBUILD makes one leaf for each bucket that is not 0, in ascending slot order, and merges them into one
tree. With every bucket 0 it ends with `EmptyInput`, with a sum of `2^64` or more with `FreqOverflow`, and then no tree is
left. -/
def Obligations.TbuildBuildsTree : Prop :=
  ∀ s slots, Machine.Inv s → slots = (List.range (Config.nsym s.w)).filter (fun i => s.freqAt i ≠ 0) →
    (slots = [] → exec .tbuild s = .next (failed { s with nodes := [], root := none, heap := [] } 20 0)) ∧
    (2 ^ 64 ≤ (slots.map fun i => (s.freqAt i).toNat).sum →
      exec .tbuild s = .next (failed { s with nodes := [], root := none, heap := [] } 21 0)) ∧
    (slots ≠ [] → (slots.map fun i => (s.freqAt i).toNat).sum < 2 ^ 64 → ∃ t r, exec .tbuild s = .next t ∧
      t = { s with nodes := t.nodes, root := some r, heap := [], err := 0, einfo := 0 } ∧
      t.nodes.length = 2 * slots.length - 1 ∧
      t.nodes.take slots.length = slots.map (leafOf s) ∧
      freqOf t.nodes r = (slots.map fun i => (s.freqAt i).toNat).sum ∧
      (leavesOf t.nodes t.nodes.length r).Perm (List.range slots.length) ∧
      ∀ n, slots.length ≤ n → n < t.nodes.length → ∃ l r', l < n ∧ r' < n ∧
        nodeAt t.nodes n = ⟨false, ⟨0, 0⟩, 0, (nodeAt t.nodes n).freq, some l, some r'⟩ ∧
        freqOf t.nodes n = freqOf t.nodes l + freqOf t.nodes r' ∧ freqOf t.nodes l ≤ freqOf t.nodes r')

/-- R176: NRD shows one node. -/
def Obligations.NrdShowsNode : Prop :=
  ∀ s, (s.nodes.length ≤ s.a0.toNat → exec .nrd s = .next (failed s 17 0)) ∧
    (∀ n, s.nodes[s.a0.toNat]? = some n → exec .nrd s = .next
      { s with
        a0 := BitVec.ofNat 64 n.leaf.toNat ||| BitVec.ofNat 64 n.bitLen <<< 8 ||| n.wb.b0.setWidth 64 <<< 16 |||
          n.wb.b1.setWidth 64 <<< 24
        a1 := n.freq
        a2 := match n.left with | none => 0xFFFFFFFF | some l => (BitVec.ofNat 32 l).setWidth 64
        a3 := match n.right with | none => 0xFFFFFFFF | some r => (BitVec.ofNat 32 r).setWidth 64
        err := 0, einfo := 0 }) ∧
    encodeWord .nrd = 0x34000000

/-! ## Codes (43_codetable.md) -/

/-- R191, R192, R194: CTBUILD gives every leaf of the tree at ROOT its path as code, a leaf root the code `0`, and no other
slot a code; two leaves of one slot are `CorruptedTree(7)`, no tree is `EmptyInput`, and after an error no slot has a
code. -/
def Obligations.CtbuildGivesPaths : Prop :=
  ∀ s, Machine.Inv s →
    (s.root = none → exec .ctbuild s = .next (failed { s with code := [] } 20 0)) ∧
    ∀ r, s.root = some r →
      (¬ ((treeCodes s r).map Prod.fst).Nodup → exec .ctbuild s = .next (failed { s with code := [] } 3 7)) ∧
      (((treeCodes s r).map Prod.fst).Nodup → ∃ t, exec .ctbuild s = .next t ∧
        t = { s with code := t.code, err := 0, einfo := 0 } ∧
        ∀ i p, t.codeAt i = some p ↔ (i, p) ∈ treeCodes s r)

/-- R193: CTRD reads a window of one code into DB. -/
def Obligations.CtrdReadsCode : Prop :=
  ∀ s, Machine.Inv s →
    (Config.nsym s.w ≤ s.a0.toNat → exec .ctrd s = .next (failed s 17 0)) ∧
    (s.a0.toNat < Config.nsym s.w → s.codeAt s.a0.toNat = none →
      exec .ctrd s = .next { s with a0 := 0, a1 := 0, err := 0, einfo := 0 }) ∧
    (∀ pat n, s.a0.toNat < Config.nsym s.w → s.codeAt s.a0.toNat = some pat → pat.length < 2 ^ 64 →
      n = (if pat.length ≤ s.a1.toNat then 0 else min (8 * s.env.par.dbBytes) (pat.length - s.a1.toNat)) →
      ∃ t, exec .ctrd s = .next t ∧
        t = { s with
          a0 := BitVec.ofNat 64 pat.length, a1 := BitVec.ofNat 64 n, db := t.db, err := 0, einfo := 0 } ∧
        t.db.length = s.db.length ∧
        ∀ j, bufbit t.db j = if j < n then pat.getD (s.a1.toNat + j) false else bufbit s.db j) ∧
    encodeWord .ctrd = 0x41000000

/-- R195: after a CTBUILD that succeeds, for a leaf root the one code is `0`; for any other tree no code is a prefix of
another, the sum of `2^(-LEN)` over the codes is 1, and walking from ROOT along a code ends exactly at the leaf of its
slot. -/
def Obligations.PrefixFree : Prop :=
  ∀ s t r, Machine.Inv s → s.root = some r → exec .ctbuild s = .next t → t.err = 0 →
    ((nodeAt s.nodes r).leaf = true → ∀ i p, t.codeAt i = some p ↔ i = slotOf s.w (nodeAt s.nodes r) ∧ p = [false]) ∧
    ((nodeAt s.nodes r).leaf = false →
      (∀ i j p q, t.codeAt i = some p → t.codeAt j = some q → i ≠ j → ¬ p <+: q) ∧
      (t.code.map fun p => (1 / 2 : ℚ) ^ p.2.length).sum = 1 ∧
      ∀ i p, t.codeAt i = some p → ∃ n, walkBits s.nodes r r p = some ([n], r) ∧
        (nodeAt s.nodes n).leaf = true ∧ slotOf s.w (nodeAt s.nodes n) = i)

/-! ## The tree stream (44_treecodec.md) -/

/-- R206, R207: TWRITE appends the stream of the tree at ROOT and gives its length; with no tree it ends with
`EmptyInput`. -/
def Obligations.TwriteAppendsTree : Prop :=
  ∀ s ca k, s.cursorOf? ca = some k →
    ((s.cur k).isOpen = true → (s.cur k).mode = .write → s.root = none →
      exec (.twrite ca) s = .next (failed s 20 0)) ∧
    ∀ r bits, s.root = some r → bits = treeStream s.w s.nodes s.nodes.length r → Writable s k bits.length →
      ∃ t, exec (.twrite ca) s = .next t ∧
        t = { s with
          a0 := BitVec.ofNat 64 bits.length, cursors := t.cursors, env := t.env, err := 0, einfo := 0 } ∧
        OnlyCursor s t k ∧ Stored s t k bits

/-- R101: the size of a tree's stream: `2 + WBITS` bits for a full-width leaf, `10 + BITLEN` for another, and one bit for
each internal node, of which there is one less than leaves. -/
def Obligations.TreeStreamSize : Prop :=
  ∀ s r, Machine.Inv s → s.root = some r →
    (treeStream s.w s.nodes s.nodes.length r).length + 1 =
      ((leavesOf s.nodes s.nodes.length r).map fun n =>
        (if (nodeAt s.nodes n).bitLen = Config.wbits s.w then 2 + Config.wbits s.w else 10 + (nodeAt s.nodes n).bitLen) +
          1).sum

/-- R208, R210: TREAD of the stream of a tree (of the same or another state) gives a tree of the same shape and leaves,
numbered from 0, without frequencies, and the stream's length; with a declared size below that it fails with
`CorruptedTree(1)` and leaves no tree. -/
def Obligations.TreadOfStream : Prop :=
  ∀ s₀ r bits rest s ca k, Machine.Inv s₀ → Owned s₀ → s₀.root = some r → s₀.w = s.w →
    bits = treeStream s₀.w s₀.nodes s₀.nodes.length r → s.cursorOf? ca = some k → Readable s k →
    pending (s.chan k) = bits ++ rest →
    (bits.length ≤ s.a0.toNat → ∃ t, exec (.tread ca) s = .next t ∧
      t = { s with
        nodes := t.nodes, root := some 0, heap := [], a0 := BitVec.ofNat 64 bits.length, cursors := t.cursors
        env := t.env, err := 0, einfo := 0 } ∧
      treeShape t.nodes 0 = treeShape s₀.nodes r ∧ treeCodes t 0 = treeCodes s₀ r ∧
      t.nodes.length = treeSize s₀.nodes s₀.nodes.length r ∧ (∀ n ∈ t.nodes, n.freq = 0) ∧
      OnlyCursor s t k ∧ Delivered s t k bits.length) ∧
    (s.a0.toNat < bits.length → ∃ t, exec (.tread ca) s = .next t ∧
      t = failed { s with nodes := [], root := none, heap := [], cursors := t.cursors, env := t.env } 3 1)

/-- R208, R209, R211, R266, R310: how TREAD refuses a stream, wherever in it. Let the stream agree with the stream of a tree
up to a node, or up to a field of it. A node beyond `NODE_CAP` is `OutOfMemory(1)`; a field beyond the declared size is
`CorruptedTree(1)`; a field that the stream does not hold whole is `UnexpectedEof` with the bits of the fields before it;
a leaf with a length field of `WBITS` or more is `CorruptedTree(2)`. No tree is left, and the cursor is after the bits
taken. -/
def Obligations.TreadRefuses : Prop :=
  ∀ s ca k (T : PrefixTree) before node after pre, s.cursorOf? ca = some k → Readable s k → T.ok s.w = true →
    T.nodeFields s.w = before ++ node :: after → pre = before.flatten.flatten → pre.length ≤ s.a0.toNat →
    (∀ rest, before.length = Config.nodeCap s.w → pending (s.chan k) = pre ++ rest →
      ∃ t, exec (.tread ca) s = .next t ∧ TreadFailed s t k 2 1 pre.length) ∧
    (before.length < Config.nodeCap s.w →
      (∀ done field more, node = done ++ field :: more →
        (∀ rest, pending (s.chan k) = pre ++ done.flatten ++ rest → (pre ++ done.flatten).length ≤ s.a0.toNat →
          s.a0.toNat < (pre ++ done.flatten ++ field).length →
          ∃ t, exec (.tread ca) s = .next t ∧ TreadFailed s t k 3 1 (pre ++ done.flatten).length) ∧
        (∀ part, pending (s.chan k) = pre ++ done.flatten ++ part → part.length < field.length →
          (pre ++ done.flatten ++ field).length ≤ s.a0.toNat →
          ∃ t, exec (.tread ca) s = .next t ∧
            TreadFailed s t k 4 (BitVec.ofNat 64 (pre ++ done.flatten).length)
              (pre ++ done.flatten ++ part).length)) ∧
      ∀ len rest, node.head? = some [true] → Config.wbits s.w ≤ len → len < 256 → pre.length + 10 ≤ s.a0.toNat →
        pending (s.chan k) = pre ++ [true, true] ++ uintbits 8 len ++ rest →
        ∃ t, exec (.tread ca) s = .next t ∧ TreadFailed s t k 3 2 (pre.length + 10))

/-! ## The payload (45_payload_codec.md) -/

/-- R221, R102: ENCODE writes the codes of the words of the pending stream, in order, and gives their total length. The two
cursors are on different files, so that no bit read is one just written. -/
def Obligations.EncodeWritesCodes : Prop :=
  ∀ s ca cb ka kb (pats : List Bits), s.cursorOf? ca = some ka → s.cursorOf? cb = some kb → Readable s ka →
    (s.cur ka).fid ≠ (s.cur kb).fid →
    (wordsOf s.w (pending (s.chan ka))).map (fun p => s.codeAt (wordSlot s.w p.1 p.2)) = pats.map some →
    Writable s kb pats.flatten.length → ∃ t, exec (.encode ca cb) s = .next t ∧
      t = { s with
        a0 := BitVec.ofNat 64 pats.flatten.length, cursors := t.cursors, env := t.env, err := 0, einfo := 0 } ∧
      OnlyCursors s t ka kb ∧ Stored s t kb pats.flatten ∧ pending (t.chan ka) = [] ∧
      absBitPos (t.cur ka) = absBitPos (s.cur ka) + (pending (s.chan ka)).length

/-- R221, R271: at the first word without a code ENCODE stops with `NoCode`, EINFO the word's slot; the codes before it stay
written and the read cursor is after that word. -/
def Obligations.EncodeStopsAtNoCode : Prop :=
  ∀ s ca cb ka kb ws x len rest (pats : List Bits), s.cursorOf? ca = some ka → s.cursorOf? cb = some kb → Readable s ka →
    (s.cur ka).fid ≠ (s.cur kb).fid → wordsOf s.w (pending (s.chan ka)) = ws ++ (x, len) :: rest →
    ws.map (fun p => s.codeAt (wordSlot s.w p.1 p.2)) = pats.map some → s.codeAt (wordSlot s.w x len) = none →
    Writable s kb pats.flatten.length → ∃ t, exec (.encode ca cb) s = .next t ∧
      t = failed { s with cursors := t.cursors, env := t.env } 19 (BitVec.ofNat 64 (wordSlot s.w x len)) ∧
      OnlyCursors s t ka kb ∧ Stored s t kb pats.flatten ∧
      pending (t.chan ka) = (pending (s.chan ka)).drop (Config.wbits s.w * (ws.length + 1))

/-- R223, R224: DECODE walks the tree over exactly A0 bits and writes the word of each leaf it reaches; A0 is then the
number of words, and A1 is 0 when the walk ended at the root. -/
def Obligations.DecodeWritesWords : Prop :=
  ∀ s ca cb ka kb r leaves last, s.cursorOf? ca = some ka → s.cursorOf? cb = some kb → Readable s ka →
    (s.cur ka).fid ≠ (s.cur kb).fid → s.root = some r → s.a0.toNat ≤ (pending (s.chan ka)).length →
    walkBits s.nodes r r ((pending (s.chan ka)).take s.a0.toNat) = some (leaves, last) →
    Writable s kb (leaves.flatMap fun n => leafBits (nodeAt s.nodes n)).length →
    ∃ t, exec (.decode ca cb) s = .next t ∧
      t = { s with
        a0 := BitVec.ofNat 64 leaves.length, a1 := if last = r then 0 else 1, cursors := t.cursors, env := t.env
        err := 0, einfo := 0 } ∧
      OnlyCursors s t ka kb ∧ Stored s t kb (leaves.flatMap fun n => leafBits (nodeAt s.nodes n)) ∧
      pending (t.chan ka) = (pending (s.chan ka)).drop s.a0.toNat ∧
      absBitPos (t.cur ka) = absBitPos (s.cur ka) + s.a0.toNat

/-- R223: how DECODE stops. A count of 0 needs no tree and gives A0 = 0 and A1 = 0; with bits to decode and no tree it is
`CorruptedTree(5)` before any bit is read; a stream that ends early is `UnexpectedEof`, EINFO the bits consumed; a `1` with
a leaf root is `CorruptedTree(3)`. What was emitted stays written. -/
def Obligations.DecodeStops : Prop :=
  ∀ s ca cb ka kb, s.cursorOf? ca = some ka → s.cursorOf? cb = some kb → Readable s ka →
    (s.cur ka).fid ≠ (s.cur kb).fid →
    ((s.cur kb).isOpen = true → (s.cur kb).mode = .write →
      (s.a0 = 0 → exec (.decode ca cb) s = .next { s with a0 := 0, a1 := 0, err := 0, einfo := 0 }) ∧
      (s.a0 ≠ 0 → s.root = none → exec (.decode ca cb) s = .next (failed s 3 5))) ∧
    (∀ r leaves last, s.root = some r → (pending (s.chan ka)).length < s.a0.toNat →
      walkBits s.nodes r r (pending (s.chan ka)) = some (leaves, last) →
      Writable s kb (leaves.flatMap fun n => leafBits (nodeAt s.nodes n)).length →
      ∃ t, exec (.decode ca cb) s = .next t ∧
        t = failed { s with cursors := t.cursors, env := t.env } 4 (BitVec.ofNat 64 (pending (s.chan ka)).length) ∧
        OnlyCursors s t ka kb ∧ Stored s t kb (leaves.flatMap fun n => leafBits (nodeAt s.nodes n)) ∧
        pending (t.chan ka) = []) ∧
    (∀ r n rest, s.root = some r → (nodeAt s.nodes r).leaf = true → n < s.a0.toNat →
      pending (s.chan ka) = List.replicate n false ++ true :: rest →
      Writable s kb (n * (nodeAt s.nodes r).bitLen) →
      ∃ t, exec (.decode ca cb) s = .next t ∧
        t = failed { s with cursors := t.cursors, env := t.env } 3 3 ∧
        OnlyCursors s t ka kb ∧ Stored s t kb (List.replicate n (leafBits (nodeAt s.nodes r))).flatten ∧
        pending (t.chan ka) = rest)

/-- R225: DECODE inverts ENCODE. Let CTBUILD succeed on a tree, let every word of a bit stream have a code, and let the
tree's tail leaf hold the stream's tail word. Then DECODE of the stream's codes, over that tree or a copy of its shape, in
any state, writes exactly the stream, counts its words, ends at the root, and leaves the bits after the payload
unread. -/
def Obligations.DecodeInvertsEncode : Prop :=
  ∀ s c r (stream : Bits) (pats : List Bits), Machine.Inv s → s.root = some r → exec .ctbuild s = .next c → c.err = 0 →
    (wordsOf s.w stream).map (fun p => c.codeAt (wordSlot s.w p.1 p.2)) = pats.map some →
    (∀ p ∈ wordsOf s.w stream, p.2 < Config.wbits s.w → ∀ n ∈ leavesOf s.nodes s.nodes.length r,
      (nodeAt s.nodes n).bitLen < Config.wbits s.w → (nodeAt s.nodes n).wb = p.1 ∧ (nodeAt s.nodes n).bitLen = p.2) →
    ∀ d r' ca cb ka kb rest, d.cursorOf? ca = some ka → d.cursorOf? cb = some kb → Readable d ka →
      Writable d kb stream.length → (d.cur ka).fid ≠ (d.cur kb).fid → d.w = s.w → d.root = some r' →
      treeShape d.nodes r' = treeShape s.nodes r → pending (d.chan ka) = pats.flatten ++ rest →
      d.a0.toNat = pats.flatten.length →
      ∃ t, exec (.decode ca cb) d = .next t ∧
        t = { d with
          a0 := BitVec.ofNat 64 (wordsOf s.w stream).length, a1 := 0, cursors := t.cursors, env := t.env, err := 0
          einfo := 0 } ∧
        OnlyCursors d t ka kb ∧ Stored d t kb stream ∧ pending (t.chan ka) = rest

/-! ## What a command leaves alone -/

/-- R78, R279: a command takes no act of the host, touches no cursor that it does not name (SRST closes them all), and
changes no file but those its cursors are bound to. -/
def Obligations.OwnCursorsOnly : Prop :=
  ∀ i s t, exec i s = .next t →
    t.inbox = s.inbox ∧ t.seen = s.seen ∧
    (i ≠ .srst → ∀ k, (∀ c ∈ cursorsOf i, s.cursorOf? c ≠ some k) → t.cur k = s.cur k) ∧
    ∀ f, (∀ c ∈ cursorsOf i, ∀ k, s.cursorOf? c = some k → (s.cur k).fid ≠ f ∧ (t.cur k).fid ≠ f) →
      t.env.file f = s.env.file f

/-- R304, R26, R303, R32: the word size, the histogram, the tree with its heap, the codes and DB are changed by the commands
that own them and by no other. -/
def Obligations.TablesApart : Prop :=
  ∀ i s t, exec i s = .next t →
    (.wordSize ∉ partsOf i → t.w = s.w) ∧
    (.histogram ∉ partsOf i → t.freq = s.freq ∧ t.tail = s.tail) ∧
    (.tree ∉ partsOf i → t.nodes = s.nodes ∧ t.root = s.root ∧ t.heap = s.heap) ∧
    (.codes ∉ partsOf i → t.code = s.code) ∧
    (.buffer ∉ partsOf i → t.db = s.db)

/-- R21, R305: the general registers a command does not name as results keep their values. -/
def Obligations.RegistersKept : Prop :=
  ∀ i s t, exec i s = .next t →
    (0 ∉ resultRegs i → t.a0 = s.a0) ∧ (1 ∉ resultRegs i → t.a1 = s.a1) ∧ (2 ∉ resultRegs i → t.a2 = s.a2) ∧
    (3 ∉ resultRegs i → t.a3 = s.a3)

/-- R30: while a cursor is open its direction, its file and its buffer size do not change, whatever the step. R44: nor do
the parameters, ever. -/
def Obligations.BindingAndParametersFixed : Prop :=
  ∀ s t, step s = .next t →
    t.env.par = s.env.par ∧
    ∀ k, (s.cur k).isOpen = true → (t.cur k).isOpen = true →
      (t.cur k).mode = (s.cur k).mode ∧ (t.cur k).fid = (s.cur k).fid ∧ (t.cur k).bufsz = (s.cur k).bufsz

/-! ## The host (10_state.md, 20_memory.md) -/

/-- R23, R25 to R29, R31, R32, R39, R40: a host read has no side effect on the block, and what each offset reads. -/
def Obligations.RegisterReads : Prop :=
  (∀ s off rest, s.inbox = .read off :: rest →
    step s = .next { s with inbox := rest, seen := .reg (readReg { s with inbox := rest } off) }) ∧
  ∀ s,
    readReg s 0x008 = s.err.setWidth 64 ||| (BitVec.ofBool s.sticky).setWidth 64 <<< 8 |||
      s.firstErr.setWidth 64 <<< 16 ∧
    readReg s 0x010 = s.einfo ∧
    readReg s 0x018 = (if s.w = .one then 1 else 2) ∧
    readReg s 0x020 = s.a0 ∧ readReg s 0x028 = s.a1 ∧ readReg s 0x030 = s.a2 ∧ readReg s 0x038 = s.a3 ∧
    (readReg s 0x040).extractLsb' 0 32 = (match s.root with | none => 0xFFFFFFFF | some r => BitVec.ofNat 32 r) ∧
    (readReg s 0x040).extractLsb' 32 32 = BitVec.ofNat 32 s.nodes.length ∧
    readReg s 0x048 = (BitVec.ofNat 32 s.heap.length).setWidth 64 ∧
    (s.tail.bits < 32 → readReg s 0x050 = s.tail.wb.b0.setWidth 64 ||| s.tail.wb.b1.setWidth 64 <<< 8 |||
      BitVec.ofNat 64 s.tail.bits <<< 16 ||| (BitVec.ofBool s.tail.valid).setWidth 64 <<< 24) ∧
    (∀ k : Fin Config.curSlots, k.val < s.env.par.ncur →
      readReg s (0x100 + 0x40 * k.val) = (BitVec.ofBool (s.cur k).isOpen).setWidth 64 |||
        (if (s.cur k).mode = .write then 2 else 0) ||| BitVec.ofNat 64 (s.cur k).bitP.val <<< 4 |||
        (s.cur k).fid.setWidth 64 <<< 16 ∧
      readReg s (0x100 + 0x40 * k.val + 0x08) = BitVec.ofNat 64 (s.cur k).byteP ∧
      readReg s (0x100 + 0x40 * k.val + 0x10) = BitVec.ofNat 64 (s.cur k).valid ∧
      readReg s (0x100 + 0x40 * k.val + 0x18) = BitVec.ofNat 64 (s.cur k).bufsz ∧
      readReg s (0x100 + 0x40 * k.val + 0x20) = BitVec.ofNat 64 (s.cur k).fpos) ∧
    (∀ j, j < s.env.par.dbBytes → readReg s (0x800 + j) = (s.db.getD j 0).setWidth 64) ∧
    ∀ off, off ∉ [0x008, 0x010, 0x018, 0x020, 0x028, 0x030, 0x038, 0x040, 0x048, 0x050] →
      (∀ k : Fin Config.curSlots, k.val < s.env.par.ncur →
        ∀ d ∈ [0x00, 0x08, 0x10, 0x18, 0x20], off ≠ 0x100 + 0x40 * k.val + d) →
      ¬ (0x800 ≤ off ∧ off < 0x800 + s.env.par.dbBytes) → readReg s off = 0

/-- R21, R32, R39, R40: what a host write to an offset other than CMD does; a read-only or unmapped offset ignores it. -/
def Obligations.RegisterWrites : Prop :=
  ∀ s off v rest, s.inbox = .write off v :: rest →
    (off = 0x020 → step s = .next { s with inbox := rest, a0 := v }) ∧
    (off = 0x028 → step s = .next { s with inbox := rest, a1 := v }) ∧
    (off = 0x030 → step s = .next { s with inbox := rest, a2 := v }) ∧
    (off = 0x038 → step s = .next { s with inbox := rest, a3 := v }) ∧
    (∀ j, off = 0x800 + j → j < s.env.par.dbBytes →
      step s = .next { s with inbox := rest, db := s.db.set j (v.setWidth 8) }) ∧
    (off ∉ [0x000, 0x020, 0x028, 0x030, 0x038] → ¬ (0x800 ≤ off ∧ off < 0x800 + s.env.par.dbBytes) →
      step s = .next { s with inbox := rest })

/-- R60, R64, R79: what the host may do with files between commands, and the answers of `IO_FAIL`. A file may be created,
replaced and deleted, and any file read; no other file changes. These have no move: a deletion under an open cursor, a
shortening below its `FPOS` (log entry 9: shortening is against the old length too, so a file may be replaced by one that
is not shorter even where `FPOS` lies beyond both), a file longer than `MAX_FILE_BYTES` (log entry 11), and an identifier
of `NFID` or more (log entry 20). -/
def Obligations.HostFiles : Prop :=
  ∀ s f rest, Machine.Inv s →
    (∀ bytes, s.inbox = .setFile f bytes :: rest →
      (s.env.par.nfid ≤ f.toNat → step s = .fault .hostNoSuchFile) ∧
      (∀ k, f.toNat < s.env.par.nfid → (s.cur k).isOpen = true → (s.cur k).fid = f →
        (∀ b, bytes = some b → b.length < (fileBytes (s.chan k)).length ∧ b.length < (s.cur k).fpos) →
        step s = .fault .hostDuty) ∧
      (f.toNat < s.env.par.nfid →
        (∀ k, (s.cur k).isOpen = true → (s.cur k).fid = f →
          ∃ b, bytes = some b ∧ ((fileBytes (s.chan k)).length ≤ b.length ∨ (s.cur k).fpos ≤ b.length)) →
        (s.env.par.maxFileBytes < (bytes.getD []).length → step s = .fault .hostFileTooLong) ∧
        ((bytes.getD []).length ≤ s.env.par.maxFileBytes →
          ∃ t, step s = .next t ∧ t = { s with inbox := rest, env := { s.env with files := t.env.files } } ∧
            ∀ g, t.env.file g = if g = f then bytes else s.env.file g))) ∧
    (s.inbox = .readFile f :: rest →
      (s.env.par.nfid ≤ f.toNat → step s = .fault .hostNoSuchFile) ∧
      (f.toNat < s.env.par.nfid → step s = .next { s with inbox := rest, seen := .file (s.env.file f) })) ∧
    ∀ fails, s.inbox = .answerIO fails :: rest →
      step s = .next { s with inbox := rest, env := { s.env with ioFail := fails } }
end

