-- ==== Sys2Proof/Laws/Bits.lean ====
section
/-! SUPPORT. Bits of byte buffers: reading back what was set, lengths, and a buffer as the sequence of its bits. -/

namespace Sys2Proof.Machine

open Sys2Proof

/-- The bits of one byte with one of them set (R7). -/
theorem byteBit_setByteBit (x : Byte) (b : Bool) : ∀ {j l : Nat}, j < 8 → l < 8 →
    byteBit (setByteBit x j b) l = if l = j then b else byteBit x l := by
  intro j l hj hl
  simp only [byteBit, setByteBit, bitMask, BitVec.getLsbD_or, BitVec.getLsbD_and, BitVec.getLsbD_not,
    BitVec.getLsbD_shiftLeft]
  by_cases h : l = j
  · subst h
    cases b <;> simp
    all_goals omega
  · by_cases hlt : 7 - l < 7 - j
    · cases b <;> simp [h, hlt] <;> omega
    · have : 7 - l - (7 - j) ≠ 0 := by omega
      cases b <;> simp [h, hlt, this, BitVec.getLsbD_one] <;> omega

/-- The byte with buffer bit `j` or-ed in, where it was clear. -/
theorem byteBit_or_bitMask (x : Byte) (b : Bool) {j l : Nat} (hj : j < 8) (hl : l < 8) :
    byteBit (x ||| bitMask j b) l = (byteBit x l || (decide (l = j) && b)) := by
  simp only [byteBit, bitMask, BitVec.getLsbD_or, BitVec.getLsbD_shiftLeft]
  by_cases h : l = j
  · subst h
    cases b <;> simp
    omega
  · by_cases hlt : 7 - l < 7 - j
    · cases b <;> simp [h, hlt]
    · have : 7 - l - (7 - j) ≠ 0 := by omega
      cases b <;> simp [h, hlt, this, BitVec.getLsbD_one]

@[simp] theorem byteBit_zero (j : Nat) : byteBit 0#8 j = false := by simp [byteBit]

/-- A byte is its eight bits. -/
theorem byte_ext {x y : Byte} (h : ∀ j < 8, byteBit x j = byteBit y j) : x = y := by
  apply BitVec.eq_of_getLsbD_eq
  intro i hi
  have := h (7 - i) (by omega)
  simp only [byteBit] at this
  rwa [show 7 - (7 - i) = i by omega] at this

@[simp] theorem byteBits_length (x : Byte) : (byteBits x).length = 8 := by simp [byteBits]

theorem byteBits_getElem (x : Byte) (j : Nat) (h : j < (byteBits x).length) : (byteBits x)[j] = byteBit x j := by
  simp [byteBits]

@[simp] theorem bytesBits_nil : bytesBits [] = [] := rfl

@[simp] theorem bytesBits_cons (x : Byte) (B : List Byte) : bytesBits (x :: B) = byteBits x ++ bytesBits B := by
  simp [bytesBits]

@[simp] theorem bytesBits_append (A B : List Byte) : bytesBits (A ++ B) = bytesBits A ++ bytesBits B := by
  simp [bytesBits]

@[simp] theorem bytesBits_length (B : List Byte) : (bytesBits B).length = 8 * B.length := by
  induction B with
  | nil => rfl
  | cons x B ih => simp [ih]; omega

/-- Bit `i` of a buffer (R7) is bit `i` of its bits. -/
theorem bufbit_eq_bytesBits (B : List Byte) (i : Nat) : bufbit B i = (bytesBits B).getD i false := by
  induction B generalizing i with
  | nil => simp [bufbit]
  | cons x B ih =>
    by_cases h : i < 8
    · have h0 : i / 8 = 0 := by omega
      have h1 : i % 8 = i := by omega
      rw [bytesBits_cons, List.getD_append _ _ _ _ (by simpa using h)]
      simp [bufbit, h0, h1, byteBits, List.getD_eq_getElem?_getD, h]
    · have h0 : i / 8 = (i - 8) / 8 + 1 := by omega
      have h1 : i % 8 = (i - 8) % 8 := by omega
      have := ih (i - 8)
      simp only [bufbit] at this ⊢
      rw [h0, h1, List.getD_cons_succ, this, bytesBits_cons, List.getD_append_right _ _ _ _ (by simp; omega)]
      simp

@[simp] theorem bufbits_length (B : List Byte) (s n : Nat) : (bufbits B s n).length = n := by simp [bufbits]

theorem bufbits_getElem (B : List Byte) (s n j : Nat) (h : j < (bufbits B s n).length) :
    (bufbits B s n)[j] = bufbit B (s + j) := by simp [bufbits]

theorem bufbits_succ (B : List Byte) (s n : Nat) : bufbits B s (n + 1) = bufbit B s :: bufbits B (s + 1) n := by
  apply List.ext_getElem
  · simp
  · intro j h1 h2
    cases j with
    | zero => simp [bufbits]
    | succ j => simp [bufbits]; congr 1; omega

@[simp] theorem setbufbit_length (B : List Byte) (i : Nat) (b : Bool) : (setbufbit B i b).length = B.length := by
  simp [setbufbit]

/-- Reading back a bit after one is set (R7). -/
theorem bufbit_setbufbit (B : List Byte) (i j : Nat) (b : Bool) (h : i < 8 * B.length) :
    bufbit (setbufbit B i b) j = if j = i then b else bufbit B j := by
  have hi : i / 8 < B.length := by omega
  by_cases hj : j / 8 = i / 8
  · have hg : (B.modify (i / 8) fun x => setByteBit x (i % 8) b).getD (j / 8) 0 =
        setByteBit (B.getD (i / 8) 0) (i % 8) b := by
      simp [List.getD_eq_getElem?_getD, hj, hi]
    rw [bufbit, setbufbit, hg, byteBit_setByteBit _ _ (by omega) (by omega), bufbit, hj]
    by_cases h2 : j = i
    · subst h2; simp
    · rw [if_neg (by omega), if_neg h2]
  · have hg : (B.modify (i / 8) fun x => setByteBit x (i % 8) b).getD (j / 8) 0 = B.getD (j / 8) 0 := by
      have hij : i / 8 ≠ j / 8 := fun e => hj e.symm
      simp [List.getD_eq_getElem?_getD, hij]
    have hne : j ≠ i := fun e => hj (by rw [e])
    rw [bufbit, setbufbit, hg, if_neg hne, bufbit]

@[simp] theorem setBits_length (B : List Byte) (i : Nat) (s : Bits) : (setBits B i s).length = B.length := by
  induction s generalizing B i with
  | nil => rfl
  | cons b s ih => simp [setBits, ih]

/-- Reading back after a run of bits is set: the bits of the run where it lies, the old ones elsewhere. -/
theorem bufbit_setBits (B : List Byte) (i j : Nat) (s : Bits) (h : i + s.length ≤ 8 * B.length) :
    bufbit (setBits B i s) j = if i ≤ j ∧ j < i + s.length then s.getD (j - i) false else bufbit B j := by
  induction s generalizing B i with
  | nil => simp [setBits]; omega
  | cons b s ih =>
    simp only [List.length_cons] at h
    simp only [setBits, List.length_cons]
    rw [ih _ _ (by simp; omega), bufbit_setbufbit _ _ _ _ (by omega)]
    by_cases h1 : j = i
    · subst h1
      rw [if_neg (by omega), if_pos rfl, if_pos (by omega)]
      simp
    · rw [if_neg h1]
      by_cases h2 : i + 1 ≤ j ∧ j < i + 1 + s.length
      · rw [if_pos h2, if_pos (by omega), show j - i = (j - (i + 1)) + 1 by omega, List.getD_cons_succ]
      · rw [if_neg h2, if_neg (by omega)]

@[simp] theorem uintbits_length (n v : Nat) : (uintbits n v).length = n := by simp [uintbits]

/-! ## Words -/

@[simp] theorem wordList_length (x : WordBytes) : (wordList x).length = 2 := rfl

@[simp] theorem wordBits_length (x : WordBytes) (n : Nat) : (wordBits x n).length = n := by simp [wordBits]

/-- The bytes of a word made from bits are the bits set in two zero bytes (R150). -/
theorem wordList_wordOfBits (s : Bits) : wordList (wordOfBits s) = setBits [0, 0] 0 s := by
  have h : (setBits [0, 0] 0 s).length = 2 := by simp
  simp only [wordList, wordOfBits]
  match hB : setBits [0, 0] 0 s, h with
  | [x, y], _ => rfl

/-- Every bit of a word made from at most 16 bits. -/
theorem bufbit_wordOfBits (s : Bits) (hs : s.length ≤ 16) (j : Nat) :
    bufbit (wordList (wordOfBits s)) j = s.getD j false := by
  rw [wordList_wordOfBits, bufbit_setBits _ _ _ _ (by simpa using hs)]
  by_cases h : j < s.length
  · rw [if_pos (by omega)]; simp
  · rw [if_neg (by omega), List.getD_eq_default _ _ (by omega)]
    simp only [bufbit]
    match j / 8 with
    | 0 => simp
    | 1 => simp
    | n + 2 => simp

/-- A word made from bits has these bits (R150, R209). -/
theorem wordBits_wordOfBits (s : Bits) (hs : s.length ≤ 16) : wordBits (wordOfBits s) s.length = s := by
  apply List.ext_getElem
  · simp
  · intro j h1 h2
    simp only [wordBits]
    rw [bufbits_getElem, bufbit_wordOfBits s hs]
    simp [List.getD_eq_getElem?_getD, h2]

theorem wordClear_iff (x : WordBytes) (n : Nat) :
    wordClear x n = true ↔ ∀ j, n ≤ j → j < 16 → bufbit (wordList x) j = false := by
  simp only [wordClear, List.all_eq_true, List.mem_range, Bool.not_eq_true']
  constructor
  · intro h j h1 h2
    have := h (j - n) (by omega)
    rwa [show n + (j - n) = j by omega] at this
  · intro h i hi
    exact h (n + i) (by omega) (by omega)

/-- The bits of a word beyond the ones it was made from are 0 (R34, R35). -/
theorem wordClear_wordOfBits (s : Bits) (hs : s.length ≤ 16) : wordClear (wordOfBits s) s.length = true := by
  rw [wordClear_iff]
  intro j h1 _
  rw [bufbit_wordOfBits s hs, List.getD_eq_default _ _ h1]

/-- A word is its 16 bits. -/
theorem word_ext {x y : WordBytes} (h : ∀ j < 16, bufbit (wordList x) j = bufbit (wordList y) j) : x = y := by
  obtain ⟨x0, x1⟩ := x
  obtain ⟨y0, y1⟩ := y
  simp only [WordBytes.mk.injEq]
  constructor
  · apply byte_ext
    intro j hj
    have := h j (by omega)
    simpa [bufbit, wordList, show j / 8 = 0 by omega, show j % 8 = j by omega] using this
  · apply byte_ext
    intro j hj
    have := h (8 + j) (by omega)
    simpa [bufbit, wordList, show (8 + j) / 8 = 1 by omega, show (8 + j) % 8 = j by omega] using this

/-- A word whose bits from `n` on are 0 is made from its first `n` bits. -/
theorem wordOfBits_wordBits {x : WordBytes} {n : Nat} (hn : n ≤ 16) (h : wordClear x n = true) :
    wordOfBits (wordBits x n) = x := by
  apply word_ext
  intro j hj
  rw [bufbit_wordOfBits _ (by simpa using hn)]
  by_cases hjn : j < n
  · rw [List.getD_eq_getElem?_getD, List.getElem?_eq_getElem (by simpa using hjn)]
    simp [wordBits, bufbits]
  · rw [List.getD_eq_default _ _ (by simp; omega)]
    exact ((wordClear_iff x n).1 h j (by omega) hj).symm

theorem wordClear_mono {x : WordBytes} {n m : Nat} (h : wordClear x n = true) (hnm : n ≤ m) : wordClear x m = true := by
  rw [wordClear_iff] at h ⊢
  exact fun j h1 h2 => h j (by omega) h2

@[simp] theorem wordClear_zero (n : Nat) : wordClear wordZero n = true := by
  rw [wordClear_iff]
  intro j _ hj
  simp only [bufbit, wordList, wordZero]
  match j / 8 with
  | 0 => simp
  | 1 => simp
  | n + 2 => simp

/-! ## The integer value of a word (R66) -/

theorem wbits_cases (w : WordSize) : Config.wbits w = 8 ∨ Config.wbits w = 16 := by cases w <;> simp [Config.wbits, Config.wbytes]

theorem wbits_le (w : WordSize) : Config.wbits w ≤ 16 := by cases w <;> simp [Config.wbits, Config.wbytes]

theorem wbits_pos (w : WordSize) : 0 < Config.wbits w := by cases w <;> simp [Config.wbits, Config.wbytes]

/-- The slot of a full word is below the tail's. -/
theorem widx_lt (w : WordSize) (x : WordBytes) : widx w x < Config.tailIdx w := by
  have h0 := x.b0.isLt
  have h1 := x.b1.isLt
  cases w <;> simp [widx, Config.tailIdx, Config.wbits, Config.wbytes] <;> omega

/-- `idxword` is the inverse of `widx` (R66). -/
theorem widx_idxword (w : WordSize) {v : Nat} (h : v < Config.tailIdx w) : widx w (idxword w v) = v := by
  cases w <;> simp [widx, idxword, Config.tailIdx, Config.wbits, Config.wbytes] at * <;> omega

/-- With `W = 1` the second byte of a slot's word is 0, with `W = 2` no bit is unused (R35, R66). -/
theorem wordClear_idxword (w : WordSize) (v : Nat) : wordClear (idxword w v) (Config.wbits w) = true := by
  rw [wordClear_iff]
  intro j h1 h2
  cases w with
  | one =>
    simp [Config.wbits, Config.wbytes] at h1
    simp [bufbit, wordList, idxword, show j / 8 = 1 by omega]
  | two => simp [Config.wbits, Config.wbytes] at h1; omega

end Sys2Proof.Machine
end

