-- ==== Sys2Proof/Laws/State.lean ====
section
/-! SUPPORT. One lemma per field per update of the state, true by rfl, so that no proof unfolds a record update. -/

namespace Sys2Proof.Machine

open Sys2Proof

section

variable (s : State) (k : Fin Config.curSlots) (c : Cursor)

@[simp] theorem State.setCur_a0 : (s.setCur k c).a0 = s.a0 := rfl
@[simp] theorem State.setCur_a1 : (s.setCur k c).a1 = s.a1 := rfl
@[simp] theorem State.setCur_a2 : (s.setCur k c).a2 = s.a2 := rfl
@[simp] theorem State.setCur_a3 : (s.setCur k c).a3 = s.a3 := rfl
@[simp] theorem State.setCur_err : (s.setCur k c).err = s.err := rfl
@[simp] theorem State.setCur_sticky : (s.setCur k c).sticky = s.sticky := rfl
@[simp] theorem State.setCur_firstErr : (s.setCur k c).firstErr = s.firstErr := rfl
@[simp] theorem State.setCur_einfo : (s.setCur k c).einfo = s.einfo := rfl
@[simp] theorem State.setCur_w : (s.setCur k c).w = s.w := rfl
@[simp] theorem State.setCur_cursors : (s.setCur k c).cursors = s.cursors.set k.val c k.isLt := rfl
@[simp] theorem State.setCur_db : (s.setCur k c).db = s.db := rfl
@[simp] theorem State.setCur_freq : (s.setCur k c).freq = s.freq := rfl
@[simp] theorem State.setCur_tail : (s.setCur k c).tail = s.tail := rfl
@[simp] theorem State.setCur_nodes : (s.setCur k c).nodes = s.nodes := rfl
@[simp] theorem State.setCur_root : (s.setCur k c).root = s.root := rfl
@[simp] theorem State.setCur_heap : (s.setCur k c).heap = s.heap := rfl
@[simp] theorem State.setCur_code : (s.setCur k c).code = s.code := rfl
@[simp] theorem State.setCur_env : (s.setCur k c).env = s.env := rfl
@[simp] theorem State.setCur_inbox : (s.setCur k c).inbox = s.inbox := rfl
@[simp] theorem State.setCur_seen : (s.setCur k c).seen = s.seen := rfl
@[simp] theorem State.setCur_nsym : (s.setCur k c).nsym = s.nsym := rfl
@[simp] theorem State.setCur_wbits : (s.setCur k c).wbits = s.wbits := rfl
@[simp] theorem State.setCur_tailIdx : (s.setCur k c).tailIdx = s.tailIdx := rfl

end

section

variable (s : State) (k : Fin Config.curSlots) (ch : Chan)

@[simp] theorem State.putChan_a0 : (s.putChan k ch).a0 = s.a0 := rfl
@[simp] theorem State.putChan_a1 : (s.putChan k ch).a1 = s.a1 := rfl
@[simp] theorem State.putChan_a2 : (s.putChan k ch).a2 = s.a2 := rfl
@[simp] theorem State.putChan_a3 : (s.putChan k ch).a3 = s.a3 := rfl
@[simp] theorem State.putChan_err : (s.putChan k ch).err = s.err := rfl
@[simp] theorem State.putChan_sticky : (s.putChan k ch).sticky = s.sticky := rfl
@[simp] theorem State.putChan_firstErr : (s.putChan k ch).firstErr = s.firstErr := rfl
@[simp] theorem State.putChan_einfo : (s.putChan k ch).einfo = s.einfo := rfl
@[simp] theorem State.putChan_w : (s.putChan k ch).w = s.w := rfl
@[simp] theorem State.putChan_cursors : (s.putChan k ch).cursors = s.cursors.set k.val ch.cur k.isLt := rfl
@[simp] theorem State.putChan_db : (s.putChan k ch).db = s.db := rfl
@[simp] theorem State.putChan_freq : (s.putChan k ch).freq = s.freq := rfl
@[simp] theorem State.putChan_tail : (s.putChan k ch).tail = s.tail := rfl
@[simp] theorem State.putChan_nodes : (s.putChan k ch).nodes = s.nodes := rfl
@[simp] theorem State.putChan_root : (s.putChan k ch).root = s.root := rfl
@[simp] theorem State.putChan_heap : (s.putChan k ch).heap = s.heap := rfl
@[simp] theorem State.putChan_code : (s.putChan k ch).code = s.code := rfl
@[simp] theorem State.putChan_env : (s.putChan k ch).env = ch.env := rfl
@[simp] theorem State.putChan_inbox : (s.putChan k ch).inbox = s.inbox := rfl
@[simp] theorem State.putChan_seen : (s.putChan k ch).seen = s.seen := rfl
@[simp] theorem State.putChan_nsym : (s.putChan k ch).nsym = s.nsym := rfl
@[simp] theorem State.putChan_wbits : (s.putChan k ch).wbits = s.wbits := rfl
@[simp] theorem State.putChan_tailIdx : (s.putChan k ch).tailIdx = s.tailIdx := rfl

end

section

variable (s : State)

@[simp] theorem endOk_a0 : (endOk s).a0 = s.a0 := rfl
@[simp] theorem endOk_a1 : (endOk s).a1 = s.a1 := rfl
@[simp] theorem endOk_a2 : (endOk s).a2 = s.a2 := rfl
@[simp] theorem endOk_a3 : (endOk s).a3 = s.a3 := rfl
@[simp] theorem endOk_err : (endOk s).err = 0 := rfl
@[simp] theorem endOk_sticky : (endOk s).sticky = s.sticky := rfl
@[simp] theorem endOk_firstErr : (endOk s).firstErr = s.firstErr := rfl
@[simp] theorem endOk_einfo : (endOk s).einfo = 0 := rfl
@[simp] theorem endOk_w : (endOk s).w = s.w := rfl
@[simp] theorem endOk_cursors : (endOk s).cursors = s.cursors := rfl
@[simp] theorem endOk_db : (endOk s).db = s.db := rfl
@[simp] theorem endOk_freq : (endOk s).freq = s.freq := rfl
@[simp] theorem endOk_tail : (endOk s).tail = s.tail := rfl
@[simp] theorem endOk_nodes : (endOk s).nodes = s.nodes := rfl
@[simp] theorem endOk_root : (endOk s).root = s.root := rfl
@[simp] theorem endOk_heap : (endOk s).heap = s.heap := rfl
@[simp] theorem endOk_code : (endOk s).code = s.code := rfl
@[simp] theorem endOk_env : (endOk s).env = s.env := rfl
@[simp] theorem endOk_inbox : (endOk s).inbox = s.inbox := rfl
@[simp] theorem endOk_seen : (endOk s).seen = s.seen := rfl
@[simp] theorem endOk_cur (j : Fin Config.curSlots) : (endOk s).cur j = s.cur j := rfl
@[simp] theorem endOk_chan (j : Fin Config.curSlots) : (endOk s).chan j = s.chan j := rfl
@[simp] theorem endOk_nsym : (endOk s).nsym = s.nsym := rfl
@[simp] theorem endOk_wbits : (endOk s).wbits = s.wbits := rfl
@[simp] theorem endOk_tailIdx : (endOk s).tailIdx = s.tailIdx := rfl

end

section

variable (e : Err) (s : State)

@[simp] theorem takeError_a0 : (takeError e s).a0 = s.a0 := rfl
@[simp] theorem takeError_a1 : (takeError e s).a1 = s.a1 := rfl
@[simp] theorem takeError_a2 : (takeError e s).a2 = s.a2 := rfl
@[simp] theorem takeError_a3 : (takeError e s).a3 = s.a3 := rfl
@[simp] theorem takeError_err : (takeError e s).err = e.code := rfl
@[simp] theorem takeError_sticky : (takeError e s).sticky = true := rfl
@[simp] theorem takeError_firstErr : (takeError e s).firstErr = firstErrAfter s.sticky s.firstErr e.code := rfl
@[simp] theorem takeError_einfo : (takeError e s).einfo = e.info := rfl
@[simp] theorem takeError_w : (takeError e s).w = s.w := rfl
@[simp] theorem takeError_cursors : (takeError e s).cursors = s.cursors := rfl
@[simp] theorem takeError_db : (takeError e s).db = s.db := rfl
@[simp] theorem takeError_freq : (takeError e s).freq = s.freq := rfl
@[simp] theorem takeError_tail : (takeError e s).tail = s.tail := rfl
@[simp] theorem takeError_nodes : (takeError e s).nodes = s.nodes := rfl
@[simp] theorem takeError_root : (takeError e s).root = s.root := rfl
@[simp] theorem takeError_heap : (takeError e s).heap = s.heap := rfl
@[simp] theorem takeError_code : (takeError e s).code = s.code := rfl
@[simp] theorem takeError_env : (takeError e s).env = s.env := rfl
@[simp] theorem takeError_inbox : (takeError e s).inbox = s.inbox := rfl
@[simp] theorem takeError_seen : (takeError e s).seen = s.seen := rfl
@[simp] theorem takeError_cur (j : Fin Config.curSlots) : (takeError e s).cur j = s.cur j := rfl
@[simp] theorem takeError_chan (j : Fin Config.curSlots) : (takeError e s).chan j = s.chan j := rfl
@[simp] theorem takeError_nsym : (takeError e s).nsym = s.nsym := rfl
@[simp] theorem takeError_wbits : (takeError e s).wbits = s.wbits := rfl
@[simp] theorem takeError_tailIdx : (takeError e s).tailIdx = s.tailIdx := rfl

end

section

variable (s : State)

@[simp] theorem freeTree_a0 : (freeTree s).a0 = s.a0 := rfl
@[simp] theorem freeTree_a1 : (freeTree s).a1 = s.a1 := rfl
@[simp] theorem freeTree_a2 : (freeTree s).a2 = s.a2 := rfl
@[simp] theorem freeTree_a3 : (freeTree s).a3 = s.a3 := rfl
@[simp] theorem freeTree_err : (freeTree s).err = s.err := rfl
@[simp] theorem freeTree_sticky : (freeTree s).sticky = s.sticky := rfl
@[simp] theorem freeTree_firstErr : (freeTree s).firstErr = s.firstErr := rfl
@[simp] theorem freeTree_einfo : (freeTree s).einfo = s.einfo := rfl
@[simp] theorem freeTree_w : (freeTree s).w = s.w := rfl
@[simp] theorem freeTree_cursors : (freeTree s).cursors = s.cursors := rfl
@[simp] theorem freeTree_db : (freeTree s).db = s.db := rfl
@[simp] theorem freeTree_freq : (freeTree s).freq = s.freq := rfl
@[simp] theorem freeTree_tail : (freeTree s).tail = s.tail := rfl
@[simp] theorem freeTree_nodes : (freeTree s).nodes = [] := rfl
@[simp] theorem freeTree_root : (freeTree s).root = none := rfl
@[simp] theorem freeTree_heap : (freeTree s).heap = [] := rfl
@[simp] theorem freeTree_code : (freeTree s).code = s.code := rfl
@[simp] theorem freeTree_env : (freeTree s).env = s.env := rfl
@[simp] theorem freeTree_inbox : (freeTree s).inbox = s.inbox := rfl
@[simp] theorem freeTree_seen : (freeTree s).seen = s.seen := rfl
@[simp] theorem freeTree_cur (j : Fin Config.curSlots) : (freeTree s).cur j = s.cur j := rfl
@[simp] theorem freeTree_chan (j : Fin Config.curSlots) : (freeTree s).chan j = s.chan j := rfl
@[simp] theorem freeTree_nsym : (freeTree s).nsym = s.nsym := rfl
@[simp] theorem freeTree_wbits : (freeTree s).wbits = s.wbits := rfl
@[simp] theorem freeTree_tailIdx : (freeTree s).tailIdx = s.tailIdx := rfl

end

section

variable (s : State)

@[simp] theorem clearCodes_a0 : (clearCodes s).a0 = s.a0 := rfl
@[simp] theorem clearCodes_a1 : (clearCodes s).a1 = s.a1 := rfl
@[simp] theorem clearCodes_a2 : (clearCodes s).a2 = s.a2 := rfl
@[simp] theorem clearCodes_a3 : (clearCodes s).a3 = s.a3 := rfl
@[simp] theorem clearCodes_err : (clearCodes s).err = s.err := rfl
@[simp] theorem clearCodes_sticky : (clearCodes s).sticky = s.sticky := rfl
@[simp] theorem clearCodes_firstErr : (clearCodes s).firstErr = s.firstErr := rfl
@[simp] theorem clearCodes_einfo : (clearCodes s).einfo = s.einfo := rfl
@[simp] theorem clearCodes_w : (clearCodes s).w = s.w := rfl
@[simp] theorem clearCodes_cursors : (clearCodes s).cursors = s.cursors := rfl
@[simp] theorem clearCodes_db : (clearCodes s).db = s.db := rfl
@[simp] theorem clearCodes_freq : (clearCodes s).freq = s.freq := rfl
@[simp] theorem clearCodes_tail : (clearCodes s).tail = s.tail := rfl
@[simp] theorem clearCodes_nodes : (clearCodes s).nodes = s.nodes := rfl
@[simp] theorem clearCodes_root : (clearCodes s).root = s.root := rfl
@[simp] theorem clearCodes_heap : (clearCodes s).heap = s.heap := rfl
@[simp] theorem clearCodes_code : (clearCodes s).code = [] := rfl
@[simp] theorem clearCodes_env : (clearCodes s).env = s.env := rfl
@[simp] theorem clearCodes_inbox : (clearCodes s).inbox = s.inbox := rfl
@[simp] theorem clearCodes_seen : (clearCodes s).seen = s.seen := rfl
@[simp] theorem clearCodes_cur (j : Fin Config.curSlots) : (clearCodes s).cur j = s.cur j := rfl
@[simp] theorem clearCodes_chan (j : Fin Config.curSlots) : (clearCodes s).chan j = s.chan j := rfl
@[simp] theorem clearCodes_nsym : (clearCodes s).nsym = s.nsym := rfl
@[simp] theorem clearCodes_wbits : (clearCodes s).wbits = s.wbits := rfl
@[simp] theorem clearCodes_tailIdx : (clearCodes s).tailIdx = s.tailIdx := rfl

end

section

variable (s : State)

@[simp] theorem clearHistogram_a0 : (clearHistogram s).a0 = s.a0 := rfl
@[simp] theorem clearHistogram_a1 : (clearHistogram s).a1 = s.a1 := rfl
@[simp] theorem clearHistogram_a2 : (clearHistogram s).a2 = s.a2 := rfl
@[simp] theorem clearHistogram_a3 : (clearHistogram s).a3 = s.a3 := rfl
@[simp] theorem clearHistogram_err : (clearHistogram s).err = s.err := rfl
@[simp] theorem clearHistogram_sticky : (clearHistogram s).sticky = s.sticky := rfl
@[simp] theorem clearHistogram_firstErr : (clearHistogram s).firstErr = s.firstErr := rfl
@[simp] theorem clearHistogram_einfo : (clearHistogram s).einfo = s.einfo := rfl
@[simp] theorem clearHistogram_w : (clearHistogram s).w = s.w := rfl
@[simp] theorem clearHistogram_cursors : (clearHistogram s).cursors = s.cursors := rfl
@[simp] theorem clearHistogram_db : (clearHistogram s).db = s.db := rfl
@[simp] theorem clearHistogram_freq : (clearHistogram s).freq = [] := rfl
@[simp] theorem clearHistogram_tail : (clearHistogram s).tail = Tail.none := rfl
@[simp] theorem clearHistogram_nodes : (clearHistogram s).nodes = s.nodes := rfl
@[simp] theorem clearHistogram_root : (clearHistogram s).root = s.root := rfl
@[simp] theorem clearHistogram_heap : (clearHistogram s).heap = s.heap := rfl
@[simp] theorem clearHistogram_code : (clearHistogram s).code = s.code := rfl
@[simp] theorem clearHistogram_env : (clearHistogram s).env = s.env := rfl
@[simp] theorem clearHistogram_inbox : (clearHistogram s).inbox = s.inbox := rfl
@[simp] theorem clearHistogram_seen : (clearHistogram s).seen = s.seen := rfl
@[simp] theorem clearHistogram_cur (j : Fin Config.curSlots) : (clearHistogram s).cur j = s.cur j := rfl
@[simp] theorem clearHistogram_chan (j : Fin Config.curSlots) : (clearHistogram s).chan j = s.chan j := rfl
@[simp] theorem clearHistogram_nsym : (clearHistogram s).nsym = s.nsym := rfl
@[simp] theorem clearHistogram_wbits : (clearHistogram s).wbits = s.wbits := rfl
@[simp] theorem clearHistogram_tailIdx : (clearHistogram s).tailIdx = s.tailIdx := rfl

end

section

variable (n : Nat) (s : State)

@[simp] theorem pushHeap_a0 : (pushHeap n s).a0 = s.a0 := rfl
@[simp] theorem pushHeap_a1 : (pushHeap n s).a1 = s.a1 := rfl
@[simp] theorem pushHeap_a2 : (pushHeap n s).a2 = s.a2 := rfl
@[simp] theorem pushHeap_a3 : (pushHeap n s).a3 = s.a3 := rfl
@[simp] theorem pushHeap_err : (pushHeap n s).err = s.err := rfl
@[simp] theorem pushHeap_sticky : (pushHeap n s).sticky = s.sticky := rfl
@[simp] theorem pushHeap_firstErr : (pushHeap n s).firstErr = s.firstErr := rfl
@[simp] theorem pushHeap_einfo : (pushHeap n s).einfo = s.einfo := rfl
@[simp] theorem pushHeap_w : (pushHeap n s).w = s.w := rfl
@[simp] theorem pushHeap_cursors : (pushHeap n s).cursors = s.cursors := rfl
@[simp] theorem pushHeap_db : (pushHeap n s).db = s.db := rfl
@[simp] theorem pushHeap_freq : (pushHeap n s).freq = s.freq := rfl
@[simp] theorem pushHeap_tail : (pushHeap n s).tail = s.tail := rfl
@[simp] theorem pushHeap_nodes : (pushHeap n s).nodes = s.nodes := rfl
@[simp] theorem pushHeap_root : (pushHeap n s).root = s.root := rfl
@[simp] theorem pushHeap_heap : (pushHeap n s).heap = heapInsert (freqOf s.nodes) n s.heap := rfl
@[simp] theorem pushHeap_code : (pushHeap n s).code = s.code := rfl
@[simp] theorem pushHeap_env : (pushHeap n s).env = s.env := rfl
@[simp] theorem pushHeap_inbox : (pushHeap n s).inbox = s.inbox := rfl
@[simp] theorem pushHeap_seen : (pushHeap n s).seen = s.seen := rfl
@[simp] theorem pushHeap_cur (j : Fin Config.curSlots) : (pushHeap n s).cur j = s.cur j := rfl
@[simp] theorem pushHeap_chan (j : Fin Config.curSlots) : (pushHeap n s).chan j = s.chan j := rfl
@[simp] theorem pushHeap_nsym : (pushHeap n s).nsym = s.nsym := rfl
@[simp] theorem pushHeap_wbits : (pushHeap n s).wbits = s.wbits := rfl
@[simp] theorem pushHeap_tailIdx : (pushHeap n s).tailIdx = s.tailIdx := rfl

end

section

variable (n : Nat) (f : Node → Node) (s : State)

@[simp] theorem updateNode_a0 : (updateNode n f s).a0 = s.a0 := rfl
@[simp] theorem updateNode_a1 : (updateNode n f s).a1 = s.a1 := rfl
@[simp] theorem updateNode_a2 : (updateNode n f s).a2 = s.a2 := rfl
@[simp] theorem updateNode_a3 : (updateNode n f s).a3 = s.a3 := rfl
@[simp] theorem updateNode_err : (updateNode n f s).err = s.err := rfl
@[simp] theorem updateNode_sticky : (updateNode n f s).sticky = s.sticky := rfl
@[simp] theorem updateNode_firstErr : (updateNode n f s).firstErr = s.firstErr := rfl
@[simp] theorem updateNode_einfo : (updateNode n f s).einfo = s.einfo := rfl
@[simp] theorem updateNode_w : (updateNode n f s).w = s.w := rfl
@[simp] theorem updateNode_cursors : (updateNode n f s).cursors = s.cursors := rfl
@[simp] theorem updateNode_db : (updateNode n f s).db = s.db := rfl
@[simp] theorem updateNode_freq : (updateNode n f s).freq = s.freq := rfl
@[simp] theorem updateNode_tail : (updateNode n f s).tail = s.tail := rfl
@[simp] theorem updateNode_nodes : (updateNode n f s).nodes = s.nodes.modify n f := rfl
@[simp] theorem updateNode_root : (updateNode n f s).root = s.root := rfl
@[simp] theorem updateNode_heap : (updateNode n f s).heap = s.heap := rfl
@[simp] theorem updateNode_code : (updateNode n f s).code = s.code := rfl
@[simp] theorem updateNode_env : (updateNode n f s).env = s.env := rfl
@[simp] theorem updateNode_inbox : (updateNode n f s).inbox = s.inbox := rfl
@[simp] theorem updateNode_seen : (updateNode n f s).seen = s.seen := rfl
@[simp] theorem updateNode_cur (j : Fin Config.curSlots) : (updateNode n f s).cur j = s.cur j := rfl
@[simp] theorem updateNode_chan (j : Fin Config.curSlots) : (updateNode n f s).chan j = s.chan j := rfl
@[simp] theorem updateNode_nsym : (updateNode n f s).nsym = s.nsym := rfl
@[simp] theorem updateNode_wbits : (updateNode n f s).wbits = s.wbits := rfl
@[simp] theorem updateNode_tailIdx : (updateNode n f s).tailIdx = s.tailIdx := rfl

end

section

variable (w : WordSize) (s : State)

@[simp] theorem setWordSize_a0 : (setWordSize w s).a0 = s.a0 := rfl
@[simp] theorem setWordSize_a1 : (setWordSize w s).a1 = s.a1 := rfl
@[simp] theorem setWordSize_a2 : (setWordSize w s).a2 = s.a2 := rfl
@[simp] theorem setWordSize_a3 : (setWordSize w s).a3 = s.a3 := rfl
@[simp] theorem setWordSize_err : (setWordSize w s).err = s.err := rfl
@[simp] theorem setWordSize_sticky : (setWordSize w s).sticky = s.sticky := rfl
@[simp] theorem setWordSize_firstErr : (setWordSize w s).firstErr = s.firstErr := rfl
@[simp] theorem setWordSize_einfo : (setWordSize w s).einfo = s.einfo := rfl
@[simp] theorem setWordSize_w : (setWordSize w s).w = w := rfl
@[simp] theorem setWordSize_cursors : (setWordSize w s).cursors = s.cursors := rfl
@[simp] theorem setWordSize_db : (setWordSize w s).db = s.db := rfl
@[simp] theorem setWordSize_freq : (setWordSize w s).freq = [] := rfl
@[simp] theorem setWordSize_tail : (setWordSize w s).tail = Tail.none := rfl
@[simp] theorem setWordSize_nodes : (setWordSize w s).nodes = [] := rfl
@[simp] theorem setWordSize_root : (setWordSize w s).root = none := rfl
@[simp] theorem setWordSize_heap : (setWordSize w s).heap = [] := rfl
@[simp] theorem setWordSize_code : (setWordSize w s).code = [] := rfl
@[simp] theorem setWordSize_env : (setWordSize w s).env = s.env := rfl
@[simp] theorem setWordSize_inbox : (setWordSize w s).inbox = s.inbox := rfl
@[simp] theorem setWordSize_seen : (setWordSize w s).seen = s.seen := rfl
@[simp] theorem setWordSize_cur (j : Fin Config.curSlots) : (setWordSize w s).cur j = s.cur j := rfl
@[simp] theorem setWordSize_chan (j : Fin Config.curSlots) : (setWordSize w s).chan j = s.chan j := rfl

end

section

variable (x : WordBytes) (s : State)

@[simp] theorem countWord_a0 : (countWord x s).a0 = s.a0 := rfl
@[simp] theorem countWord_a1 : (countWord x s).a1 = s.a1 := rfl
@[simp] theorem countWord_a2 : (countWord x s).a2 = s.a2 := rfl
@[simp] theorem countWord_a3 : (countWord x s).a3 = s.a3 := rfl
@[simp] theorem countWord_err : (countWord x s).err = s.err := rfl
@[simp] theorem countWord_sticky : (countWord x s).sticky = s.sticky := rfl
@[simp] theorem countWord_firstErr : (countWord x s).firstErr = s.firstErr := rfl
@[simp] theorem countWord_einfo : (countWord x s).einfo = s.einfo := rfl
@[simp] theorem countWord_w : (countWord x s).w = s.w := rfl
@[simp] theorem countWord_cursors : (countWord x s).cursors = s.cursors := rfl
@[simp] theorem countWord_db : (countWord x s).db = s.db := rfl
@[simp] theorem countWord_freq : (countWord x s).freq = freqSet s.freq (widx s.w x) (s.freqAt (widx s.w x) + 1) := rfl
@[simp] theorem countWord_tail : (countWord x s).tail = s.tail := rfl
@[simp] theorem countWord_nodes : (countWord x s).nodes = s.nodes := rfl
@[simp] theorem countWord_root : (countWord x s).root = s.root := rfl
@[simp] theorem countWord_heap : (countWord x s).heap = s.heap := rfl
@[simp] theorem countWord_code : (countWord x s).code = s.code := rfl
@[simp] theorem countWord_env : (countWord x s).env = s.env := rfl
@[simp] theorem countWord_inbox : (countWord x s).inbox = s.inbox := rfl
@[simp] theorem countWord_seen : (countWord x s).seen = s.seen := rfl
@[simp] theorem countWord_cur (j : Fin Config.curSlots) : (countWord x s).cur j = s.cur j := rfl
@[simp] theorem countWord_chan (j : Fin Config.curSlots) : (countWord x s).chan j = s.chan j := rfl
@[simp] theorem countWord_nsym : (countWord x s).nsym = s.nsym := rfl
@[simp] theorem countWord_wbits : (countWord x s).wbits = s.wbits := rfl
@[simp] theorem countWord_tailIdx : (countWord x s).tailIdx = s.tailIdx := rfl

end

section

variable (x : WordBytes) (len : Nat) (s : State)

@[simp] theorem recordTail_a0 : (recordTail x len s).a0 = s.a0 := rfl
@[simp] theorem recordTail_a1 : (recordTail x len s).a1 = s.a1 := rfl
@[simp] theorem recordTail_a2 : (recordTail x len s).a2 = s.a2 := rfl
@[simp] theorem recordTail_a3 : (recordTail x len s).a3 = s.a3 := rfl
@[simp] theorem recordTail_err : (recordTail x len s).err = s.err := rfl
@[simp] theorem recordTail_sticky : (recordTail x len s).sticky = s.sticky := rfl
@[simp] theorem recordTail_firstErr : (recordTail x len s).firstErr = s.firstErr := rfl
@[simp] theorem recordTail_einfo : (recordTail x len s).einfo = s.einfo := rfl
@[simp] theorem recordTail_w : (recordTail x len s).w = s.w := rfl
@[simp] theorem recordTail_cursors : (recordTail x len s).cursors = s.cursors := rfl
@[simp] theorem recordTail_db : (recordTail x len s).db = s.db := rfl
@[simp] theorem recordTail_freq : (recordTail x len s).freq = freqSet s.freq s.tailIdx 1 := rfl
@[simp] theorem recordTail_tail : (recordTail x len s).tail = ⟨true, x, len⟩ := rfl
@[simp] theorem recordTail_nodes : (recordTail x len s).nodes = s.nodes := rfl
@[simp] theorem recordTail_root : (recordTail x len s).root = s.root := rfl
@[simp] theorem recordTail_heap : (recordTail x len s).heap = s.heap := rfl
@[simp] theorem recordTail_code : (recordTail x len s).code = s.code := rfl
@[simp] theorem recordTail_env : (recordTail x len s).env = s.env := rfl
@[simp] theorem recordTail_inbox : (recordTail x len s).inbox = s.inbox := rfl
@[simp] theorem recordTail_seen : (recordTail x len s).seen = s.seen := rfl
@[simp] theorem recordTail_cur (j : Fin Config.curSlots) : (recordTail x len s).cur j = s.cur j := rfl
@[simp] theorem recordTail_chan (j : Fin Config.curSlots) : (recordTail x len s).chan j = s.chan j := rfl
@[simp] theorem recordTail_nsym : (recordTail x len s).nsym = s.nsym := rfl
@[simp] theorem recordTail_wbits : (recordTail x len s).wbits = s.wbits := rfl
@[simp] theorem recordTail_tailIdx : (recordTail x len s).tailIdx = s.tailIdx := rfl

end

section

variable (n : Node) (s : State)

@[simp] theorem showNode_a0 : (showNode n s).a0 = nodeWord n := rfl
@[simp] theorem showNode_a1 : (showNode n s).a1 = n.freq := rfl
@[simp] theorem showNode_a2 : (showNode n s).a2 = (refWord n.left).setWidth 64 := rfl
@[simp] theorem showNode_a3 : (showNode n s).a3 = (refWord n.right).setWidth 64 := rfl
@[simp] theorem showNode_err : (showNode n s).err = s.err := rfl
@[simp] theorem showNode_sticky : (showNode n s).sticky = s.sticky := rfl
@[simp] theorem showNode_firstErr : (showNode n s).firstErr = s.firstErr := rfl
@[simp] theorem showNode_einfo : (showNode n s).einfo = s.einfo := rfl
@[simp] theorem showNode_w : (showNode n s).w = s.w := rfl
@[simp] theorem showNode_cursors : (showNode n s).cursors = s.cursors := rfl
@[simp] theorem showNode_db : (showNode n s).db = s.db := rfl
@[simp] theorem showNode_freq : (showNode n s).freq = s.freq := rfl
@[simp] theorem showNode_tail : (showNode n s).tail = s.tail := rfl
@[simp] theorem showNode_nodes : (showNode n s).nodes = s.nodes := rfl
@[simp] theorem showNode_root : (showNode n s).root = s.root := rfl
@[simp] theorem showNode_heap : (showNode n s).heap = s.heap := rfl
@[simp] theorem showNode_code : (showNode n s).code = s.code := rfl
@[simp] theorem showNode_env : (showNode n s).env = s.env := rfl
@[simp] theorem showNode_inbox : (showNode n s).inbox = s.inbox := rfl
@[simp] theorem showNode_seen : (showNode n s).seen = s.seen := rfl
@[simp] theorem showNode_cur (j : Fin Config.curSlots) : (showNode n s).cur j = s.cur j := rfl
@[simp] theorem showNode_chan (j : Fin Config.curSlots) : (showNode n s).chan j = s.chan j := rfl
@[simp] theorem showNode_nsym : (showNode n s).nsym = s.nsym := rfl
@[simp] theorem showNode_wbits : (showNode n s).wbits = s.wbits := rfl
@[simp] theorem showNode_tailIdx : (showNode n s).tailIdx = s.tailIdx := rfl

end

/-! ## Cursors -/

@[simp] theorem State.setCur_cur_self (s : State) (k : Fin Config.curSlots) (c : Cursor) : (s.setCur k c).cur k = c := by
  simp [State.cur]

@[simp] theorem State.setCur_cur_ne (s : State) {k j : Fin Config.curSlots} (c : Cursor) (h : j ≠ k) :
    (s.setCur k c).cur j = s.cur j := by
  have : k.val ≠ j.val := fun e => h (Fin.ext e.symm)
  simp [State.cur, Vector.getElem_set_ne, this]

@[simp] theorem State.putChan_cur_self (s : State) (k : Fin Config.curSlots) (ch : Chan) :
    (s.putChan k ch).cur k = ch.cur := by simp [State.cur]

@[simp] theorem State.putChan_cur_ne (s : State) {k j : Fin Config.curSlots} (ch : Chan) (h : j ≠ k) :
    (s.putChan k ch).cur j = s.cur j := by
  have : k.val ≠ j.val := fun e => h (Fin.ext e.symm)
  simp [State.cur, Vector.getElem_set_ne, this]

@[simp] theorem State.chan_cur (s : State) (k : Fin Config.curSlots) : (s.chan k).cur = s.cur k := rfl

@[simp] theorem State.chan_env (s : State) (k : Fin Config.curSlots) : (s.chan k).env = s.env := rfl

@[simp] theorem State.putChan_chan_self (s : State) (k : Fin Config.curSlots) (ch : Chan) : (s.putChan k ch).chan k = ch := by
  simp [State.chan]

@[simp] theorem State.putChan_chan_ne (s : State) {k j : Fin Config.curSlots} (ch : Chan) (h : j ≠ k) :
    (s.putChan k ch).chan j = ⟨s.cur j, ch.env⟩ := by simp [State.chan, h]

/-- Only the latest of two writes to one cursor and the environment counts. -/
@[simp] theorem State.putChan_putChan (s : State) (k : Fin Config.curSlots) (a b : Chan) :
    (s.putChan k a).putChan k b = s.putChan k b := by simp [State.putChan, State.setCur]

/-- Writing back what is there changes nothing. -/
@[simp] theorem State.putChan_self (s : State) (k : Fin Config.curSlots) : s.putChan k (s.chan k) = s := by
  simp [State.putChan, State.setCur, State.cur]

@[simp] theorem State.putChan_freqAt (s : State) (k : Fin Config.curSlots) (ch : Chan) (i : Nat) :
    (s.putChan k ch).freqAt i = s.freqAt i := rfl

@[simp] theorem State.putChan_codeAt (s : State) (k : Fin Config.curSlots) (ch : Chan) (i : Nat) :
    (s.putChan k ch).codeAt i = s.codeAt i := rfl

/-- A cursor number below `NCUR` names a cursor. -/
theorem cursorOf?_of_ok {s : State} {c : BitVec 4} (h : cursorNoOk s.env.par.ncur c = true) :
    ∃ k : Fin Config.curSlots, s.cursorOf? c = some k ∧ k.val = c.toNat := by
  have h' : c.toNat < s.env.par.ncur := by simpa [cursorNoOk] using h
  exact ⟨⟨c.toNat, c.isLt⟩, by simp [State.cursorOf?, h'], rfl⟩

/-- The cursor a field names has the number the field holds, which is below `NCUR`. -/
theorem cursorOf?_eq_some {s : State} {c : BitVec 4} {k : Fin Config.curSlots} :
    s.cursorOf? c = some k ↔ c.toNat < s.env.par.ncur ∧ c = BitVec.ofNat 4 k.val := by
  unfold State.cursorOf?
  have hk : k.val < 16 := k.isLt
  split
  · rename_i h
    rw [Option.some.injEq]
    refine ⟨fun e => ⟨h, ?_⟩, fun e => Fin.ext ?_⟩
    · subst e; exact BitVec.eq_of_toNat_eq (by simp)
    · rw [e.2]; show k.val % 16 = k.val; omega
  · rename_i h
    exact iff_of_false (by simp) fun e => h e.1

/-- The field that holds the number of a cursor that exists names that cursor. -/
theorem cursorOf?_ofNat {s : State} {k : Fin Config.curSlots} (h : k.val < s.env.par.ncur) :
    s.cursorOf? (BitVec.ofNat 4 k.val) = some k := by
  refine cursorOf?_eq_some.2 ⟨?_, rfl⟩
  have : k.val < 16 := k.isLt
  simp; omega

end Sys2Proof.Machine
end

