-- ==== Sys2Proof/Laws/Res.lean ====
section
/-! SUPPORT. The outcome type of a piece of a command: sequencing, and what `finish`, `onChan` and the cursor operand forms
can answer. -/

namespace Sys2Proof.Machine

open Sys2Proof

variable {σ α β γ : Type}

@[simp] theorem Res.bind_ok (a : α) (s : σ) (k : α → σ → Res σ β) : (Res.ok a s).bind k = k a s := rfl

@[simp] theorem Res.bind_raise (e : Err) (s : σ) (k : α → σ → Res σ β) : (Res.raise e s).bind k = .raise e s := rfl

@[simp] theorem Res.bind_stuck (f : Fault) (k : α → σ → Res σ β) : (Res.stuck f : Res σ α).bind k = .stuck f := rfl

/-- A sequence that succeeds: both pieces do. -/
theorem Res.bind_eq_ok {r : Res σ α} {k : α → σ → Res σ β} {b : β} {t : σ} :
    r.bind k = .ok b t ↔ ∃ a s, r = .ok a s ∧ k a s = .ok b t := by
  cases r <;> simp

/-- A sequence that raises: the first piece does, or the second after the first. -/
theorem Res.bind_eq_raise {r : Res σ α} {k : α → σ → Res σ β} {e : Err} {t : σ} :
    r.bind k = .raise e t ↔ r = .raise e t ∨ ∃ a s, r = .ok a s ∧ k a s = .raise e t := by
  cases r <;> simp

/-- A sequence that has no outcome: one of its pieces has none. -/
theorem Res.bind_eq_stuck {r : Res σ α} {k : α → σ → Res σ β} {f : Fault} :
    r.bind k = .stuck f ↔ r = .stuck f ∨ ∃ a s, r = .ok a s ∧ k a s = .stuck f := by
  cases r <;> simp

/-- Sequencing is associative. -/
theorem Res.bind_assoc (r : Res σ α) (k : α → σ → Res σ β) (m : β → σ → Res σ γ) :
    (r.bind k).bind m = r.bind fun a s => (k a s).bind m := by
  cases r <;> rfl

/-- A relation between the state before a piece and the state it leaves, whether it succeeds or raises; a piece without an
outcome leaves no state. -/
def Res.leaves (P : σ → Prop) : Res σ α → Prop
  | .ok _ s => P s
  | .raise _ s => P s
  | .stuck _ => True

@[simp] theorem Res.leaves_ok (P : σ → Prop) (a : α) (s : σ) : (Res.ok a s).leaves P ↔ P s := Iff.rfl

@[simp] theorem Res.leaves_raise (P : σ → Prop) (e : Err) (s : σ) : (Res.raise e s : Res σ α).leaves P ↔ P s := Iff.rfl

@[simp] theorem Res.leaves_stuck (P : σ → Prop) (f : Fault) : (Res.stuck f : Res σ α).leaves P ↔ True := Iff.rfl

theorem Res.leaves_mono {P Q : σ → Prop} (h : ∀ s, P s → Q s) {r : Res σ α} (hr : r.leaves P) : r.leaves Q := by
  cases r <;> simp_all

/-- What two pieces leave one after the other: the second runs from a state the first may leave. -/
theorem Res.leaves_bind {P : σ → Prop} {r : Res σ α} {k : α → σ → Res σ β} (hr : r.leaves P)
    (hk : ∀ a s, r = .ok a s → P s → (k a s).leaves P) : (r.bind k).leaves P := by
  cases r with
  | ok a s => exact hk a s rfl hr
  | raise e s => exact hr
  | stuck f => trivial

/-- A command ends in a next state unless its body has no outcome (R270). -/
theorem finish_eq_next {r : Res State Unit} {t : State} :
    finish r = .next t ↔ (∃ s, r = .ok () s ∧ t = endOk s) ∨ ∃ e s, r = .raise e s ∧ t = takeError e s := by
  cases r with
  | ok a s => simp [finish, eq_comm]
  | raise e s => simp [finish, eq_comm]
  | stuck f => simp [finish]

@[simp] theorem finish_ok (s : State) : finish (.ok () s) = .next (endOk s) := rfl

@[simp] theorem finish_raise (e : Err) (s : State) : finish (.raise e s) = .next (takeError e s) := rfl

@[simp] theorem finish_stuck (f : Fault) : finish (.stuck f) = .fault f := rfl

/-- A one-cursor command on a field that names cursor `k` runs its body on `k`. -/
theorem onCursor_some {c : BitVec 4} {k : Fin Config.curSlots} {s : State} (h : s.cursorOf? c = some k) (i : Instr)
    (body : Fin Config.curSlots → State → Res State Unit) : onCursor i c body s = finish (body k s) := by
  simp [onCursor, h]

/-- A two-cursor command on fields that name cursors `k` and `m` runs its body on them. -/
theorem onCursors_some {a b : BitVec 4} {k m : Fin Config.curSlots} {s : State} (ha : s.cursorOf? a = some k)
    (hb : s.cursorOf? b = some m) (i : Instr)
    (body : Fin Config.curSlots → Fin Config.curSlots → State → Res State Unit) :
    onCursors i a b body s = finish (body k m s) := by
  simp [onCursors, ha, hb]

/-- What a cursor primitive on the block answers. -/
theorem onChan_eq_ok {k : Fin Config.curSlots} {f : Chan → Res Chan α} {s t : State} {a : α} :
    onChan k f s = .ok a t ↔ ∃ ch, f (s.chan k) = .ok a ch ∧ t = s.putChan k ch := by
  unfold onChan
  cases f (s.chan k) <;> simp [eq_comm]

theorem onChan_eq_raise {k : Fin Config.curSlots} {f : Chan → Res Chan α} {s t : State} {e : Err} :
    onChan k f s = .raise e t ↔ ∃ ch, f (s.chan k) = .raise e ch ∧ t = s.putChan k ch := by
  unfold onChan
  cases f (s.chan k) <;> simp [eq_comm]

theorem onChan_eq_stuck {k : Fin Config.curSlots} {f : Chan → Res Chan α} {s : State} {r : Fault} :
    onChan k f s = .stuck r ↔ f (s.chan k) = .stuck r := by
  unfold onChan
  cases f (s.chan k) <;> simp

theorem onChan_of_ok {k : Fin Config.curSlots} {f : Chan → Res Chan α} {s : State} {a : α} {ch : Chan}
    (h : f (s.chan k) = .ok a ch) : onChan k f s = .ok a (s.putChan k ch) := by simp [onChan, h]

/-- A cursor primitive changes its own cursor and the environment, nothing else (R30, R42). -/
theorem onChan_leaves {k : Fin Config.curSlots} {f : Chan → Res Chan α} {s : State} {P : Chan → Prop} {Q : State → Prop}
    (hf : (f (s.chan k)).leaves P) (hQ : ∀ ch, P ch → Q (s.putChan k ch)) : (onChan k f s).leaves Q := by
  unfold onChan
  cases h : f (s.chan k) <;> simp_all

/-- The cursor check (R135) passes exactly on an open cursor of the direction asked, and changes nothing. -/
theorem curCheck_ok {k : Fin Config.curSlots} {m : Mode} {s : State} (h : (s.cur k).isOpen = true) (hm : (s.cur k).mode = m) :
    curCheck k m s = .ok () s := by simp [curCheck, h, hm]

theorem curCheck_closed {k : Fin Config.curSlots} {m : Mode} {s : State} (h : (s.cur k).isOpen = false) :
    curCheck k m s = .raise (.cursorState 1) s := by simp [curCheck, h]

theorem curCheck_wrong {k : Fin Config.curSlots} {m : Mode} {s : State} (h : (s.cur k).isOpen = true)
    (hm : (s.cur k).mode ≠ m) : curCheck k m s = .raise (.cursorState 3) s := by simp [curCheck, h, hm]

/-- Everything the cursor check can answer. -/
theorem curCheck_cases (k : Fin Config.curSlots) (m : Mode) (s : State) :
    ((s.cur k).isOpen = true ∧ (s.cur k).mode = m ∧ curCheck k m s = .ok () s) ∨
      ((s.cur k).isOpen = false ∧ curCheck k m s = .raise (.cursorState 1) s) ∨
      ((s.cur k).isOpen = true ∧ (s.cur k).mode ≠ m ∧ curCheck k m s = .raise (.cursorState 3) s) := by
  by_cases h : (s.cur k).isOpen = true
  · by_cases hm : (s.cur k).mode = m
    · exact .inl ⟨h, hm, curCheck_ok h hm⟩
    · exact .inr (.inr ⟨h, hm, curCheck_wrong h hm⟩)
  · exact .inr (.inl ⟨by simpa using h, curCheck_closed (by simpa using h)⟩)

end Sys2Proof.Machine
end

