-- ==== Sys2Proof/Laws/Heap.lean ====
section
/-! SUPPORT. The heap (R166, R167): what the two algorithms keep, and their lengths. -/

namespace Sys2Proof.Machine

open Sys2Proof

@[simp] theorem swapAt_length (h : List Nat) (i j : Nat) : (swapAt h i j).length = h.length := by simp [swapAt]

/-- What a swap puts where. -/
theorem getD_swapAt {h : List Nat} {i j : Nat} (hi : i < h.length) (hj : j < h.length) (k : Nat) :
    (swapAt h i j).getD k 0 = if k = j then h.getD i 0 else if k = i then h.getD j 0 else h.getD k 0 := by
  simp only [swapAt, List.getD_eq_getElem?_getD]
  by_cases hk : k = j
  · subst hk; simp [hj]
  · by_cases hk' : k = i
    · subst hk'
      rw [List.getElem?_set_ne (Ne.symm hk), List.getElem?_set_self hi]
      simp [hk]
    · rw [List.getElem?_set_ne (Ne.symm hk), List.getElem?_set_ne (Ne.symm hk')]
      simp [hk, hk']

/-- A swap moves entries, it loses none. -/
theorem swapAt_perm {h : List Nat} {i j : Nat} (hi : i < h.length) (hj : j < h.length) : (swapAt h i j).Perm h := by
  have hgi : h.getD i 0 = h[i] := by simp [List.getD_eq_getElem?_getD, hi]
  have hgj : h.getD j 0 = h[j] := by simp [List.getD_eq_getElem?_getD, hj]
  rw [swapAt, hgi, hgj]
  exact List.set_set_perm hi hj

theorem smallerLeft_lt (F : Nat → Nat) (h : List Nat) {i : Nat} (hi : i < h.length) : smallerLeft F h i < h.length := by
  unfold smallerLeft; split <;> omega

theorem smallest_lt (F : Nat → Nat) (h : List Nat) {i : Nat} (hi : i < h.length) : smallest F h i < h.length := by
  unfold smallest
  split
  · omega
  · exact smallerLeft_lt F h hi

/-- `HeapInsert`'s loop moves entries, it loses none. -/
theorem siftUp_perm (F : Nat → Nat) (fuel i : Nat) (h : List Nat) (hi : i < h.length) : (siftUp F fuel i h).Perm h := by
  induction fuel generalizing i h with
  | zero => exact .refl _
  | succ fuel ih =>
    unfold siftUp
    split
    · exact .refl _
    · split
      · have hp : (i - 1) / 2 < h.length := by omega
        exact (ih _ _ (by simpa using hp)).trans (swapAt_perm hi hp)
      · exact .refl _

/-- `HeapExtract`'s loop moves entries, it loses none. -/
theorem siftDown_perm (F : Nat → Nat) (fuel i : Nat) (h : List Nat) (hi : i < h.length) : (siftDown F fuel i h).Perm h := by
  induction fuel generalizing i h with
  | zero => exact .refl _
  | succ fuel ih =>
    unfold siftDown
    split
    · exact .refl _
    · have hm := smallest_lt F h hi
      exact (ih _ _ (by simpa using hm)).trans (swapAt_perm hi hm)

/-- `HeapInsert` adds its node and keeps the others (R166). -/
theorem heapInsert_perm (F : Nat → Nat) (n : Nat) (h : List Nat) : (heapInsert F n h).Perm (n :: h) :=
  (siftUp_perm F _ _ _ (by simp)).trans (List.perm_append_singleton n h)

/-- `HeapExtract` takes the top away and keeps the others (R167). -/
theorem heapRest_perm (F : Nat → Nat) (rest : List Nat) : (heapRest F rest).Perm rest := by
  unfold heapRest
  cases h : rest.getLast? with
  | none => rw [List.getLast?_eq_none_iff] at h; subst h; exact .refl _
  | some last =>
    have hr := List.dropLast_append_getLast? last h
    refine (siftDown_perm F _ _ _ (by simp)).trans ?_
    conv_rhs => rw [← hr]
    exact (List.perm_append_singleton _ _).symm

@[simp] theorem heapInsert_length (F : Nat → Nat) (n : Nat) (h : List Nat) : (heapInsert F n h).length = h.length + 1 := by
  rw [(heapInsert_perm F n h).length_eq]; rfl

@[simp] theorem heapRest_length (F : Nat → Nat) (rest : List Nat) : (heapRest F rest).length = rest.length :=
  (heapRest_perm F rest).length_eq

theorem mem_heapInsert {F : Nat → Nat} {n m : Nat} {h : List Nat} : m ∈ heapInsert F n h ↔ m = n ∨ m ∈ h := by
  rw [(heapInsert_perm F n h).mem_iff, List.mem_cons]

theorem mem_heapRest {F : Nat → Nat} {m : Nat} {h : List Nat} : m ∈ heapRest F h ↔ m ∈ h :=
  (heapRest_perm F h).mem_iff

/-- Everything `Merge` can answer (R170). -/
theorem merge_cases (a b : Nat) (s : State) :
    (2 ^ 64 ≤ freqOf s.nodes a + freqOf s.nodes b ∧ merge a b s = .raise .freqOverflow (freeTree s)) ∨
      (freqOf s.nodes a + freqOf s.nodes b < 2 ^ 64 ∧ s.nodes.length = Config.nodeCap s.w ∧
        merge a b s = .raise (.outOfMemory 1) (freeTree s)) ∨
      (freqOf s.nodes a + freqOf s.nodes b < 2 ^ 64 ∧ s.nodes.length ≠ Config.nodeCap s.w ∧
        merge a b s = .ok s.nodes.length { s with nodes := s.nodes ++ [mergedNode s.nodes a b] }) := by
  unfold merge alloc
  by_cases h1 : 2 ^ 64 ≤ freqOf s.nodes a + freqOf s.nodes b
  · exact .inl ⟨h1, if_pos h1⟩
  · rw [if_neg h1]
    by_cases h2 : s.nodes.length = Config.nodeCap s.w
    · exact .inr (.inl ⟨by omega, h2, if_pos h2⟩)
    · rw [if_neg h2, if_neg h2]
      exact .inr (.inr ⟨by omega, h2, rfl⟩)

/-- Everything `Alloc` can answer (R177). -/
theorem alloc_cases (n : Node) (s : State) :
    (s.nodes.length = Config.nodeCap s.w ∧ alloc n s = .raise (.outOfMemory 1) s) ∨
      (s.nodes.length ≠ Config.nodeCap s.w ∧ alloc n s = .ok s.nodes.length { s with nodes := s.nodes ++ [n] }) := by
  unfold alloc
  by_cases h : s.nodes.length = Config.nodeCap s.w
  · exact .inl ⟨h, if_pos h⟩
  · exact .inr ⟨h, if_neg h⟩

/-- Everything one turn of the building loop can do (R171): no node left, one node left, or a merge of the two extracted
first. -/
theorem buildTree_cases (fuel : Nat) (s : State) :
    (s.heap = [] ∧ buildTree (fuel + 1) s = .raise .emptyInput s) ∨
      (∃ r, s.heap = [r] ∧ buildTree (fuel + 1) s = .ok () { s with heap := [], root := some r }) ∨
      ∃ a b rest rest', s.heap = a :: rest ∧ heapRest (freqOf s.nodes) rest = b :: rest' ∧
        buildTree (fuel + 1) s = (merge a b { s with heap := heapRest (freqOf s.nodes) rest' }).bind fun n s =>
          buildTree fuel (pushHeap n s) := by
  match hh : s.heap with
  | [] => exact .inl ⟨rfl, by simp [buildTree, hh]⟩
  | [r] => exact .inr (.inl ⟨r, rfl, by simp [buildTree, hh]⟩)
  | a :: x :: xs =>
    refine .inr (.inr ?_)
    match hr : heapRest (freqOf s.nodes) (x :: xs) with
    | [] =>
      have := heapRest_length (freqOf s.nodes) (x :: xs)
      rw [hr] at this
      simp at this
    | b :: rest' => exact ⟨a, b, x :: xs, rest', rfl, hr, by simp [buildTree, hh, hr]⟩

end Sys2Proof.Machine
end

