-- ==== Sys2Proof/Laws/Tree.lean ====
section
/-! SUPPORT. Trees in the node pool (R35, R36): a tree stays a tree when the pool grows, and trees of consecutive nodes. -/

namespace Sys2Proof.Machine

open Sys2Proof

theorem nodeAt_append_left {nodes more : List Node} {n : Nat} (h : n < nodes.length) :
    nodeAt (nodes ++ more) n = nodeAt nodes n := List.getD_append _ _ _ _ h

theorem nodeAt_append_last (nodes : List Node) (x : Node) : nodeAt (nodes ++ [x]) nodes.length = x := by
  simp [nodeAt, List.getD_eq_getElem?_getD]

theorem nodeAt_mem {nodes : List Node} {n : Nat} (h : n < nodes.length) : nodeAt nodes n ∈ nodes := by
  simp [nodeAt, List.getD_eq_getElem?_getD, h]

theorem nodeAt_modify_ne {nodes : List Node} {n m : Nat} (f : Node → Node) (h : n ≠ m) :
    nodeAt (nodes.modify m f) n = nodeAt nodes n := by
  have hmn : m ≠ n := h.symm
  simp [nodeAt, List.getD_eq_getElem?_getD, hmn]

theorem nodeAt_modify_self {nodes : List Node} {n : Nat} (f : Node → Node) (h : n < nodes.length) :
    nodeAt (nodes.modify n f) n = f (nodeAt nodes n) := by
  simp [nodeAt, List.getD_eq_getElem?_getD, h]

theorem freqOf_append_left {nodes more : List Node} {n : Nat} (h : n < nodes.length) :
    freqOf (nodes ++ more) n = freqOf nodes n := by simp only [freqOf, nodeAt_append_left h]

/-- One level of a tree. -/
theorem treeOk_succ {nodes : List Node} {fuel n : Nat} :
    treeOk nodes (fuel + 1) n = true ↔ n < nodes.length ∧
      ((nodeAt nodes n).leaf = true ∨ ∃ l r, (nodeAt nodes n).left = some l ∧ (nodeAt nodes n).right = some r ∧
        treeOk nodes fuel l = true ∧ treeOk nodes fuel r = true) := by
  simp only [treeOk, Bool.and_eq_true, decide_eq_true_eq, Bool.or_eq_true]
  refine and_congr_right fun _ => or_congr_right ?_
  cases (nodeAt nodes n).left <;> cases (nodeAt nodes n).right <;> simp

theorem treeOk_lt {nodes : List Node} {fuel n : Nat} (h : treeOk nodes fuel n = true) : n < nodes.length := by
  cases fuel with
  | zero => cases h
  | succ fuel => exact (treeOk_succ.1 h).1

/-- More fuel does no harm, and neither do more nodes (R35: nodes are only added). -/
theorem treeOk_mono {nodes : List Node} (more : List Node) {fuel fuel' n : Nat} (h : treeOk nodes fuel n = true)
    (hf : fuel ≤ fuel') : treeOk (nodes ++ more) fuel' n = true := by
  induction fuel generalizing fuel' n with
  | zero => cases h
  | succ fuel ih =>
    obtain ⟨fuel', rfl⟩ : ∃ k, fuel' = k + 1 := ⟨fuel' - 1, by omega⟩
    obtain ⟨hn, hc⟩ := treeOk_succ.1 h
    refine treeOk_succ.2 ⟨by simp; omega, ?_⟩
    rw [nodeAt_append_left hn]
    rcases hc with hc | ⟨l, r, hl, hr, h1, h2⟩
    · exact .inl hc
    · exact .inr ⟨l, r, hl, hr, ih h1 (by omega), ih h2 (by omega)⟩

theorem treeOk_fuel {nodes : List Node} {fuel fuel' n : Nat} (h : treeOk nodes fuel n = true) (hf : fuel ≤ fuel') :
    treeOk nodes fuel' n = true := by
  have := treeOk_mono [] h hf
  rwa [List.append_nil] at this

theorem NodeInv.mono {w : WordSize} {len len' : Nat} {n : Node} (h : NodeInv w len n) (hl : len ≤ len') :
    NodeInv w len' n := by
  refine ⟨h.leafOk, fun hn => ?_⟩
  obtain ⟨h1, h2, l, r, hl', hr', a, b⟩ := h.innerOk hn
  exact ⟨h1, h2, l, r, hl', hr', by omega, by omega⟩

/-- The leaf of a slot is a lawful node (R177). -/
theorem leafOf_inv {s : State} {i : Nat} (ht : i = s.tailIdx → tailOk s.w s.tail = true ∧ s.tail.valid = true)
    (len : Nat) : NodeInv s.w len (leafOf s i) := by
  refine ⟨fun _ => ?_, fun h => ?_⟩
  · unfold leafOf
    split
    · rename_i h
      obtain ⟨h1, h2⟩ := ht h
      simp only [tailOk, h2, if_true, Bool.and_eq_true, decide_eq_true_eq] at h1
      exact ⟨by simp only; omega, h1.2, rfl, rfl⟩
    · exact ⟨Nat.le_refl _, wordClear_idxword _ _, rfl, rfl⟩
  · unfold leafOf at h
    split at h <;> cases h

theorem leafOf_leaf (s : State) (i : Nat) : (leafOf s i).leaf = true := by unfold leafOf; split <;> rfl

/-- A leaf put into the pool is a tree. -/
theorem treeOk_leaf {nodes : List Node} {x : Node} (h : x.leaf = true) :
    treeOk (nodes ++ [x]) (nodes.length + 1) nodes.length = true :=
  treeOk_succ.2 ⟨by simp, .inl (by rw [nodeAt_append_last]; exact h)⟩

/-- A merge makes one tree of two (R170). -/
theorem treeOk_merged {nodes : List Node} {a b : Nat} (ha : treeOk nodes nodes.length a = true)
    (hb : treeOk nodes nodes.length b = true) :
    treeOk (nodes ++ [mergedNode nodes a b]) (nodes.length + 1) nodes.length = true := by
  have ha' := treeOk_mono [mergedNode nodes a b] ha (Nat.le_refl _)
  have hb' := treeOk_mono [mergedNode nodes a b] hb (Nat.le_refl _)
  refine treeOk_succ.2 ⟨by simp, .inr ⟨(mergeOrder (freqOf nodes) a b).1, (mergeOrder (freqOf nodes) a b).2,
    by rw [nodeAt_append_last]; rfl, by rw [nodeAt_append_last]; rfl, ?_⟩⟩
  unfold mergeOrder
  split
  · exact ⟨hb', ha'⟩
  · exact ⟨ha', hb'⟩

theorem mergedNode_inv {w : WordSize} {nodes : List Node} {a b : Nat} (ha : a < nodes.length) (hb : b < nodes.length) :
    NodeInv w (nodes.length + 1) (mergedNode nodes a b) := by
  refine ⟨fun h => (by cases h), fun _ => ⟨rfl, rfl, _, _, rfl, rfl, ?_⟩⟩
  unfold mergeOrder
  split <;> simp only <;> omega

/-! ## Trees of consecutive nodes (R208) -/

/-- The nodes from `lo` up to `hi` have their children among themselves. -/
def Closed (nodes : List Node) (lo hi : Nat) : Prop :=
  ∀ i, lo ≤ i → i < hi → (nodeAt nodes i).leaf = false →
    ∃ l r, (nodeAt nodes i).left = some l ∧ (nodeAt nodes i).right = some r ∧ lo ≤ l ∧ l < hi ∧ lo ≤ r ∧ r < hi

/-- A tree of consecutive nodes depends on these nodes only. -/
theorem treeOk_congr {nodes nodes' : List Node} {lo hi : Nat} (hc : Closed nodes lo hi) (hl : hi ≤ nodes'.length)
    (he : ∀ i, lo ≤ i → i < hi → nodeAt nodes' i = nodeAt nodes i) {fuel n : Nat} (h0 : lo ≤ n) (h1 : n < hi)
    (h : treeOk nodes fuel n = true) : treeOk nodes' fuel n = true := by
  induction fuel generalizing n with
  | zero => cases h
  | succ fuel ih =>
    obtain ⟨_, hcase⟩ := treeOk_succ.1 h
    refine treeOk_succ.2 ⟨by omega, ?_⟩
    rw [he n h0 h1]
    rcases hcase with hleaf | ⟨l, r, e1, e2, t1, t2⟩
    · exact .inl hleaf
    · by_cases hleaf : (nodeAt nodes n).leaf = true
      · exact .inl hleaf
      · obtain ⟨l', r', e1', e2', a, b, c, d⟩ := hc n h0 h1 (by simpa using hleaf)
        rw [e1, Option.some.injEq] at e1'
        rw [e2, Option.some.injEq] at e2'
        subst e1' e2'
        exact .inr ⟨l, r, e1, e2, ih a b t1, ih c d t2⟩

theorem Closed.congr {nodes nodes' : List Node} {lo hi : Nat} (hc : Closed nodes lo hi)
    (he : ∀ i, lo ≤ i → i < hi → nodeAt nodes' i = nodeAt nodes i) : Closed nodes' lo hi := by
  intro i h0 h1 hleaf
  rw [he i h0 h1] at hleaf ⊢
  exact hc i h0 h1 hleaf

end Sys2Proof.Machine
end

