-- ==== Sys2Proof/Laws/Tables.lean ====
section
/-! SUPPORT. The sparse tables: reading back a write, leaving other keys alone, and keeping the canonical form. -/

namespace Sys2Proof.Machine

open Sys2Proof

variable {α : Type}

@[simp] theorem tableGet_nil (k : Nat) : tableGet ([] : List (Nat × α)) k = none := rfl

/-- A key below the first is not listed. -/
theorem tableGet_of_rises {t : List (Nat × α)} {lo k : Nat} (h : tableRises lo t = true) (hk : k < lo) :
    tableGet t k = none := by
  induction t generalizing lo with
  | nil => rfl
  | cons p rest ih =>
    obtain ⟨j, x⟩ := p
    simp only [tableRises, Bool.and_eq_true, decide_eq_true_eq] at h
    simp only [tableGet]
    rw [if_neg (by omega)]
    exact ih h.2 (by omega)

theorem tableRises_mono {t : List (Nat × α)} {lo lo' : Nat} (h : tableRises lo t = true) (hl : lo' ≤ lo) :
    tableRises lo' t = true := by
  cases t with
  | nil => rfl
  | cons p rest =>
    obtain ⟨j, x⟩ := p
    simp only [tableRises, Bool.and_eq_true, decide_eq_true_eq] at h ⊢
    exact ⟨by omega, h.2⟩

/-- Reading the key just written. -/
@[simp] theorem tableGet_tableSet_self (t : List (Nat × α)) (k : Nat) (x : α) :
    tableGet (tableSet t k x) k = some x := by
  induction t with
  | nil => simp [tableSet, tableGet]
  | cons p rest ih =>
    obtain ⟨j, y⟩ := p
    simp only [tableSet]
    split
    · simp [tableGet]
    · split
      · simp [tableGet]
      · rename_i h
        simp only [tableGet]
        rw [if_neg (fun e => h e.symm)]
        exact ih

/-- A write leaves every other key alone. -/
theorem tableGet_tableSet_ne (t : List (Nat × α)) {k j : Nat} (x : α) (h : j ≠ k) :
    tableGet (tableSet t k x) j = tableGet t j := by
  induction t with
  | nil => simp [tableSet, tableGet, h.symm]
  | cons p rest ih =>
    obtain ⟨i, y⟩ := p
    simp only [tableSet]
    split
    · simp [tableGet, h.symm]
    · split
      · rename_i hk
        subst hk
        simp [tableGet, h.symm]
      · simp only [tableGet, ih]

theorem tableGet_tableSet (t : List (Nat × α)) (k j : Nat) (x : α) :
    tableGet (tableSet t k x) j = if j = k then some x else tableGet t j := by
  split
  · rename_i h; subst h; simp
  · rename_i h; exact tableGet_tableSet_ne t x h

/-- A write keeps the canonical form. -/
theorem tableRises_tableSet {t : List (Nat × α)} {lo k : Nat} (x : α) (h : tableRises lo t = true) (hk : lo ≤ k) :
    tableRises lo (tableSet t k x) = true := by
  induction t generalizing lo with
  | nil => simp [tableSet, tableRises, hk]
  | cons p rest ih =>
    obtain ⟨j, y⟩ := p
    simp only [tableRises, Bool.and_eq_true, decide_eq_true_eq] at h
    simp only [tableSet]
    split
    · simp only [tableRises, Bool.and_eq_true, decide_eq_true_eq]
      exact ⟨hk, by omega, h.2⟩
    · split
      · rename_i e
        subst e
        simp only [tableRises, Bool.and_eq_true, decide_eq_true_eq]
        exact ⟨hk, h.2⟩
      · simp only [tableRises, Bool.and_eq_true, decide_eq_true_eq]
        exact ⟨h.1, ih h.2 (by omega)⟩

/-- What a table after a write lists comes from the write or from the table. -/
theorem mem_tableSet {t : List (Nat × α)} {k : Nat} {x : α} {p : Nat × α} (h : p ∈ tableSet t k x) :
    p = (k, x) ∨ p ∈ t := by
  induction t with
  | nil => simpa [tableSet] using h
  | cons q rest ih =>
    obtain ⟨j, y⟩ := q
    simp only [tableSet] at h
    split at h
    · simpa using h
    · split at h
      · simp only [List.mem_cons] at h ⊢
        rcases h with h | h
        · exact .inl h
        · exact .inr (.inr h)
      · simp only [List.mem_cons] at h ⊢
        rcases h with h | h
        · exact .inr (.inl h)
        · rcases ih h with h | h
          · exact .inl h
          · exact .inr (.inr h)

theorem tableRises_tableErase {t : List (Nat × α)} {lo k : Nat} (h : tableRises lo t = true) :
    tableRises lo (tableErase t k) = true := by
  induction t generalizing lo with
  | nil => rfl
  | cons p rest ih =>
    obtain ⟨j, y⟩ := p
    simp only [tableRises, Bool.and_eq_true, decide_eq_true_eq] at h
    simp only [tableErase]
    split
    · exact tableRises_mono h.2 (by omega)
    · simp only [tableRises, Bool.and_eq_true, decide_eq_true_eq]
      exact ⟨h.1, ih h.2⟩

theorem mem_tableErase {t : List (Nat × α)} {k : Nat} {p : Nat × α} (h : p ∈ tableErase t k) : p ∈ t := by
  induction t with
  | nil => simp [tableErase] at h
  | cons q rest ih =>
    obtain ⟨j, y⟩ := q
    simp only [tableErase] at h
    split at h
    · exact List.mem_cons_of_mem _ h
    · simp only [List.mem_cons] at h ⊢
      rcases h with h | h
      · exact .inl h
      · exact .inr (ih h)

theorem tableGet_tableErase_ne (t : List (Nat × α)) {k j : Nat} (h : j ≠ k) :
    tableGet (tableErase t k) j = tableGet t j := by
  induction t with
  | nil => rfl
  | cons q rest ih =>
    obtain ⟨i, y⟩ := q
    simp only [tableErase]
    split
    · rename_i e
      subst e
      simp [tableGet, h.symm]
    · simp only [tableGet, ih]

/-- In canonical form, an erased key is not listed. -/
theorem tableGet_tableErase_self {t : List (Nat × α)} {lo k : Nat} (h : tableRises lo t = true) :
    tableGet (tableErase t k) k = none := by
  induction t generalizing lo with
  | nil => rfl
  | cons q rest ih =>
    obtain ⟨i, y⟩ := q
    simp only [tableRises, Bool.and_eq_true, decide_eq_true_eq] at h
    simp only [tableErase]
    split
    · exact tableGet_of_rises h.2 (by omega)
    · rename_i e
      simp only [tableGet]
      rw [if_neg e]
      exact ih h.2

/-- A value that is read is listed. -/
theorem mem_of_tableGet {t : List (Nat × α)} {k : Nat} {x : α} (h : tableGet t k = some x) : (k, x) ∈ t := by
  induction t with
  | nil => simp at h
  | cons q rest ih =>
    obtain ⟨j, y⟩ := q
    simp only [tableGet] at h
    split at h
    · rename_i e
      simp_all
    · exact List.mem_cons_of_mem _ (ih h)

/-- In canonical form, what is listed is what is read. -/
theorem tableGet_of_mem {t : List (Nat × α)} {lo k : Nat} {x : α} (hr : tableRises lo t = true) (h : (k, x) ∈ t) :
    tableGet t k = some x := by
  induction t generalizing lo with
  | nil => simp at h
  | cons q rest ih =>
    obtain ⟨j, y⟩ := q
    simp only [tableRises, Bool.and_eq_true, decide_eq_true_eq] at hr
    simp only [List.mem_cons, Prod.mk.injEq] at h
    rcases h with ⟨rfl, rfl⟩ | h
    · simp [tableGet]
    · have := ih hr.2 h
      simp only [tableGet]
      split
      · rename_i e
        rw [tableGet_of_rises hr.2 (by omega)] at this
        simp at this
      · exact this

/-- Equal reads make equal tables: the canonical form has one table for each content. -/
theorem table_ext {t u : List (Nat × α)} {lo : Nat} (ht : tableRises lo t = true) (hu : tableRises lo u = true)
    (h : ∀ k, tableGet t k = tableGet u k) : t = u := by
  induction t generalizing lo u with
  | nil =>
    cases u with
    | nil => rfl
    | cons q rest =>
      have := h q.1
      simp [tableGet] at this
  | cons p rest ih =>
    obtain ⟨i, x⟩ := p
    cases u with
    | nil =>
      have := h i
      simp [tableGet] at this
    | cons q rest' =>
      obtain ⟨j, y⟩ := q
      simp only [tableRises, Bool.and_eq_true, decide_eq_true_eq] at ht hu
      have hij : i = j := by
        by_contra hne
        rcases Nat.lt_or_gt_of_ne hne with hlt | hlt
        · have := h i
          simp only [tableGet, if_true] at this
          rw [if_neg (by omega), tableGet_of_rises hu.2 (by omega)] at this
          simp at this
        · have := h j
          simp only [tableGet, if_true] at this
          rw [if_neg (by omega), tableGet_of_rises ht.2 (by omega)] at this
          simp at this
      subst hij
      have hxy : x = y := by
        have := h i
        simpa [tableGet] using this
      subst hxy
      rw [ih ht.2 hu.2]
      intro k
      by_cases hk : k = i
      · subst hk
        rw [tableGet_of_rises ht.2 (by omega), tableGet_of_rises hu.2 (by omega)]
      · have := h k
        simp only [tableGet] at this
        rwa [if_neg (Ne.symm hk), if_neg (Ne.symm hk)] at this

/-! ## The backing store -/

theorem Memory.wf_tableSet {p : Params} {m : Memory} {f : Nat} {b : List Byte} (h : Memory.wf p m = true) (hf : f < p.nfid)
    (hb : b.length ≤ p.maxFileBytes) : Memory.wf p (tableSet m f b) = true := by
  simp only [Memory.wf, Bool.and_eq_true, List.all_eq_true, decide_eq_true_eq] at h ⊢
  refine ⟨tableRises_tableSet b h.1 (Nat.zero_le _), fun e he => ?_⟩
  rcases mem_tableSet he with rfl | he
  · exact ⟨hf, hb⟩
  · exact h.2 e he

theorem Memory.wf_tableErase {p : Params} {m : Memory} {f : Nat} (h : Memory.wf p m = true) :
    Memory.wf p (tableErase m f) = true := by
  simp only [Memory.wf, Bool.and_eq_true, List.all_eq_true, decide_eq_true_eq] at h ⊢
  exact ⟨tableRises_tableErase h.1, fun p hp => h.2 p (mem_tableErase hp)⟩

/-- What the parameters of a block are bounded by. -/
theorem Params.bounds {p : Params} (h : p.ok = true) :
    p.ncur ≤ 16 ∧ p.bufMax < 2 ^ 13 ∧ p.dbBytes < 2 ^ 61 ∧ p.nfid ≤ 2 ^ 16 ∧ p.maxFileBytes < 2 ^ 61 :=
  of_decide_eq_true h

/-- No file of a store in canonical form is too long (R60). -/
theorem Memory.length_le {p : Params} {m : Memory} {f : Nat} {b : List Byte} (h : Memory.wf p m = true)
    (hb : tableGet m f = some b) : b.length ≤ p.maxFileBytes := by
  simp only [Memory.wf, Bool.and_eq_true, List.all_eq_true, decide_eq_true_eq] at h
  exact (h.2 _ (mem_of_tableGet hb)).2

/-- Every file of a store in canonical form has an identifier below `NFID` (R60). -/
theorem Memory.id_lt {p : Params} {m : Memory} {f : Nat} {b : List Byte} (h : Memory.wf p m = true)
    (hb : tableGet m f = some b) : f < p.nfid := by
  simp only [Memory.wf, Bool.and_eq_true, List.all_eq_true, decide_eq_true_eq] at h
  exact (h.2 _ (mem_of_tableGet hb)).1

/-! ## FREQ -/

theorem freqGet_freqSet {t : List (Nat × BitVec 64)} {lo : Nat} (h : tableRises lo t = true) (k j : Nat) (x : BitVec 64) :
    freqGet (freqSet t k x) j = if j = k then x else freqGet t j := by
  simp only [freqGet, freqSet]
  by_cases hj : j = k
  · subst hj
    by_cases hx : x = 0
    · simp [hx, tableGet_tableErase_self h]
    · rw [if_neg hx, tableGet_tableSet_self, if_pos rfl, Option.getD_some]
  · by_cases hx : x = 0
    · simp [hx, hj, tableGet_tableErase_ne t hj]
    · rw [if_neg hx, tableGet_tableSet_ne t x hj, if_neg hj]

/-- A write to FREQ keeps its canonical form. -/
theorem freqOk_like {P : Nat → Prop} {t : List (Nat × BitVec 64)} {k : Nat} {x : BitVec 64}
    (hr : tableRises 0 t = true) (hp : ∀ p ∈ t, P p.1 ∧ p.2 ≠ 0) (hk : P k) :
    tableRises 0 (freqSet t k x) = true ∧ ∀ p ∈ freqSet t k x, P p.1 ∧ p.2 ≠ 0 := by
  by_cases hx : x = 0
  · simp only [freqSet, hx, if_true]
    exact ⟨tableRises_tableErase hr, fun p h => hp p (mem_tableErase h)⟩
  · simp only [freqSet, hx, if_false]
    refine ⟨tableRises_tableSet x hr (Nat.zero_le _), fun p h => ?_⟩
    rcases mem_tableSet h with rfl | h
    · exact ⟨hk, hx⟩
    · exact hp p h

end Sys2Proof.Machine
end

