-- ==== Sys2Proof/Laws/Store.lean ====
section
/-! SUPPORT. The accesses to the backing store: everything a fill and a flush can answer, and what they leave of the
environment. -/

namespace Sys2Proof.Machine

open Sys2Proof

/-! ## IO_FAIL -/

@[simp] theorem Env.asked_par (e : Env) : e.asked.par = e.par := rfl

@[simp] theorem Env.asked_files (e : Env) : e.asked.files = e.files := rfl

@[simp] theorem Env.asked_freeIx (e : Env) : e.asked.freeIx = e.freeIx := rfl

@[simp] theorem Env.asked_ioFail (e : Env) : e.asked.ioFail = e.ioFail.tail := rfl

@[simp] theorem Env.asked_file (e : Env) (f : BitVec 16) : e.asked.file f = e.file f := rfl

/-- An environment that never fails answers "no" (R64, D38). -/
theorem noFail.answer {e : Env} (h : noFail e) : e.ioAnswer = false := by
  unfold Env.ioAnswer
  cases he : e.ioFail with
  | nil => rfl
  | cons b bs => exact h b (by simp [he])

theorem noFail.asked {e : Env} (h : noFail e) : noFail e.asked := fun b hb => h b (List.mem_of_mem_tail hb)

/-! ## The file after a store -/

theorem holeBytes_length (ix len off : Nat) : (holeBytes ix len off).length = off - len := by simp [holeBytes]

/-- The length of a file after a store (R63): `max(FLEN, off + n)`. -/
theorem overlay_length (ix : Nat) (old : List Byte) (off : Nat) (v : List Byte) :
    (overlay ix old off v).length = max old.length (off + v.length) := by
  simp [overlay, holeBytes_length]; omega

/-- A store that leaves no hole (R63). -/
theorem overlay_eq {ix : Nat} {old : List Byte} {off : Nat} (v : List Byte) (h : off ≤ old.length) :
    overlay ix old off v = old.take off ++ v ++ old.drop (off + v.length) := by
  simp [overlay, holeBytes, Nat.sub_eq_zero_of_le h]

theorem overlay_nil {ix : Nat} {old : List Byte} {off : Nat} (h : off ≤ old.length) : overlay ix old off [] = old := by
  rw [overlay_eq _ h]; simp

/-! ## What a cursor's access leaves of the environment -/

/-- What `Inv` says of the environment: parameters that fit, and the store in canonical form. -/
def Env.sound (e : Env) : Prop := e.par.ok = true ∧ Memory.wf e.par e.files = true

/-- What the accesses of a cursor bound to file `f` may do to the environment: to its own file only, which stays present
and does not grow beyond `MAX_FILE_BYTES`; questions to `IO_FAIL` are used up in order. -/
structure EnvStep (f : BitVec 16) (e e' : Env) : Prop where
  par : e'.par = e.par
  others : ∀ g, g ≠ f.toNat → tableGet e'.files g = tableGet e.files g
  present : ∀ g, (tableGet e.files g).isSome = true → (tableGet e'.files g).isSome = true
  length : ∀ b', e'.file f = some b' → ∃ b, e.file f = some b ∧ b'.length ≤ max b.length e.par.maxFileBytes
  wf : Memory.wf e.par e.files = true → Memory.wf e'.par e'.files = true
  answers : ∃ n, e'.ioFail = e.ioFail.drop n

theorem EnvStep.sound {f : BitVec 16} {e e' : Env} (h : EnvStep f e e') (w : e.sound) : e'.sound :=
  ⟨h.par ▸ w.1, h.wf w.2⟩

theorem EnvStep.refl (f : BitVec 16) (e : Env) : EnvStep f e e :=
  ⟨rfl, fun _ _ => rfl, fun _ h => h, fun b h => ⟨b, h, by omega⟩, fun h => h, 0, rfl⟩

theorem EnvStep.trans {f : BitVec 16} {e e' e'' : Env} (h : EnvStep f e e') (h' : EnvStep f e' e'') : EnvStep f e e'' := by
  refine ⟨h'.par.trans h.par, fun g hg => (h'.others g hg).trans (h.others g hg), fun g hg => h'.present g (h.present g hg), ?_,
    fun w => h'.wf (h.wf w), ?_⟩
  · intro b hb
    obtain ⟨b', hb', l'⟩ := h'.length b hb
    obtain ⟨b'', hb'', l''⟩ := h.length b' hb'
    rw [h.par] at l'
    exact ⟨b'', hb'', by omega⟩
  · obtain ⟨n, hn⟩ := h.answers
    obtain ⟨m, hm⟩ := h'.answers
    exact ⟨n + m, by rw [hm, hn, List.drop_drop]⟩

theorem EnvStep.asked (f : BitVec 16) (e : Env) : EnvStep f e e.asked :=
  ⟨rfl, fun _ _ => rfl, fun _ h => h, fun b h => ⟨b, h, by omega⟩, fun h => h, 1, by simp⟩

theorem EnvStep.noFail {f : BitVec 16} {e e' : Env} (h : EnvStep f e e') (hn : noFail e) : noFail e' := by
  obtain ⟨n, hn'⟩ := h.answers
  intro b hb
  rw [hn'] at hb
  exact hn b (List.mem_of_mem_drop hb)

/-- Storing a file that is not too long. -/
theorem EnvStep.setFile {f : BitVec 16} {e : Env} {old b : List Byte} (ho : e.file f = some old)
    (hb : b.length ≤ max old.length e.par.maxFileBytes) (ix : Nat) :
    EnvStep f e { (e.asked.setFile f b) with freeIx := ix } := by
  refine ⟨rfl, fun g hg => tableGet_tableSet_ne _ _ hg, fun g hg => ?_, fun b' hb' => ⟨old, ho, ?_⟩, fun w => ?_, 1, by
    simp [Env.setFile]⟩
  · show (tableGet (tableSet e.files f.toNat b) g).isSome = true
    rw [tableGet_tableSet]
    split
    · rfl
    · exact hg
  · have : tableGet (tableSet e.files f.toNat b) f.toNat = some b' := hb'
    rw [tableGet_tableSet_self, Option.some.injEq] at this
    rw [← this]
    exact hb
  · have := Memory.length_le w ho
    exact Memory.wf_tableSet w (Memory.id_lt w ho) (show b.length ≤ e.par.maxFileBytes by omega)

/-- Everything a fill can answer (R62). -/
theorem memRead_cases (e : Env) (f : BitVec 16) (off n : Nat) :
    (e.file f = none ∧ memRead e f off n = .stuck .fileAbsent) ∨
      (∃ b, e.file f = some b ∧ e.ioAnswer = true ∧ memRead e f off n = .raise .ioFailure e.asked) ∨
      ∃ b, e.file f = some b ∧ e.ioAnswer = false ∧ memRead e f off n = .ok ((b.drop off).take n) e.asked := by
  unfold memRead
  cases h : e.file f with
  | none => simp
  | some b => cases ha : e.ioAnswer <;> simp

/-- The environment a flush that succeeds leaves (R63). -/
def flushedEnv (e : Env) (f : BitVec 16) (old : List Byte) (off : Nat) (v : List Byte) : Env :=
  { (e.asked.setFile f (overlay e.freeIx old off v)) with
    freeIx := if old.length < off then e.freeIx + 1 else e.freeIx }

/-- Everything a flush can answer (R63, R64). -/
theorem memWrite_cases (e : Env) (f : BitVec 16) (off : Nat) (v : List Byte) :
    (e.file f = none ∧ memWrite e f off v = .stuck .fileAbsent) ∨
      (∃ old, e.file f = some old ∧ (e.ioAnswer = true ∨ e.par.maxFileBytes < off + v.length) ∧
        memWrite e f off v = .raise .ioFailure e.asked) ∨
      ∃ old, e.file f = some old ∧ e.ioAnswer = false ∧ off + v.length ≤ e.par.maxFileBytes ∧
        memWrite e f off v = .ok () (flushedEnv e f old off v) := by
  unfold memWrite
  cases h : e.file f with
  | none => simp
  | some old =>
    by_cases hc : (e.ioAnswer || decide (e.par.maxFileBytes < off + v.length)) = true
    · exact .inr (.inl ⟨old, rfl, by simpa using hc, by simp only [hc, if_true]⟩)
    · refine .inr (.inr ⟨old, rfl, ?_, ?_, by simp only [hc]; rfl⟩)
      · simp only [Bool.or_eq_true, not_or] at hc
        simpa using hc.1
      · simp only [Bool.or_eq_true, decide_eq_true_eq, not_or] at hc
        omega

@[simp] theorem flushedEnv_file (e : Env) (f : BitVec 16) (old : List Byte) (off : Nat) (v : List Byte) :
    (flushedEnv e f old off v).file f = some (overlay e.freeIx old off v) := by
  simp [flushedEnv, Env.file, Env.setFile]

/-- A flush that succeeds leaves a lawful environment (R63, R78). -/
theorem flushedEnv_step {e : Env} {f : BitVec 16} {old : List Byte} {off : Nat} {v : List Byte} (ho : e.file f = some old)
    (hm : off + v.length ≤ e.par.maxFileBytes) : EnvStep f e (flushedEnv e f old off v) :=
  EnvStep.setFile ho (by rw [overlay_length]; omega) _

theorem flushedEnv_noHole {e : Env} {f : BitVec 16} {old : List Byte} {off : Nat} {v : List Byte}
    (h : off ≤ old.length) : (flushedEnv e f old off v).freeIx = e.freeIx := by
  simp [flushedEnv, Nat.not_lt.2 h]

/-! ## Memory operations keep the canonical form -/

/-- Every operation over the backing store keeps `Memory.wf`: a fill and a flush, a truncation by COPEN, a host write of a
file that is not too long, and a host deletion. -/
theorem memRead_wf {e : Env} (h : Memory.wf e.par e.files = true) (f : BitVec 16) (off n : Nat) :
    (memRead e f off n).leaves fun e' => Memory.wf e'.par e'.files = true := by
  rcases memRead_cases e f off n with ⟨_, he⟩ | ⟨b, _, _, he⟩ | ⟨b, _, _, he⟩ <;> rw [he]
  · trivial
  · exact h
  · exact h

theorem memWrite_wf {e : Env} (h : Memory.wf e.par e.files = true) (f : BitVec 16) (off : Nat) (v : List Byte) :
    (memWrite e f off v).leaves fun e' => Memory.wf e'.par e'.files = true := by
  rcases memWrite_cases e f off v with ⟨_, he⟩ | ⟨b, _, _, he⟩ | ⟨b, hb, _, hm, he⟩ <;> rw [he]
  · trivial
  · exact h
  · exact (flushedEnv_step hb hm).wf h

theorem Env.setFile_wf {e : Env} (h : Memory.wf e.par e.files = true) {f : BitVec 16} (hf : f.toNat < e.par.nfid)
    {b : List Byte} (hb : b.length ≤ e.par.maxFileBytes) : Memory.wf (e.setFile f b).par (e.setFile f b).files = true :=
  Memory.wf_tableSet h hf hb

theorem Env.dropFile_wf {e : Env} (h : Memory.wf e.par e.files = true) (f : BitVec 16) :
    Memory.wf (e.dropFile f).par (e.dropFile f).files = true :=
  Memory.wf_tableErase h

end Sys2Proof.Machine
end

