-- ==== Sys2Proof/Laws/Cursor.lean ====
section
/-! SUPPORT. The cursor primitives: everything each can answer, the invariant they keep, and the cursor's position
(R121 to R127). -/

namespace Sys2Proof.Machine

open Sys2Proof

/-! ## What a primitive leaves -/

/-- What a primitive may do to its cursor and the environment: the binding of the cursor stays, the environment changes
lawfully, and the cursor stays sound. -/
structure ChanStep (ch ch' : Chan) : Prop where
  isOpen : ch'.cur.isOpen = ch.cur.isOpen
  mode : ch'.cur.mode = ch.cur.mode
  fid : ch'.cur.fid = ch.cur.fid
  bufsz : ch'.cur.bufsz = ch.cur.bufsz
  env : EnvStep ch.cur.fid ch.env ch'.env
  inv : ch.env.sound → CursorInv ch.env ch.cur → CursorInv ch'.env ch'.cur

theorem ChanStep.refl (ch : Chan) : ChanStep ch ch := ⟨rfl, rfl, rfl, rfl, EnvStep.refl _ _, fun _ h => h⟩

theorem ChanStep.trans {a b c : Chan} (h : ChanStep a b) (h' : ChanStep b c) : ChanStep a c :=
  ⟨h'.isOpen.trans h.isOpen, h'.mode.trans h.mode, h'.fid.trans h.fid, h'.bufsz.trans h.bufsz,
    h.env.trans (h.fid ▸ h'.env), fun w i => h'.inv (h.env.sound w) (h.inv w i)⟩

/-- What a fill leaves of the store: the same files. -/
structure SameStore (e e' : Env) : Prop where
  par : e'.par = e.par
  files : e'.files = e.files
  freeIx : e'.freeIx = e.freeIx

theorem SameStore.refl (e : Env) : SameStore e e := ⟨rfl, rfl, rfl⟩

theorem SameStore.trans {a b c : Env} (h : SameStore a b) (h' : SameStore b c) : SameStore a c :=
  ⟨h'.par.trans h.par, h'.files.trans h.files, h'.freeIx.trans h.freeIx⟩

theorem SameStore.asked (e : Env) : SameStore e e.asked := ⟨rfl, rfl, rfl⟩

/-- An invariant of a cursor carries over to a store in which its file is still present. -/
theorem CursorInv.store {e e' : Env} {c : Cursor} (h : CursorInv e c) (hpar : e'.par = e.par)
    (hp : (e'.file c.fid).isSome = true) : CursorInv e' c :=
  ⟨h.sizePos, hpar ▸ h.sizeMax, h.bufLen, h.fposMax, hpar ▸ h.fposWrite, h.byteLe, h.validLe, h.readPos, h.writePos, h.padZero, hp⟩

/-! ## Fills (R121, R136) -/

theorem fillCount_le (bufsz p len : Nat) : fillCount bufsz p len ≤ bufsz ∧ fillCount bufsz p len ≤ len - p := by
  unfold fillCount; split <;> omega

/-- Everything a fill can answer. -/
theorem fillAt_cases (p : Nat) (ch : Chan) :
    (ch.env.file ch.cur.fid = none ∧ fillAt p ch = .stuck .fileAbsent) ∨
      ∃ b, ch.env.file ch.cur.fid = some b ∧
        ((fillCount ch.cur.bufsz p b.length = 0 ∧
            fillAt p ch = .ok 0 { ch with cur := { ch.cur with fpos := p, valid := 0, byteP := 0 } }) ∨
          (0 < fillCount ch.cur.bufsz p b.length ∧ ch.env.ioAnswer = true ∧
            fillAt p ch = .raise .ioFailure { ch with env := ch.env.asked }) ∨
          (0 < fillCount ch.cur.bufsz p b.length ∧ ch.env.ioAnswer = false ∧
            fillAt p ch = .ok (fillCount ch.cur.bufsz p b.length)
              ⟨loaded ch.cur p (fillCount ch.cur.bufsz p b.length)
                ((b.drop p).take (fillCount ch.cur.bufsz p b.length)), ch.env.asked⟩)) := by
  unfold fillAt
  cases h : ch.env.file ch.cur.fid with
  | none => simp
  | some b =>
    refine .inr ⟨b, rfl, ?_⟩
    by_cases h0 : fillCount ch.cur.bufsz p b.length = 0
    · exact .inl ⟨h0, by simp only [h0, if_true]⟩
    · refine .inr ?_
      have hpos : 0 < fillCount ch.cur.bufsz p b.length := by omega
      rcases memRead_cases ch.env ch.cur.fid p (fillCount ch.cur.bufsz p b.length) with ⟨hn, _⟩ | ⟨_, _, ha, he⟩ |
        ⟨b', hb', ha, he⟩
      · rw [hn] at h; cases h
      · exact .inl ⟨hpos, ha, by simp only [h0, if_false, he]⟩
      · rw [h, Option.some.injEq] at hb'
        subst hb'
        exact .inr ⟨hpos, ha, by simp only [h0, if_false, he]⟩

/-- A fill keeps a read cursor sound, and the store. -/
theorem fillAt_step {p : Nat} {ch : Chan} (hm : ch.cur.mode = .read) (hp : p < 2 ^ 61) :
    (fillAt p ch).leaves fun ch' => ChanStep ch ch' ∧ SameStore ch.env ch'.env ∧ ch'.cur.bitP = ch.cur.bitP := by
  rcases fillAt_cases p ch with ⟨_, h⟩ | ⟨b, hb, ⟨_, h⟩ | ⟨_, _, h⟩ | ⟨hn, _, h⟩⟩ <;> rw [h]
  · trivial
  · refine ⟨⟨rfl, rfl, rfl, rfl, EnvStep.refl _ _, fun _ i => ?_⟩, SameStore.refl _, rfl⟩
    exact ⟨i.sizePos, i.sizeMax, i.bufLen, hp, fun h => (by simp only at h; rw [hm] at h; cases h), Nat.zero_le _, Nat.zero_le _, fun _ => ⟨Nat.le_refl _, Nat.zero_le _⟩,
      fun h => (by simp only at h; rw [hm] at h; cases h), fun h => (by simp only at h; rw [hm] at h; cases h),
      i.filePresent⟩
  · exact ⟨⟨rfl, rfl, rfl, rfl, EnvStep.asked _ _, fun _ i => i.store rfl i.filePresent⟩, SameStore.asked _, rfl⟩
  · refine ⟨⟨rfl, rfl, rfl, rfl, EnvStep.asked _ _, fun w i => ?_⟩, SameStore.asked _, rfl⟩
    have hc := fillCount_le ch.cur.bufsz p b.length
    have hl := Memory.length_le w.2 hb
    refine ⟨i.sizePos, i.sizeMax, ?_, ?_, fun h => (by simp only [loaded] at h; rw [hm] at h; cases h), Nat.zero_le _, hc.1,
      fun _ => ⟨Nat.zero_le _, ?_⟩,
      fun h => (by simp only [loaded] at h; rw [hm] at h; cases h),
      fun h => (by simp only [loaded] at h; rw [hm] at h; cases h), i.filePresent⟩
    · have := i.bufLen
      simp only [loaded, List.length_append, List.length_take, List.length_drop]
      omega
    · have := (Params.bounds w.1).2.2.2.2
      simp only [loaded]; omega
    · simp only [loaded]; omega

/-! ## Reading bits (R125, R126) -/

@[simp] theorem advance_isOpen (c : Cursor) : (advance c).isOpen = c.isOpen := rfl
@[simp] theorem advance_mode (c : Cursor) : (advance c).mode = c.mode := rfl
@[simp] theorem advance_fid (c : Cursor) : (advance c).fid = c.fid := rfl
@[simp] theorem advance_bufsz (c : Cursor) : (advance c).bufsz = c.bufsz := rfl
@[simp] theorem advance_buf (c : Cursor) : (advance c).buf = c.buf := rfl
@[simp] theorem advance_fpos (c : Cursor) : (advance c).fpos = c.fpos := rfl
@[simp] theorem advance_valid (c : Cursor) : (advance c).valid = c.valid := rfl

/-- Where a cursor is after one bit: in the next bit of its byte, or in bit 0 of the next byte. -/
theorem advance_pos (c : Cursor) :
    (c.bitP.val < 7 ∧ (advance c).bitP.val = c.bitP.val + 1 ∧ (advance c).byteP = c.byteP) ∨
      (c.bitP.val = 7 ∧ (advance c).bitP.val = 0 ∧ (advance c).byteP = c.byteP + 1) := by
  have h8 := c.bitP.isLt
  simp only [advance, Fin.val_add]
  by_cases h : c.bitP.val = 7
  · exact .inr ⟨h, by simp [h], by simp [h]⟩
  · refine .inl ⟨by omega, ?_, by simp [h]⟩
    show (c.bitP.val + 1) % 8 = _
    omega

/-- Taking a bit that is there keeps a read cursor sound. -/
theorem advance_read_inv {env : Env} {c : Cursor} (hm : c.mode = .read) (hv : c.byteP < c.valid) (i : CursorInv env c) :
    CursorInv env (advance c) := by
  have hr := i.readPos hm
  have hb : (advance c).byteP ≤ c.valid := by rcases advance_pos c with ⟨_, _, h⟩ | ⟨_, _, h⟩ <;> omega
  have := i.validLe
  exact ⟨i.sizePos, i.sizeMax, i.bufLen, i.fposMax, i.fposWrite, by simp only [advance_bufsz]; omega, i.validLe,
    fun _ => ⟨by simpa using hb, hr.2⟩, fun h => (by rw [advance_mode, hm] at h; cases h),
    fun h => (by rw [advance_mode, hm] at h; cases h), i.filePresent⟩

/-- Everything `ReadBit` can answer (R125): a bit of the buffer; a bit after a fill that succeeds; `EOF` after a fill that
finds nothing; a fill that fails. -/
theorem readBit_cases (ch : Chan) :
    (ch.cur.byteP < ch.cur.valid ∧ readBit ch = .ok (some (bitAt ch.cur)) { ch with cur := advance ch.cur }) ∨
      (ch.cur.valid ≤ ch.cur.byteP ∧
        ((∃ n ch', refill ch = .ok n ch' ∧ n ≠ 0 ∧
            readBit ch = .ok (some (bitAt ch'.cur)) { ch' with cur := advance ch'.cur }) ∨
          (∃ ch', refill ch = .ok 0 ch' ∧ readBit ch = .ok none ch') ∨
          (∃ e ch', refill ch = .raise e ch' ∧ readBit ch = .raise e ch') ∨
          ∃ f, refill ch = .stuck f ∧ readBit ch = .stuck f)) := by
  unfold readBit
  by_cases h : ch.cur.valid ≤ ch.cur.byteP
  · refine .inr ⟨h, ?_⟩
    simp only [h, if_true]
    cases hr : refill ch with
    | ok n ch' =>
      by_cases hn : n = 0
      · subst hn; exact .inr (.inl ⟨ch', rfl, by simp⟩)
      · exact .inl ⟨n, ch', rfl, hn, by simp [hn, takeBit]⟩
    | raise e ch' => exact .inr (.inr (.inl ⟨e, ch', rfl, rfl⟩))
    | stuck f => exact .inr (.inr (.inr ⟨f, rfl, rfl⟩))
  · exact .inl ⟨by omega, by simp [h, takeBit]⟩

/-- The bytes a successful fill leaves in reach. -/
theorem refill_some {ch ch' : Chan} {n : Nat} (h : refill ch = .ok n ch') (hn : n ≠ 0) :
    ch'.cur.byteP = 0 ∧ ch'.cur.valid = n := by
  rcases fillAt_cases ch.cur.fpos ch with ⟨_, e⟩ | ⟨b, _, ⟨_, e⟩ | ⟨_, _, e⟩ | ⟨_, _, e⟩⟩ <;>
    rw [refill, e] at h <;> simp only [reduceCtorEq, Res.ok.injEq] at h
  · exact absurd h.1.symm hn
  · obtain ⟨rfl, rfl⟩ := h
    exact ⟨rfl, rfl⟩

/-- What reading leaves: a sound cursor and the same store. -/
def ReadStep (ch ch' : Chan) : Prop := ChanStep ch ch' ∧ SameStore ch.env ch'.env

theorem ReadStep.refl (ch : Chan) : ReadStep ch ch := ⟨ChanStep.refl _, SameStore.refl _⟩

theorem ReadStep.trans {a b c : Chan} (h : ReadStep a b) (h' : ReadStep b c) : ReadStep a c :=
  ⟨h.1.trans h'.1, h.2.trans h'.2⟩

/-- A fill at the cursor's own position keeps it sound without a bound on the position. -/
theorem refill_step {ch : Chan} (hm : ch.cur.mode = .read) : (refill ch).leaves (ReadStep ch) := by
  rcases fillAt_cases ch.cur.fpos ch with ⟨_, h⟩ | ⟨b, hb, ⟨_, h⟩ | ⟨_, _, h⟩ | ⟨hn, _, h⟩⟩ <;> rw [refill, h]
  · trivial
  · refine ⟨⟨rfl, rfl, rfl, rfl, EnvStep.refl _ _, fun w i => ?_⟩, SameStore.refl _⟩
    have := fillAt_step (p := ch.cur.fpos) hm i.fposMax
    rw [h] at this
    exact this.1.inv w i
  · exact ⟨⟨rfl, rfl, rfl, rfl, EnvStep.asked _ _, fun _ i => i.store rfl i.filePresent⟩, SameStore.asked _⟩
  · refine ⟨⟨rfl, rfl, rfl, rfl, EnvStep.asked _ _, fun w i => ?_⟩, SameStore.asked _⟩
    have := fillAt_step (p := ch.cur.fpos) hm i.fposMax
    rw [h] at this
    exact this.1.inv w i

theorem advance_readStep {ch : Chan} (hm : ch.cur.mode = .read) (hv : ch.cur.byteP < ch.cur.valid) :
    ReadStep ch { ch with cur := advance ch.cur } :=
  ⟨⟨rfl, rfl, rfl, rfl, EnvStep.refl _ _, fun _ i => advance_read_inv hm hv i⟩, SameStore.refl _⟩

/-- `ReadBit` keeps a read cursor sound and the store as it is (R62, R125). -/
theorem readBit_step {ch : Chan} (hm : ch.cur.mode = .read) : (readBit ch).leaves (ReadStep ch) := by
  have hs := refill_step hm
  rcases readBit_cases ch with ⟨hv, h⟩ | ⟨_, ⟨n, ch', hr, hn, h⟩ | ⟨ch', hr, h⟩ | ⟨e, ch', hr, h⟩ | ⟨f, hr, h⟩⟩ <;> rw [h]
  · exact advance_readStep hm hv
  · rw [hr] at hs
    obtain ⟨h0, hv⟩ := refill_some hr hn
    exact ReadStep.trans hs (advance_readStep (hs.1.mode.trans hm) (by omega))
  · rw [hr] at hs; exact hs
  · rw [hr] at hs; exact hs
  · trivial

/-- `ReadBits` keeps a read cursor sound and the store as it is (R126). -/
theorem readBits_step (n : Nat) {ch : Chan} (hm : ch.cur.mode = .read) : (readBits n ch).leaves (ReadStep ch) := by
  induction n generalizing ch with
  | zero => exact ReadStep.refl ch
  | succ n ih =>
    refine Res.leaves_bind (readBit_step hm) fun b ch' hb hs => ?_
    cases b with
    | none => exact hs
    | some b =>
      refine Res.leaves_mono (fun _ h => hs.trans h) (Res.leaves_bind (ih (hs.1.mode.trans hm)) fun bs ch'' _ h => h)

/-- `ReadBits` delivers no more bits than asked (R126). -/
theorem readBits_length {n : Nat} {ch ch' : Chan} {s : Bits} (h : readBits n ch = .ok s ch') : s.length ≤ n := by
  induction n generalizing ch s ch' with
  | zero => simp only [readBits, Res.ok.injEq] at h; simp [← h.1]
  | succ n ih =>
    simp only [readBits] at h
    rw [Res.bind_eq_ok] at h
    obtain ⟨b, ch1, _, h⟩ := h
    cases b with
    | none => simp only [Res.ok.injEq] at h; simp [← h.1]
    | some b =>
      simp only at h
      rw [Res.bind_eq_ok] at h
      obtain ⟨bs, ch2, h2, h⟩ := h
      simp only [Res.ok.injEq] at h
      have := ih h2
      rw [← h.1]
      simpa using this

/-! ## Flushing (R124) -/

theorem pendingBytes_le {env : Env} {c : Cursor} (hm : c.mode = .write) (i : CursorInv env c) :
    pendingBytes c ≤ c.bufsz := by
  have hb := i.byteLe
  unfold pendingBytes
  split
  · omega
  · rename_i h
    have : c.byteP ≠ c.bufsz := fun e => h (by rw [i.writePos hm e]; rfl)
    omega

/-- A cursor after a flush of `n` bytes (R124). -/
def flushedCur (c : Cursor) : Cursor := { c with fpos := c.fpos + pendingBytes c, byteP := 0, bitP := 0 }

/-- Everything `Flush` can answer (R124). -/
theorem flush_cases (ch : Chan) :
    (pendingBytes ch.cur = 0 ∧ flush ch = .ok () { ch with cur := { ch.cur with byteP := 0, bitP := 0 } }) ∨
      (0 < pendingBytes ch.cur ∧
        ((ch.env.file ch.cur.fid = none ∧ flush ch = .stuck .fileAbsent) ∨
          (∃ old, ch.env.file ch.cur.fid = some old ∧
            (ch.env.ioAnswer = true ∨
              ch.env.par.maxFileBytes < ch.cur.fpos + (ch.cur.buf.take (pendingBytes ch.cur)).length) ∧
            flush ch = .raise .ioFailure { ch with env := ch.env.asked }) ∨
          ∃ old, ch.env.file ch.cur.fid = some old ∧ ch.env.ioAnswer = false ∧
            ch.cur.fpos + (ch.cur.buf.take (pendingBytes ch.cur)).length ≤ ch.env.par.maxFileBytes ∧
            flush ch = .ok () ⟨flushedCur ch.cur,
              flushedEnv ch.env ch.cur.fid old ch.cur.fpos (ch.cur.buf.take (pendingBytes ch.cur))⟩)) := by
  unfold flush
  by_cases h0 : pendingBytes ch.cur = 0
  · exact .inl ⟨h0, by simp only [h0, if_true]⟩
  · refine .inr ⟨by omega, ?_⟩
    rcases memWrite_cases ch.env ch.cur.fid ch.cur.fpos (ch.cur.buf.take (pendingBytes ch.cur)) with ⟨hn, e⟩ |
      ⟨old, ho, hc, e⟩ | ⟨old, ho, ha, hl, e⟩
    · exact .inl ⟨hn, by simp only [h0, if_false, e]⟩
    · exact .inr (.inl ⟨old, ho, hc, by simp only [h0, if_false, e]⟩)
    · exact .inr (.inr ⟨old, ho, ha, hl, by simp only [h0, if_false, e]; rfl⟩)

/-- A cursor whose buffer is emptied stays sound. -/
theorem CursorInv.emptied {env : Env} {c : Cursor} {p : Nat} (hm : c.mode = .write) (i : CursorInv env c)
    (h61 : p < 2 ^ 61) (hp : p ≤ env.par.maxFileBytes) : CursorInv env { c with fpos := p, byteP := 0, bitP := 0 } :=
  ⟨i.sizePos, i.sizeMax, i.bufLen, h61, fun _ => hp, Nat.zero_le _, i.validLe, fun h => (by simp only at h; rw [hm] at h; cases h),
    fun _ _ => rfl, fun _ h => absurd rfl h, i.filePresent⟩

/-- `Flush` keeps a write cursor sound; when it succeeds its buffer is empty (R124). -/
theorem flush_step {ch : Chan} (hm : ch.cur.mode = .write) : (flush ch).leaves (ChanStep ch) := by
  rcases flush_cases ch with ⟨_, h⟩ | ⟨_, ⟨_, h⟩ | ⟨old, _, _, h⟩ | ⟨old, ho, _, hl, h⟩⟩ <;> rw [h]
  · exact ⟨rfl, rfl, rfl, rfl, EnvStep.refl _ _, fun _ i => i.emptied hm i.fposMax (i.fposWrite hm)⟩
  · trivial
  · exact ⟨rfl, rfl, rfl, rfl, EnvStep.asked _ _, fun _ i => i.store rfl i.filePresent⟩
  · refine ⟨rfl, rfl, rfl, rfl, flushedEnv_step ho hl, fun w i => ?_⟩
    have hb := pendingBytes_le hm i
    have := i.bufLen
    have := (Params.bounds w.1).2.2.2.2
    rw [List.length_take] at hl
    refine CursorInv.store (i.emptied hm (p := ch.cur.fpos + pendingBytes ch.cur) (by omega) (by omega)) rfl ?_
    exact (flushedEnv_step ho (by rw [List.length_take]; exact hl)).present _ i.filePresent

theorem flush_empty {ch ch' : Chan} (h : flush ch = .ok () ch') : ch'.cur.byteP = 0 ∧ ch'.cur.bitP = 0 := by
  rcases flush_cases ch with ⟨_, e⟩ | ⟨_, ⟨_, e⟩ | ⟨_, _, _, e⟩ | ⟨_, _, _, _, e⟩⟩ <;> rw [e] at h <;>
    simp only [reduceCtorEq, Res.ok.injEq, true_and] at h <;> subst h <;> exact ⟨rfl, rfl⟩

/-! ## Writing bits (R122, R126) -/

@[simp] theorem putBit_isOpen (b : Bool) (c : Cursor) : (putBit b c).isOpen = c.isOpen := rfl
@[simp] theorem putBit_mode (b : Bool) (c : Cursor) : (putBit b c).mode = c.mode := rfl
@[simp] theorem putBit_fid (b : Bool) (c : Cursor) : (putBit b c).fid = c.fid := rfl
@[simp] theorem putBit_bufsz (b : Bool) (c : Cursor) : (putBit b c).bufsz = c.bufsz := rfl
@[simp] theorem putBit_fpos (b : Bool) (c : Cursor) : (putBit b c).fpos = c.fpos := rfl
@[simp] theorem putBit_valid (b : Bool) (c : Cursor) : (putBit b c).valid = c.valid := rfl

theorem putBit_buf (b : Bool) (c : Cursor) :
    (putBit b c).buf = c.buf.set c.byteP (openByte c ||| bitMask c.bitP.val b) := rfl

theorem putBit_pos (b : Bool) (c : Cursor) :
    (c.bitP.val < 7 ∧ (putBit b c).bitP.val = c.bitP.val + 1 ∧ (putBit b c).byteP = c.byteP) ∨
      (c.bitP.val = 7 ∧ (putBit b c).bitP.val = 0 ∧ (putBit b c).byteP = c.byteP + 1) :=
  advance_pos { c with buf := c.buf.set c.byteP (openByte c ||| bitMask c.bitP.val b) }

/-- A byte is clear from the next bit position on (R122, R123). -/
theorem openByte_clear {env : Env} {c : Cursor} (hm : c.mode = .write) (i : CursorInv env c) {j : Nat}
    (hj : c.bitP.val ≤ j) (h8 : j < 8) : byteBit (openByte c) j = false := by
  unfold openByte
  split
  · simp
  · rename_i h
    exact i.padZero hm h j hj h8

/-- A bit put into a buffer with room keeps a write cursor sound (R122). -/
theorem putBit_inv {env : Env} {c : Cursor} (b : Bool) (hm : c.mode = .write) (hr : c.byteP < c.bufsz)
    (i : CursorInv env c) : CursorInv env (putBit b c) := by
  have hpos := putBit_pos b c
  have hlt := c.bitP.isLt
  refine ⟨i.sizePos, i.sizeMax, ?_, i.fposMax, i.fposWrite, ?_, i.validLe, fun h => (by rw [putBit_mode, hm] at h; cases h), ?_, ?_,
    i.filePresent⟩
  · rw [putBit_buf, List.length_set]; exact i.bufLen
  · rw [putBit_bufsz]
    rcases hpos with ⟨_, _, h⟩ | ⟨_, _, h⟩ <;> omega
  · intro _ hb
    rw [putBit_bufsz] at hb
    rcases hpos with ⟨_, _, h⟩ | ⟨_, h0, h⟩
    · omega
    · exact Fin.ext h0
  · intro _ hne j hj h8
    rcases hpos with ⟨h7, h1, h⟩ | ⟨_, h0, h⟩
    · have hlen : c.byteP < c.buf.length := by rw [i.bufLen]; exact hr
      rw [h, putBit_buf, List.getD_eq_getElem?_getD, List.getElem?_set_self hlen, Option.getD_some,
        byteBit_or_bitMask _ _ hlt h8, openByte_clear hm i (by omega) h8]
      simp only [Bool.false_or, Bool.and_eq_false_imp, decide_eq_true_eq]
      omega
    · exact absurd h0 hne

/-- Everything `WriteBit` can answer (R122). -/
theorem writeBit_cases (b : Bool) (ch : Chan) :
    (ch.cur.byteP ≠ ch.cur.bufsz ∧ writeBit b ch = .ok () { ch with cur := putBit b ch.cur }) ∨
      (ch.cur.byteP = ch.cur.bufsz ∧
        ((∃ ch', flush ch = .ok () ch' ∧ writeBit b ch = .ok () { ch' with cur := putBit b ch'.cur }) ∨
          (∃ e ch', flush ch = .raise e ch' ∧ writeBit b ch = .raise e ch') ∨
          ∃ f, flush ch = .stuck f ∧ writeBit b ch = .stuck f)) := by
  unfold writeBit
  by_cases h : ch.cur.byteP = ch.cur.bufsz
  · refine .inr ⟨h, ?_⟩
    simp only [h, if_true]
    cases hf : flush ch with
    | ok u ch' => exact .inl ⟨ch', rfl, rfl⟩
    | raise e ch' => exact .inr (.inl ⟨e, ch', rfl, rfl⟩)
    | stuck f => exact .inr (.inr ⟨f, rfl, rfl⟩)
  · exact .inl ⟨h, by simp [h]⟩

theorem putBit_step {b : Bool} {ch : Chan} (hm : ch.cur.mode = .write)
    (hr : CursorInv ch.env ch.cur → ch.cur.byteP < ch.cur.bufsz) :
    ChanStep ch { ch with cur := putBit b ch.cur } :=
  ⟨rfl, rfl, rfl, rfl, EnvStep.refl _ _, fun _ i => putBit_inv b hm (hr i) i⟩

/-- `WriteBit` keeps a write cursor sound (R122). -/
theorem writeBit_step (b : Bool) {ch : Chan} (hm : ch.cur.mode = .write) : (writeBit b ch).leaves (ChanStep ch) := by
  have hs := flush_step hm
  rcases writeBit_cases b ch with ⟨hr, h⟩ | ⟨_, ⟨ch', hf, h⟩ | ⟨e, ch', hf, h⟩ | ⟨f, hf, h⟩⟩ <;> rw [h]
  · exact putBit_step hm fun i => by have := i.byteLe; omega
  · rw [hf] at hs
    have he := flush_empty hf
    exact ChanStep.trans hs (putBit_step (hs.mode.trans hm) fun i => by have := i.sizePos; omega)
  · rw [hf] at hs; exact hs
  · trivial

/-- `WriteBits` keeps a write cursor sound (R126). -/
theorem writeBits_step (s : Bits) {ch : Chan} (hm : ch.cur.mode = .write) : (writeBits s ch).leaves (ChanStep ch) := by
  induction s generalizing ch with
  | nil => exact ChanStep.refl ch
  | cons b s ih =>
    refine Res.leaves_bind (writeBit_step b hm) fun _ ch' _ hs => ?_
    exact Res.leaves_mono (fun _ h => hs.trans h) (ih (hs.mode.trans hm))

end Sys2Proof.Machine
end

