-- ==== Sys2Proof/Laws/Streams.lean ====
section
/-! SUPPORT. The cursor primitives on whole streams, while no store access fails: a read cursor delivers the bits that are
pending, a write cursor's bits are in its file once it is flushed, and the cursor's position counts the bits (R71, R72,
R126, R127). -/

namespace Sys2Proof.Machine

open Sys2Proof

/-! ## Reading -/

/-- The bits of a byte array from a bit inside its first byte on. -/
theorem bytesBits_drop_lt (x : Byte) (B : List Byte) {j : Nat} (hj : j < 8) :
    (bytesBits (x :: B)).drop j = byteBit x j :: (bytesBits (x :: B)).drop (j + 1) := by
  have hlt : j < (bytesBits (x :: B)).length := by simp; omega
  rw [List.drop_eq_getElem_cons hlt]
  congr 1
  simp only [bytesBits_cons]
  rw [List.getElem_append_left (by simpa using hj), byteBits_getElem]

theorem bytesBits_drop_eight (x : Byte) (B : List Byte) : (bytesBits (x :: B)).drop 8 = bytesBits B := by
  rw [bytesBits_cons, List.drop_append_of_le_length (by simp), List.drop_of_length_le (by simp), List.nil_append]

/-- The bytes a read cursor still delivers from. -/
def pendingList (ch : Chan) : List Byte :=
  (ch.cur.buf.take ch.cur.valid).drop ch.cur.byteP ++ (fileBytes ch).drop ch.cur.fpos

theorem pending_eq (ch : Chan) : pending ch = (bytesBits (pendingList ch)).drop ch.cur.bitP.val := rfl

/-- A bit taken from the buffer is the first pending bit. -/
theorem pending_take {ch : Chan} (hv : ch.cur.byteP < ch.cur.valid) (hb : ch.cur.valid ≤ ch.cur.buf.length) :
    pending ch = bitAt ch.cur :: pending { ch with cur := advance ch.cur } := by
  have hlt : ch.cur.byteP < ch.cur.buf.length := by omega
  have hlist : pendingList ch = ch.cur.buf[ch.cur.byteP] ::
      ((ch.cur.buf.take ch.cur.valid).drop (ch.cur.byteP + 1) ++ (fileBytes ch).drop ch.cur.fpos) := by
    unfold pendingList
    rw [List.drop_eq_getElem_cons (by rw [List.length_take]; omega)]
    simp
  rw [pending_eq, hlist, bytesBits_drop_lt _ _ ch.cur.bitP.isLt]
  congr 1
  · simp [bitAt, List.getD_eq_getElem?_getD, hlt]
  · rw [pending_eq]
    rcases advance_pos ch.cur with ⟨_, h1, h2⟩ | ⟨h7, h1, h2⟩
    · simp only [h1, pendingList, advance_buf, advance_valid, advance_fpos, h2]
      rw [← hlist]
      rfl
    · simp only [h1, pendingList, advance_buf, advance_valid, advance_fpos, h2, h7, List.drop_zero]
      rw [bytesBits_drop_eight]
      rfl

/-- A fill brings the bytes of the file from the cursor's position on (R121). -/
theorem refill_pending {ch : Chan} (hn : noFail ch.env) (i : CursorInv ch.env ch.cur)
    (hv : ch.cur.valid ≤ ch.cur.byteP) :
    ∃ n ch', refill ch = .ok n ch' ∧ pending ch' = pending ch ∧ (n = 0 → pending ch = []) ∧
      ch'.cur.valid ≤ ch'.cur.buf.length ∧ ch'.cur.fpos = ch.cur.fpos + n ∧ ch'.cur.valid = n ∧ ch'.cur.byteP = 0 ∧
      ch'.cur.bitP = ch.cur.bitP := by
  have hbuf : (ch.cur.buf.take ch.cur.valid).drop ch.cur.byteP = [] :=
    List.drop_of_length_le (by rw [List.length_take]; omega)
  have hpl : pendingList ch = (fileBytes ch).drop ch.cur.fpos := by rw [pendingList, hbuf, List.nil_append]
  rcases fillAt_cases ch.cur.fpos ch with ⟨h, _⟩ | ⟨b, hb, ⟨h0, h⟩ | ⟨_, ha, _⟩ | ⟨hpos, _, h⟩⟩
  · have := i.filePresent
    rw [h] at this
    cases this
  · have hf : fileBytes ch = b := by simp [fileBytes, hb]
    have hle : b.length ≤ ch.cur.fpos := by
      have := i.sizePos
      unfold fillCount at h0
      split at h0 <;> omega
    have hd : (fileBytes ch).drop ch.cur.fpos = [] := by rw [hf]; exact List.drop_of_length_le hle
    refine ⟨0, _, h, ?_, fun _ => ?_, Nat.zero_le _, rfl, rfl, rfl, rfl⟩
    · rw [pending_eq, pending_eq, hpl, hd]
      simp only [pendingList, List.take_zero, List.drop_nil, List.nil_append]
      rw [show fileBytes { ch with cur := { ch.cur with fpos := ch.cur.fpos, valid := 0, byteP := 0 } } = fileBytes ch
        from rfl, hd]
    · rw [pending_eq, hpl, hd]; simp
  · rw [hn.answer] at ha; cases ha
  · have hf : fileBytes ch = b := by simp [fileBytes, hb]
    have hc := fillCount_le ch.cur.bufsz ch.cur.fpos b.length
    have hg : ((b.drop ch.cur.fpos).take (fillCount ch.cur.bufsz ch.cur.fpos b.length)).length =
        fillCount ch.cur.bufsz ch.cur.fpos b.length := by simp; omega
    refine ⟨_, _, h, ?_, fun h0 => by omega, ?_, rfl, rfl, rfl, rfl⟩
    · rw [pending_eq, pending_eq, hpl]
      congr 2
      have hf' : fileBytes ⟨loaded ch.cur ch.cur.fpos (fillCount ch.cur.bufsz ch.cur.fpos b.length)
        ((b.drop ch.cur.fpos).take (fillCount ch.cur.bufsz ch.cur.fpos b.length)), ch.env.asked⟩ = b := hf
      rw [pendingList, hf', hf]
      simp only [loaded, List.drop_zero]
      rw [List.take_append_of_le_length (by omega), List.take_of_length_le (by omega), ← List.drop_drop,
        List.take_append_drop]
    · simp only [loaded, List.length_append, hg]; omega

/-- The cursor's position counts bits (R127). -/
theorem absBitPos_advance {c : Cursor} : absBitPos (advance c) = absBitPos c + 1 := by
  simp only [absBitPos, advance_mode]
  cases c.mode <;> simp only [advance_fpos, advance_valid] <;>
    rcases advance_pos c with ⟨_, h1, h2⟩ | ⟨h7, h1, h2⟩ <;> rw [h1, h2] <;> omega

theorem absBitPos_refill {c c' : Cursor} {n : Nat} (hm : c.mode = .read) (hm' : c'.mode = .read)
    (hr : c.byteP ≤ c.valid ∧ c.valid ≤ c.fpos) (hv : c.valid ≤ c.byteP) (h1 : c'.fpos = c.fpos + n)
    (h2 : c'.valid = n) (h3 : c'.byteP = 0) (h4 : c'.bitP = c.bitP) : absBitPos c' = absBitPos c := by
  simp only [absBitPos, hm, hm', h1, h2, h3, h4]
  omega

/-- What a read that moves `n` bits leaves: the rest is pending and the position has moved. -/
structure Took (ch ch' : Chan) (n : Nat) : Prop where
  step : ReadStep ch ch'
  pending : pending ch' = (pending ch).drop n
  pos : absBitPos ch'.cur = absBitPos ch.cur + min n (Machine.pending ch).length

/-- `ReadBit` delivers the first pending bit, and `EOF` when nothing is pending (R125). -/
theorem readBit_pending {ch : Chan} (hn : noFail ch.env) (hm : ch.cur.mode = .read)
    (i : CursorInv ch.env ch.cur) :
    ∃ ch', readBit ch = .ok (pending ch).head? ch' ∧ Took ch ch' 1 := by
  have hs := readBit_step hm
  have hi := i.validLe
  have hl := i.bufLen
  rcases readBit_cases ch with ⟨hv, h⟩ | ⟨hv, h⟩
  · have hp := pending_take hv (by omega)
    rw [h] at hs
    refine ⟨_, by rw [hp, List.head?_cons]; exact h, hs, by rw [hp]; rfl, ?_⟩
    rw [hp, absBitPos_advance]
    simp
  · obtain ⟨n, ch', hr, hp, h0, hb, e1, e2, e3, e4⟩ := refill_pending hn i hv
    have hrs := refill_step hm
    rw [hr] at hrs
    have hm' := hrs.1.mode.trans hm
    have hpos := absBitPos_refill hm hm' (i.readPos hm) hv e1 e2 e3 e4
    rcases h with ⟨n', ch1, hr', hne, h⟩ | ⟨ch1, hr', h⟩ | ⟨e, ch1, hr', _⟩ | ⟨f, hr', _⟩ <;> rw [hr] at hr' <;>
      simp only [reduceCtorEq, Res.ok.injEq] at hr'
    · obtain ⟨rfl, rfl⟩ := hr'
      have hp1 := pending_take (ch := ch') (by omega) hb
      rw [h] at hs
      refine ⟨_, by rw [← hp, hp1, List.head?_cons]; exact h, hs, by rw [← hp, hp1]; rfl, ?_⟩
      rw [← hp, hp1, ← hpos]
      simp only [absBitPos_advance, List.length_cons]
      omega
    · obtain ⟨rfl, rfl⟩ := hr'
      rw [h] at hs
      refine ⟨_, by rw [h0 rfl]; exact h, hs, by rw [hp, h0 rfl]; rfl, ?_⟩
      rw [hpos, h0 rfl]
      simp

/-- `ReadBits` delivers the first `n` pending bits (R126). -/
theorem readBits_pending (n : Nat) {ch : Chan} (hw : ch.env.sound) (hn : noFail ch.env)
    (hm : ch.cur.mode = .read) (i : CursorInv ch.env ch.cur) :
    ∃ ch', readBits n ch = .ok ((pending ch).take n) ch' ∧ Took ch ch' n := by
  induction n generalizing ch with
  | zero => exact ⟨ch, by simp [readBits], ReadStep.refl _, rfl, by simp⟩
  | succ n ih =>
    obtain ⟨ch1, h1, t1⟩ := readBit_pending hn hm i
    cases hp : pending ch with
    | nil =>
      refine ⟨ch1, by simp [readBits, h1, hp], t1.step, by simp [t1.pending, hp], ?_⟩
      rw [t1.pos, hp]; simp
    | cons b bs =>
      have hp1 : pending ch1 = bs := by rw [t1.pending, hp]; rfl
      obtain ⟨ch2, h2, t2⟩ := ih (t1.step.1.env.sound hw) (t1.step.1.env.noFail hn) (t1.step.1.mode.trans hm)
        (t1.step.1.inv hw i)
      refine ⟨ch2, ?_, t1.step.trans t2.step, by rw [t2.pending, hp1, hp, List.drop_succ_cons], ?_⟩
      · simp [readBits, h1, hp, h2, hp1]
      · rw [t2.pos, t1.pos, hp, hp1]
        simp only [List.length_cons]
        omega

end Sys2Proof.Machine
end

