-- ==== Sys2Proof/Laws/Written.lean ====
section
/-! SUPPORT. Writing bits: what a write cursor's file is once its buffer is flushed (R63, R65, R71, R122 to R124). -/

namespace Sys2Proof.Machine

open Sys2Proof

/-! ## Bits packed into bytes (R65) -/

/-- Every bit of a byte made from bits. -/
theorem byteBit_byteOfBits (s : Bits) {j : Nat} (hj : j < 8) : byteBit (byteOfBits s) j = s.getD j false := by
  have h := bufbit_setBits [0] 0 j (s.take 8) (by simp)
  simp only [bufbit, Nat.div_eq_of_lt hj, Nat.mod_eq_of_lt hj] at h
  rw [byteOfBits, h]
  simp only [Nat.zero_le, true_and, Nat.zero_add, Nat.sub_zero, List.length_take]
  by_cases hl : j < s.length
  · rw [if_pos (by omega)]
    simp [List.getD_eq_getElem?_getD, hj]
  · rw [if_neg (by omega), List.getD_eq_default s _ (by omega)]
    simp

theorem byteOfBits_byteBits (x : Byte) (t : Bits) : byteOfBits (byteBits x ++ t) = x := by
  apply byte_ext
  intro j hj
  rw [byteBit_byteOfBits _ hj, List.getD_append _ _ _ _ (by simpa using hj)]
  simp [byteBits, List.getD_eq_getElem?_getD, hj]

@[simp] theorem packBits_length (s : Bits) : (packBits s).length = (s.length + 7) / 8 := by simp [packBits]

@[simp] theorem packBits_nil : packBits [] = [] := rfl

/-- Packing takes whole bytes off the front. -/
theorem packBits_byte (x : Byte) (s : Bits) : packBits (byteBits x ++ s) = x :: packBits s := by
  apply List.ext_getElem
  · simp; omega
  · intro i h1 h2
    simp only [packBits, List.getElem_map, List.getElem_range]
    cases i with
    | zero => simp [byteOfBits_byteBits]
    | succ i =>
      rw [List.getElem_cons_succ]
      simp only [List.getElem_map, List.getElem_range]
      rw [show 8 * (i + 1) = (byteBits x).length + 8 * i by simp; omega, List.drop_length_add_append]

theorem packBits_bytesBits_append (B : List Byte) (s : Bits) : packBits (bytesBits B ++ s) = B ++ packBits s := by
  induction B with
  | nil => rfl
  | cons x B ih => rw [bytesBits_cons, List.append_assoc, packBits_byte, ih, List.cons_append]

/-- One to eight bits make one byte. -/
theorem packBits_short {s : Bits} (h0 : s ≠ []) (h8 : s.length ≤ 8) : packBits s = [byteOfBits s] := by
  have : 0 < s.length := List.length_pos_iff.2 h0
  simp [packBits, show (s.length + 7) / 8 = 1 by omega]

/-- Every bit of a packed sequence is a bit of the sequence, or a zero of the padding. -/
theorem bufbit_packBits (s : Bits) (j : Nat) : bufbit (packBits s) j = s.getD j false := by
  unfold bufbit
  by_cases h : j / 8 < (packBits s).length
  · rw [List.getD_eq_getElem?_getD, List.getElem?_eq_getElem h, Option.getD_some]
    simp only [packBits, List.getElem_map, List.getElem_range]
    rw [byteBit_byteOfBits _ (Nat.mod_lt _ (by decide)), List.getD_eq_getElem?_getD, List.getElem?_drop,
      Nat.div_add_mod, List.getD_eq_getElem?_getD]
  · rw [List.getD_eq_default _ _ (by omega), List.getD_eq_default _ _ (by simp at h; omega)]
    exact byteBit_zero _

/-- The bits packed are the first bits of the bytes. -/
theorem bytesBits_packBits (s : Bits) : (bytesBits (packBits s)).take s.length = s := by
  apply List.ext_getElem
  · simp; omega
  · intro j h1 h2
    have h := bufbit_packBits s j
    rw [bufbit_eq_bytesBits] at h
    rw [List.getElem_take]
    simp only [List.length_take, bytesBits_length, packBits_length] at h1
    rw [List.getD_eq_getElem?_getD, List.getElem?_eq_getElem (by simp; omega), Option.getD_some,
      List.getD_eq_getElem?_getD, List.getElem?_eq_getElem h2, Option.getD_some] at h
    exact h

/-! ## Files with bits written into them -/

theorem bytesBits_take (B : List Byte) (n : Nat) : (bytesBits B).take (8 * n) = bytesBits (B.take n) := by
  induction B generalizing n with
  | nil => simp
  | cons x B ih =>
    cases n with
    | zero => simp
    | succ n =>
      rw [bytesBits_cons, show 8 * (n + 1) = (byteBits x).length + 8 * n by simp; omega, List.take_length_add_append, ih,
        List.take_succ_cons, bytesBits_cons]

theorem bytesBits_drop (B : List Byte) (n : Nat) : (bytesBits B).drop (8 * n) = bytesBits (B.drop n) := by
  induction B generalizing n with
  | nil => simp
  | cons x B ih =>
    cases n with
    | zero => simp
    | succ n =>
      rw [bytesBits_cons, show 8 * (n + 1) = (byteBits x).length + 8 * n by simp; omega, List.drop_length_add_append, ih,
        List.drop_succ_cons]

@[simp] theorem written_nil (B : List Byte) (p : Nat) : written B p [] = B := by simp [written]

theorem written_eq {s : Bits} (h : s ≠ []) (B : List Byte) (p : Nat) :
    written B p s = packBits ((bytesBits B).take p ++ s) ++ B.drop ((p + s.length + 7) / 8) := by simp [written, h]

/-- The length of a file after bits are written at or before its end. -/
theorem written_length {B : List Byte} {p : Nat} (s : Bits) (hp : p ≤ 8 * B.length) (h : s ≠ []) :
    (written B p s).length = max B.length ((p + s.length + 7) / 8) := by
  rw [written_eq h]
  simp
  omega

/-- The bits of a file up to the end of the bits just written (R71). -/
theorem written_take {B : List Byte} {p : Nat} (s : Bits) (hp : p ≤ 8 * B.length) :
    (bytesBits (written B p s)).take (p + s.length) = (bytesBits B).take p ++ s := by
  by_cases h : s = []
  · subst h; simp
  · rw [written_eq h, bytesBits_append]
    have hl : ((bytesBits B).take p ++ s).length = p + s.length := by simp; omega
    rw [List.take_append_of_le_length (by simp; omega)]
    conv_lhs => rw [← hl]
    exact bytesBits_packBits _

/-- Bits written one run after the other. -/
theorem written_append {B : List Byte} {p : Nat} (s t : Bits) (hp : p ≤ 8 * B.length) :
    written (written B p s) (p + s.length) t = written B p (s ++ t) := by
  by_cases hs : s = []
  · subst hs; simp
  · by_cases ht : t = []
    · subst ht; simp
    · rw [written_eq ht, written_take s hp, written_eq hs, written_eq (s := s ++ t) (by simp [hs]), List.append_assoc]
      congr 1
      rw [List.length_append, List.drop_append, List.drop_of_length_le (by simp; omega), List.nil_append,
        List.drop_drop]
      congr 1
      simp
      have := List.length_pos_iff.2 ht
      omega

/-- One bit written at a byte boundary: the byte is cleared (R122). -/
theorem written_first (A D : List Byte) (b : Bool) :
    written (A ++ D) (8 * A.length) [b] = A ++ byteOfBits [b] :: D.drop 1 := by
  rw [written_eq (by simp), bytesBits_take, List.take_left, packBits_bytesBits_append, packBits_short (by simp) (by simp),
    List.append_assoc]
  congr 1
  rw [show (8 * A.length + [b].length + 7) / 8 = A.length + 1 by simp; omega, List.drop_append,
    List.drop_of_length_le (by omega)]
  simp

/-- One bit written inside a byte. -/
theorem written_inside (A D : List Byte) (x : Byte) (b : Bool) {j : Nat} (h0 : 0 < j) (h8 : j < 8) :
    written (A ++ x :: D) (8 * A.length + j) [b] = A ++ byteOfBits ((byteBits x).take j ++ [b]) :: D := by
  have ht : (bytesBits (A ++ x :: D)).take (8 * A.length + j) = bytesBits A ++ (byteBits x).take j := by
    rw [bytesBits_append, bytesBits_cons, show 8 * A.length + j = (bytesBits A).length + j by simp,
      List.take_length_add_append, List.take_append_of_le_length (by simp; omega)]
  rw [written_eq (by simp), ht, List.append_assoc, packBits_bytesBits_append,
    packBits_short (by simp) (by simp; omega), List.append_assoc]
  congr 1
  rw [show (8 * A.length + j + [b].length + 7) / 8 = A.length + 1 by simp; omega, List.drop_append,
    List.drop_of_length_le (by omega)]
  simp

/-! ## The file a write cursor is making -/

theorem fileBytes_some {ch : Chan} {b : List Byte} (h : ch.env.file ch.cur.fid = some b) : fileBytes ch = b := by
  simp [fileBytes, h]

/-- A cursor whose file is present. -/
theorem CursorInv.file {ch : Chan} (i : CursorInv ch.env ch.cur) : ch.env.file ch.cur.fid = some (fileBytes ch) := by
  have := i.filePresent
  unfold fileBytes
  cases h : ch.env.file ch.cur.fid with
  | none => rw [h] at this; cases this
  | some b => rfl

theorem image_length {ch : Chan} (hm : ch.cur.mode = .write) (i : CursorInv ch.env ch.cur)
    (hh : ch.cur.fpos ≤ (fileBytes ch).length) :
    (image ch).length = max (fileBytes ch).length (ch.cur.fpos + pendingBytes ch.cur) := by
  unfold image
  split
  · omega
  · have := pendingBytes_le hm i
    have := i.bufLen
    rw [overlay_length, List.length_take]
    omega

/-- The file a write cursor is making, where its position leaves no hole. -/
theorem image_eq {ch : Chan} (hh : ch.cur.fpos ≤ (fileBytes ch).length) (hb : pendingBytes ch.cur ≤ ch.cur.buf.length) :
    image ch = (fileBytes ch).take ch.cur.fpos ++ ch.cur.buf.take (pendingBytes ch.cur) ++
      (fileBytes ch).drop (ch.cur.fpos + pendingBytes ch.cur) := by
  unfold image
  split
  · rename_i h; simp [h]
  · rw [overlay_eq _ hh, List.length_take, Nat.min_eq_left hb]

theorem absBitPos_write {c : Cursor} (hm : c.mode = .write) : absBitPos c = 8 * (c.fpos + c.byteP) + c.bitP.val := by
  simp [absBitPos, hm]

/-- A flush puts in the file what the cursor was making, and pads the position to a byte (R71, R124, R127). -/
theorem flush_image {ch : Chan} (hn : noFail ch.env) (hm : ch.cur.mode = .write) (i : CursorInv ch.env ch.cur)
    (hf : ch.cur.fpos + pendingBytes ch.cur ≤ ch.env.par.maxFileBytes) :
    ∃ ch', flush ch = .ok () ch' ∧ ChanStep ch ch' ∧ fileBytes ch' = image ch ∧ image ch' = image ch ∧
      ch'.cur.fpos = ch.cur.fpos + pendingBytes ch.cur ∧ ch'.cur.byteP = 0 ∧ ch'.cur.bitP = 0 ∧
      ch'.cur.buf = ch.cur.buf := by
  have hs := flush_step hm
  have hp : ∀ c : Cursor, c.byteP = 0 → c.bitP = 0 → pendingBytes c = 0 := fun c h0 h1 => by simp [pendingBytes, h0, h1]
  rcases flush_cases ch with ⟨h0, h⟩ | ⟨h0, ⟨ha, _⟩ | ⟨old, _, hc, _⟩ | ⟨old, ho, _, _, h⟩⟩
  · rw [h] at hs
    refine ⟨_, h, hs, ?_, ?_, by simp [h0], rfl, rfl, rfl⟩
    · unfold image; rw [if_pos h0]; rfl
    · unfold image; rw [if_pos h0, if_pos (hp _ rfl rfl)]; rfl
  · rw [i.file] at ha; cases ha
  · rcases hc with hc | hc
    · rw [hn.answer] at hc; cases hc
    · rw [List.length_take] at hc; omega
  · rw [h] at hs
    have hfile : fileBytes ⟨flushedCur ch.cur, flushedEnv ch.env ch.cur.fid old ch.cur.fpos
        (ch.cur.buf.take (pendingBytes ch.cur))⟩ = image ch := by
      rw [fileBytes_some (b := overlay ch.env.freeIx old ch.cur.fpos (ch.cur.buf.take (pendingBytes ch.cur)))
        (flushedEnv_file _ _ _ _ _), image, if_neg (by omega), fileBytes_some ho]
    refine ⟨_, h, hs, hfile, ?_, rfl, rfl, rfl, rfl⟩
    rw [image, if_pos (hp _ rfl rfl), hfile]

/-- What one more bit makes of the file (R122). -/
theorem putBit_image {ch : Chan} (b : Bool) (hm : ch.cur.mode = .write) (i : CursorInv ch.env ch.cur)
    (hh : ch.cur.fpos ≤ (fileBytes ch).length) (hr : ch.cur.byteP < ch.cur.bufsz) :
    image { ch with cur := putBit b ch.cur } = written (image ch) (absBitPos ch.cur) [b] := by
  have hl := i.bufLen
  have hlt := ch.cur.bitP.isLt
  have hq : ch.cur.byteP < ch.cur.buf.length := by omega
  have hp1 : pendingBytes (putBit b ch.cur) = ch.cur.byteP + 1 := by
    unfold pendingBytes
    rcases putBit_pos b ch.cur with ⟨_, h1, h2⟩ | ⟨_, h1, h2⟩ <;> simp [h1, h2]
  have hset : (ch.cur.buf.set ch.cur.byteP (openByte ch.cur ||| bitMask ch.cur.bitP.val b)).take (ch.cur.byteP + 1) =
      ch.cur.buf.take ch.cur.byteP ++ [openByte ch.cur ||| bitMask ch.cur.bitP.val b] := by
    rw [List.take_succ_eq_append_getElem (by simpa using hq), List.take_set_of_le (Nat.le_refl _),
      List.getElem_set_self]
  have himg : image { ch with cur := putBit b ch.cur } =
      ((fileBytes ch).take ch.cur.fpos ++ ch.cur.buf.take ch.cur.byteP) ++
        (openByte ch.cur ||| bitMask ch.cur.bitP.val b) :: (fileBytes ch).drop (ch.cur.fpos + ch.cur.byteP + 1) := by
    have h := image_eq (ch := { ch with cur := putBit b ch.cur }) hh (by rw [hp1, putBit_buf, List.length_set]; omega)
    rw [h]
    simp only [hp1, putBit_buf, putBit_fpos, hset]
    rw [show fileBytes { ch with cur := putBit b ch.cur } = fileBytes ch from rfl]
    simp [Nat.add_assoc]
  have hA : ((fileBytes ch).take ch.cur.fpos ++ ch.cur.buf.take ch.cur.byteP).length = ch.cur.fpos + ch.cur.byteP := by
    simp; omega
  by_cases h0 : ch.cur.bitP.val = 0
  · have hp0 : pendingBytes ch.cur = ch.cur.byteP := by simp [pendingBytes, h0]
    have hi := image_eq hh (by omega)
    rw [hp0] at hi
    have hpos : absBitPos ch.cur = 8 * (ch.cur.fpos + ch.cur.byteP) := by rw [absBitPos_write hm, h0]; rfl
    rw [himg, hi, h0, hpos, ← hA, written_first, List.drop_drop, hA]
    congr 2
    apply byte_ext
    intro j hj
    rw [byteBit_or_bitMask _ _ (by omega) hj, byteBit_byteOfBits _ hj, openByte, if_pos h0]
    cases j <;> simp
  · have hp0 : pendingBytes ch.cur = ch.cur.byteP + 1 := by simp [pendingBytes, h0]
    have hi := image_eq hh (by omega)
    rw [hp0, List.take_succ_eq_append_getElem hq] at hi
    have hi' : image ch = ((fileBytes ch).take ch.cur.fpos ++ ch.cur.buf.take ch.cur.byteP) ++
        ch.cur.buf[ch.cur.byteP] :: (fileBytes ch).drop (ch.cur.fpos + ch.cur.byteP + 1) := by
      rw [hi, List.append_assoc, List.append_assoc, List.append_assoc]; rfl
    have hob : openByte ch.cur = ch.cur.buf[ch.cur.byteP] := by
      simp [openByte, h0, List.getD_eq_getElem?_getD, hq]
    rw [himg, hi', absBitPos_write hm, ← hA, written_inside _ _ _ _ (by omega) hlt]
    congr 2
    apply byte_ext
    intro j hj
    rw [byteBit_or_bitMask _ _ hlt hj, byteBit_byteOfBits _ hj]
    rcases Nat.lt_trichotomy j ch.cur.bitP.val with h | h | h
    · rw [List.getD_append _ _ _ _ (by simp; omega), hob]
      have : j ≠ ch.cur.bitP.val := by omega
      simp [this, List.getD_eq_getElem?_getD, h, byteBits]
    · rw [openByte_clear hm i (by omega) hj, List.getD_append_right _ _ _ _ (by simp; omega)]
      simp [h]
    · rw [openByte_clear hm i (by omega) hj, List.getD_eq_default _ _ (by simp; omega)]
      have : j ≠ ch.cur.bitP.val := by omega
      simp [this]

theorem absBitPos_putBit {b : Bool} {c : Cursor} (hm : c.mode = .write) : absBitPos (putBit b c) = absBitPos c + 1 := by
  rw [absBitPos_write hm, absBitPos_write (c := putBit b c) hm, putBit_fpos]
  rcases putBit_pos b c with ⟨_, h1, h2⟩ | ⟨_, h1, h2⟩ <;> rw [h1, h2] <;> omega

/-- What a write of the bits `s` that succeeds leaves. -/
structure Put (ch ch' : Chan) (s : Bits) : Prop where
  step : ChanStep ch ch'
  image : image ch' = written (image ch) (absBitPos ch.cur) s
  pos : absBitPos ch'.cur = absBitPos ch.cur + s.length
  noHole : ch'.cur.fpos ≤ (fileBytes ch').length
  fpos : ch'.cur.fpos = ch.cur.fpos + flushedBytes ch.cur s.length
  outside : ∀ off, off < ch.cur.fpos ∨ ch'.cur.fpos ≤ off → (fileBytes ch')[off]? = (fileBytes ch)[off]?

/-- The bytes below the file position are those of the file being made. -/
theorem image_getElem {ch : Chan} (hh : ch.cur.fpos ≤ (fileBytes ch).length) {off : Nat} (ho : off < ch.cur.fpos) :
    (image ch)[off]? = (fileBytes ch)[off]? := by
  unfold image
  split
  · rfl
  · rw [overlay_eq _ hh, List.append_assoc, List.getElem?_append_left (by simp; omega), List.getElem?_take_of_lt ho]

/-- A store leaves the bytes before it and after it (R63). -/
theorem overlay_getElem {ix : Nat} {old v : List Byte} {off i : Nat} (hh : off ≤ old.length)
    (hi : i < off ∨ off + v.length ≤ i) : (overlay ix old off v)[i]? = old[i]? := by
  rw [overlay_eq _ hh]
  rcases hi with hi | hi
  · rw [List.append_assoc, List.getElem?_append_left (by simp; omega), List.getElem?_take_of_lt hi]
  · rw [List.getElem?_append_right (by simp; omega), List.getElem?_drop]
    congr 1
    simp
    omega

/-- A flush stores `n` bytes at `FPOS` and nothing else (R124). -/
theorem flush_outside {ch ch' : Chan} (hh : ch.cur.fpos ≤ (fileBytes ch).length) (h : flush ch = .ok () ch') {off : Nat}
    (ho : off < ch.cur.fpos ∨ ch.cur.fpos + pendingBytes ch.cur ≤ off) : (fileBytes ch')[off]? = (fileBytes ch)[off]? := by
  rcases flush_cases ch with ⟨_, e⟩ | ⟨_, ⟨_, e⟩ | ⟨_, _, _, e⟩ | ⟨old, hold, _, _, e⟩⟩ <;> rw [e] at h <;>
    simp only [reduceCtorEq, Res.ok.injEq, true_and] at h <;> subst h
  · rfl
  · rw [fileBytes_some (b := overlay ch.env.freeIx old ch.cur.fpos (ch.cur.buf.take (pendingBytes ch.cur)))
      (flushedEnv_file _ _ _ _ _)]
    rw [fileBytes_some hold] at hh ⊢
    refine overlay_getElem hh ?_
    rw [List.length_take]
    omega

/-- A bit written is in the file the cursor is making, at the cursor's position (R122, R127). -/
theorem writeBit_put (b : Bool) {ch : Chan} (hn : noFail ch.env) (hm : ch.cur.mode = .write)
    (i : CursorInv ch.env ch.cur) (hw : ch.env.sound) (hh : ch.cur.fpos ≤ (fileBytes ch).length)
    (hf : absBitPos ch.cur + 1 ≤ 8 * ch.env.par.maxFileBytes) :
    ∃ ch', writeBit b ch = .ok () ch' ∧ Put ch ch' [b] := by
  have hs := writeBit_step b hm
  have hle := i.byteLe
  have hz := i.sizePos
  have hlt := ch.cur.bitP.isLt
  rcases writeBit_cases b ch with ⟨hr, h⟩ | ⟨hfull, hc⟩
  · rw [h] at hs
    refine ⟨_, h, hs, putBit_image b hm i hh (by omega), absBitPos_putBit hm, hh, ?_, fun _ _ => rfl⟩
    have h0 : (8 * ch.cur.byteP + ch.cur.bitP.val + [b].length - 1) / (8 * ch.cur.bufsz) = 0 := by
      apply Nat.div_eq_of_lt
      simp
      omega
    rw [flushedBytes, h0]
    rfl
  · have h0 : ch.cur.bitP = 0 := i.writePos hm hfull
    have hpend : pendingBytes ch.cur = ch.cur.bufsz := by simp [pendingBytes, h0, hfull]
    rw [absBitPos_write hm, hfull] at hf
    obtain ⟨ch1, hfl, s1, hfile, himg, e1, e2, e3, e4⟩ := flush_image hn hm i (by omega)
    rcases hc with ⟨ch', hfl', h⟩ | ⟨e, ch', hfl', _⟩ | ⟨f, hfl', _⟩ <;> rw [hfl] at hfl' <;>
      simp only [reduceCtorEq, Res.ok.injEq, true_and] at hfl'
    subst hfl'
    rw [h] at hs
    have hpos : absBitPos ch1.cur = absBitPos ch.cur := by
      rw [absBitPos_write (s1.mode.trans hm), absBitPos_write hm, e1, e2, e3, hpend, hfull, h0]
      simp
    have hh1 : ch1.cur.fpos ≤ (fileBytes ch1).length := by
      rw [hfile, e1, image_length hm i hh]; omega
    have i1 := s1.inv hw i
    refine ⟨_, h, hs, ?_, ?_, hh1, ?_, fun off ho => ?_⟩
    · rw [putBit_image b (s1.mode.trans hm) i1 hh1 (by have := i1.sizePos; omega), himg, hpos]
    · rw [absBitPos_putBit (s1.mode.trans hm), hpos]; rfl
    · have hd : (8 * ch.cur.byteP + ch.cur.bitP.val + [b].length - 1) / (8 * ch.cur.bufsz) = 1 := by
        rw [hfull, h0]
        simp only [List.length_singleton, Fin.val_zero, Nat.add_zero, Nat.add_sub_cancel]
        exact Nat.div_self (by omega)
      rw [flushedBytes, hd, putBit_fpos, e1, hpend, Nat.mul_one]
    · refine flush_outside hh hfl ?_
      rw [putBit_fpos, e1] at ho
      exact ho

/-- The bytes the automatic flushes store, added up over two runs of bits. -/
theorem flushedBytes_add {c c' : Cursor} {n m : Nat} (hz : 1 ≤ c.bufsz) (hb : c'.bufsz = c.bufsz)
    (hf : c'.fpos = c.fpos + flushedBytes c n)
    (hp : 8 * (c'.fpos + c'.byteP) + c'.bitP.val = 8 * (c.fpos + c.byteP) + c.bitP.val + n) :
    flushedBytes c n + flushedBytes c' m = flushedBytes c (n + m) := by
  unfold flushedBytes at hf ⊢
  rw [hb]
  generalize hX : 8 * c.bufsz = X at *
  have hX0 : 0 < X := by omega
  generalize hQ : (8 * c.byteP + c.bitP.val + n - 1) / X = q at *
  have hmul : X * q ≤ 8 * c.byteP + c.bitP.val + n - 1 := by rw [← hQ]; exact Nat.mul_div_le _ _
  have h8 : 8 * (c.bufsz * q) = X * q := by rw [← hX, Nat.mul_assoc]
  have ht : 8 * c'.byteP + c'.bitP.val + X * q = 8 * c.byteP + c.bitP.val + n := by omega
  rw [← Nat.mul_add]
  congr 1
  have hsplit : 8 * c.byteP + c.bitP.val + (n + m) - 1 = 8 * c'.byteP + c'.bitP.val + m - 1 + X * q := by omega
  rw [hsplit, Nat.add_mul_div_left _ _ hX0, Nat.add_comm]

/-- `WriteBits` (R126): the bits are in the file the cursor is making, from the cursor's position on. -/
theorem writeBits_put (s : Bits) {ch : Chan} (hn : noFail ch.env) (hm : ch.cur.mode = .write)
    (i : CursorInv ch.env ch.cur) (hw : ch.env.sound) (hh : ch.cur.fpos ≤ (fileBytes ch).length)
    (hf : absBitPos ch.cur + s.length ≤ 8 * ch.env.par.maxFileBytes) :
    ∃ ch', writeBits s ch = .ok () ch' ∧ Put ch ch' s := by
  induction s generalizing ch with
  | nil =>
    refine ⟨ch, rfl, ChanStep.refl _, by simp, rfl, hh, ?_, fun _ _ => rfl⟩
    have h0 : (8 * ch.cur.byteP + ch.cur.bitP.val + ([] : Bits).length - 1) / (8 * ch.cur.bufsz) = 0 := by
      apply Nat.div_eq_of_lt
      have := i.byteLe
      have := i.sizePos
      have := ch.cur.bitP.isLt
      rcases Nat.lt_or_eq_of_le i.byteLe with h | h
      · simp; omega
      · rw [i.writePos hm h]; simp; omega
    rw [flushedBytes, h0]
    rfl
  | cons b s ih =>
    simp only [List.length_cons] at hf
    obtain ⟨ch1, h1, p1⟩ := writeBit_put b hn hm i hw hh (by omega)
    have hm1 := p1.step.mode.trans hm
    obtain ⟨ch2, h2, p2⟩ := ih (p1.step.env.noFail hn) hm1 (p1.step.inv hw i) (p1.step.env.sound hw)
      p1.noHole (by rw [p1.pos, p1.step.env.par]; simp only [List.length_singleton]; omega)
    have hpos := p1.pos
    rw [absBitPos_write hm1, absBitPos_write hm] at hpos
    have hadd := flushedBytes_add (m := s.length) i.sizePos p1.step.bufsz p1.fpos hpos
    refine ⟨ch2, by simp [writeBits, h1, h2], p1.step.trans p2.step, ?_, ?_, p2.noHole, ?_, fun off ho => ?_⟩
    · rw [p2.image, p1.image, p1.pos, written_append, List.singleton_append]
      rw [image_length hm i hh, absBitPos_write hm]
      have : 8 * ch.cur.byteP + ch.cur.bitP.val ≤ 8 * pendingBytes ch.cur := by
        have := ch.cur.bitP.isLt
        unfold pendingBytes
        split <;> omega
      omega
    · rw [p2.pos, p1.pos]
      simp only [List.length_cons, List.length_nil]
      omega
    · rw [p2.fpos, p1.fpos, Nat.add_assoc, hadd]
      simp [Nat.add_comm]
    · rw [p2.outside off, p1.outside off]
      · have := p2.fpos; omega
      · have := p1.fpos; omega

end Sys2Proof.Machine
end

