-- ==== Sys2Proof/Laws/Inv.lean ====
section
/-! SUPPORT. The shared operations keep the invariant of the block (Safety.lean): the ends of a command, the cursor
primitives, the pool and the heap, the tables, and the loops that read and write streams. -/

namespace Sys2Proof.Machine

open Sys2Proof

/-! ## The ends of a command -/

theorem Err.code_ne_zero (e : Err) : e.code ≠ 0 := by cases e <;> simp [Err.code]

theorem Inv.endOk {s : State} (h : Inv s) : Inv (endOk s) :=
  { h with status := ⟨fun h0 => absurd rfl h0, h.status.2⟩ }

theorem Inv.takeError {s : State} (h : Inv s) (e : Err) : Inv (takeError e s) := by
  refine { h with status := ⟨fun _ => rfl, ?_⟩ }
  simp only [Machine.takeError, firstErrAfter, true_iff]
  split
  · rename_i hs; exact h.status.2.1 hs
  · exact e.code_ne_zero

/-- A command keeps the invariant when its body does (R270). -/
theorem Inv.finish {r : Res State Unit} (h : r.leaves Inv) {t : State} (ht : finish r = .next t) : Inv t := by
  rcases finish_eq_next.1 ht with ⟨s, rfl, rfl⟩ | ⟨e, s, rfl, rfl⟩
  · exact Inv.endOk h
  · exact Inv.takeError h e

/-! ## The cursors and the environment -/

theorem State.cur_putChan (s : State) (k j : Fin Config.curSlots) (ch : Chan) :
    (s.putChan k ch).cur j = if j = k then ch.cur else s.cur j := by
  by_cases h : j = k
  · subst h; simp
  · simp [h]

/-- A cursor primitive on an open cursor keeps the invariant. -/
theorem Inv.putChan {s : State} {k : Fin Config.curSlots} {ch : Chan} (h : Inv s) (ho : (s.cur k).isOpen = true)
    (hs : ChanStep (s.chan k) ch) : Inv (s.putChan k ch) := by
  have hi := hs.inv ⟨h.params, h.memory⟩ (h.cursors k ho)
  refine { h with
    params := (congrArg Params.ok hs.env.par).trans h.params, memory := hs.env.wf h.memory, db := ?db
    cursors := fun j hj => ?_ }
  case db => exact h.db.trans (congrArg Params.dbBytes hs.env.par).symm
  rw [State.cur_putChan] at hj ⊢
  split
  · exact hi
  · rename_i hne
    rw [if_neg hne] at hj
    exact (h.cursors j hj).store hs.env.par (hs.env.present _ (h.cursors j hj).filePresent)

/-- What a primitive on the cursor `k` leaves of the block. -/
structure CursorStep (k : Fin Config.curSlots) (s t : State) : Prop where
  step : ChanStep (s.chan k) (t.chan k)
  eq : t = s.putChan k (t.chan k)

theorem onChan_cursorStep {α : Type} {k : Fin Config.curSlots} {f : Chan → Res Chan α} {s : State}
    (h : (f (s.chan k)).leaves (ChanStep (s.chan k))) : (onChan k f s).leaves (CursorStep k s) := by
  refine onChan_leaves h fun ch hc => ⟨?_, ?_⟩
  · have : (s.putChan k ch).chan k = ch := by simp [State.chan]
    rw [this]; exact hc
  · have : (s.putChan k ch).chan k = ch := by simp [State.chan]
    rw [this]

theorem CursorStep.inv {k : Fin Config.curSlots} {s t : State} (h : CursorStep k s t) (ho : (s.cur k).isOpen = true)
    (hi : Inv s) : Inv t := by rw [h.eq]; exact hi.putChan ho h.step

theorem CursorStep.isOpen {k : Fin Config.curSlots} {s t : State} (h : CursorStep k s t) (j : Fin Config.curSlots) :
    (t.cur j).isOpen = (s.cur j).isOpen ∧ (t.cur j).mode = (s.cur j).mode := by
  rw [h.eq, State.cur_putChan]
  by_cases hj : j = k
  · subst hj; rw [if_pos rfl]; exact ⟨h.step.isOpen, h.step.mode⟩
  · rw [if_neg hj]; exact ⟨rfl, rfl⟩

/-- Reading through a cursor of the block. -/
theorem onChan_readBits {k : Fin Config.curSlots} (n : Nat) {s : State} (hm : (s.cur k).mode = .read) :
    (onChan k (readBits n) s).leaves (CursorStep k s) :=
  onChan_cursorStep (Res.leaves_mono (fun _ h => h.1) (readBits_step n (ch := s.chan k) hm))

theorem onChan_readBit {k : Fin Config.curSlots} {s : State} (hm : (s.cur k).mode = .read) :
    (onChan k readBit s).leaves (CursorStep k s) :=
  onChan_cursorStep (Res.leaves_mono (fun _ h => h.1) (readBit_step (ch := s.chan k) hm))

/-- Writing through a cursor of the block. -/
theorem onChan_writeBits {k : Fin Config.curSlots} (b : Bits) {s : State} (hm : (s.cur k).mode = .write) :
    (onChan k (writeBits b) s).leaves (CursorStep k s) :=
  onChan_cursorStep (writeBits_step b (ch := s.chan k) hm)

theorem onChan_writeBit {k : Fin Config.curSlots} (b : Bool) {s : State} (hm : (s.cur k).mode = .write) :
    (onChan k (writeBit b) s).leaves (CursorStep k s) :=
  onChan_cursorStep (writeBit_step b (ch := s.chan k) hm)

theorem onChan_flush {k : Fin Config.curSlots} {s : State} (hm : (s.cur k).mode = .write) :
    (onChan k flush s).leaves (CursorStep k s) :=
  onChan_cursorStep (flush_step (ch := s.chan k) hm)

/-! ## The tables -/

theorem freqOk_nil (w : WordSize) : freqOk w [] = true := rfl

theorem tailOk_none (w : WordSize) : tailOk w Tail.none = true := by simp [tailOk, Tail.none]

theorem freqOk_iff {w : WordSize} {t : List (Nat × BitVec 64)} :
    freqOk w t = true ↔ tableRises 0 t = true ∧ ∀ p ∈ t, p.1 < Config.nsym w ∧ p.2 ≠ 0 := by
  simp [freqOk, List.all_eq_true]

theorem codeOk_iff {w : WordSize} {t : List (Nat × Bits)} :
    codeOk w t = true ↔ tableRises 0 t = true ∧ ∀ p ∈ t, p.1 < Config.nsym w ∧ p.2 ≠ [] := by
  simp [codeOk, List.all_eq_true]

/-- A write to FREQ keeps its canonical form (R33). -/
theorem freqOk_freqSet {w : WordSize} {t : List (Nat × BitVec 64)} {k : Nat} {x : BitVec 64} (h : freqOk w t = true)
    (hk : k < Config.nsym w) : freqOk w (freqSet t k x) = true :=
  freqOk_iff.2 (freqOk_like (P := (· < Config.nsym w)) (freqOk_iff.1 h).1 (freqOk_iff.1 h).2 hk)

/-- A write to CODE keeps its canonical form (R38). -/
theorem codeOk_tableSet {w : WordSize} {t : List (Nat × Bits)} {k : Nat} {x : Bits} (h : codeOk w t = true)
    (hk : k < Config.nsym w) (hx : x ≠ []) : codeOk w (tableSet t k x) = true := by
  obtain ⟨hr, ha⟩ := codeOk_iff.1 h
  refine codeOk_iff.2 ⟨tableRises_tableSet x hr (Nat.zero_le _), fun p hp => ?_⟩
  rcases mem_tableSet hp with rfl | hp
  · exact ⟨hk, hx⟩
  · exact ha p hp

theorem Inv.freeTree {s : State} (h : Inv s) : Inv (freeTree s) :=
  { h with
    poolCap := Nat.zero_le _, pool := fun _ hn => (by cases hn), heapCap := Nat.zero_le _
    heap := fun _ hn => (by cases hn), root := fun _ hr => (by cases hr) }

theorem Inv.clearCodes {s : State} (h : Inv s) : Inv (clearCodes s) := { h with code := rfl }

theorem Inv.clearHistogram {s : State} (h : Inv s) : Inv (clearHistogram s) :=
  { h with freq := rfl, tail := tailOk_none _, bucket := fun hb => absurd rfl hb }

/-- A cursor after reset. -/
theorem resetBlock_cur (s : State) (k : Fin Config.curSlots) : (resetBlock s).cur k = Cursor.reset := by
  simp [State.cur, resetBlock, State.reset]

/-- Reset and SRST leave a lawful state whatever the block held; the store is not touched (R236, R290, R291). -/
theorem Inv.resetBlock {s : State} (hp : s.env.par.ok = true)
    (h : Memory.wf s.env.par s.env.files = true) : Inv (resetBlock s) where
  params := hp
  memory := h
  cursors k hk := by rw [resetBlock_cur] at hk; cases hk
  db := by simp [Machine.resetBlock, State.reset]
  freq := rfl
  tail := tailOk_none _
  bucket hb := absurd rfl hb
  code := rfl
  poolCap := Nat.zero_le _
  pool _ hn := by cases hn
  heapCap := Nat.zero_le _
  heap _ hn := by cases hn
  root _ hr := by cases hr
  status := by simp [Machine.resetBlock, State.reset]

/-! ## The pool, the heap and the building of a tree -/

theorem mem_append_pool {w : WordSize} {nodes : List Node} {x : Node}
    (hp : ∀ n ∈ nodes, NodeInv w nodes.length n) (hx : NodeInv w (nodes.length + 1) x) :
    ∀ n ∈ nodes ++ [x], NodeInv w (nodes ++ [x]).length n := by
  intro n hn
  rw [List.length_append, List.length_singleton]
  rcases List.mem_append.1 hn with hn | hn
  · exact (hp n hn).mono (Nat.le_succ _)
  · rw [List.mem_singleton] at hn
    subst hn; exact hx

/-- A node put into the pool keeps the invariant (R177). -/
theorem Inv.addNode {s : State} (h : Inv s) {x : Node} (hx : NodeInv s.w (s.nodes.length + 1) x)
    (hc : s.nodes.length ≠ Config.nodeCap s.w) : Inv { s with nodes := s.nodes ++ [x] } := by
  refine { h with poolCap := ?_, pool := mem_append_pool h.pool hx, heap := fun n hn => ?_, root := fun r hr => ?_ }
  · have := h.poolCap
    simp only [List.length_append, List.length_singleton]
    omega
  · exact treeOk_mono _ (h.heap n hn) (by simp)
  · exact treeOk_mono _ (h.root r hr) (by simp)

/-- A node put into the heap keeps the invariant (R166). -/
theorem Inv.pushHeap {s : State} (h : Inv s) {n : Nat} (hn : treeOk s.nodes s.nodes.length n = true)
    (hc : s.heap.length < Config.heapCap s.w) : Inv (pushHeap n s) := by
  refine { h with heapCap := ?_, heap := fun m hm => ?_ }
  · simp only [Machine.pushHeap, heapInsert_length]; omega
  · rcases mem_heapInsert.1 hm with rfl | hm
    · exact hn
    · exact h.heap m hm

/-- Taking nodes out of the heap keeps the invariant. -/
theorem Inv.shrinkHeap {s : State} (h : Inv s) {l : List Nat} (hl : l.length ≤ s.heap.length) (hm : ∀ n ∈ l, n ∈ s.heap) :
    Inv { s with heap := l } :=
  { h with heapCap := Nat.le_trans hl h.heapCap, heap := fun n hn => h.heap n (hm n hn) }

/-- The leaf of a slot, put into the pool and the heap (R169, R174). -/
theorem addLeaf_inv {s : State} (h : Inv s) {i : Nat} (ht : i = s.tailIdx → s.tail.valid = true)
    (hc : s.heap.length < Config.heapCap s.w) : (addLeaf i s).leaves Inv := by
  unfold addLeaf
  rcases alloc_cases (leafOf s i) s with ⟨_, e⟩ | ⟨hn, e⟩ <;> rw [e]
  · exact h
  · have hx := leafOf_inv (s := s) (i := i) (fun hi => ⟨h.tail, ht hi⟩) (s.nodes.length + 1)
    refine Inv.pushHeap (h.addNode hx hn) ?_ hc
    have := treeOk_leaf (nodes := s.nodes) (leafOf_leaf s i)
    simpa using this

/-- The building loop keeps the invariant (R171). -/
theorem buildTree_inv (fuel : Nat) {s : State} (h : Inv s) : (buildTree fuel s).leaves Inv := by
  induction fuel generalizing s with
  | zero => exact h
  | succ fuel ih =>
    rcases buildTree_cases fuel s with ⟨_, e⟩ | ⟨r, hr, e⟩ | ⟨a, b, rest, rest', hh, hr, e⟩ <;> rw [e]
    · exact h
    · refine { h.shrinkHeap (l := []) (Nat.zero_le _) (fun _ hn => by cases hn) with root := fun r' hr' => ?_ }
      simp only [Option.some.injEq] at hr'
      subst hr'
      exact h.heap r (by rw [hr]; simp)
    · have hlen := heapRest_length (freqOf s.nodes) rest
      rw [hr, List.length_cons] at hlen
      have hb : b ∈ s.heap := by
        rw [hh]
        exact List.mem_cons_of_mem _ (mem_heapRest.1 (by rw [hr]; simp : b ∈ heapRest (freqOf s.nodes) rest))
      have ha : a ∈ s.heap := by rw [hh]; simp
      have hsub : ∀ n ∈ heapRest (freqOf s.nodes) rest', n ∈ s.heap := fun n hn => by
        rw [hh]
        refine List.mem_cons_of_mem _ ((mem_heapRest (F := freqOf s.nodes)).1 ?_)
        rw [hr]
        exact List.mem_cons_of_mem _ (mem_heapRest.1 hn)
      have hle : (heapRest (freqOf s.nodes) rest').length + 2 = s.heap.length := by
        rw [heapRest_length, hh, List.length_cons]; omega
      have h1 := h.shrinkHeap (by omega) hsub
      rcases merge_cases a b { s with heap := heapRest (freqOf s.nodes) rest' } with ⟨_, e⟩ | ⟨_, _, e⟩ | ⟨_, hn, e⟩ <;>
        rw [e]
      · exact h1.freeTree
      · exact h1.freeTree
      · have ta := h.heap a ha
        have tb := h.heap b hb
        have hc := h.heapCap
        refine ih (Inv.pushHeap (h1.addNode (mergedNode_inv (treeOk_lt ta) (treeOk_lt tb)) hn) ?_ ?_)
        · have := treeOk_merged ta tb
          simpa using this
        · show (heapRest (freqOf s.nodes) rest').length < Config.heapCap s.w
          omega

end Sys2Proof.Machine
end

