-- ==== Sys2Proof/Laws/Loops.lean ====
section
/-! SUPPORT. The loops and walks of the commands keep the invariant, and what the walks over a cursor leave alone. -/

namespace Sys2Proof.Machine

open Sys2Proof

/-! ## Leaves of a histogram (R174) -/

/-- Everything the insertion of one leaf can answer. -/
theorem addLeaf_cases (i : Nat) (s : State) :
    (s.nodes.length = Config.nodeCap s.w ∧ addLeaf i s = .raise (.outOfMemory 1) s) ∨
      (s.nodes.length ≠ Config.nodeCap s.w ∧
        addLeaf i s = .ok () (pushHeap s.nodes.length { s with nodes := s.nodes ++ [leafOf s i] })) := by
  unfold addLeaf
  rcases alloc_cases (leafOf s i) s with ⟨h, e⟩ | ⟨h, e⟩ <;> rw [e]
  · exact .inl ⟨h, rfl⟩
  · exact .inr ⟨h, rfl⟩

theorem addLeaves_inv (is : List Nat) {s : State} (h : Inv s) (hc : s.heap.length + is.length ≤ Config.heapCap s.w) :
    (addLeaves is s).leaves Inv := by
  induction is generalizing s with
  | nil => exact h
  | cons i is ih =>
    rw [List.length_cons] at hc
    unfold addLeaves
    split
    · exact h.freeTree
    · rename_i ht
      have ht' : i = s.tailIdx → s.tail.valid = true := fun e => by
        cases hv : s.tail.valid
        · exact absurd ⟨e, hv⟩ ht
        · rfl
      have hl := addLeaf_inv h ht' (by omega)
      rcases addLeaf_cases i s with ⟨_, e⟩ | ⟨_, e⟩ <;> rw [e] at hl ⊢
      · exact h
      · refine ih hl ?_
        show (heapInsert _ _ s.heap).length + is.length ≤ Config.heapCap s.w
        rw [heapInsert_length]; omega

/-! ## Codes (R191, R194) -/

theorem slotOf_lt (w : WordSize) (n : Node) : slotOf w n < Config.nsym w := by
  unfold slotOf
  have := widx_lt w n.wb
  split <;> simp only [Config.nsym] <;> omega

theorem storeCode_inv {n : Node} {pat : Bits} {s : State} (h : Inv s) (hp : pat ≠ []) : (storeCode n pat s).leaves Inv := by
  unfold storeCode
  split
  · exact h.clearCodes
  · exact { h with code := codeOk_tableSet h.code (slotOf_lt s.w n) hp }

theorem codeWalk_inv (fuel n : Nat) (pat : Bits) {s : State} (h : Inv s)
    (hp : pat = [] → (nodeAt s.nodes n).leaf = false) : (codeWalk fuel n pat s).leaves Inv := by
  induction fuel generalizing n pat s with
  | zero => trivial
  | succ fuel ih =>
    unfold codeWalk
    split
    · rename_i hl
      exact storeCode_inv h fun e => by rw [hp e] at hl; cases hl
    · split
      · exact Res.leaves_bind (ih _ _ h (by simp)) fun _ t _ ht => ih _ _ ht (by simp)
      · exact h.clearCodes

/-! ## Walks over one cursor -/

theorem CursorStep.refl (k : Fin Config.curSlots) (s : State) : CursorStep k s s := by
  refine ⟨ChanStep.refl _, ?_⟩
  simp [State.putChan, State.setCur, State.chan, State.cur]

theorem CursorStep.trans {k : Fin Config.curSlots} {s t u : State} (h : CursorStep k s t) (h' : CursorStep k t u) :
    CursorStep k s u := by
  refine ⟨h.step.trans h'.step, ?_⟩
  have e := h'.eq
  rw [h.eq] at e
  rw [e]
  simp [State.putChan, State.setCur, State.chan, State.cur]

/-- A primitive leaves every table, register and buffer of the block alone, and every other cursor. -/
theorem CursorStep.frame {k : Fin Config.curSlots} {s t : State} (h : CursorStep k s t) :
    { t with cursors := s.cursors, env := s.env } = s ∧ ∀ j, j ≠ k → t.cur j = s.cur j := by
  constructor
  · rw [h.eq]; rfl
  · intro j hj
    rw [h.eq, State.cur_putChan, if_neg hj]

/-- `WriteNode` changes its cursor and the environment, nothing else (R206, R207). -/
theorem writeNode_step (k : Fin Config.curSlots) (fuel n : Nat) {s : State} (hm : (s.cur k).mode = .write) :
    (writeNode k fuel n s).leaves (CursorStep k s) := by
  induction fuel generalizing n s with
  | zero => trivial
  | succ fuel ih =>
    unfold writeNode
    split
    · exact Res.leaves_bind (onChan_writeBits _ hm) fun _ t _ ht => ht
    · refine Res.leaves_bind (onChan_writeBit _ hm) fun _ t _ ht => ?_
      have hmt : (t.cur k).mode = .write := (ht.isOpen k).2.trans hm
      split
      · refine Res.leaves_bind (Res.leaves_mono (fun _ h => ht.trans h) (ih _ hmt)) fun _ u _ hu => ?_
        have hmu : (u.cur k).mode = .write := (hu.isOpen k).2.trans hm
        exact Res.leaves_bind (Res.leaves_mono (fun _ h => hu.trans h) (ih _ hmu)) fun _ _ _ h => h
      · exact ht

/-! ## Reading a tree (R209) -/

/-- What the pieces of TREAD leave: on an error the tree is freed and the block lawful; otherwise what `P` says. -/
def Res.gives {α : Type} (P : α → State → Prop) (r : Res State α) : Prop :=
  match r with
  | .ok a t => P a t
  | .raise _ t => Inv t
  | .stuck _ => True

theorem Res.gives_bind {α β : Type} {P : α → State → Prop} {Q : β → State → Prop} {r : Res State α}
    {k : α → State → Res State β} (hr : r.gives P) (hk : ∀ a s, P a s → (k a s).gives Q) : (r.bind k).gives Q := by
  cases r with
  | ok a s => exact hk a s hr
  | raise e s => exact hr
  | stuck f => trivial

/-- A state in the middle of TREAD: lawful but for the nodes that are still being made. -/
structure Reading (k : Fin Config.curSlots) (s : State) : Prop where
  inv : Inv (freeTree s)
  isOpen : (s.cur k).isOpen = true
  mode : (s.cur k).mode = .read
  heap : s.heap = []
  root : s.root = none
  cap : s.nodes.length ≤ Config.nodeCap s.w

/-- What reading a field leaves: the pool and the word size as they were. -/
structure FieldRead (k : Fin Config.curSlots) (s t : State) : Prop where
  reading : Reading k t
  nodes : t.nodes = s.nodes
  w : t.w = s.w

theorem FieldRead.trans {k : Fin Config.curSlots} {s t u : State} (h : FieldRead k s t) (h' : FieldRead k t u) :
    FieldRead k s u := ⟨h'.reading, h'.nodes.trans h.nodes, h'.w.trans h.w⟩

theorem Reading.step {k : Fin Config.curSlots} {s t : State} (h : Reading k s) (ht : CursorStep k s t) : FieldRead k s t := by
  have hn : t.nodes = s.nodes := by rw [ht.eq]; rfl
  have hw : t.w = s.w := by rw [ht.eq]; rfl
  refine ⟨⟨?_, (ht.isOpen k).1.trans h.isOpen, (ht.isOpen k).2.trans h.mode, ?_, ?_, by rw [hn, hw]; exact h.cap⟩, hn, hw⟩
  · have hi := h.inv.putChan (k := k) (ch := t.chan k) h.isOpen ht.step
    have : freeTree t = (freeTree s).putChan k (t.chan k) := by
      conv_lhs => rw [ht.eq]
      rfl
    rw [this]
    exact hi
  · rw [ht.eq]; exact h.heap
  · rw [ht.eq]; exact h.root

/-- A field that is read has the length asked for; when it fails the tree is freed (R209). -/
theorem need_gives {k : Fin Config.curSlots} {s : State} (D cnt n : Nat) (h : Reading k s) :
    (need k D cnt n s).gives fun bits t => FieldRead k s t ∧ bits.length = n := by
  unfold need
  split
  · exact h.inv
  · have hs := onChan_readBits n h.mode
    unfold readOrFree
    cases hr : onChan k (readBits n) s with
    | stuck f => trivial
    | raise e t =>
      rw [hr] at hs
      exact (h.step hs).reading.inv
    | ok bits t =>
      rw [hr] at hs
      simp only [Res.bind_ok]
      split
      · exact (h.step hs).reading.inv
      · obtain ⟨ch, hch, _⟩ := onChan_eq_ok.1 hr
        have := readBits_length hch
        exact ⟨h.step hs, by omega⟩

theorem readLeafLen_gives {k : Fin Config.curSlots} {s : State} (D cnt : Nat) (h : Reading k s) :
    (readLeafLen k D cnt s).gives fun r t => FieldRead k s t ∧ r.1 ≤ Config.wbits s.w := by
  unfold readLeafLen
  refine Res.gives_bind (need_gives D cnt 1 h) fun fl t ht => ?_
  split
  · refine ⟨ht.1, ?_⟩
    show Config.wbits t.w ≤ _
    rw [ht.1.w]
  · refine Res.gives_bind (need_gives D (cnt + 1) Config.lenf ht.1.reading) fun len u hu => ?_
    split
    · exact hu.1.reading.inv
    · rename_i hlt
      refine ⟨ht.1.trans hu.1, ?_⟩
      have e : u.wbits = Config.wbits s.w := by
        show Config.wbits u.w = _
        rw [hu.1.w, ht.1.w]
      rw [e] at hlt
      simp only
      omega

/-- The word of a leaf fits (R209). -/
theorem readLeaf_gives {k : Fin Config.curSlots} {s : State} (D cnt : Nat) (h : Reading k s) :
    (readLeaf k D cnt s).gives fun r t => FieldRead k s t ∧ r.1.length ≤ Config.wbits s.w := by
  unfold readLeaf
  refine Res.gives_bind (readLeafLen_gives D cnt h) fun r t ht => ?_
  refine Res.gives_bind (need_gives D r.2 r.1 ht.1.reading) fun bits u hu => ?_
  exact ⟨ht.1.trans hu.1, by rw [hu.2]; exact ht.2⟩

/-- A finished piece of the tree being read: the nodes from `n` up to the end of the pool, `n` the root (R208). -/
structure Piece (w : WordSize) (nodes : List Node) (n : Nat) : Prop where
  lt : n < nodes.length
  laws : ∀ i, n ≤ i → i < nodes.length → NodeInv w nodes.length (nodeAt nodes i)
  closed : Closed nodes n nodes.length
  tree : treeOk nodes (nodes.length - n) n = true

/-- What `ReadNode` leaves when it succeeds. -/
structure NodeRead (k : Fin Config.curSlots) (s : State) (n : Nat) (t : State) : Prop where
  reading : Reading k t
  w : t.w = s.w
  root : n = s.nodes.length
  piece : Piece s.w t.nodes n
  old : ∀ i, i < s.nodes.length → nodeAt t.nodes i = nodeAt s.nodes i

theorem Reading.withNodes {k : Fin Config.curSlots} {s : State} (h : Reading k s) {nodes : List Node}
    (hc : nodes.length ≤ Config.nodeCap s.w) : Reading k { s with nodes := nodes } :=
  ⟨h.inv, h.isOpen, h.mode, h.heap, h.root, hc⟩

theorem asLeaf_inv {w : WordSize} {bits : Bits} (hb : bits.length ≤ Config.wbits w) (len : Nat) :
    NodeInv w len (asLeaf bits freshNode) := by
  refine ⟨fun _ => ⟨hb, ?_, rfl, rfl⟩, fun h => (by cases h)⟩
  exact wordClear_wordOfBits _ (Nat.le_trans hb (wbits_le w))

theorem modify_append_last (nodes : List Node) (x : Node) (f : Node → Node) :
    (nodes ++ [x]).modify nodes.length f = nodes ++ [f x] := by
  induction nodes with
  | nil => rfl
  | cons y ys ih => simpa using ih

/-- The piece a leaf makes. -/
theorem Piece.leaf {w : WordSize} {nodes : List Node} {bits : Bits} (hb : bits.length ≤ Config.wbits w) :
    Piece w (nodes ++ [asLeaf bits freshNode]) nodes.length := by
  have hi : ∀ i, nodes.length ≤ i → i < (nodes ++ [asLeaf bits freshNode]).length → i = nodes.length := by
    intro i h0 h1
    simp at h1
    omega
  refine ⟨by simp, fun i h0 h1 => ?_, fun i h0 h1 hl => ?_, ?_⟩
  · rw [hi i h0 h1, nodeAt_append_last]
    exact asLeaf_inv hb _
  · rw [hi i h0 h1, nodeAt_append_last] at hl
    cases hl
  · rw [List.length_append, List.length_singleton, Nat.add_sub_cancel_left]
    exact treeOk_succ.2 ⟨by simp, .inl (by rw [nodeAt_append_last]; rfl)⟩

/-- The piece an internal node makes of the pieces of its two children (R208, R209). -/
theorem Piece.inner {w : WordSize} {nodes1 nodes2 nodes : List Node} {n : Nat}
    (h1 : Piece w nodes1 (n + 1)) (h2 : Piece w nodes2 nodes1.length)
    (hlen : nodes.length = nodes2.length)
    (hself : nodeAt nodes n = { freshNode with left := some (n + 1), right := some nodes1.length })
    (hleft : ∀ i, n + 1 ≤ i → i < nodes1.length → nodeAt nodes i = nodeAt nodes1 i)
    (hright : ∀ i, nodes1.length ≤ i → i < nodes2.length → nodeAt nodes i = nodeAt nodes2 i) :
    Piece w nodes n := by
  have l1 := h1.lt
  have l2 := h2.lt
  have hcase : ∀ i, n ≤ i → i < nodes.length →
      i = n ∨ (n + 1 ≤ i ∧ i < nodes1.length) ∨ (nodes1.length ≤ i ∧ i < nodes2.length) := by
    intro i _ _; omega
  refine ⟨by omega, fun i h0 hi => ?_, fun i h0 hi hl => ?_, ?_⟩
  · rcases hcase i h0 hi with rfl | ⟨a, b⟩ | ⟨a, b⟩
    · rw [hself]
      exact ⟨fun h => (by cases h), fun _ => ⟨rfl, rfl, _, _, rfl, rfl, by omega, by omega⟩⟩
    · rw [hleft i a b]
      exact (h1.laws i a b).mono (by omega)
    · rw [hright i a b]
      exact (h2.laws i a b).mono (by omega)
  · rcases hcase i h0 hi with rfl | ⟨a, b⟩ | ⟨a, b⟩
    · rw [hself]
      exact ⟨_, _, rfl, rfl, by omega, by omega, by omega, by omega⟩
    · rw [hleft i a b] at hl ⊢
      obtain ⟨l, r, e1, e2, c1, c2, c3, c4⟩ := h1.closed i a b hl
      exact ⟨l, r, e1, e2, by omega, by omega, by omega, by omega⟩
    · rw [hright i a b] at hl ⊢
      obtain ⟨l, r, e1, e2, c1, c2, c3, c4⟩ := h2.closed i a b hl
      exact ⟨l, r, e1, e2, by omega, by omega, by omega, by omega⟩
  · obtain ⟨f, hf⟩ : ∃ f, nodes.length - n = f + 1 := ⟨nodes.length - n - 1, by omega⟩
    rw [hf]
    refine treeOk_succ.2 ⟨by omega, .inr ⟨n + 1, nodes1.length, by rw [hself], by rw [hself], ?_, ?_⟩⟩
    · exact treeOk_fuel (treeOk_congr h1.closed (by omega) hleft (Nat.le_refl _) l1 h1.tree) (by omega)
    · exact treeOk_fuel (treeOk_congr h2.closed (by omega) hright (Nat.le_refl _) l2 h2.tree) (by omega)

/-- `ReadNode` (R209): a piece of tree at the end of the pool, or an error with the tree freed. -/
theorem readNode_gives (k : Fin Config.curSlots) (D fuel cnt : Nat) {s : State} (h : Reading k s) :
    (readNode k D fuel cnt s).gives fun r t => NodeRead k s r.1 t := by
  induction fuel generalizing cnt s with
  | zero => exact h.inv
  | succ fuel ih =>
    unfold readNode
    split
    · exact h.inv
    · rename_i hcap
      rcases alloc_cases freshNode s with ⟨hc, _⟩ | ⟨_, e⟩
      · exact absurd hc hcap
      · rw [e, Res.bind_ok]
        have hlen : (s.nodes ++ [freshNode]).length = s.nodes.length + 1 := by simp
        have h1 : Reading k { s with nodes := s.nodes ++ [freshNode] } :=
          h.withNodes (by have := h.cap; omega)
        refine Res.gives_bind (need_gives D cnt 1 h1) fun st t ht => ?_
        have htn : t.nodes = s.nodes ++ [freshNode] := ht.1.nodes
        have htw : t.w = s.w := ht.1.w
        split
        · refine Res.gives_bind (readLeaf_gives D (cnt + 1) ht.1.reading) fun r u hu => ?_
          have hun : u.nodes = s.nodes ++ [freshNode] := hu.1.nodes.trans htn
          have huw : u.w = s.w := hu.1.w.trans htw
          have hmod : u.nodes.modify s.nodes.length (asLeaf r.1) = s.nodes ++ [asLeaf r.1 freshNode] := by
            rw [hun, modify_append_last]
          refine ⟨hu.1.reading.withNodes (by rw [List.length_modify]; exact hu.1.reading.cap), huw, rfl, ?_, ?_⟩
          · show Piece s.w (u.nodes.modify s.nodes.length (asLeaf r.1)) s.nodes.length
            rw [hmod]
            exact Piece.leaf (by rw [← htw]; exact hu.2)
          · intro i hi
            show nodeAt (u.nodes.modify s.nodes.length (asLeaf r.1)) i = _
            rw [hmod, nodeAt_append_left hi]
        · refine Res.gives_bind (ih (cnt + 1) ht.1.reading) fun l u hu => ?_
          have hl : l.1 = s.nodes.length + 1 := by rw [hu.root, htn, hlen]
          have hut := hu.piece.lt
          have h2 : Reading k (updateNode s.nodes.length (fun x => { x with left := some l.1 }) u) :=
            hu.reading.withNodes (by rw [List.length_modify]; exact hu.reading.cap)
          refine Res.gives_bind (ih l.2 h2) fun r v hv => ?_
          have hr : r.1 = u.nodes.length := by rw [hv.root]; exact List.length_modify _ _ _
          have hvt := hv.piece.lt
          have hvw : v.w = s.w := hv.w.trans (hu.w.trans htw)
          have hlen2 : (updateNode s.nodes.length (fun x => { x with left := some l.1 }) u).nodes.length = u.nodes.length :=
            List.length_modify _ _ _
          have hnn : s.nodes.length < u.nodes.length := by omega
          have hfresh : nodeAt u.nodes s.nodes.length = freshNode := by
            rw [hu.old _ (by rw [htn, hlen]; omega), htn, nodeAt_append_last]
          have hvn : nodeAt v.nodes s.nodes.length = { freshNode with left := some l.1 } := by
            rw [hv.old _ (by rw [hlen2]; exact hnn)]
            show nodeAt (u.nodes.modify s.nodes.length _) s.nodes.length = _
            rw [nodeAt_modify_self _ hnn, hfresh]
          have hvold : ∀ i, i ≠ s.nodes.length → i < u.nodes.length → nodeAt v.nodes i = nodeAt u.nodes i := by
            intro i hne hi
            rw [hv.old i (by rw [hlen2]; exact hi)]
            exact nodeAt_modify_ne _ hne
          have hvnn : s.nodes.length < v.nodes.length := by omega
          refine ⟨hv.reading.withNodes (by rw [List.length_modify]; exact hv.reading.cap), hvw, rfl, ?_, ?_⟩
          · refine Piece.inner (nodes1 := u.nodes) (nodes2 := v.nodes) ?_ ?_ (List.length_modify _ _ _) ?_ ?_ ?_
            · rw [← hl, ← htw]; exact hu.piece
            · rw [← hr, ← htw, ← hu.w]; exact hv.piece
            · show nodeAt (v.nodes.modify s.nodes.length _) s.nodes.length = _
              rw [nodeAt_modify_self _ hvnn, hvn, hl, hr]
            · intro i h0 hi
              show nodeAt (v.nodes.modify s.nodes.length _) i = _
              rw [nodeAt_modify_ne _ (by omega), hvold i (by omega) hi]
            · intro i h0 hi
              show nodeAt (v.nodes.modify s.nodes.length _) i = _
              rw [nodeAt_modify_ne _ (by omega)]
          · intro i hi
            show nodeAt (v.nodes.modify s.nodes.length _) i = _
            rw [nodeAt_modify_ne _ (by omega), hvold i (by omega) (by omega),
              hu.old i (by rw [htn, hlen]; omega), htn, nodeAt_append_left hi]

end Sys2Proof.Machine
end

