-- ==== Sys2Proof/Laws/Ends.lean ====
section
/-! SUPPORT. Every piece of a command comes to an end: the primitives answer while their file is present, and the loops
that read a stream stop before their bound (R292; log entry 7). -/

namespace Sys2Proof.Machine

open Sys2Proof

/-- The piece has an outcome. -/
def Res.ends {σ α : Type} (r : Res σ α) : Prop := ∀ f, r ≠ .stuck f

@[simp] theorem Res.ends_ok {σ α : Type} (a : α) (s : σ) : (Res.ok a s).ends := fun _ h => by cases h

@[simp] theorem Res.ends_raise {σ α : Type} (e : Err) (s : σ) : (Res.raise e s : Res σ α).ends := fun _ h => by cases h

theorem Res.ends_bind {σ α β : Type} {r : Res σ α} {k : α → σ → Res σ β} (hr : r.ends)
    (hk : ∀ a s, r = .ok a s → (k a s).ends) : (r.bind k).ends := by
  cases r with
  | ok a s => exact hk a s rfl
  | raise e s => exact Res.ends_raise e s
  | stuck f => exact absurd rfl (hr f)

theorem finish_ends {r : Res State Unit} (h : r.ends) : ∃ t, finish r = .next t := by
  cases r with
  | ok a s => exact ⟨_, rfl⟩
  | raise e s => exact ⟨_, rfl⟩
  | stuck f => exact absurd rfl (h f)

/-! ## The primitives -/

/-- The file of a cursor is present. -/
def Present (ch : Chan) : Prop := (ch.env.file ch.cur.fid).isSome = true

theorem CursorInv.present {ch : Chan} (i : CursorInv ch.env ch.cur) : Present ch := i.filePresent

theorem ChanStep.present {ch ch' : Chan} (h : ChanStep ch ch') (hp : Present ch) : Present ch' := by
  unfold Present Env.file at hp ⊢
  rw [h.fid]
  exact h.env.present _ hp

theorem fillAt_ends {p : Nat} {ch : Chan} (hp : Present ch) : (fillAt p ch).ends := by
  rcases fillAt_cases p ch with ⟨h, _⟩ | ⟨b, _, ⟨_, h⟩ | ⟨_, _, h⟩ | ⟨_, _, h⟩⟩
  · rw [Present, h] at hp; cases hp
  all_goals rw [h]; simp

theorem readBit_ends {ch : Chan} (hp : Present ch) : (readBit ch).ends := by
  rcases readBit_cases ch with ⟨_, h⟩ | ⟨_, ⟨_, _, _, _, h⟩ | ⟨_, _, h⟩ | ⟨_, _, _, h⟩ | ⟨f, hr, _⟩⟩
  · rw [h]; simp
  · rw [h]; simp
  · rw [h]; simp
  · rw [h]; simp
  · exact absurd hr (fillAt_ends hp f)

theorem readBits_ends (n : Nat) {ch : Chan} (hm : ch.cur.mode = .read) (hp : Present ch) : (readBits n ch).ends := by
  induction n generalizing ch with
  | zero => simp [readBits]
  | succ n ih =>
    refine Res.ends_bind (readBit_ends hp) fun b ch1 h1 => ?_
    have hs := readBit_step hm
    rw [h1] at hs
    cases b with
    | none => simp
    | some b => exact Res.ends_bind (ih (hs.1.mode.trans hm) (hs.1.present hp)) fun _ _ _ => by simp

theorem flush_ends {ch : Chan} (hp : Present ch) : (flush ch).ends := by
  rcases flush_cases ch with ⟨_, h⟩ | ⟨_, ⟨h, _⟩ | ⟨_, _, _, h⟩ | ⟨_, _, _, _, h⟩⟩
  · rw [h]; simp
  · rw [Present, h] at hp; cases hp
  · rw [h]; simp
  · rw [h]; simp

theorem writeBit_ends (b : Bool) {ch : Chan} (hp : Present ch) : (writeBit b ch).ends := by
  rcases writeBit_cases b ch with ⟨_, h⟩ | ⟨_, ⟨_, _, h⟩ | ⟨_, _, _, h⟩ | ⟨f, hf, _⟩⟩
  · rw [h]; simp
  · rw [h]; simp
  · rw [h]; simp
  · exact absurd hf (flush_ends hp f)

theorem writeBits_ends (s : Bits) {ch : Chan} (hm : ch.cur.mode = .write) (hp : Present ch) : (writeBits s ch).ends := by
  induction s generalizing ch with
  | nil => simp [writeBits]
  | cons b s ih =>
    refine Res.ends_bind (writeBit_ends b hp) fun _ ch1 h1 => ?_
    have hs := writeBit_step b hm
    rw [h1] at hs
    exact ih (hs.mode.trans hm) (hs.present hp)

theorem onChan_ends {α : Type} {k : Fin Config.curSlots} {f : Chan → Res Chan α} {s : State} (h : (f (s.chan k)).ends) :
    (onChan k f s).ends := by
  intro r hr
  exact h r (onChan_eq_stuck.1 hr)

/-- A cursor of the block in a direction, its file present. -/
structure Ready (s : State) (k : Fin Config.curSlots) (m : Mode) : Prop where
  mode : (s.cur k).mode = m
  present : Present (s.chan k)

theorem CursorStep.ready {k j : Fin Config.curSlots} {s t : State} {m : Mode} (h : CursorStep k s t) (hr : Ready s j m) :
    Ready t j m := by
  refine ⟨(h.isOpen j).2.trans hr.mode, ?_⟩
  by_cases hj : j = k
  · subst hj; exact h.step.present hr.present
  · have hc : t.cur j = s.cur j := h.frame.2 j hj
    have := hr.present
    unfold Present Env.file State.chan at this ⊢
    simp only [hc] at this ⊢
    exact h.step.env.present _ this

theorem Ready.same {s t : State} {k : Fin Config.curSlots} {m : Mode} (h : Ready s k m) (hc : t.cursors = s.cursors)
    (he : t.env = s.env) : Ready t k m := by
  have : t.cur k = s.cur k := by unfold State.cur; rw [hc]
  refine ⟨by rw [this]; exact h.mode, ?_⟩
  have hp := h.present
  unfold State.chan at hp ⊢
  rw [this, he]
  exact hp

/-! ## The walks over a tree -/

theorem storeCode_ends (n : Node) (pat : Bits) (s : State) : (storeCode n pat s).ends := by
  unfold storeCode
  split <;> simp

theorem storeCode_nodes (n : Node) (pat : Bits) (s : State) : (storeCode n pat s).leaves fun t => t.nodes = s.nodes := by
  unfold storeCode
  split <;> rfl

theorem codeWalk_nodes (fuel n : Nat) (pat : Bits) (s : State) :
    (codeWalk fuel n pat s).leaves fun t => t.nodes = s.nodes := by
  induction fuel generalizing n pat s with
  | zero => trivial
  | succ fuel ih =>
    unfold codeWalk
    split
    · exact storeCode_nodes _ _ _
    · split
      · refine Res.leaves_bind (ih _ _ s) fun _ t _ ht => ?_
        exact Res.leaves_mono (fun u hu => hu.trans ht) (ih _ _ t)
      · rfl

/-- The walk of CTBUILD over a tree ends (R191, R310). -/
theorem codeWalk_ends {fuel n : Nat} (pat : Bits) {s : State} (h : treeOk s.nodes fuel n = true) :
    (codeWalk fuel n pat s).ends := by
  induction fuel generalizing n pat s with
  | zero => cases h
  | succ fuel ih =>
    obtain ⟨_, hc⟩ := treeOk_succ.1 h
    unfold codeWalk
    split
    · exact storeCode_ends _ _ _
    · rename_i hl
      rcases hc with hc | ⟨l, r, e1, e2, h1, h2⟩
      · exact absurd hc hl
      · rw [e1, e2]
        refine Res.ends_bind (ih _ h1) fun _ t ht => ih _ ?_
        have := codeWalk_nodes fuel l (pat ++ [false]) s
        rw [ht] at this
        have e : t.nodes = s.nodes := this
        rw [e]; exact h2

/-- The walk of TWRITE over a tree ends (R207, R310). -/
theorem writeNode_ends {k : Fin Config.curSlots} {fuel n : Nat} {s : State} (h : treeOk s.nodes fuel n = true)
    (hr : Ready s k .write) : (writeNode k fuel n s).ends := by
  induction fuel generalizing n s with
  | zero => cases h
  | succ fuel ih =>
    obtain ⟨_, hc⟩ := treeOk_succ.1 h
    unfold writeNode
    split
    · exact Res.ends_bind (onChan_ends (writeBits_ends _ hr.mode hr.present)) fun _ _ _ => by simp
    · rename_i hl
      refine Res.ends_bind (onChan_ends (writeBit_ends _ hr.present)) fun _ t ht => ?_
      have hs := onChan_writeBit false hr.mode
      rw [ht] at hs
      have hs' : CursorStep k s t := hs
      have en : t.nodes = s.nodes := by rw [hs'.eq]; rfl
      rw [en]
      rcases hc with hc | ⟨l, r, e1, e2, h1, h2⟩
      · exact absurd hc hl
      · rw [e1, e2]
        have hrt := hs'.ready hr
        refine Res.ends_bind (ih (by rw [en]; exact h1) hrt) fun a u hu => ?_
        have hsu := writeNode_step k fuel l hrt.mode
        rw [hu] at hsu
        have hsu' : CursorStep k t u := hsu
        have en' : u.nodes = s.nodes := by rw [hsu'.eq]; exact en
        exact Res.ends_bind (ih (by rw [en']; exact h2) (hsu'.ready hrt)) fun _ _ _ => by simp

/-! ## Reading a tree -/

theorem need_ends {k : Fin Config.curSlots} {s : State} (D cnt n : Nat) (hr : Ready s k .read) : (need k D cnt n s).ends := by
  unfold need
  split
  · simp
  · refine Res.ends_bind ?_ fun bits t _ => ?_
    · unfold readOrFree
      have := onChan_ends (k := k) (s := s) (readBits_ends n hr.mode hr.present)
      cases h : onChan k (readBits n) s with
      | ok a t => simp
      | raise e t => simp
      | stuck f => exact absurd h (this f)
    · split <;> simp

/-- The cursor after a field is still ready. -/
theorem need_ready {k : Fin Config.curSlots} {s t : State} {D cnt n : Nat} {bits : Bits} (hr : Ready s k .read)
    (h : need k D cnt n s = .ok bits t) : Ready t k .read := by
  unfold need at h
  split at h
  · cases h
  · rw [Res.bind_eq_ok] at h
    obtain ⟨b, u, hu, h⟩ := h
    unfold readOrFree at hu
    have hs := onChan_readBits n hr.mode
    cases hc : onChan k (readBits n) s with
    | ok a v =>
      rw [hc] at hu hs
      simp only [Res.ok.injEq] at hu
      obtain ⟨rfl, rfl⟩ := hu
      split at h
      · cases h
      · simp only [Res.ok.injEq] at h
        obtain ⟨_, rfl⟩ := h
        exact CursorStep.ready hs hr
    | raise e v => rw [hc] at hu; cases hu
    | stuck f => rw [hc] at hu; cases hu

/-- A piece of TREAD that ends and leaves its cursor ready. -/
def Res.reads {α : Type} (k : Fin Config.curSlots) (r : Res State α) : Prop :=
  r.ends ∧ ∀ a t, r = .ok a t → Ready t k .read

theorem Res.reads_bind {α β : Type} {k : Fin Config.curSlots} {r : Res State α} {f : α → State → Res State β}
    (hr : r.reads k) (hf : ∀ a s, Ready s k .read → (f a s).reads k) : (r.bind f).reads k := by
  refine ⟨Res.ends_bind hr.1 fun a s h => (hf a s (hr.2 a s h)).1, fun b t h => ?_⟩
  obtain ⟨a, s, h1, h2⟩ := Res.bind_eq_ok.1 h
  exact (hf a s (hr.2 a s h1)).2 b t h2

theorem Res.reads_ok {α : Type} {k : Fin Config.curSlots} {a : α} {s : State} (h : Ready s k .read) :
    (Res.ok a s).reads k := ⟨by simp, fun _ _ e => by simp only [Res.ok.injEq] at e; rw [← e.2]; exact h⟩

theorem Res.reads_raise {α : Type} {k : Fin Config.curSlots} {e : Err} {s : State} :
    (Res.raise e s : Res State α).reads k := ⟨by simp, fun _ _ h => by cases h⟩

theorem need_reads {k : Fin Config.curSlots} {s : State} (D cnt n : Nat) (hr : Ready s k .read) :
    (need k D cnt n s).reads k := ⟨need_ends D cnt n hr, fun _ _ h => need_ready hr h⟩

theorem readLeaf_reads {k : Fin Config.curSlots} {s : State} (D cnt : Nat) (hr : Ready s k .read) :
    (readLeaf k D cnt s).reads k := by
  refine Res.reads_bind ?_ fun r t ht => Res.reads_bind (need_reads D r.2 r.1 ht) fun _ _ h => Res.reads_ok h
  refine Res.reads_bind (need_reads D cnt 1 hr) fun fl t ht => ?_
  split
  · exact Res.reads_ok ht
  · refine Res.reads_bind (need_reads D (cnt + 1) Config.lenf ht) fun len u hu => ?_
    split
    · exact Res.reads_raise
    · exact Res.reads_ok hu

/-- Reading a tree ends (R208, R310). -/
theorem readNode_reads (k : Fin Config.curSlots) (D fuel cnt : Nat) {s : State} (hr : Ready s k .read) :
    (readNode k D fuel cnt s).reads k := by
  induction fuel generalizing cnt s with
  | zero => exact Res.reads_raise
  | succ fuel ih =>
    unfold readNode
    split
    · exact Res.reads_raise
    · rename_i hc
      rcases alloc_cases freshNode s with ⟨h, _⟩ | ⟨_, e⟩
      · exact absurd h hc
      · rw [e, Res.bind_ok]
        refine Res.reads_bind (need_reads D cnt 1 (hr.same rfl rfl)) fun st t ht => ?_
        split
        · exact Res.reads_bind (readLeaf_reads D (cnt + 1) ht) fun _ _ h => Res.reads_ok (h.same rfl rfl)
        · refine Res.reads_bind (ih (cnt + 1) ht) fun l u hu => ?_
          exact Res.reads_bind (ih l.2 (hu.same rfl rfl)) fun _ _ h => Res.reads_ok (h.same rfl rfl)

/-! ## The loops over a stream (log entry 7) -/

/-- The bits a read cursor can still deliver while its file has at most `L` bytes. -/
def bitsLeft (L : Nat) (ch : Chan) : Nat :=
  8 * (ch.cur.valid - ch.cur.byteP) + 8 * (L - ch.cur.fpos) - ch.cur.bitP.val

/-- The file of a cursor has at most `L` bytes. -/
def Within (L : Nat) (ch : Chan) : Prop := ∀ b, ch.env.file ch.cur.fid = some b → b.length ≤ L

theorem bitsLeft_advance {L : Nat} {ch : Chan} (h : ch.cur.byteP < ch.cur.valid) :
    bitsLeft L { ch with cur := advance ch.cur } + 1 = bitsLeft L ch := by
  have := ch.cur.bitP.isLt
  simp only [bitsLeft, advance_valid, advance_fpos]
  rcases advance_pos ch.cur with ⟨_, h1, h2⟩ | ⟨_, h1, h2⟩ <;> rw [h1, h2] <;> omega

theorem bitsLeft_refill {L : Nat} {ch ch' : Chan} {n : Nat} (hw : Within L ch) (hv : ch.cur.valid ≤ ch.cur.byteP)
    (h : refill ch = .ok n ch') : bitsLeft L ch' = bitsLeft L ch := by
  rcases fillAt_cases ch.cur.fpos ch with ⟨_, e⟩ | ⟨b, hb, ⟨_, e⟩ | ⟨_, _, e⟩ | ⟨_, _, e⟩⟩ <;> rw [refill, e] at h <;>
    simp only [reduceCtorEq, Res.ok.injEq] at h
  · obtain ⟨_, rfl⟩ := h
    simp only [bitsLeft]
    omega
  · obtain ⟨_, rfl⟩ := h
    have hc := fillCount_le ch.cur.bufsz ch.cur.fpos b.length
    have := hw b hb
    simp only [bitsLeft, loaded]
    omega

/-- A bit that is delivered is used up. -/
theorem readBit_left {L : Nat} {ch ch' : Chan} {b : Option Bool} (hw : Within L ch) (h : readBit ch = .ok b ch') :
    bitsLeft L ch' + (if b.isSome then 1 else 0) = bitsLeft L ch := by
  rcases readBit_cases ch with ⟨hv, e⟩ | ⟨hv, ⟨n, ch1, hr, hn, e⟩ | ⟨ch1, hr, e⟩ | ⟨_, _, _, e⟩ | ⟨_, _, e⟩⟩ <;>
    rw [e] at h <;> simp only [reduceCtorEq, Res.ok.injEq] at h
  · obtain ⟨rfl, rfl⟩ := h
    exact bitsLeft_advance hv
  · obtain ⟨rfl, rfl⟩ := h
    obtain ⟨h0, h1⟩ := refill_some hr hn
    rw [← bitsLeft_refill hw hv hr]
    exact bitsLeft_advance (by omega)
  · obtain ⟨rfl, rfl⟩ := h
    rw [← bitsLeft_refill hw hv hr]
    rfl

theorem ReadStep.within {L : Nat} {ch ch' : Chan} (h : ReadStep ch ch') (hw : Within L ch) : Within L ch' := by
  unfold Within Env.file at hw ⊢
  rw [h.1.fid, h.2.files]
  exact hw

theorem readBits_left {L n : Nat} {ch ch' : Chan} {s : Bits} (hm : ch.cur.mode = .read) (hw : Within L ch)
    (h : readBits n ch = .ok s ch') : bitsLeft L ch' + s.length ≤ bitsLeft L ch := by
  induction n generalizing ch s ch' with
  | zero =>
    simp only [readBits, Res.ok.injEq] at h
    obtain ⟨rfl, rfl⟩ := h
    simp
  | succ n ih =>
    obtain ⟨b, ch1, h1, h⟩ := Res.bind_eq_ok.1 h
    have hs := readBit_step hm
    rw [h1] at hs
    have hl := readBit_left hw h1
    cases b with
    | none =>
      simp only [Res.ok.injEq] at h
      obtain ⟨rfl, rfl⟩ := h
      simp at hl ⊢
      omega
    | some b =>
      obtain ⟨bs, ch2, h2, h⟩ := Res.bind_eq_ok.1 h
      simp only [Res.ok.injEq] at h
      obtain ⟨rfl, rfl⟩ := h
      have := ih (hs.1.mode.trans hm) (ReadStep.within hs hw) h2
      simp only [Option.isSome_some, if_true] at hl
      simp only [List.length_cons]
      omega

/-- What the tokeniser leaves when it answers (R150): nothing, or at least one bit used up. -/
theorem nextWord_left {L : Nat} {k : Fin Config.curSlots} {s t : State} {r : Option (WordBytes × Nat)}
    (hm : (s.cur k).mode = .read) (hw : Within L (s.chan k)) (h : nextWord k s = .ok r t) :
    CursorStep k s t ∧ Within L (t.chan k) ∧ (r = none ∨ bitsLeft L (t.chan k) < bitsLeft L (s.chan k)) := by
  obtain ⟨bits, u, hu, h⟩ := Res.bind_eq_ok.1 h
  have hs := onChan_readBits s.wbits hm
  rw [hu] at hs
  obtain ⟨ch, hch, rfl⟩ := onChan_eq_ok.1 hu
  have hstep := readBits_step s.wbits (ch := s.chan k) hm
  rw [hch] at hstep
  have hl := readBits_left (ch := s.chan k) hm hw hch
  have e : (s.putChan k ch).chan k = ch := by simp [State.chan]
  cases bits with
  | nil =>
    simp only [Res.ok.injEq] at h
    obtain ⟨rfl, rfl⟩ := h
    exact ⟨hs, by rw [e]; exact ReadStep.within hstep hw, .inl rfl⟩
  | cons b bs =>
    simp only [Res.ok.injEq] at h
    obtain ⟨rfl, rfl⟩ := h
    refine ⟨hs, by rw [e]; exact ReadStep.within hstep hw, .inr ?_⟩
    rw [e]
    simp only [List.length_cons] at hl
    omega

theorem nextWord_ends {k : Fin Config.curSlots} {s : State} (hr : Ready s k .read) : (nextWord k s).ends :=
  Res.ends_bind (onChan_ends (readBits_ends _ hr.mode hr.present)) fun bits t _ => by
    cases bits <;> simp

/-- A number the bits left stay below is fuel enough for a scan (R152). -/
theorem scanLoop_ends {k : Fin Config.curSlots} {L fuel : Nat} (nw : Nat) {s : State} (hr : Ready s k .read)
    (hw : Within L (s.chan k)) (hf : bitsLeft L (s.chan k) < fuel) : (scanLoop k fuel nw s).ends := by
  induction fuel generalizing nw s with
  | zero => omega
  | succ fuel ih =>
    unfold scanLoop
    refine Res.ends_bind (nextWord_ends hr) fun r t ht => ?_
    obtain ⟨hs, hwt, hl⟩ := nextWord_left hr.mode hw ht
    have hrt := hs.ready hr
    match r with
    | none => simp
    | some (x, len) =>
      simp only
      split
      · refine ih (nw + 1) (hrt.same rfl rfl) hwt ?_
        rcases hl with hl | hl
        · cases hl
        · exact Nat.lt_of_lt_of_le hl (by omega)
      · simp

/-- A step of one cursor keeps every file within a bound of at least `MAX_FILE_BYTES`, and the bits another cursor has
left. -/
theorem CursorStep.within {L : Nat} {k j : Fin Config.curSlots} {s t : State} (h : CursorStep k s t) (hj : j ≠ k)
    (hL : s.env.par.maxFileBytes ≤ L) (hw : Within L (s.chan j)) :
    Within L (t.chan j) ∧ bitsLeft L (t.chan j) = bitsLeft L (s.chan j) := by
  have hc : t.cur j = s.cur j := h.frame.2 j hj
  constructor
  · intro b hb
    have hb' : t.env.file (s.cur j).fid = some b := by
      have : t.env.file (t.cur j).fid = some b := hb
      rwa [hc] at this
    by_cases hf : (s.cur j).fid = (s.cur k).fid
    · rw [hf] at hb'
      obtain ⟨b0, hb0, hl⟩ := h.step.env.length b hb'
      have := hw b0 (by
        show s.env.file (s.cur j).fid = some b0
        rw [hf]; exact hb0)
      have hL' : (s.chan k).env.par.maxFileBytes ≤ L := hL
      omega
    · have e : tableGet t.env.files (s.cur j).fid.toNat = tableGet s.env.files (s.cur j).fid.toNat :=
        h.step.env.others _ fun e => hf (BitVec.eq_of_toNat_eq e)
      exact hw b (by
        show tableGet s.env.files (s.cur j).fid.toNat = some b
        rw [← e]; exact hb')
  · unfold bitsLeft State.chan
    simp only [hc]

/-- The same for ENCODE (R221), whatever its other cursor writes. -/
theorem encodeLoop_ends {ka kb : Fin Config.curSlots} {L fuel : Nat} (tot : Nat) {s : State} (hab : ka ≠ kb)
    (hL : s.env.par.maxFileBytes ≤ L) (ha : Ready s ka .read) (hb : Ready s kb .write) (hw : Within L (s.chan ka))
    (hf : bitsLeft L (s.chan ka) < fuel) : (encodeLoop ka kb fuel tot s).ends := by
  induction fuel generalizing tot s with
  | zero => omega
  | succ fuel ih =>
    unfold encodeLoop
    refine Res.ends_bind (nextWord_ends ha) fun r t ht => ?_
    obtain ⟨hs, hwt, hl⟩ := nextWord_left ha.mode hw ht
    have hat := hs.ready ha
    have hbt := hs.ready hb
    have hLt : t.env.par.maxFileBytes ≤ L := Nat.le_trans (Nat.le_of_eq (congrArg _ hs.step.env.par)) hL
    match r with
    | none => simp
    | some (x, len) =>
      simp only
      cases hcode : t.codeAt (wordSlot t.w x len) with
      | none => simp
      | some pat =>
        refine Res.ends_bind (onChan_ends (writeBits_ends _ hbt.mode hbt.present)) fun _ u hu => ?_
        have hsu := onChan_writeBits pat hbt.mode
        rw [hu] at hsu
        have hsu' : CursorStep kb t u := hsu
        have hwu := hsu'.within hab hLt hwt
        split
        · simp
        · refine ih _ (Nat.le_trans (Nat.le_of_eq (congrArg _ hsu'.step.env.par)) hLt) (hsu'.ready hat) (hsu'.ready hbt) hwu.1 ?_
          rw [hwu.2]
          rcases hl with hl | hl
          · cases hl
          · omega

/-- DECODE's loop counts down the bits it was told (R223). -/
theorem decodeLoop_ends {ka kb : Fin Config.curSlots} (n k em : Nat) (cur : Option Nat) {s : State} (ha : Ready s ka .read)
    (hb : Ready s kb .write) : (decodeLoop ka kb n k em cur s).ends := by
  induction n generalizing k em cur s with
  | zero => simp [decodeLoop]
  | succ n ih =>
    unfold decodeLoop
    split
    · simp
    · refine Res.ends_bind (onChan_ends (readBit_ends ha.present)) fun b t ht => ?_
      have hs := onChan_readBit ha.mode
      rw [ht] at hs
      have hs' : CursorStep ka s t := hs
      cases b with
      | none => simp
      | some b =>
        simp only
        split
        · simp
        · exact ih _ _ _ (hs'.ready ha) (hs'.ready hb)
        · rename_i leaf _
          refine Res.ends_bind (onChan_ends (writeBits_ends _ (hs'.ready hb).mode (hs'.ready hb).present)) fun _ u hu => ?_
          have hsu := onChan_writeBits (leafBits (nodeAt t.nodes leaf)) (hs'.ready hb).mode
          rw [hu] at hsu
          have hsu' : CursorStep kb t u := hsu
          exact ih _ _ _ (hsu'.ready (hs'.ready ha)) (hsu'.ready (hs'.ready hb))

/-- The bound of the loops is above the bits left, in every state (log entry 7). -/
theorem streamFuel_enough (ch : Chan) :
    ∃ L, ch.env.par.maxFileBytes ≤ L ∧ Within L ch ∧ bitsLeft L ch < streamFuel ch := by
  refine ⟨max ((ch.env.file ch.cur.fid).getD []).length ch.env.par.maxFileBytes, Nat.le_max_right _ _, ?_, ?_⟩
  · intro b hb
    rw [hb, Option.getD_some]
    exact Nat.le_max_left _ _
  · unfold bitsLeft streamFuel
    omega

end Sys2Proof.Machine
end

