-- ==== Sys2Proof/Laws/StreamInv.lean ====
section
/-! SUPPORT. The loops over streams keep the invariant of the block (R152, R221, R223). -/

namespace Sys2Proof.Machine

open Sys2Proof

/-- An open cursor in a direction. -/
structure OpenFor (s : State) (k : Fin Config.curSlots) (m : Mode) : Prop where
  isOpen : (s.cur k).isOpen = true
  mode : (s.cur k).mode = m

theorem CursorStep.openFor {k j : Fin Config.curSlots} {s t : State} {m : Mode} (h : CursorStep k s t)
    (ho : OpenFor s j m) : OpenFor t j m := ⟨(h.isOpen j).1.trans ho.isOpen, (h.isOpen j).2.trans ho.mode⟩

theorem OpenFor.same {s t : State} {k : Fin Config.curSlots} {m : Mode} (h : OpenFor s k m) (hc : t.cursors = s.cursors) :
    OpenFor t k m := by
  have : t.cur k = s.cur k := by unfold State.cur; rw [hc]
  exact ⟨by rw [this]; exact h.isOpen, by rw [this]; exact h.mode⟩

/-- An open cursor of a lawful block is ready. -/
theorem Inv.ready {s : State} {k : Fin Config.curSlots} {m : Mode} (h : Inv s) (ho : OpenFor s k m) : Ready s k m :=
  ⟨ho.mode, (h.cursors k ho.isOpen).filePresent⟩

/-- Everything the tokeniser can answer: its cursor has moved, and a word has between 1 and `WBITS` bits, the rest of its
two bytes 0 (R150). -/
theorem nextWord_leaves {k : Fin Config.curSlots} {s : State} (hm : (s.cur k).mode = .read) :
    (nextWord k s).leaves (CursorStep k s) := by
  refine Res.leaves_bind (onChan_readBits _ hm) fun bits t _ ht => ?_
  cases bits with
  | nil => exact ht
  | cons b bs => exact ht

theorem nextWord_some {k : Fin Config.curSlots} {s t : State} {x : WordBytes} {len : Nat}
    (h : nextWord k s = .ok (some (x, len)) t) : 0 < len ∧ len ≤ Config.wbits s.w ∧ wordClear x len = true := by
  obtain ⟨bits, u, hu, h⟩ := Res.bind_eq_ok.1 h
  obtain ⟨ch, hch, _⟩ := onChan_eq_ok.1 hu
  have hl := readBits_length hch
  cases bits with
  | nil => simp only [Res.ok.injEq, reduceCtorEq, false_and] at h
  | cons b bs =>
    simp only [Res.ok.injEq, Option.some.injEq, Prod.mk.injEq] at h
    obtain ⟨⟨rfl, rfl⟩, rfl⟩ := h
    exact ⟨by simp, hl, wordClear_wordOfBits _ (Nat.le_trans hl (wbits_le s.w))⟩

/-- A full word that is counted (R152). -/
theorem Inv.countWord {s : State} (h : Inv s) (x : WordBytes) : Inv (countWord x s) := by
  have hlt := widx_lt s.w x
  have hr := (freqOk_iff.1 h.freq).1
  have hf : freqOk s.w (freqSet s.freq (widx s.w x) (s.freqAt (widx s.w x) + 1)) = true :=
    freqOk_freqSet h.freq (by simp only [Config.nsym]; omega)
  refine { h with freq := hf, bucket := fun hb => h.bucket ?_ }
  intro e
  apply hb
  show freqGet (freqSet s.freq (widx s.w x) _) (Config.tailIdx s.w) = 0
  rw [freqGet_freqSet hr, if_neg (by omega)]
  exact e

/-- A tail word that is recorded (R34, R152). -/
theorem Inv.recordTail {s : State} (h : Inv s) {x : WordBytes} {len : Nat} (hl : len < Config.wbits s.w)
    (hx : wordClear x len = true) : Inv (recordTail x len s) := by
  have hf : freqOk s.w (freqSet s.freq s.tailIdx 1) = true :=
    freqOk_freqSet h.freq (Nat.lt_succ_self (Config.tailIdx s.w))
  refine { h with freq := hf, tail := ?_, bucket := fun _ => rfl }
  simp [tailOk, Machine.recordTail, hl, hx]

theorem scanLoop_inv (k : Fin Config.curSlots) (fuel nw : Nat) {s : State} (h : Inv s) (ho : OpenFor s k .read) :
    (scanLoop k fuel nw s).leaves Inv := by
  induction fuel generalizing nw s with
  | zero => trivial
  | succ fuel ih =>
    unfold scanLoop
    refine Res.leaves_bind (Res.leaves_mono (fun t ht => ht.inv ho.isOpen h) (nextWord_leaves ho.mode)) fun r t hr ht => ?_
    have hs := nextWord_leaves (k := k) (s := s) ho.mode
    rw [hr] at hs
    have hs' : CursorStep k s t := hs
    match r with
    | none => exact ht
    | some (x, len) =>
      obtain ⟨_, hle, hx⟩ := nextWord_some hr
      have hw : t.w = s.w := by rw [hs'.eq]; rfl
      simp only
      split
      · exact ih _ (ht.countWord x) ((hs'.openFor ho).same rfl)
      · rename_i hne
        refine ht.recordTail ?_ hx
        have : t.wbits = Config.wbits s.w := by
          show Config.wbits t.w = _
          rw [hw]
        rw [this] at hne
        rw [hw]
        omega

theorem encodeLoop_inv (ka kb : Fin Config.curSlots) (fuel tot : Nat) {s : State} (h : Inv s) (ha : OpenFor s ka .read)
    (hb : OpenFor s kb .write) : (encodeLoop ka kb fuel tot s).leaves Inv := by
  induction fuel generalizing tot s with
  | zero => trivial
  | succ fuel ih =>
    unfold encodeLoop
    refine Res.leaves_bind (Res.leaves_mono (fun t ht => ht.inv ha.isOpen h) (nextWord_leaves ha.mode)) fun r t hr ht => ?_
    have hs := nextWord_leaves (k := ka) (s := s) ha.mode
    rw [hr] at hs
    have hs' : CursorStep ka s t := hs
    have hbt := hs'.openFor hb
    match r with
    | none => exact ht
    | some (x, len) =>
      simp only
      split
      · exact ht
      · rename_i pat _
        have hwr := onChan_writeBits pat hbt.mode
        refine Res.leaves_bind (Res.leaves_mono (fun u hu => hu.inv hbt.isOpen ht) hwr) fun _ u hu hi => ?_
        rw [hu] at hwr
        have hwr' : CursorStep kb t u := hwr
        split
        · exact hi
        · exact ih _ hi (hwr'.openFor (hs'.openFor ha)) (hwr'.openFor hbt)

theorem decodeLoop_inv (ka kb : Fin Config.curSlots) (n k em : Nat) (cur : Option Nat) {s : State} (h : Inv s)
    (ha : OpenFor s ka .read) (hb : OpenFor s kb .write) : (decodeLoop ka kb n k em cur s).leaves Inv := by
  induction n generalizing k em cur s with
  | zero => exact h
  | succ n ih =>
    unfold decodeLoop
    split
    · exact h
    · have hrd := onChan_readBit ha.mode
      refine Res.leaves_bind (Res.leaves_mono (fun t ht => ht.inv ha.isOpen h) hrd) fun b t ht hi => ?_
      rw [ht] at hrd
      have hs' : CursorStep ka s t := hrd
      have hat := hs'.openFor ha
      have hbt := hs'.openFor hb
      cases b with
      | none => exact hi
      | some b =>
        simp only
        split
        · exact hi
        · exact ih _ _ _ hi hat hbt
        · rename_i leaf _
          have hwr := onChan_writeBits (leafBits (nodeAt t.nodes leaf)) hbt.mode
          refine Res.leaves_bind (Res.leaves_mono (fun u hu => hu.inv hbt.isOpen hi) hwr) fun _ u hu hj => ?_
          rw [hu] at hwr
          have hwr' : CursorStep kb t u := hwr
          exact ih _ _ _ hj (hwr'.openFor hat) (hwr'.openFor hbt)

end Sys2Proof.Machine
end

