-- ==== Sys2Proof/Laws/Channels.lean ====
section
/-! SUPPORT. Reading and writing through a cursor of the block: one lemma for each, in the terms of Safety.lean, and the
tokeniser over the bits that are pending (R126, R150). -/

namespace Sys2Proof.Machine

open Sys2Proof

variable {s t u : State} {k m : Fin Config.curSlots}

/-! ## Readiness is kept -/

theorem CursorStep.noFail (h : CursorStep k s t) (hn : noFail s.env) : noFail t.env := h.step.env.noFail hn

theorem Readable.step (hr : Readable s k) (h : CursorStep k s t) : Readable t k :=
  ⟨h.inv hr.isOpen hr.inv, (h.isOpen k).1.trans hr.isOpen, (h.isOpen k).2.trans hr.mode, h.noFail hr.noFail⟩

theorem Readable.other (hr : Readable s k) (h : CursorStep m s t) (hm : (s.cur m).isOpen = true) : Readable t k :=
  ⟨h.inv hm hr.inv, (h.isOpen k).1.trans hr.isOpen, (h.isOpen k).2.trans hr.mode, h.noFail hr.noFail⟩

theorem Readable.openFor (hr : Readable s k) : OpenFor s k .read := ⟨hr.isOpen, hr.mode⟩

theorem Writable.openFor {n : Nat} (hw : Writable s k n) : OpenFor s k .write := ⟨hw.isOpen, hw.mode⟩

theorem Writable.le {n n' : Nat} (hw : Writable s k n) (h : n' ≤ n) : Writable s k n' :=
  ⟨hw.inv, hw.isOpen, hw.mode, hw.noHole, hw.noFail, Nat.le_trans (Nat.add_le_add_left h _) hw.fits⟩

/-- A primitive keeps the bindings of the cursors. -/
theorem CursorStep.onlyCursor (h : CursorStep k s t) : OnlyCursor s t k :=
  ⟨h.frame.2, h.step.isOpen, h.step.mode, h.step.fid, h.step.bufsz⟩

/-- Two primitives in a row, on two cursors. -/
theorem OnlyCursor.two (h : OnlyCursor s t k) (h' : OnlyCursor t u m) : OnlyCursors s u k m := by
  have key : ∀ {v w : State} {i : Fin Config.curSlots}, OnlyCursor v w i → ∀ j, (w.cur j).isOpen = (v.cur j).isOpen ∧
      (w.cur j).mode = (v.cur j).mode ∧ (w.cur j).fid = (v.cur j).fid ∧ (w.cur j).bufsz = (v.cur j).bufsz := by
    intro v w i hi j
    by_cases e : j = i
    · subst e; exact ⟨hi.isOpen, hi.mode, hi.fid, hi.bufsz⟩
    · rw [hi.others j e]; simp
  refine ⟨fun j hk hm => (h'.others j hm).trans (h.others j hk), fun j => ?_, fun j => ?_, fun j => ?_, fun j => ?_⟩
  · exact (key h' j).1.trans (key h j).1
  · exact (key h' j).2.1.trans (key h j).2.1
  · exact (key h' j).2.2.1.trans (key h j).2.2.1
  · exact (key h' j).2.2.2.trans (key h j).2.2.2

theorem OnlyCursors.trans (h : OnlyCursors s t k m) (h' : OnlyCursors t u k m) : OnlyCursors s u k m :=
  ⟨fun j a b => (h'.others j a b).trans (h.others j a b), fun j => (h'.isOpen j).trans (h.isOpen j),
    fun j => (h'.mode j).trans (h.mode j), fun j => (h'.fid j).trans (h.fid j), fun j => (h'.bufsz j).trans (h.bufsz j)⟩

/-! ## Reading -/

/-- `ReadBits` through a cursor of the block (R126). -/
theorem onChan_read (hr : Readable s k) (n : Nat) :
    ∃ t, onChan k (readBits n) s = .ok ((pending (s.chan k)).take n) t ∧ CursorStep k s t ∧ Delivered s t k n := by
  have i := hr.inv.cursors k hr.isOpen
  obtain ⟨ch, h, took⟩ := readBits_pending n (ch := s.chan k) ⟨hr.inv.params, hr.inv.memory⟩ hr.noFail hr.mode i
  have he := onChan_of_ok h
  have hs := onChan_readBits n hr.mode
  rw [he] at hs
  have e : (s.putChan k ch).chan k = ch := by simp
  refine ⟨_, he, hs, by rw [e]; exact took.pending, ?_, fun f off => ?_, took.step.2.files⟩
  · have : (s.putChan k ch).cur k = ch.cur := by rw [← State.chan_cur, e]
    rw [this]; exact took.pos
  · show (tableGet ch.env.files f.toNat).bind _ = _
    rw [took.step.2.files]; rfl

theorem Delivered.trans {n n' : Nat} (h : Delivered s t k n) (h' : Delivered t u k n') : Delivered s u k (n + n') := by
  refine ⟨by rw [h'.pending, h.pending, List.drop_drop], ?_, fun f off => (h'.bytes f off).trans (h.bytes f off),
    h'.files.trans h.files⟩
  rw [h'.pos, h.pos, h.pending, List.length_drop]
  omega

/-- `ReadBit` through a cursor of the block (R125). -/
theorem onChan_readOne (hr : Readable s k) :
    ∃ t, onChan k readBit s = .ok (pending (s.chan k)).head? t ∧ CursorStep k s t ∧ Delivered s t k 1 := by
  have i := hr.inv.cursors k hr.isOpen
  obtain ⟨ch, h, took⟩ := readBit_pending (ch := s.chan k) hr.noFail hr.mode i
  have he := onChan_of_ok h
  have hs := onChan_readBit hr.mode
  rw [he] at hs
  have e : (s.putChan k ch).chan k = ch := by simp
  refine ⟨_, he, hs, by rw [e]; exact took.pending, ?_, fun f off => ?_, took.step.2.files⟩
  · have : (s.putChan k ch).cur k = ch.cur := by rw [← State.chan_cur, e]
    rw [this]; exact took.pos
  · show (tableGet ch.env.files f.toNat).bind _ = _
    rw [took.step.2.files]; rfl

/-! ## Writing -/

theorem byteAt_eq (s : State) (k : Fin Config.curSlots) (off : Nat) :
    s.env.byteAt (s.cur k).fid off = (fileBytes (s.chan k))[off]? := by
  unfold Env.byteAt fileBytes State.chan
  cases s.env.file (s.cur k).fid <;> rfl

/-- `WriteBits` through a cursor of the block (R126). -/
theorem onChan_write (bits : Bits) (hw : Writable s k bits.length) :
    ∃ t, onChan k (writeBits bits) s = .ok () t ∧ CursorStep k s t ∧ Stored s t k bits ∧
      (t.cur k).fpos ≤ (fileBytes (t.chan k)).length := by
  have i := hw.inv.cursors k hw.isOpen
  obtain ⟨ch, h, put⟩ := writeBits_put bits (ch := s.chan k) hw.noFail hw.mode i ⟨hw.inv.params, hw.inv.memory⟩ hw.noHole hw.fits
  have he := onChan_of_ok h
  have hs := onChan_writeBits bits hw.mode
  rw [he] at hs
  have e : (s.putChan k ch).chan k = ch := by simp
  have ec : (s.putChan k ch).cur k = ch.cur := by rw [← State.chan_cur, e]
  have hfid : ch.cur.fid = (s.cur k).fid := put.step.fid
  refine ⟨_, he, hs, ⟨by rw [e]; exact put.image, by rw [ec]; exact put.pos, by rw [ec]; exact put.fpos, ?_, ?_⟩,
    by rw [ec, e]; exact put.noHole⟩
  · intro off ho
    rw [ec] at ho
    have := byteAt_eq (s.putChan k ch) k off
    rw [ec, e, hfid] at this
    rw [this, e]
    exact (image_getElem put.noHole ho).symm
  · intro f off hne
    rw [ec] at hne
    by_cases hf : f = (s.cur k).fid
    · subst hf
      have h1 := byteAt_eq (s.putChan k ch) k off
      rw [ec, e, hfid] at h1
      rw [h1, byteAt_eq s k off]
      exact put.outside off (by
        show off < (s.cur k).fpos ∨ _
        by_contra hc
        exact hne ⟨rfl, by omega, by omega⟩)
    · unfold Env.byteAt Env.file
      have := put.step.env.others f.toNat fun ht => hf (BitVec.eq_of_toNat_eq ht)
      have h2 : tableGet (s.putChan k ch).env.files f.toNat = tableGet s.env.files f.toNat := this
      rw [h2]

theorem Writable.step {bits : Bits} {n : Nat} (hw : Writable s k n) (h : CursorStep k s t) (hst : Stored s t k bits)
    (hh : (t.cur k).fpos ≤ (fileBytes (t.chan k)).length) {n' : Nat} (hn : bits.length + n' ≤ n) : Writable t k n' := by
  refine ⟨h.inv hw.isOpen hw.inv, (h.isOpen k).1.trans hw.isOpen, (h.isOpen k).2.trans hw.mode, hh, h.noFail hw.noFail, ?_⟩
  have := hw.fits
  rw [hst.pos, (show t.env.par = s.env.par from h.step.env.par)]; omega

theorem pendingBytes_pos {c : Cursor} (hm : c.mode = .write) :
    absBitPos c ≤ 8 * (c.fpos + pendingBytes c) := by
  have := c.bitP.isLt
  rw [absBitPos_write hm]
  unfold pendingBytes
  split <;> omega

/-- The position of a writer is inside the file being made. -/
theorem Writable.pos_le {n : Nat} (hw : Writable s k n) : absBitPos (s.cur k) ≤ 8 * (image (s.chan k)).length := by
  have i := hw.inv.cursors k hw.isOpen
  have h := image_length (ch := s.chan k) hw.mode i hw.noHole
  have := pendingBytes_pos (c := s.cur k) hw.mode
  rw [h]
  show _ ≤ 8 * max _ ((s.cur k).fpos + pendingBytes (s.cur k))
  omega

/-- Two runs of bits stored one after the other. -/
theorem Stored.trans {a b : Bits} {n : Nat} (hw : Writable s k n) (hc : CursorStep k s t) (h : Stored s t k a)
    (h' : Stored t u k b) : Stored s u k (a ++ b) := by
  have i := hw.inv.cursors k hw.isOpen
  have hfid : (t.cur k).fid = (s.cur k).fid := hc.step.fid
  have hb : (t.cur k).bufsz = (s.cur k).bufsz := hc.step.bufsz
  have hm : (t.cur k).mode = .write := hc.step.mode.trans hw.mode
  have hp := h.pos
  rw [absBitPos_write hm, absBitPos_write hw.mode] at hp
  have hadd := flushedBytes_add (m := b.length) i.sizePos hb h.fpos hp
  have f1 := h.fpos
  have f2 := h'.fpos
  refine ⟨?_, by rw [h'.pos, h.pos, List.length_append, Nat.add_assoc], by rw [List.length_append]; omega, fun off ho => ?_,
    fun f off hne => ?_⟩
  · rw [h'.image, h.image, h.pos, written_append _ _ hw.pos_le]
  · rw [← hfid]; exact h'.inside off ho
  · rw [h'.outside f off, h.outside f off]
    · rintro ⟨e, a1, a2⟩; exact hne ⟨e, a1, by omega⟩
    · rw [hfid]
      rintro ⟨e, a1, a2⟩; exact hne ⟨e, by omega, a2⟩

theorem Stored.nil (s : State) (k : Fin Config.curSlots) (i : CursorInv s.env (s.cur k)) (hm : (s.cur k).mode = .write)
    (hh : (s.cur k).fpos ≤ (fileBytes (s.chan k)).length) : Stored s s k [] := by
  refine ⟨by simp, rfl, ?_, fun off ho => ?_, fun _ _ _ => rfl⟩
  · have h0 : (8 * (s.cur k).byteP + (s.cur k).bitP.val + ([] : Bits).length - 1) / (8 * (s.cur k).bufsz) = 0 := by
      apply Nat.div_eq_of_lt
      have := i.byteLe
      have := i.sizePos
      have := (s.cur k).bitP.isLt
      rcases Nat.lt_or_eq_of_le i.byteLe with h | h
      · simp; omega
      · rw [i.writePos hm h]; simp; omega
    rw [flushedBytes, h0]; rfl
  · rw [byteAt_eq]; exact (image_getElem hh ho).symm

/-! ## Two cursors on different files -/

/-- What a writer stores is not pending for a reader of another file. -/
theorem pending_other (h : CursorStep m s t) (hkm : k ≠ m) (hf : (s.cur k).fid ≠ (s.cur m).fid) :
    pending (t.chan k) = pending (s.chan k) ∧ t.cur k = s.cur k := by
  have hc : t.cur k = s.cur k := h.frame.2 k hkm
  refine ⟨?_, hc⟩
  have hfile : fileBytes (t.chan k) = fileBytes (s.chan k) := by
    unfold fileBytes Env.file
    simp only [State.chan_cur, State.chan_env, hc]
    have e : tableGet t.env.files (s.cur k).fid.toNat = tableGet s.env.files (s.cur k).fid.toNat :=
      h.step.env.others _ fun e => hf (BitVec.eq_of_toNat_eq e)
    rw [e]
  unfold pending
  simp only [State.chan_cur, hc, hfile]

/-- A read does not move a writer: neither its cursor nor the file it is making. -/
theorem image_other (h : CursorStep m s t) (hkm : k ≠ m) (hfiles : t.env.files = s.env.files)
    (hh : (s.cur k).fpos ≤ (fileBytes (s.chan k)).length) (i : CursorInv s.env (s.cur k))
    (hw : (s.cur k).mode = .write) :
    t.cur k = s.cur k ∧ fileBytes (t.chan k) = fileBytes (s.chan k) ∧ image (t.chan k) = image (s.chan k) := by
  have hc : t.cur k = s.cur k := h.frame.2 k hkm
  have hfile : fileBytes (t.chan k) = fileBytes (s.chan k) := by
    unfold fileBytes Env.file
    simp only [State.chan_cur, State.chan_env, hc, hfiles]
  refine ⟨hc, hfile, ?_⟩
  have hb : pendingBytes (s.cur k) ≤ (s.cur k).buf.length := by rw [i.bufLen]; exact pendingBytes_le hw i
  rw [image_eq (ch := s.chan k) hh hb, image_eq (ch := t.chan k) (by rw [hfile, State.chan_cur, hc]; exact hh)
    (by rw [State.chan_cur, hc]; exact hb), hfile]
  simp only [State.chan_cur, hc]

/-! ## The tokeniser (R150) -/

theorem words_nil (w : WordSize) (fuel : Nat) : words w fuel [] = [] := by cases fuel <;> simp [words]

/-- The bound of the recursion is immaterial once it reaches the number of bits. -/
theorem words_fuel (w : WordSize) {fuel fuel' : Nat} {bits : Bits} (h : bits.length ≤ fuel) (h' : bits.length ≤ fuel') :
    words w fuel bits = words w fuel' bits := by
  induction fuel generalizing fuel' bits with
  | zero =>
    have : bits = [] := by simpa using h
    subst this; rw [words_nil, words_nil]
  | succ fuel ih =>
    by_cases hb : bits = []
    · subst hb; rw [words_nil, words_nil]
    · obtain ⟨f, rfl⟩ : ∃ f, fuel' = f + 1 := ⟨fuel' - 1, by have := List.length_pos_iff.2 hb; omega⟩
      simp only [words, hb, if_false]
      congr 1
      have hp := wbits_pos w
      have := List.length_pos_iff.2 hb
      exact ih (by rw [List.length_drop]; omega) (by rw [List.length_drop]; omega)

@[simp] theorem wordsOf_nil (w : WordSize) : wordsOf w [] = [] := rfl

/-- The first word of a stream, and the rest (R150). -/
theorem wordsOf_cons (w : WordSize) {bits : Bits} (h : bits ≠ []) :
    wordsOf w bits = (wordOfBits (bits.take (Config.wbits w)), (bits.take (Config.wbits w)).length) ::
      wordsOf w (bits.drop (Config.wbits w)) := by
  unfold wordsOf
  obtain ⟨n, hn⟩ : ∃ n, bits.length = n + 1 := ⟨bits.length - 1, by have := List.length_pos_iff.2 h; omega⟩
  rw [hn]
  simp only [words, h, if_false]
  congr 1
  have := wbits_pos w
  exact words_fuel w (by rw [List.length_drop]; omega) (by omega)

/-- `NextWord` takes the first word of the pending bits (R150). -/
theorem nextWord_pending (hr : Readable s k) :
    ∃ t, nextWord k s = .ok (wordsOf s.w (pending (s.chan k))).head? t ∧ CursorStep k s t ∧
      Delivered s t k (Config.wbits s.w) := by
  obtain ⟨t, h, hs, hd⟩ := onChan_read hr (Config.wbits s.w)
  refine ⟨t, ?_, hs, hd⟩
  have h' : onChan k (readBits s.wbits) s = .ok ((pending (s.chan k)).take (Config.wbits s.w)) t := h
  unfold nextWord
  rw [h', Res.bind_ok]
  by_cases hp : pending (s.chan k) = []
  · simp [hp]
  · rw [wordsOf_cons _ hp, List.head?_cons]
    have hne : (pending (s.chan k)).take (Config.wbits s.w) ≠ [] := by
      have := wbits_pos s.w
      simp [hp]; omega
    cases hb : (pending (s.chan k)).take (Config.wbits s.w) with
    | nil => exact absurd hb hne
    | cons b bs => rfl

/-- The bits a read cursor can deliver are fewer than the bound of the loops (log entry 7). -/
theorem pending_lt_fuel (ch : Chan) : (pending ch).length < streamFuel ch := by
  unfold pending streamFuel
  simp only [List.length_drop, bytesBits_length, List.length_append, List.length_take]
  have : (fileBytes ch).length = ((ch.env.file ch.cur.fid).getD []).length := rfl
  omega

theorem length_wordsOf_le (w : WordSize) (bits : Bits) : (wordsOf w bits).length ≤ bits.length := by
  suffices h : ∀ fuel b, b.length ≤ fuel → (words w fuel b).length ≤ b.length from h _ _ (Nat.le_refl _)
  intro fuel
  induction fuel with
  | zero => intro b _; simp [words]
  | succ fuel ih =>
    intro b hb
    unfold words
    split
    · simp
    · rename_i hne
      have h0 := List.length_pos_iff.2 hne
      have hp := wbits_pos w
      have := ih (b.drop (Config.wbits w)) (by rw [List.length_drop]; omega)
      rw [List.length_drop] at this
      simp only [List.length_cons]
      omega

end Sys2Proof.Machine
end

