-- ==== Sys2Proof/Laws/Decode.lean ====
section
/-! SUPPORT. The fields of a command word (R90): a word is its four fields, and each field of a word laid out from fields is
the one given. -/

namespace Sys2Proof

@[simp] theorem opField_packWord (op : BitVec 8) (ca cb : BitVec 4) (imm : BitVec 16) : opField (packWord op ca cb imm) = op := by
  unfold opField packWord
  ext i hi
  have h1 : ¬ 24 + i < 16 := by omega
  have h2 : ¬ 24 + i - 16 < 4 := by omega
  have h3 : ¬ 24 + i - 16 - 4 < 4 := by omega
  have h4 : 24 + i - 16 - 4 - 4 = i := by omega
  simp only [BitVec.getElem_extractLsb', BitVec.getLsbD_append, h1, h2, h3, h4]
  simp [BitVec.getLsbD_eq_getElem hi]

@[simp] theorem caField_packWord (op : BitVec 8) (ca cb : BitVec 4) (imm : BitVec 16) : caField (packWord op ca cb imm) = ca := by
  unfold caField packWord
  ext i hi
  have h1 : ¬ 20 + i < 16 := by omega
  have h2 : ¬ 20 + i - 16 < 4 := by omega
  have h4 : 20 + i - 16 - 4 = i := by omega
  simp only [BitVec.getElem_extractLsb', BitVec.getLsbD_append, h1, h2, h4]
  simp [hi]

@[simp] theorem cbField_packWord (op : BitVec 8) (ca cb : BitVec 4) (imm : BitVec 16) : cbField (packWord op ca cb imm) = cb := by
  unfold cbField packWord
  ext i hi
  have h1 : ¬ 16 + i < 16 := by omega
  have h4 : 16 + i - 16 = i := by omega
  simp only [BitVec.getElem_extractLsb', BitVec.getLsbD_append, h1, h4]
  simp [hi]

@[simp] theorem immField_packWord (op : BitVec 8) (ca cb : BitVec 4) (imm : BitVec 16) : immField (packWord op ca cb imm) = imm := by
  unfold immField packWord
  ext i hi
  have h1 : 0 + i < 16 := by omega
  simp only [BitVec.getElem_extractLsb', BitVec.getLsbD_append, h1]
  simp [BitVec.getLsbD_eq_getElem hi]

/-- A word is laid out from its own fields. -/
theorem packWord_fields (w : BitVec 32) : packWord (opField w) (caField w) (cbField w) (immField w) = w := by
  unfold packWord opField caField cbField immField
  ext i hi
  simp only [BitVec.getElem_append, BitVec.getElem_extractLsb']
  split
  · simp [BitVec.getLsbD_eq_getElem hi]
  · split
    · rename_i h1 h2
      rw [show 16 + (i - 16) = i by omega, BitVec.getLsbD_eq_getElem hi]
    · split
      · rw [show 20 + (i - 16 - 4) = i by omega, BitVec.getLsbD_eq_getElem hi]
      · rw [show 24 + (i - 16 - 4 - 4) = i by omega, BitVec.getLsbD_eq_getElem hi]

/-- Masking a word masks its fields. -/
theorem packWord_and (op op' : BitVec 8) (ca cb ca' cb' : BitVec 4) (imm imm' : BitVec 16) :
    packWord op ca cb imm &&& packWord op' ca' cb' imm' = packWord (op &&& op') (ca &&& ca') (cb &&& cb') (imm &&& imm') := by
  unfold packWord
  rw [BitVec.and_append, BitVec.and_append, BitVec.and_append]

/-- Two words are the same exactly when their fields are. -/
theorem packWord_inj {op op' : BitVec 8} {ca cb ca' cb' : BitVec 4} {imm imm' : BitVec 16} :
    packWord op ca cb imm = packWord op' ca' cb' imm' ↔ op = op' ∧ ca = ca' ∧ cb = cb' ∧ imm = imm' := by
  refine ⟨fun h => ⟨?_, ?_, ?_, ?_⟩, fun ⟨a, b, c, d⟩ => by rw [a, b, c, d]⟩
  · have := congrArg opField h; rwa [opField_packWord, opField_packWord] at this
  · have := congrArg caField h; rwa [caField_packWord, caField_packWord] at this
  · have := congrArg cbField h; rwa [cbField_packWord, cbField_packWord] at this
  · have := congrArg immField h; rwa [immField_packWord, immField_packWord] at this

/-- The lower half of the value of a command is its word, the upper half 0. -/
theorem encodeCmd_low (i : Instr) : (encodeCmd i).extractLsb' 0 32 = encodeWord i ∧ (encodeCmd i).extractLsb' 32 32 = 0 := by
  unfold encodeCmd
  constructor
  · exact BitVec.extractLsb'_append_eq_right
  · exact BitVec.extractLsb'_append_eq_left

end Sys2Proof
end

