-- ==== Sys2Proof/Laws/PerInstr.lean ====
section
/-! SUPPORT. Facts about every command as syntax, one lemma per constructor. Family `Opcode`: the opcode field of the
word of a command is the one of the opcode map (R93). -/

namespace Sys2Proof.Laws.Opcode

open Sys2Proof

/-- The opcode of a command (R93). -/
def opcode : Instr → BitVec 8
  | .nop => 0x00
  | .srst => 0x01
  | .cfgw _ => 0x02
  | .copen _ _ => 0x10
  | .cclose _ => 0x11
  | .crdbits _ => 0x12
  | .cwrbits _ => 0x13
  | .crdbytes _ => 0x14
  | .cwrbytes _ => 0x15
  | .cflush _ => 0x16
  | .cseekbits _ => 0x17
  | .ctell _ => 0x18
  | .chseek _ => 0x19
  | .hclr => 0x20
  | .hscan _ => 0x21
  | .frd => 0x22
  | .fwr => 0x23
  | .tbinit => 0x30
  | .tbins => 0x31
  | .tbext => 0x32
  | .tbuild => 0x33
  | .nrd => 0x34
  | .ctbuild => 0x40
  | .ctrd => 0x41
  | .twrite _ => 0x50
  | .tread _ => 0x51
  | .encode _ _ => 0x60
  | .decode _ _ => 0x61

/-- The word of the command carries its opcode in bits 31:24. -/
def Statement (i : Instr) : Prop := opField (encodeWord i) = opcode i

theorem nop : Statement .nop := opField_packWord _ _ _ _
theorem srst : Statement .srst := opField_packWord _ _ _ _
theorem cfgw (imm : BitVec 16) : Statement (.cfgw imm) := opField_packWord _ _ _ _
theorem copen (ca : BitVec 4) (m : Mode) : Statement (.copen ca m) := opField_packWord _ _ _ _
theorem cclose (ca : BitVec 4) : Statement (.cclose ca) := opField_packWord _ _ _ _
theorem crdbits (ca : BitVec 4) : Statement (.crdbits ca) := opField_packWord _ _ _ _
theorem cwrbits (ca : BitVec 4) : Statement (.cwrbits ca) := opField_packWord _ _ _ _
theorem crdbytes (ca : BitVec 4) : Statement (.crdbytes ca) := opField_packWord _ _ _ _
theorem cwrbytes (ca : BitVec 4) : Statement (.cwrbytes ca) := opField_packWord _ _ _ _
theorem cflush (ca : BitVec 4) : Statement (.cflush ca) := opField_packWord _ _ _ _
theorem cseekbits (ca : BitVec 4) : Statement (.cseekbits ca) := opField_packWord _ _ _ _
theorem ctell (ca : BitVec 4) : Statement (.ctell ca) := opField_packWord _ _ _ _
theorem chseek (ca : BitVec 4) : Statement (.chseek ca) := opField_packWord _ _ _ _
theorem hclr : Statement .hclr := opField_packWord _ _ _ _
theorem hscan (ca : BitVec 4) : Statement (.hscan ca) := opField_packWord _ _ _ _
theorem frd : Statement .frd := opField_packWord _ _ _ _
theorem fwr : Statement .fwr := opField_packWord _ _ _ _
theorem tbinit : Statement .tbinit := opField_packWord _ _ _ _
theorem tbins : Statement .tbins := opField_packWord _ _ _ _
theorem tbext : Statement .tbext := opField_packWord _ _ _ _
theorem tbuild : Statement .tbuild := opField_packWord _ _ _ _
theorem nrd : Statement .nrd := opField_packWord _ _ _ _
theorem ctbuild : Statement .ctbuild := opField_packWord _ _ _ _
theorem ctrd : Statement .ctrd := opField_packWord _ _ _ _
theorem twrite (ca : BitVec 4) : Statement (.twrite ca) := opField_packWord _ _ _ _
theorem tread (ca : BitVec 4) : Statement (.tread ca) := opField_packWord _ _ _ _
theorem encode (ca cb : BitVec 4) : Statement (.encode ca cb) := opField_packWord _ _ _ _
theorem decode (ca cb : BitVec 4) : Statement (.decode ca cb) := opField_packWord _ _ _ _

end Sys2Proof.Laws.Opcode
end

