-- ==== Sys2Proof/Tests/Slice0.lean ====
section
/-! SUPPORT. The model's own tests: the checks of WellFormed, words written out from the encodings, one or two small
steps of each command with results from spec/95_test_vectors.md or worked out by hand from the rules, and for every
statement with hypotheses a state that meets them. -/

namespace Sys2Proof.Machine.Tests

open Sys2Proof Sys2Proof.Machine

/-! ## Well-formed commands: one ill-formed term for each check -/

theorem test_wf_good : Instr.wf 4 (.encode 0 3) = true := by decide
theorem test_wf_copen : Instr.wf 4 (.copen 4 .read) = false := by decide
theorem test_wf_cclose : Instr.wf 4 (.cclose 4) = false := by decide
theorem test_wf_crdbits : Instr.wf 4 (.crdbits 5) = false := by decide
theorem test_wf_cwrbits : Instr.wf 4 (.cwrbits 6) = false := by decide
theorem test_wf_crdbytes : Instr.wf 4 (.crdbytes 7) = false := by decide
theorem test_wf_cwrbytes : Instr.wf 4 (.cwrbytes 8) = false := by decide
theorem test_wf_cflush : Instr.wf 4 (.cflush 9) = false := by decide
theorem test_wf_cseekbits : Instr.wf 4 (.cseekbits 10) = false := by decide
theorem test_wf_ctell : Instr.wf 4 (.ctell 11) = false := by decide
theorem test_wf_chseek : Instr.wf 4 (.chseek 12) = false := by decide
theorem test_wf_hscan : Instr.wf 4 (.hscan 13) = false := by decide
theorem test_wf_twrite : Instr.wf 4 (.twrite 14) = false := by decide
theorem test_wf_tread : Instr.wf 4 (.tread 15) = false := by decide
theorem test_wf_encode_read : Instr.wf 4 (.encode 4 0) = false := by decide
theorem test_wf_encode_write : Instr.wf 4 (.encode 0 4) = false := by decide
theorem test_wf_decode_read : Instr.wf 4 (.decode 4 0) = false := by decide
theorem test_wf_decode_write : Instr.wf 4 (.decode 0 4) = false := by decide

/-! ## Words written out from the encodings (R90, R91, R93) -/

/-- The value with opcode `op`, cursors `ca` and `cb` and immediate `imm`, laid out by the arithmetic of R97. -/
def wordAt (op ca cb imm : Nat) : Nat := op * 2 ^ 24 + ca * 2 ^ 20 + cb * 2 ^ 16 + imm

theorem test_decode_system :
    decodeTableWord 32 (wordAt 0x00 0 0 0) = some .nop ∧ decodeTableWord 32 (wordAt 0x01 0 0 0) = some .srst ∧
    decodeTableWord 32 (wordAt 0x02 0 0 0xFFFF) = some (.cfgw 0xFFFF) := by decide

theorem test_decode_cursor :
    decodeTableWord 32 (wordAt 0x10 3 0 0) = some (.copen 3 .read) ∧
    decodeTableWord 32 (wordAt 0x10 2 0 1) = some (.copen 2 .write) ∧
    decodeTableWord 32 (wordAt 0x11 1 0 0) = some (.cclose 1) ∧
    decodeTableWord 32 (wordAt 0x12 1 0 0) = some (.crdbits 1) ∧
    decodeTableWord 32 (wordAt 0x13 1 0 0) = some (.cwrbits 1) ∧
    decodeTableWord 32 (wordAt 0x14 1 0 0) = some (.crdbytes 1) ∧
    decodeTableWord 32 (wordAt 0x15 1 0 0) = some (.cwrbytes 1) := by decide

theorem test_decode_cursor_move :
    decodeTableWord 32 (wordAt 0x16 2 0 0) = some (.cflush 2) ∧
    decodeTableWord 32 (wordAt 0x17 2 0 0) = some (.cseekbits 2) ∧
    decodeTableWord 32 (wordAt 0x18 2 0 0) = some (.ctell 2) ∧
    decodeTableWord 32 (wordAt 0x19 2 0 0) = some (.chseek 2) := by decide

theorem test_decode_histogram :
    decodeTableWord 32 (wordAt 0x20 0 0 0) = some .hclr ∧ decodeTableWord 32 (wordAt 0x21 3 0 0) = some (.hscan 3) ∧
    decodeTableWord 32 (wordAt 0x22 0 0 0) = some .frd ∧ decodeTableWord 32 (wordAt 0x23 0 0 0) = some .fwr := by
  decide

theorem test_decode_builder :
    decodeTableWord 32 (wordAt 0x30 0 0 0) = some .tbinit ∧ decodeTableWord 32 (wordAt 0x31 0 0 0) = some .tbins ∧
    decodeTableWord 32 (wordAt 0x32 0 0 0) = some .tbext ∧ decodeTableWord 32 (wordAt 0x33 0 0 0) = some .tbuild ∧
    decodeTableWord 32 (wordAt 0x34 0 0 0) = some .nrd := by decide

theorem test_decode_codes :
    decodeTableWord 32 (wordAt 0x40 0 0 0) = some .ctbuild ∧ decodeTableWord 32 (wordAt 0x41 0 0 0) = some .ctrd := by
  decide

theorem test_decode_codec :
    decodeTableWord 32 (wordAt 0x50 1 0 0) = some (.twrite 1) ∧ decodeTableWord 32 (wordAt 0x51 1 0 0) = some (.tread 1) ∧
    decodeTableWord 32 (wordAt 0x60 0 1 0) = some (.encode 0 1) ∧
    decodeTableWord 32 (wordAt 0x61 2 3 0) = some (.decode 2 3) := by decide

theorem test_decode_refuses :
    decodeTableWord 32 (wordAt 0x35 0 0 0) = none ∧ decodeTableWord 32 (wordAt 0x10 0 0 2) = none ∧
    decodeTableWord 32 (wordAt 0x60 0 4 0) = none ∧ decodeTableWord 32 (wordAt 0x12 0 1 0) = none := by decide

/-- R94 item 3 with another `NCUR`. -/
theorem test_decode_ncur : decodeCmd 5 0x12400000 = .ok (.crdbits 4) ∧ decodeCmd 4 0x12400000 = .error .cursorNumber := by
  decide

/-! ## Small states -/

/-- A cursor open on a file, at its start. -/
def opened (m : Mode) (f : BitVec 16) (size : Nat) : Cursor :=
  { isOpen := true, mode := m, fid := f, fpos := 0, bufsz := size, buf := List.replicate size 0, byteP := 0, bitP := 0,
    valid := 0 }

/-- Two cursors, the others as after reset. -/
def twoCursors (c0 c1 : Cursor) : Vector Cursor Config.curSlots :=
  ((Vector.replicate Config.curSlots Cursor.reset).set 0 c0).set 1 c1

/-- Cursor 0 reads file 1, which holds `bytes`; cursor 1 writes file 2, which is empty; both with 2-byte buffers. -/
def pair (bytes : List Byte) : State :=
  { State.reset with
    cursors := twoCursors (opened .read 1 2) (opened .write 2 2)
    env := { par := Config.params, files := [(1, bytes), (2, [])], ioFail := [], freeIx := 0 } }

/-- A leaf of a 1-byte word. -/
def leaf8 (b : Byte) (f : BitVec 64) : Node := ⟨true, ⟨b, 0⟩, 8, f, none, none⟩

/-- The pool of the tree `(a, b)`, ROOT 2. -/
def poolAB : List Node := [leaf8 0x61 1, leaf8 0x62 2, ⟨false, ⟨0, 0⟩, 0, 3, some 0, some 1⟩]

/-- `pair` with the tree `(a, b)` and its codes. -/
def pairAB (bytes : List Byte) : State :=
  { pair bytes with nodes := poolAB, root := some 2, code := [(0x61, [false]), (0x62, [true])] }

/-- What a step answers, read through `f`. -/
def after {α : Type} (o : Host.Outcome State Fault Refusal) (f : State → α) : Option α :=
  match o with
  | .next t => some (f t)
  | _ => none

/-! ## One or two steps of each command -/

/-- R235, and R270: NOP clears the last error code but not STICKY. -/
theorem test_nop : after (exec .nop { State.reset with err := 18, einfo := 3, sticky := true, firstErr := 17 })
    (fun t => (t.err, t.einfo, t.sticky, t.firstErr)) = some (0, 0, true, 17) := by decide

/-- R236: SRST drops the open cursors and the recorded error. -/
theorem test_srst : after (exec .srst { pair [1] with a0 := 7, sticky := true, firstErr := 17 })
    (fun t => (t.a0, t.sticky, (t.cur 0).isOpen)) = some (0, false, false) := by decide
/-- R236: the store is not touched. -/
theorem test_srst_store : after (exec .srst (pair [1])) (fun t => t.env.files) = some [(1, [1]), (2, [])] := by decide

/-- R237: the example `CFGW 2`, and the operand 0. -/
theorem test_cfgw : after (exec (.cfgw 2) (pairAB [])) (fun t => (t.w, treeReg t, t.code)) =
    some (.two, 0x00000000FFFFFFFF, []) := by decide
theorem test_cfgw_zero : after (exec (.cfgw 0) (pairAB [])) (fun t => (t.err, t.einfo, t.root)) = some (17, 0, some 2) := by
  decide

/-- R128: the example: file 5, buffer 2, write. -/
theorem test_copen : after (exec (.copen 0 .write)
      { State.reset with a0 := 5, a1 := 2, env := { Env.initial with files := [(5, [9])] } })
    (fun t => (cstatReg (t.cur 0), (t.cur 0).bufsz, t.env.files)) = some (0x00050003, 2, [(5, [])]) := by decide
theorem test_copen_absent : after (exec (.copen 0 .read) { State.reset with a0 := 5, a1 := 2 })
    (fun t => (t.err, t.einfo)) = some (1, 0) := by decide

/-- V10: a partial byte is padded when the cursor is closed. -/
theorem test_cclose : after (exec (.cclose 1) { pair [] with
      cursors := (pair []).cursors.set 1 { opened .write 2 2 with fpos := 0, buf := [0xB8, 0x60], byteP := 1, bitP := 3 } })
    (fun t => ((t.cur 1).isOpen, (t.cur 1).fpos, t.env.files)) = some (false, 2, [(1, []), (2, [0xB8, 0x60])]) := by decide

/-- V11: `1011` then the old ones. -/
theorem test_crdbits : after (exec (.crdbits 0) { pair [0xB8, 0x79, 0x80] with a0 := 4, db := List.replicate 256 0xFF })
    (fun t => (t.a0, t.db.take 2, (t.cur 0).byteP, (t.cur 0).bitP, (t.cur 0).valid, (t.cur 0).fpos)) =
    some (4, [0xBF, 0xFF], 0, 4, 2, 2) := by decide
/-- V13: a count past DB. -/
theorem test_crdbits_range : after (exec (.crdbits 0) { pair [] with a0 := 2049 }) (fun t => (t.err, t.einfo, t.a0)) =
    some (17, 0, 2049) := by decide

/-- V10: bits 3 to 7 of `0x19` are `11001`. -/
theorem test_cwrbits : after (exec (.cwrbits 1) { pair [] with a0 := 5, a1 := 3, db := 0x19 :: List.replicate 255 0 })
    (fun t => ((t.cur 1).buf, (t.cur 1).byteP, (t.cur 1).bitP, absBitPos (t.cur 1))) = some ([0xC8, 0], 0, 5, 5) := by
  decide

/-- V76: the automatic flush of a full buffer is refused. -/
theorem test_cwrbits_refused : after (exec (.cwrbits 1) { pair [] with
      a0 := 1
      cursors := (pair []).cursors.set 1 { opened .write 2 2 with buf := [0xB8, 0x79], byteP := 2 }
      env := { par := Config.params, files := [(2, [])], ioFail := [true], freeIx := 0 } })
    (fun t => (t.err, t.env.files, absBitPos (t.cur 1), (t.cur 1).buf)) = some (1, [(2, [])], 16, [0xB8, 0x79]) := by decide

/-- R132: the result counts bits. -/
theorem test_crdbytes : after (exec (.crdbytes 0) { pair [0x12, 0x34, 0x56] with a0 := 3 })
    (fun t => (t.a0, t.db.take 4)) = some (24, [0x12, 0x34, 0x56, 0]) := by decide

/-- R133: A1 is ignored; three bytes into a 2-byte buffer make one flush. -/
theorem test_cwrbytes : after (exec (.cwrbytes 1)
      { pair [] with a0 := 3, a1 := 77, db := 0x48 :: 0x49 :: 0x4A :: List.replicate 253 0 })
    (fun t => (t.env.files, (t.cur 1).fpos, (t.cur 1).byteP, (t.cur 1).buf.head?)) =
    some ([(1, []), (2, [0x48, 0x49])], 2, 1, some 0x4A) := by decide

/-- V10: a flush at bit 17. -/
theorem test_cflush : after (exec (.cflush 1) { pair [] with
      cursors := (pair []).cursors.set 1 { opened .write 2 2 with fpos := 2, buf := [0x80, 0x79], byteP := 0, bitP := 1 }
      env := { par := Config.params, files := [(2, [0xB8, 0x79])], ioFail := [], freeIx := 0 } })
    (fun t => (t.env.files, (t.cur 1).fpos, absBitPos (t.cur 1))) = some ([(2, [0xB8, 0x79, 0x80])], 3, 24) := by decide

/-- V12: a seek to bit 11. -/
theorem test_cseekbits : after (exec (.cseekbits 0) { pair [0xB8, 0x79, 0x80] with a0 := 11 })
    (fun t => ((t.cur 0).buf, (t.cur 0).valid, (t.cur 0).fpos, (t.cur 0).byteP, (t.cur 0).bitP)) =
    some ([0x79, 0x80], 2, 3, 0, 3) := by decide
/-- V14: a seek to the last legal bit address. -/
theorem test_cseekbits_end : after (exec (.cseekbits 0) { pair [0xB8] with a0 := 0xFFFFFFFFFFFFFFFF })
    (fun t => ((t.cur 0).fpos, (t.cur 0).valid, absBitPos (t.cur 0))) =
    some (2305843009213693951, 0, 18446744073709551615) := by decide

/-- R137: a read cursor's position counts from its fill. -/
theorem test_ctell : after (exec (.ctell 0) { pair [1, 2, 3] with
      cursors := (pair []).cursors.set 0 { opened .read 1 2 with fpos := 3, valid := 2, byteP := 1, bitP := 1 } })
    (fun t => t.a0) = some 17 := by decide

/-- V15: the end of the file is legal, one byte beyond it is not. -/
theorem test_chseek : after (exec (.chseek 1) { pair [] with a0 := 0 }) (fun t => (t.err, (t.cur 1).fpos)) = some (0, 0) := by
  decide
theorem test_chseek_beyond : after (exec (.chseek 1) { pair [] with a0 := 1 }) (fun t => (t.err, t.einfo)) = some (6, 1) := by
  decide

/-- R151. -/
theorem test_hclr : after (exec .hclr { State.reset with freq := [(3, 5)], tail := ⟨true, ⟨1, 0⟩, 7⟩ })
    (fun t => (t.freq, t.tail)) = some ([], ⟨false, ⟨0, 0⟩, 0⟩) := by decide

/-- R152: `aba` in one-byte words. -/
theorem test_hscan : after (exec (.hscan 0) (pair [0x61, 0x62, 0x61])) (fun t => (t.a0, t.a1, t.freq)) =
    some (3, 0, [(0x61, 2), (0x62, 1)]) := by decide
/-- R152, R66: `aba` in two-byte words: one full word with slot `0x6261`, and a tail of 8 bits. -/
theorem test_hscan_tail : after (exec (.hscan 0) { pair [0x61, 0x62, 0x61] with w := .two })
    (fun t => (t.a0, t.a1, t.freq, t.tail)) =
    some (1, 8, [(0x6261, 1), (65536, 1)], ⟨true, ⟨0x61, 0⟩, 8⟩) := by decide

/-- R153. -/
theorem test_frd : after (exec .frd { State.reset with a0 := 3, freq := [(3, 5)] }) (fun t => t.a0) = some 5 := by decide
theorem test_frd_range : after (exec .frd { State.reset with a0 := 257 }) (fun t => (t.err, t.a0)) = some (17, 257) := by
  decide

/-- R154: the example, a 3-bit tail `101` of frequency 1. -/
theorem test_fwr : after (exec .fwr { State.reset with w := .two, a0 := 65536, a1 := 1, a2 := 0x000300A0 })
    (fun t => (t.freq, t.tail)) = some ([(65536, 1)], ⟨true, ⟨0xA0, 0⟩, 3⟩) := by decide
theorem test_fwr_unused : after (exec .fwr { State.reset with w := .two, a0 := 65536, a1 := 1, a2 := 0x000200A0 })
    (fun t => (t.err, t.einfo, t.freq)) = some (17, 1, []) := by decide

/-- R168. -/
theorem test_tbinit : after (exec .tbinit (pairAB [])) (fun t => (t.nodes, t.root, t.heap, t.code.length)) =
    some ([], none, [], 2) := by decide

/-- R169: the leaf `a` takes the slot's frequency. -/
theorem test_tbins : after (exec .tbins { State.reset with a0 := 0x61, freq := [(0x61, 5)] })
    (fun t => (t.nodes, t.heap)) = some ([leaf8 0x61 5], [0]) := by decide
theorem test_tbins_tail : after (exec .tbins { State.reset with a0 := 256 }) (fun t => (t.err, t.einfo)) = some (17, 2) := by
  decide

/-- R171: the last two merges of the trace of `abracadabra`. -/
theorem test_tbext : after (exec .tbext { State.reset with
      nodes := [leaf8 0x61 5, leaf8 0x62 2, leaf8 0x63 4], heap := [1, 0, 2] })
    (fun t => (t.root, t.heap, t.nodes.drop 3)) =
    some (some 4, [], [⟨false, ⟨0, 0⟩, 0, 6, some 1, some 2⟩, ⟨false, ⟨0, 0⟩, 0, 11, some 0, some 3⟩]) := by decide
/-- V36: `2^63` and `2^63`. -/
theorem test_tbext_overflow : after (exec .tbext { State.reset with
      nodes := [leaf8 0x61 0x8000000000000000, leaf8 0x62 0x8000000000000000], heap := [0, 1] })
    (fun t => (t.err, t.root, t.nodes)) = some (21, none, []) := by decide

/-- V32: four leaves of frequency 1 merge as (A, D), (C, B), ((A, D), (C, B)). -/
theorem test_tbuild : after (exec .tbuild { State.reset with freq := [(1, 1), (2, 1), (3, 1), (4, 1)] })
    (fun t => (t.root, (t.nodes.drop 4).map fun n => (n.left, n.right))) =
    some (some 6, [(some 0, some 3), (some 2, some 1), (some 4, some 5)]) := by decide
theorem test_tbuild_empty : after (exec .tbuild (pairAB [])) (fun t => (t.err, t.root, t.nodes)) = some (20, none, []) := by
  decide

/-- R176: a leaf and an internal node. -/
theorem test_nrd : after (exec .nrd { State.reset with nodes := [leaf8 0x61 5] })
    (fun t => (t.a0, t.a1, t.a2, t.a3)) = some (0x00610801, 5, 0xFFFFFFFF, 0xFFFFFFFF) := by decide
theorem test_nrd_inner : after (exec .nrd { pairAB [] with a0 := 2 }) (fun t => (t.a0, t.a1, t.a2, t.a3)) =
    some (0, 3, 0, 1) := by decide

/-- R191. -/
theorem test_ctbuild : after (exec .ctbuild { pairAB [] with code := [] }) (fun t => t.code) =
    some [(0x61, [false]), (0x62, [true])] := by decide
/-- V41: a leaf root. -/
theorem test_ctbuild_leaf : after (exec .ctbuild { State.reset with nodes := [leaf8 0x61 4], root := some 0 })
    (fun t => t.code) = some [(0x61, [false])] := by decide

/-- R193: a window from pattern bit 1. -/
theorem test_ctrd : after (exec .ctrd { State.reset with a0 := 0x63, a1 := 1, code := [(0x63, [true, true, true, false])] })
    (fun t => (t.a0, t.a1, t.db.head?)) = some (4, 3, some 0xC0) := by decide

/-- R100: `0`, `1 0 01100001`, `1 0 01100010`: 21 bits. -/
theorem test_twrite : after (exec (.twrite 1) (pairAB [])) (fun t => (t.a0, t.env.files, (t.cur 1).buf.head?)) =
    some (21, [(1, []), (2, [0x4C, 0x33])], some 0x10) := by decide

/-- R208: the stream of `test_twrite`, read back. -/
theorem test_tread : after (exec (.tread 0) { pair [0x4C, 0x33, 0x10] with a0 := 21 })
    (fun t => (t.a0, t.root, t.nodes)) =
    some (21, some 0, [⟨false, ⟨0, 0⟩, 0, 0, some 1, some 2⟩, leaf8 0x61 0, leaf8 0x62 0]) := by decide
/-- R208: a declared size of 20. -/
theorem test_tread_bound : after (exec (.tread 0) { pair [0x4C, 0x33, 0x10] with a0 := 20 })
    (fun t => (t.err, t.einfo, t.root, t.nodes, t.a0)) = some (3, 1, none, [], 20) := by decide

/-- R221: `abb` with a = `0`, b = `1`. -/
theorem test_encode : after (exec (.encode 0 1) (pairAB [0x61, 0x62, 0x62]))
    (fun t => (t.a0, (t.cur 1).buf.head?, absBitPos (t.cur 1))) = some (3, some 0x60, 3) := by decide
theorem test_encode_no_code : after (exec (.encode 0 1) (pairAB [0x61, 0x63])) (fun t => (t.err, t.einfo)) =
    some (19, 0x63) := by decide

/-- R223: the three bits `011`. -/
theorem test_decode : after (exec (.decode 0 1) { pairAB [0x60] with a0 := 3 })
    (fun t => (t.a0, t.a1, t.env.files)) = some (3, 0, [(1, [0x60]), (2, [0x61, 0x62])]) := by decide
/-- V62: a `1` with a leaf root. -/
theorem test_decode_leaf_root : after (exec (.decode 0 1)
      { pair [0x40] with a0 := 3, nodes := [leaf8 0x61 4], root := some 0 })
    (fun t => (t.err, t.einfo, (t.cur 1).buf.head?, t.a0)) = some (3, 3, some 0x61, 3) := by decide

/-- R276: an unassigned opcode written to CMD. -/
theorem test_illegal : after (step { State.reset with inbox := [.write 0 0x03000000] })
    (fun t => (t.err, t.einfo, t.firstErr)) = some (16, 0x03000000, 16) := by decide

/-- R40: a read of TREE after reset. -/
theorem test_read_tree : after (step { State.reset with inbox := [.read 0x040] }) (fun t => t.seen) =
    some (.reg 0x00000000FFFFFFFF) := by decide

/-! ## States that meet the hypotheses of the statements -/

/-- A cursor of `pair` satisfies its invariant. -/
theorem opened_inv {e : Env} (d : Mode) (f : BitVec 16) (hp : 2 ≤ e.par.bufMax) (h : (e.file f).isSome = true) :
    CursorInv e (opened d f 2) :=
  ⟨by show 1 ≤ 2; decide, hp, rfl, by show 0 < 2 ^ 61; decide, fun _ => Nat.zero_le _, Nat.zero_le _, Nat.zero_le _,
    fun _ => ⟨Nat.le_refl _, Nat.le_refl _⟩, fun _ h => absurd h (by show ¬ (0 : Nat) = 2; decide),
    fun _ h => absurd rfl h, h⟩

theorem leaf8_inv (len : Nat) (b : Byte) (f : BitVec 64) : NodeInv .one len (leaf8 b f) :=
  ⟨fun _ => ⟨by show 8 ≤ 8; decide, (by decide : ∀ x : Byte, wordClear ⟨x, 0⟩ 8 = true) b, rfl, rfl⟩,
    fun h => absurd h Bool.noConfusion⟩

theorem poolAB_inv : ∀ n ∈ poolAB, NodeInv .one 3 n := by
  intro n hn
  simp only [poolAB, List.mem_cons, List.not_mem_nil, or_false] at hn
  rcases hn with rfl | rfl | rfl
  · exact leaf8_inv 3 _ _
  · exact leaf8_inv 3 _ _
  · exact ⟨fun h => absurd h Bool.noConfusion, fun _ => ⟨rfl, rfl, 0, 1, rfl, rfl, by decide, by decide⟩⟩

/-- The invariant of the states below: cursors as in `pair`, one-byte words. -/
theorem inv_of {s : State} {c0 c1 : Cursor} (hpar : s.env.par.ok = true ∧ s.env.par.dbBytes = 256)
    (hm : Memory.wf s.env.par s.env.files = true) (hc : s.cursors = twoCursors c0 c1) (h0 : CursorInv s.env c0)
    (h1 : CursorInv s.env c1) (hdb : s.db = List.replicate 256 0) (hw : s.w = .one) (hf : freqOk .one s.freq = true)
    (ht : s.tail = Tail.none) (hb : tableGet s.freq 256 = none) (hcode : codeOk .one s.code = true)
    (hn : s.nodes.length ≤ 513) (hp : ∀ n ∈ s.nodes, NodeInv .one s.nodes.length n)
    (hh : (s.heap.all fun n => treeOk s.nodes s.nodes.length n) = true) (hl : s.heap.length ≤ 9)
    (hr : ∀ r, s.root = some r → treeOk s.nodes s.nodes.length r = true)
    (hs : s.err = 0 ∧ s.sticky = false ∧ s.firstErr = 0) : Inv s where
  params := hpar.1
  memory := hm
  cursors k := by
    have e : s.cur k = if k.val = 1 then c1 else if k.val = 0 then c0 else Cursor.reset := by
      unfold State.cur
      rw [hc]
      show (((Vector.replicate Config.curSlots Cursor.reset).set 0 c0).set 1 c1)[k.val] = _
      rw [Vector.getElem_set, Vector.getElem_set, Vector.getElem_replicate]
      simp only [eq_comm]
    rw [e]
    split
    · exact fun _ => h1
    · split
      · exact fun _ => h0
      · exact fun h => absurd h Bool.noConfusion
  db := by rw [hdb, hpar.2, List.length_replicate]
  freq := by rw [hw]; exact hf
  tail := by rw [hw, ht]; decide
  bucket h := absurd (by unfold State.freqAt freqGet State.tailIdx; rw [hw]; show (tableGet s.freq 256).getD 0 = 0
                         rw [hb]; rfl) h
  code := by rw [hw]; exact hcode
  poolCap := by rw [hw]; exact Nat.le_trans hn (by decide)
  pool := by rw [hw]; exact hp
  heapCap := by rw [hw]; exact Nat.le_trans hl (by decide)
  heap := by simpa using hh
  root := hr
  status := by rw [hs.1, hs.2.1, hs.2.2]; simp

/-- A stream for cursor 0 to read, the tree `(a, b)` with its codes and its histogram, a sink, and an operand in A0. -/
def work (bytes : List Byte) (n : Reg) : State := { pairAB bytes with freq := [(0x61, 1), (0x62, 2)], a0 := n }

theorem work_inv (bytes : List Byte) (n : Reg) (h : bytes.length ≤ 100) : Inv (work bytes n) :=
  inv_of ⟨rfl, rfl⟩ (by
      have : bytes.length ≤ Config.params.maxFileBytes := Nat.le_trans h (by decide)
      simpa [work, pairAB, pair, Memory.wf, tableRises, Config.params] using this)
    rfl (opened_inv .read 1 (by show 2 ≤ 4096; decide) rfl)
    (opened_inv .write 2 (by show 2 ≤ 4096; decide) rfl) rfl rfl rfl rfl rfl rfl (by show 3 ≤ 513; decide) poolAB_inv rfl
    (by show 0 ≤ 9; decide) (fun r h => by cases h; rfl) ⟨rfl, rfl, rfl⟩

theorem work_readable (bytes : List Byte) (n : Reg) (h : bytes.length ≤ 100) : Readable (work bytes n) 0 :=
  ⟨work_inv bytes n h, rfl, rfl, fun _ hb => absurd hb List.not_mem_nil⟩

theorem work_writable (bytes : List Byte) (n : Reg) (h : bytes.length ≤ 100) {m : Nat} (hm : m ≤ 2048) :
    Writable (work bytes n) 1 m :=
  ⟨work_inv bytes n h, rfl, rfl, Nat.zero_le _, fun _ hb => absurd hb List.not_mem_nil, by
    show 0 + m ≤ _
    exact Nat.le_trans (by omega) (by decide : 2048 ≤ 8 * Config.params.maxFileBytes)⟩

/-- Two leaves in the heap and no tree. -/
def heaped : State := { pair [] with nodes := [leaf8 0x61 1, leaf8 0x62 2], heap := [0, 1] }

theorem heaped_inv : Inv heaped :=
  inv_of (by decide) (by decide) rfl (opened_inv .read 1 (by decide) (by decide))
    (opened_inv .write 2 (by decide) (by decide)) rfl rfl (by decide) rfl
    (by decide) (by decide) (by decide)
    (fun n hn => by
      simp only [heaped, List.mem_cons, List.not_mem_nil, or_false] at hn
      rcases hn with rfl | rfl <;> exact leaf8_inv 2 _ _)
    (by decide) (by decide) (fun r h => by cases h) ⟨rfl, rfl, rfl⟩

theorem heaped_ordered : heapOrdered (freqOf heaped.nodes) heaped.heap := by
  intro i h0 h1
  have : i = 1 := by have : heaped.heap.length = 2 := rfl; omega
  subst this; decide

/-- `heaped` with frequencies whose sum is `2^64`. -/
def heavy : State := { heaped with nodes := [leaf8 0x61 0x8000000000000000, leaf8 0x62 0x8000000000000000] }

theorem heavy_inv : Inv heavy :=
  inv_of (by decide) (by decide) rfl (opened_inv .read 1 (by decide) rfl)
    (opened_inv .write 2 (by decide) rfl) rfl rfl rfl rfl rfl rfl (by decide)
    (fun n hn => by
      simp only [heavy, List.mem_cons, List.not_mem_nil, or_false] at hn
      rcases hn with rfl | rfl <;> exact leaf8_inv 2 _ _)
    rfl (by decide) (fun r h => by cases h) ⟨rfl, rfl, rfl⟩

/-- `heaped` with a full pool. -/
def full : State := { heaped with nodes := List.replicate 513 (leaf8 0x61 1) }

theorem full_tree (n : Nat) (h : n < 513) : treeOk full.nodes 513 n = true := by
  have e : nodeAt full.nodes n = leaf8 0x61 1 := by
    unfold nodeAt full
    rw [List.getD_eq_getElem?_getD, List.getElem?_replicate_of_lt h]; rfl
  have l : full.nodes.length = 513 := List.length_replicate
  unfold treeOk
  rw [e, l]
  simp [h, leaf8]

theorem full_inv : Inv full :=
  inv_of (by decide) (by decide) rfl (opened_inv .read 1 (by decide) rfl)
    (opened_inv .write 2 (by decide) rfl) rfl rfl rfl rfl rfl rfl
    (by show (List.replicate 513 _).length ≤ 513; rw [List.length_replicate])
    (fun n hn => by rw [(List.mem_replicate.1 hn).2]; exact leaf8_inv _ _ _)
    (by
      have l : full.nodes.length = 513 := List.length_replicate
      rw [l]
      show (treeOk full.nodes 513 0 && (treeOk full.nodes 513 1 && true)) = true
      rw [full_tree 0 (by decide), full_tree 1 (by decide)]; rfl)
    (by decide) (fun r h => by cases h) ⟨rfl, rfl, rfl⟩

/-- A leaf root, and payload bits to read: `00` and then `1`. -/
def leafRoot (n : Reg) : State := { pair [0x20] with nodes := [leaf8 0x61 4], root := some 0, a0 := n }

theorem leafRoot_inv (n : Reg) : Inv (leafRoot n) :=
  inv_of ⟨rfl, rfl⟩ (by rfl) rfl (opened_inv .read 1 (by show 2 ≤ 4096; decide) rfl)
    (opened_inv .write 2 (by show 2 ≤ 4096; decide) rfl) rfl rfl rfl rfl rfl rfl (by show 1 ≤ 513; decide)
    (fun m hm => by
      simp only [leafRoot, List.mem_cons, List.not_mem_nil, or_false] at hm
      subst hm; exact leaf8_inv 1 _ _)
    rfl (by show 0 ≤ 9; decide) (fun r h => by cases h; rfl) ⟨rfl, rfl, rfl⟩

/-- A tree with two leaves of one word. -/
def twins : State := { pairAB [] with nodes := [leaf8 0x61 1, leaf8 0x61 2, ⟨false, ⟨0, 0⟩, 0, 3, some 0, some 1⟩] }

theorem twins_inv : Inv twins :=
  inv_of (by decide) (by decide) rfl (opened_inv .read 1 (by decide) rfl)
    (opened_inv .write 2 (by decide) rfl) rfl rfl rfl rfl rfl rfl (by decide)
    (fun n hn => by
      simp only [twins, List.mem_cons, List.not_mem_nil, or_false] at hn
      rcases hn with rfl | rfl | rfl
      · exact leaf8_inv 3 _ _
      · exact leaf8_inv 3 _ _
      · exact ⟨fun h => absurd h Bool.noConfusion, fun _ => ⟨rfl, rfl, 0, 1, rfl, rfl, by decide, by decide⟩⟩)
    rfl (by decide) (fun r h => by cases h; rfl) ⟨rfl, rfl, rfl⟩

/-- A write cursor with one byte and three bits in its buffer, at byte `p` of its file; the answers of `IO_FAIL`. -/
def buffered (p : Nat) (fails : List Bool) : State :=
  { pair [] with
    cursors := twoCursors (opened .read 1 2)
      { opened .write 2 2 with fpos := p, buf := [0xB8, 0x60], byteP := 1, bitP := 3 }
    env := { par := Config.params, files := [(1, []), (2, [])], ioFail := fails, freeIx := 0 } }

theorem buffered_inv (p : Nat) (fails : List Bool) (h : p ≤ Config.params.maxFileBytes) : Inv (buffered p fails) :=
  inv_of ⟨rfl, rfl⟩ (by rfl) rfl (opened_inv .read 1 (by show 2 ≤ 4096; decide) rfl)
    ⟨by show 1 ≤ 2; decide, by show 2 ≤ 4096; decide, rfl, Nat.lt_of_le_of_lt h (by decide), fun _ => h,
      by show 1 ≤ 2; decide, by show 0 ≤ 2; decide,
      fun hm => absurd hm (by show ¬ Mode.write = Mode.read; decide), fun _ he => absurd he (by show ¬ 1 = 2; decide),
      fun _ _ j h1 h2 => (by decide : ∀ j, j < 8 → 3 ≤ j → byteBit 0x60 j = false) j h2 h1, rfl⟩
    rfl rfl rfl rfl rfl rfl (by show 0 ≤ 513; decide) (fun _ hn => absurd hn List.not_mem_nil) rfl
    (by show 0 ≤ 9; decide) (fun r hr => by cases hr) ⟨rfl, rfl, rfl⟩

theorem buffered_writable : Writable (buffered 0 []) 1 0 :=
  ⟨buffered_inv 0 [] (Nat.zero_le _), rfl, rfl, Nat.zero_le _, fun _ hb => absurd hb List.not_mem_nil, by
    show 8 * (0 + 1) + 3 + 0 ≤ _
    decide⟩

/-- A read cursor at bit 3 of the byte `0xB8`. -/
def midByte : State :=
  { pair [0xB8] with
    cursors := twoCursors { opened .read 1 2 with fpos := 1, buf := [0xB8, 0], valid := 1, bitP := 3 } (opened .write 2 2) }

theorem midByte_inv : Inv midByte :=
  inv_of (by decide) (by decide) rfl
    ⟨by show 1 ≤ 2; decide, by show 2 ≤ 4096; decide, rfl, by show 1 < 2 ^ 61; decide,
      fun hm => absurd hm (by show ¬ Mode.read = Mode.write; decide),
      by show 0 ≤ 2; decide, by show 1 ≤ 2; decide, fun _ => ⟨by show 0 ≤ 1; decide, by show 1 ≤ 1; decide⟩,
      fun hm => absurd hm (by show ¬ Mode.read = Mode.write; decide),
      fun hm => absurd hm (by show ¬ Mode.read = Mode.write; decide), rfl⟩
    (opened_inv .write 2 (by decide) rfl) rfl rfl rfl rfl rfl rfl (by show 0 ≤ 513; decide)
    (fun _ hn => absurd hn List.not_mem_nil) rfl (by show 0 ≤ 9; decide) (fun r hr => by cases hr) ⟨rfl, rfl, rfl⟩

theorem midByte_readable : Readable midByte 0 := ⟨midByte_inv, rfl, rfl, fun _ hb => absurd hb List.not_mem_nil⟩

/-- The state with these answers of `IO_FAIL` to come. -/
def withAnswers (s : State) (fails : List Bool) : State := { s with env := { s.env with ioFail := fails } }

theorem withAnswers_inv {s : State} (i : Inv s) (fails : List Bool) : Inv (withAnswers s fails) :=
  ⟨i.params, i.memory, fun k hk =>
    have c := i.cursors k hk
    ⟨c.sizePos, c.sizeMax, c.bufLen, c.fposMax, c.fposWrite, c.byteLe, c.validLe, c.readPos, c.writePos, c.padZero,
      c.filePresent⟩,
    i.db, i.freq, i.tail, i.bucket, i.code, i.poolCap, i.pool, i.heapCap, i.heap, i.root, i.status⟩

/-- `work` on a block with other parameters. -/
def workWith (p : Params) (bytes : List Byte) (n : Reg) : State :=
  { work bytes n with env := { (work bytes n).env with par := p } }

/-- A block with few file identifiers and small files. -/
def small : Params := { Config.params with nfid := 4, maxFileBytes := 1 }

theorem workWith_small_inv (n : Reg) : Inv (workWith small [] n) :=
  inv_of ⟨rfl, rfl⟩ (by rfl) rfl (opened_inv .read 1 (by show 2 ≤ 4096; decide) rfl)
    (opened_inv .write 2 (by show 2 ≤ 4096; decide) rfl) rfl rfl rfl rfl
    rfl rfl (by show 3 ≤ 513; decide) poolAB_inv rfl (by show 0 ≤ 9; decide) (fun r h => by cases h; rfl) ⟨rfl, rfl, rfl⟩

/-- The state with one act of the host to come. -/
def withAct (s : State) (e : HostEvent) : State := { s with inbox := [e] }

theorem withAct_inv {s : State} (i : Inv s) (e : HostEvent) : Inv (withAct s e) :=
  ⟨i.params, i.memory, i.cursors, i.db, i.freq, i.tail, i.bucket, i.code, i.poolCap, i.pool, i.heapCap, i.heap,
    i.root, i.status⟩

theorem work_owned (bytes : List Byte) (n : Reg) : Owned (work bytes n) :=
  ⟨fun r h => by cases h; show [2, 0, 1].Nodup; decide, by show ([] : List Nat).Nodup; decide⟩

/-- `after`, as a fact about the next state. -/
theorem after_some {α : Type} {o : Host.Outcome State Fault Refusal} {f : State → α} {a : α} (h : after o f = some a) :
    ∃ t, o = .next t ∧ f t = a := by
  cases o with
  | next t => exact ⟨t, rfl, Option.some.inj h⟩
  | fault r => exact absurd h (by simp [after])
  | refused r => exact absurd h (by simp [after])

/-! ## The witnesses, in the order of the statements -/

theorem witness_DecoderFollowsTable : decodeCmd 4 0x60010000 = .ok (.encode 0 1) ∧
    ∃ r ∈ opcodeTable, r.selects ((0x60010000 : Reg).extractLsb' 0 32) = true := by decide

theorem witness_DecoderFollowsTable_row : ∃ r ∈ opcodeTable, r.selects 0x10200001 = true := by decide

theorem witness_DecodeEncode : Instr.wf 4 (.copen 3 .write) = true ∧ Instr.wf 4 (.cfgw 0xFFFF) = true := by decide

theorem witness_EncodeDecode : decodeCmd 4 0x0200FFFF = .ok (.cfgw 0xFFFF) := by decide

theorem witness_StepRunsCommand :
    ∃ (s : State) (v : Reg) (rest : _) (i : Instr), s.inbox = .write 0x000 v :: rest ∧ decodeCmd s.env.par.ncur v = .ok i :=
  ⟨withAct State.reset (.write 0 0x33000000), 0x33000000, [], .tbuild, rfl, by decide⟩

theorem witness_StepRunsCommand_word : decodeCmd State.reset.env.par.ncur ((0x33000000 : BitVec 32).setWidth 64) = .ok .tbuild ∧
    State.reset.inbox = [] := by decide

theorem witness_IllegalCommand :
    ∃ (s : State) (v : Reg) (rest : _), s.inbox = .write 0x000 v :: rest ∧ ¬ legalCmd s.env.par.ncur v :=
  ⟨withAct State.reset (.write 0 0x03000000), 0x03000000, [], rfl, by unfold legalCmd selectsLegally; decide⟩

theorem witness_IllegalCommand_ways : ¬ legalCmd 4 0x100000000 ∧ ¬ legalCmd 4 0x00000001 ∧ ¬ legalCmd 4 0x12400000 ∧
    ¬ legalCmd 4 0x60040000 := by unfold legalCmd selectsLegally; decide

theorem witness_ResetValues :
    ∃ (s : State) (rest : _), s.inbox = .reset :: rest := ⟨withAct (work [] 0) .reset, [], rfl⟩

theorem witness_StepKeepsInv : ∃ (s : State) (t : State), Inv s ∧ step s = .next t ∧ t.root = none :=
  ⟨_, _, withAct_inv (work_inv [] 0 (by decide)) (.write 0 0x30000000), rfl, rfl⟩

theorem witness_CommandAlwaysEnds : ∃ (s : State), Inv s ∧ s.root = some 2 := ⟨_, work_inv [] 0 (by decide), rfl⟩

theorem witness_HeapStaysOrdered :
    ∃ (s : State) (t : State), Inv s ∧ heapOrdered (freqOf s.nodes) s.heap ∧ s.heap = [0, 1] ∧
    step s = .next t :=
  ⟨withAct heaped (.write 0 0x32000000), _, withAct_inv heaped_inv _, heaped_ordered, rfl, rfl⟩

theorem witness_TreesStayOwned :
    ∃ (s : State) (t : State), Inv s ∧ Owned s ∧ codesShort s ∧ s.code ≠ [] ∧ step s = .next t :=
  ⟨work [] 0, _, work_inv [] 0 (by decide), work_owned [] 0, by
    intro p hp
    simp only [work, pairAB, List.mem_cons, List.not_mem_nil, or_false] at hp
    rcases hp with rfl | rfl <;> decide, by decide, rfl⟩

theorem witness_CodesStayShort :
    ∃ (s : State) (t : State), Inv s ∧ Owned s ∧ codesShort s ∧ step s = .next t :=
  let ⟨s, t, i, o, c, _, h⟩ := witness_TreesStayOwned
  ⟨s, t, i, o, c, h⟩

theorem witness_EndOfCommand : (∃ (t : State), exec .nop State.reset = .next t ∧ t.err = 0) ∧
    ∃ (t : State), exec .ctbuild State.reset = .next t ∧ t.err ≠ 0 := ⟨⟨_, rfl, rfl⟩, ⟨_, rfl, by decide⟩⟩

theorem witness_ErrorsOfCommand :
    ∃ (s : State) (t : State), Inv s ∧ Instr.wf 4 .frd = true ∧ exec .frd s = .next t ∧ t.err ≠ 0 :=
  ⟨work [] 257, _, work_inv [] 257 (by decide), rfl, rfl, by decide⟩

theorem witness_FailureFrees_tbext : ∃ (s : State) (t : State), Inv s ∧ exec .tbext s = .next t ∧ t.err = 21 :=
  let ⟨t, h, e⟩ := after_some (by decide : after (exec .tbext heavy) (fun t => t.err) = some 21)
  ⟨heavy, t, heavy_inv, h, e⟩

theorem witness_FailureFrees_tbuild : ∃ (s : State) (t : State), Inv s ∧ exec .tbuild s = .next t ∧ t.err = 20 :=
  let ⟨t, h, e⟩ := after_some (by decide : after (exec .tbuild twins) (fun t => t.err) = some 20)
  ⟨twins, t, twins_inv, h, e⟩

theorem witness_FailureFrees_tread :
    ∃ (s : State) (t : State), Inv s ∧ cursorNoOk s.env.par.ncur 0 = true ∧ exec (.tread 0) s = .next t ∧ t.err = 3 :=
  let ⟨t, h, e⟩ := after_some (by decide : after (exec (.tread 0) (work [0x4C] 1)) (fun t => t.err) = some 3)
  ⟨work [0x4C] 1, t, work_inv _ _ (by decide), by decide, h, e⟩

theorem witness_FailureFrees_ctbuild : ∃ (s : State) (t : State), Inv s ∧ exec .ctbuild s = .next t ∧ t.err = 3 :=
  let ⟨t, h, e⟩ := after_some (by decide : after (exec .ctbuild twins) (fun t => t.err) = some 3)
  ⟨twins, t, twins_inv, h, e⟩

theorem witness_CursorChecks : (pair []).cursorOf? 3 = some 3 ∧ ((pair []).cur 3).isOpen = false ∧
    ((pair []).cur 0).isOpen = true ∧ ((pair []).cur 0).mode = .read ∧ ((pair []).cur 1).isOpen = true ∧
    ((pair []).cur 1).mode = .write := by decide

theorem witness_FailedFlush :
    ∃ (s : State), Inv s ∧ s.cursorOf? 1 = some 1 ∧ (s.cur 1).isOpen = true ∧ (s.cur 1).mode = .write ∧
    pendingBytes (s.cur 1) ≠ 0 ∧ s.env.ioAnswer = true :=
  ⟨buffered 0 [true], buffered_inv 0 [true] (by decide), by decide, rfl, rfl, by decide, rfl⟩

theorem witness_FailedFlush_size : ∃ (s : State), Inv s ∧ pendingBytes (s.cur 1) ≠ 0 ∧
    s.env.par.maxFileBytes < (s.cur 1).fpos + pendingBytes (s.cur 1) :=
  ⟨buffered (Config.params.maxFileBytes - 1) [], buffered_inv _ [] (by decide), by decide, by decide⟩

/-- Fill 0 delivers 16 bits, fill 1 is refused, and the stream goes on. -/
theorem fillRefused_work (bytes : List Byte) (n : Reg) (h : bytes.length ≤ 100)
    (hl : 16 < (pending ((withAnswers (work bytes n) [false, true]).chan 0)).length) :
    FillRefused (withAnswers (work bytes n) [false, true]) 0 1 :=
  ⟨withAnswers_inv (work_inv bytes n h) _, rfl, rfl, fun b hb => by
    have e : b ∈ [false] := hb
    simpa using e, rfl, hl⟩

theorem witness_RefusedFill : ∃ s : State, s.cursorOf? 0 = some 0 ∧ FillRefused s 0 1 ∧
    s.a0.toNat ≤ 8 * s.env.par.dbBytes ∧ bitsBeforeFill (s.cur 0) 1 < s.a0.toNat :=
  ⟨withAnswers (work [1, 2, 3] 17) [false, true], by decide, fillRefused_work _ _ (by decide) (by decide), by decide⟩

/-- The tree `(a, b)` as the tree stream describes it. -/
def treeAB : PrefixTree := .inner (.leaf (byteBits 0x61)) (.leaf (byteBits 0x62))

theorem witness_RefusedFill_tread : ∃ (s : State) (bits rest : Bits), FillRefused s 0 1 ∧ treeAB.ok s.w = true ∧
    (treeAB.nodeFields s.w).length ≤ Config.nodeCap s.w ∧ bits = (treeAB.nodeFields s.w).flatten.flatten ∧
    pending (s.chan 0) = bits ++ rest ∧ bits.length ≤ s.a0.toNat ∧ bitsBeforeFill (s.cur 0) 1 < bits.length :=
  ⟨withAnswers (work [0x4C, 0x33, 0x10] 21) [false, true], _, [false, false, false],
    fillRefused_work _ _ (by decide) (by decide), by decide, by decide, rfl, by decide, by decide, by decide⟩

theorem witness_RefusedFlush : ∃ s : State, s.cursorOf? 1 = some 1 ∧ FlushRefused s 1 0 ∧
    s.a1.toNat + s.a0.toNat ≤ 8 * s.env.par.dbBytes ∧
    bitsBeforeFlush (s.cur 1) 0 < (bufbits s.db s.a1.toNat s.a0.toNat).length :=
  ⟨withAnswers (work [] 17) [true], by decide,
    ⟨withAnswers_inv (work_inv _ _ (by decide)) _, rfl, rfl, Nat.zero_le _, fun _ hb => absurd hb List.not_mem_nil,
      by decide, .inl rfl⟩, by decide⟩

theorem witness_RefusedFlush_size : ∃ s : State, FlushRefused s 1 0 ∧ s.env.ioFail = [] ∧ s.root = some 2 ∧
    bitsBeforeFlush (s.cur 1) 0 < (treeStream s.w s.nodes s.nodes.length 2).length :=
  ⟨workWith small [] 3, ⟨workWith_small_inv 3, rfl, rfl, Nat.zero_le _, fun _ hb => absurd hb List.not_mem_nil, by decide,
    .inr (by decide)⟩, rfl, rfl, by decide⟩

theorem witness_RefusedInCodec : ∃ (s t : State), Inv s ∧ (s.cur 0).mode = .read ∧ (s.cur 1).mode = .write ∧
    (s.cur 0).fid ≠ (s.cur 1).fid ∧ (s.cur 1).fpos ≤ (fileBytes (s.chan 1)).length ∧ exec (.encode 0 1) s = .next t ∧
    t.err = 1 ∧ absBitPos (t.cur 1) = 2 :=
  let ⟨t, h, e⟩ := after_some (by decide : after (exec (.encode 0 1) (withAnswers (work [0x61, 0x62, 0x62] 0)
      [false, true])) (fun t => (t.err, absBitPos (t.cur 1))) = some (1, 2))
  ⟨withAnswers (work [0x61, 0x62, 0x62] 0) [false, true], t, withAnswers_inv (work_inv _ _ (by decide)) _, rfl, rfl,
    by decide,
    by decide, h, (Prod.mk.inj e).1, (Prod.mk.inj e).2⟩

theorem witness_RefusedInCodec_flush : ∃ (s t : State), Inv s ∧ exec (.decode 0 1) s = .next t ∧ t.err = 1 ∧
    absBitPos (t.cur 0) = 3 ∧ absBitPos (t.cur 1) = 16 :=
  let ⟨t, h, e⟩ := after_some (by decide : after (exec (.decode 0 1) (withAnswers (work [0x60] 8) [false, true]))
    (fun t => (t.err, absBitPos (t.cur 0), absBitPos (t.cur 1))) = some (1, 3, 16))
  ⟨withAnswers (work [0x60] 8) [false, true], t, withAnswers_inv (work_inv _ _ (by decide)) _, h, (Prod.mk.inj e).1,
    (Prod.mk.inj (Prod.mk.inj e).2).1, (Prod.mk.inj (Prod.mk.inj e).2).2⟩

theorem witness_RefusedInCodec_encode_flush : ∃ (s t : State), Inv s ∧ exec (.encode 0 1) s = .next t ∧ t.err = 1 ∧
    absBitPos (t.cur 0) = 136 ∧ absBitPos (t.cur 1) = 16 :=
  let bytes := List.replicate 17 (0x62 : Byte)
  let fails := List.replicate 9 false ++ [true]
  let ⟨t, h, e⟩ := after_some (by decide +kernel : after (exec (.encode 0 1) (withAnswers (work bytes 0) fails))
    (fun t => (t.err, absBitPos (t.cur 0), absBitPos (t.cur 1))) = some (1, 136, 16))
  ⟨withAnswers (work bytes 0) fails, t, withAnswers_inv (work_inv _ _ (by decide)) _, h, (Prod.mk.inj e).1,
    (Prod.mk.inj (Prod.mk.inj e).2).1, (Prod.mk.inj (Prod.mk.inj e).2).2⟩

theorem witness_RefusedInCodec_decode_fill : ∃ (s t : State), Inv s ∧ exec (.decode 0 1) s = .next t ∧ t.err = 1 ∧
    absBitPos (t.cur 0) = 0 ∧ absBitPos (t.cur 1) = 0 :=
  let ⟨t, h, e⟩ := after_some (by decide : after (exec (.decode 0 1) (withAnswers (work [0x60] 8) [true]))
    (fun t => (t.err, absBitPos (t.cur 0), absBitPos (t.cur 1))) = some (1, 0, 0))
  ⟨withAnswers (work [0x60] 8) [true], t, withAnswers_inv (work_inv _ _ (by decide)) _, h, (Prod.mk.inj e).1,
    (Prod.mk.inj (Prod.mk.inj e).2).1, (Prod.mk.inj (Prod.mk.inj e).2).2⟩

theorem witness_AnswersDecide : ∃ (s t : State), Inv s ∧ exec (.crdbits 0) s = .next t ∧ t.err = 1 ∧
    s.env.ioFail = [false, true, false] ∧ t.env.ioFail = [false] :=
  let ⟨t, h, e⟩ := after_some (by decide : after (exec (.crdbits 0) (withAnswers (work [1, 2, 3] 17) [false, true, false]))
    (fun t => (t.err, t.env.ioFail)) = some (1, [false]))
  ⟨withAnswers (work [1, 2, 3] 17) [false, true, false], t, withAnswers_inv (work_inv _ _ (by decide)) _, h,
    (Prod.mk.inj e).1, rfl, (Prod.mk.inj e).2⟩

theorem witness_AnswersDecide_granted : ∃ (s t : State), Inv s ∧ exec (.crdbits 0) s = .next t ∧ t.err = 0 ∧
    s.env.ioFail = [false, true] ∧ t.env.ioFail = [true] :=
  let ⟨t, h, e⟩ := after_some (by decide : after (exec (.crdbits 0) (withAnswers (work [1, 2, 3] 16) [false, true]))
    (fun t => (t.err, t.env.ioFail)) = some (0, [true]))
  ⟨withAnswers (work [1, 2, 3] 16) [false, true], t, withAnswers_inv (work_inv _ _ (by decide)) _, h,
    (Prod.mk.inj e).1, rfl, (Prod.mk.inj e).2⟩

theorem witness_AnswersDecide_absent : ∃ (s t : State), Inv s ∧ exec (.copen 2 .read) s = .next t ∧ t.err = 1 ∧
    s.env.file (s.a0.setWidth 16) = none :=
  have i := work_inv [] 9 (by decide)
  ⟨{ work [] 9 with a1 := 1 }, _, ⟨i.params, i.memory, i.cursors, i.db, i.freq, i.tail, i.bucket, i.code, i.poolCap, i.pool,
    i.heapCap, i.heap, i.root, i.status⟩, rfl, by decide⟩

theorem witness_NopEndsAndCfgwEmpties : (3 : BitVec 16) ≠ 1 ∧ (3 : BitVec 16) ≠ 2 := by decide

theorem witness_CopenBindsCursor : (pair []).cursorOf? 3 = some 3 ∧ ((pair []).cur 0).isOpen = true ∧ ((pair []).cur 3).isOpen = false ∧
    Config.params.nfid ≤ (65536 : Reg).toNat ∧ (0 : Reg).toNat < 1 ∧ Config.params.bufMax < (4097 : Reg).toNat := by decide

theorem witness_CopenBindsCursor_bound :
    ∃ s : State, (s.cur 3).isOpen = false ∧ s.a0.toNat < s.env.par.nfid ∧ 1 ≤ s.a1.toNat ∧
    s.a1.toNat ≤ s.env.par.bufMax ∧ s.env.file (s.a0.setWidth 16) = none ∧ s.env.ioAnswer = false :=
  ⟨{ pair [] with a0 := 65535, a1 := 4096 }, by decide⟩

theorem witness_CopenBindsCursor_read :
    ∃ s : State, (s.cur 3).isOpen = false ∧ s.a0.toNat < s.env.par.nfid ∧ 1 ≤ s.a1.toNat ∧
    s.a1.toNat ≤ s.env.par.bufMax ∧ s.env.file (s.a0.setWidth 16) ≠ none ∧ s.env.ioAnswer = true :=
  ⟨{ pair [] with a0 := 1, a1 := 1, env := { (pair []).env with ioFail := [true] } }, by decide⟩

theorem witness_CcloseFlushesAndCloses :
    ∃ (s : State), Writable s 1 0 ∧ pendingBytes (s.cur 1) = 2 ∧ (s.cur 2).isOpen = false ∧
    (s.cur 0).isOpen = true ∧ (s.cur 0).mode = .read :=
  ⟨buffered 0 [], buffered_writable, by decide⟩

theorem witness_CflushStoresBuffer :
    ∃ (s : State), s.cursorOf? 1 = some 1 ∧ Writable s 1 0 ∧ pendingBytes (s.cur 1) = 2 :=
  ⟨buffered 0 [], by decide, buffered_writable, by decide⟩

theorem witness_ReadToBuffer :
    ∃ (s : State), s.cursorOf? 0 = some 0 ∧ Readable s 0 ∧ s.a0.toNat = 8 * s.env.par.dbBytes :=
  ⟨work [0xB8] 2048, by decide, work_readable _ _ (by decide), by decide⟩

theorem witness_ReadToBuffer_range : ∃ (s : State), Readable s 0 ∧ 8 * s.env.par.dbBytes < s.a0.toNat :=
  ⟨work [0xB8] 2049, work_readable _ _ (by decide), by decide⟩

theorem witness_WriteFromBuffer : ∃ (s : State), s.cursorOf? 1 = some 1 ∧ Writable s 1 s.a0.toNat ∧
    s.a1.toNat + s.a0.toNat = 8 * s.env.par.dbBytes :=
  ⟨work [] 2048, by decide, work_writable [] 2048 (by decide) (by decide), by decide⟩

theorem witness_WriteFromBuffer_range : ∃ s : State, (s.cur 1).isOpen = true ∧ (s.cur 1).mode = .write ∧
    8 * s.env.par.dbBytes < s.a1.toNat + s.a0.toNat := ⟨work [] 2049, by decide⟩

theorem witness_CseekbitsFillsAfresh :
    ∃ (s : State) (n : _), Inv s ∧ s.cursorOf? 0 = some 0 ∧ (s.cur 0).isOpen = true ∧ (s.cur 0).mode = .read ∧
    n = (if (fileBytes (s.chan 0)).length ≤ s.a0.toNat / 8 then 0
      else min (s.cur 0).bufsz ((fileBytes (s.chan 0)).length - s.a0.toNat / 8)) ∧ n ≠ 0 ∧ s.env.ioAnswer = false :=
  ⟨work [1, 2, 3] 23, 1, work_inv _ _ (by decide), by decide⟩

theorem witness_CseekbitsFillsAfresh_end : ∃ s : State, Inv s ∧ (fileBytes (s.chan 0)).length ≤ s.a0.toNat / 8 :=
  ⟨work [1, 2, 3] 24, work_inv _ _ (by decide), by decide⟩

theorem witness_CseekbitsFillsAfresh_fail : ∃ s : State, Inv s ∧ (s.cur 0).isOpen = true ∧ (s.cur 0).mode = .read ∧
    ¬ (fileBytes (s.chan 0)).length ≤ s.a0.toNat / 8 ∧ s.env.ioAnswer = true :=
  ⟨withAnswers (work [1] 0) [true], withAnswers_inv (work_inv [1] 0 (by decide)) _, by decide⟩

theorem witness_CtellGivesPosition : midByte.cursorOf? 0 = some 0 ∧ (midByte.cur 0).isOpen = true ∧ absBitPos (midByte.cur 0) = 3 ∧
    (midByte.cur 3).isOpen = false := by decide

theorem witness_ChseekMovesHandle : ∃ s : State, (s.cur 1).isOpen = true ∧ (s.cur 1).mode = .write ∧
    s.env.file (s.cur 1).fid = some [] ∧ (s.cur 1).byteP = 0 ∧ (s.cur 1).bitP = 0 ∧ s.a0.toNat = 0 :=
  ⟨work [] 0, by decide⟩

theorem witness_ChseekMovesHandle_refused : ∃ s : State, (s.cur 1).isOpen = true ∧ (s.cur 1).mode = .write ∧
    s.env.file (s.cur 1).fid = some [] ∧ (s.cur 1).byteP ≠ 0 := ⟨buffered 0 [], by decide⟩

theorem witness_PositionLaws : ∃ ch ch' : Chan, CursorInv ch.env ch.cur ∧ ch.cur.mode = .read ∧
    ch.cur.valid ≤ ch.cur.byteP ∧ readBit ch = .ok (some true) ch' :=
  ⟨(work [0x80] 0).chan 0, _, (work_inv [0x80] 0 (by decide)).cursors 0 rfl, rfl, by decide, rfl⟩

theorem witness_PositionLaws_write : ∃ ch ch' : Chan, CursorInv ch.env ch.cur ∧ ch.cur.mode = .write ∧
    flush ch = .ok () ch' :=
  ⟨(buffered 0 []).chan 1, _, (buffered_inv 0 [] (by decide)).cursors 1 rfl, rfl, rfl⟩

theorem witness_WordsOfStream : (255 : Nat) < Config.tailIdx .one ∧ wordClear ⟨0xFF, 0⟩ (Config.wbits .one) = true ∧
    (0xFFFF : Nat) < Config.tailIdx .two := by decide

theorem witness_HscanCountsWords : ∃ (s : State), s.cursorOf? 0 = some 0 ∧ Readable s 0 ∧
    (wordsOf s.w (pending (s.chan 0))).map Prod.snd = [8, 8] :=
  ⟨work [1, 2] 0, by decide, work_readable _ _ (by decide), by decide⟩

theorem witness_HscanCountsWords_tail : ∃ (s : State), Readable s 0 ∧
    (wordsOf s.w (pending (s.chan 0))).getLast? = some (⟨0xC0, 0⟩, 5) ∧ (5 : Nat) < Config.wbits s.w :=
  ⟨midByte, midByte_readable, by decide⟩

theorem witness_BucketAccess_frd : (256 : Reg).toNat < Config.nsym .one ∧ Config.nsym .one ≤ (257 : Reg).toNat := by decide

theorem witness_BucketAccess : ∃ (s : State), Inv s ∧ s.a0.toNat = Config.tailIdx s.w ∧ s.a2.extractLsb' 21 43 = 0 ∧
    (s.a2.extractLsb' 16 5).toNat < Config.wbits s.w ∧
    ∀ j, 7 ≤ j → j < 16 → bufbit [s.a2.extractLsb' 0 8, s.a2.extractLsb' 8 8] j = false :=
  ⟨{ work [] 256 with a2 := 0x000700FE },
    have i := work_inv [] 256 (by decide)
    ⟨i.params, i.memory, i.cursors, i.db, i.freq, i.tail, i.bucket, i.code, i.poolCap, i.pool, i.heapCap, i.heap,
      i.root, i.status⟩,
    by decide, by decide, by decide,
    fun j h1 h2 => (by decide : ∀ j, j < 16 → 7 ≤ j → bufbit [0xFE, 0] j = false) j h2 h1⟩

theorem witness_BucketAccess_range :
    ∃ (s : State), Inv s ∧ Config.nsym s.w ≤ s.a0.toNat := ⟨work [] 257, work_inv _ _ (by decide), by decide⟩

theorem witness_BucketAccess_tail :
    ∃ (s : State), Inv s ∧ s.a0.toNat = Config.tailIdx s.w ∧ s.a2.extractLsb' 21 43 ≠ 0 :=
  ⟨{ work [] 256 with a2 := 0x00200000 },
    have i := work_inv [] 256 (by decide)
    ⟨i.params, i.memory, i.cursors, i.db, i.freq, i.tail, i.bucket, i.code, i.poolCap, i.pool, i.heapCap, i.heap,
      i.root, i.status⟩,
    by decide, by decide⟩

theorem witness_HeapLaws : heapOrdered (freqOf heaped.nodes) [0, 1] ∧
    heapRest (freqOf heaped.nodes) [1] = [1] := ⟨heaped_ordered, by decide⟩

theorem witness_TbinsAddsLeaf : ∃ s : State, s.a0.toNat < Config.nsym s.w ∧ s.a0.toNat ≠ Config.tailIdx s.w ∧
    s.heap.length ≠ Config.heapCap s.w ∧ s.nodes.length ≠ Config.nodeCap s.w := ⟨work [] 255, by decide⟩

theorem witness_TbinsAddsLeaf_tail :
    ∃ s : State, s.a0.toNat = Config.tailIdx s.w ∧ s.tail.valid = false := ⟨work [] 256, by decide⟩

theorem witness_TbinsAddsLeaf_full : ∃ s : State, s.a0.toNat < Config.nsym s.w ∧ s.heap.length = Config.heapCap s.w :=
  ⟨{ State.reset with heap := List.replicate 257 0 }, by decide, List.length_replicate⟩

theorem witness_TbinsAddsLeaf_pool : ∃ s : State, s.a0.toNat < Config.nsym s.w ∧ s.heap.length ≠ Config.heapCap s.w ∧
    s.nodes.length = Config.nodeCap s.w :=
  ⟨full, by decide, by decide, List.length_replicate⟩

theorem witness_TbextMergesHeap : ∃ (s : State), Inv s ∧ heapOrdered (freqOf s.nodes) s.heap ∧ s.heap ≠ [] ∧
    (s.heap.map (freqOf s.nodes)).sum < 2 ^ 64 ∧ s.nodes.length + s.heap.length - 1 ≤ Config.nodeCap s.w :=
  ⟨heaped, heaped_inv, heaped_ordered, by decide, by decide, by decide⟩

theorem witness_TbextMergesHeap_overflow : ∃ (s : State), Inv s ∧ heapOrdered (freqOf s.nodes) s.heap ∧ s.heap ≠ [] ∧
    2 ^ 64 ≤ (s.heap.map (freqOf s.nodes)).sum ∧ s.nodes.length + s.heap.length - 1 ≤ Config.nodeCap s.w :=
  ⟨heavy, heavy_inv, fun i h0 h1 => by
    have : i = 1 := by have : heavy.heap.length = 2 := rfl; omega
    subst this; decide, by decide, by decide, by decide⟩

theorem witness_TbextMergesHeap_full : ∃ (s : State), Inv s ∧ heapOrdered (freqOf s.nodes) s.heap ∧ s.heap ≠ [] ∧
    (s.heap.map (freqOf s.nodes)).sum < 2 ^ 64 ∧ Config.nodeCap s.w < s.nodes.length + s.heap.length - 1 :=
  ⟨full, full_inv, fun i h0 h1 => by
    have : i = 1 := by have : full.heap.length = 2 := rfl; omega
    subst this; decide, by decide, by decide, by
      have l : full.nodes.length = 513 := List.length_replicate
      rw [l]; decide⟩

theorem witness_TbuildBuildsTree :
    ∃ (s : State) (slots : List Nat), Inv s ∧ slots = (List.range (Config.nsym s.w)).filter (fun i => s.freqAt i ≠ 0) ∧
    slots ≠ [] ∧ (slots.map fun i => (s.freqAt i).toNat).sum < 2 ^ 64 :=
  ⟨work [] 0, [0x61, 0x62], work_inv _ _ (by decide), by decide, by decide, by decide⟩

theorem witness_TbuildBuildsTree_empty :
    ∃ (s : State), Inv s ∧ (List.range (Config.nsym s.w)).filter (fun i => s.freqAt i ≠ 0) = [] :=
  ⟨heaped, heaped_inv, by decide⟩

/-- Two buckets whose sum is `2^64`. -/
def heavyBuckets : State := { work [] 0 with freq := [(0x61, 0x8000000000000000), (0x62, 0x8000000000000000)] }

theorem heavyBuckets_inv : Inv heavyBuckets :=
  have i := work_inv [] 0 (by decide)
  ⟨i.params, i.memory, i.cursors, i.db, by decide, i.tail, fun h => absurd (by decide) h, i.code, i.poolCap, i.pool,
    i.heapCap, i.heap, i.root, i.status⟩

theorem witness_TbuildBuildsTree_overflow : ∃ (s : State) (slots : List Nat), Inv s ∧
    slots = (List.range (Config.nsym s.w)).filter (fun i => s.freqAt i ≠ 0) ∧
    2 ^ 64 ≤ (slots.map fun i => (s.freqAt i).toNat).sum :=
  ⟨heavyBuckets, [0x61, 0x62], heavyBuckets_inv, by decide, by decide⟩

theorem witness_NrdShowsNode :
    ∃ (s : State) (n : _), s.nodes[s.a0.toNat]? = some n ∧ n.leaf = false ∧ s.nodes.length = 3 :=
  ⟨work [] 2, _, rfl, rfl, rfl⟩

theorem witness_CtbuildGivesPaths :
    ∃ (s : State) (r : Nat), Inv s ∧ s.root = some r ∧ ((treeCodes s r).map Prod.fst).Nodup :=
  ⟨work [] 0, 2, work_inv _ _ (by decide), rfl, by decide⟩

theorem witness_CtbuildGivesPaths_twins :
    ∃ (s : State) (r : Nat), Inv s ∧ s.root = some r ∧ ¬ ((treeCodes s r).map Prod.fst).Nodup :=
  ⟨twins, 2, twins_inv, rfl, by decide⟩

theorem witness_CtbuildGivesPaths_none : ∃ (s : State), Inv s ∧ s.root = none := ⟨heaped, heaped_inv, rfl⟩

theorem witness_CtrdReadsCode :
    ∃ (s : State), Inv s ∧ s.a0.toNat < Config.nsym s.w ∧ s.codeAt s.a0.toNat = some [false] :=
  ⟨work [] 0x61, work_inv _ _ (by decide), by decide, by decide⟩

theorem witness_CtrdReadsCode_none : ∃ (s : State), Inv s ∧ s.a0.toNat < Config.nsym s.w ∧ s.codeAt s.a0.toNat = none :=
  ⟨work [] 256, work_inv _ _ (by decide), by decide, by decide⟩

theorem witness_PrefixFree :
    ∃ (s : State) (t : State), Inv s ∧ s.root = some 2 ∧ exec .ctbuild s = .next t ∧ t.err = 0 ∧
    (nodeAt s.nodes 2).leaf = false :=
  let ⟨t, h, e⟩ := after_some (by decide : after (exec .ctbuild (work [] 0)) (fun t => t.err) = some 0)
  ⟨work [] 0, t, work_inv _ _ (by decide), rfl, h, e, rfl⟩

theorem witness_PrefixFree_leaf :
    ∃ (s : State) (t : State), Inv s ∧ s.root = some 0 ∧ exec .ctbuild s = .next t ∧ t.err = 0 ∧
    (nodeAt s.nodes 0).leaf = true :=
  let ⟨t, h, e⟩ := after_some (by decide : after (exec .ctbuild (leafRoot 0)) (fun t => t.err) = some 0)
  ⟨leafRoot 0, t, leafRoot_inv 0, rfl, h, e, rfl⟩

theorem witness_TwriteAppendsTree : ∃ (s : State), s.cursorOf? 1 = some 1 ∧ s.root = some 2 ∧
    Writable s 1 (treeStream s.w s.nodes s.nodes.length 2).length :=
  ⟨work [] 0, by decide, rfl, work_writable [] 0 (by decide) (by decide)⟩

theorem witness_TwriteAppendsTree_none :
    ∃ s : State, (s.cur 1).isOpen = true ∧ (s.cur 1).mode = .write ∧ s.root = none :=
  ⟨heaped, by decide⟩

theorem witness_TreeStreamSize :
    ∃ (s : State), Inv s ∧ s.root = some 2 ∧ (treeStream s.w s.nodes s.nodes.length 2).length = 21 :=
  ⟨work [] 0, work_inv _ _ (by decide), rfl, by decide⟩

theorem witness_TreadOfStream :
    ∃ (s₀ : State) (s : State) (bits : Bits) (rest : _), Inv s₀ ∧ Owned s₀ ∧ s₀.root = some 2 ∧ s₀.w = s.w ∧
    bits = treeStream s₀.w s₀.nodes s₀.nodes.length 2 ∧ Readable s 0 ∧ pending (s.chan 0) = bits ++ rest ∧
    bits.length = s.a0.toNat :=
  ⟨work [] 0, work [0x4C, 0x33, 0x10] 21, _, [false, false, false], work_inv _ _ (by decide), work_owned _ _, rfl, rfl, rfl,
    work_readable _ _ (by decide), by decide, by decide⟩

theorem witness_TreadOfStream_bound : ∃ (s : State), Readable s 0 ∧
    pending (s.chan 0) = treeStream .one poolAB 3 2 ++ [false, false, false] ∧
    s.a0.toNat < (treeStream .one poolAB 3 2).length :=
  ⟨work [0x4C, 0x33, 0x10] 20, work_readable _ _ (by decide), by decide, by decide⟩

/-- In the second leaf: the stream ends inside its word. -/
theorem witness_TreadRefuses_eof : ∃ (s : State) (before after done : List (List Bits)) (part : Bits),
    s.cursorOf? 0 = some 0 ∧ Readable s 0 ∧ treeAB.ok s.w = true ∧
    treeAB.nodeFields s.w = before ++ [[true], [false], byteBits 0x62] :: after ∧ before.length < Config.nodeCap s.w ∧
    [[true], [false], byteBits 0x62] = done.flatten ++ [byteBits 0x62] ∧
    pending (s.chan 0) = before.flatten.flatten ++ done.flatten.flatten ++ part ∧ part.length < (byteBits 0x62).length ∧
    (before.flatten.flatten ++ done.flatten.flatten ++ byteBits 0x62).length ≤ s.a0.toNat :=
  ⟨work [0x4C, 0x33] 21, [[[false]], [[true], [false], byteBits 0x61]], [], [[[true], [false]]], [false, true, true],
    by decide, work_readable _ _ (by decide), by decide⟩

/-- The same, the declared size one bit too small. -/
theorem witness_TreadRefuses_bound : ∃ (s : State) (before : List (List Bits)) (done : List Bits) (rest : Bits),
    Readable s 0 ∧ treeAB.nodeFields s.w = before ++ [[[true], [false], byteBits 0x62]] ∧
    [[true], [false], byteBits 0x62] = done ++ [byteBits 0x62] ∧
    pending (s.chan 0) = before.flatten.flatten ++ done.flatten ++ rest ∧
    (before.flatten.flatten ++ done.flatten).length ≤ s.a0.toNat ∧
    s.a0.toNat < (before.flatten.flatten ++ done.flatten ++ byteBits 0x62).length :=
  ⟨work [0x4C, 0x33, 0x10] 20, [[[false]], [[true], [false], byteBits 0x61]], [[true], [false]],
    [false, true, true, false, false, false, true, false, false, false, false], work_readable _ _ (by decide), by decide⟩

/-- V53, in the first leaf below the root: a length field of 8 for one-byte words. -/
theorem witness_TreadRefuses_length : ∃ (s : State) (before after : List (List Bits)) (rest : Bits),
    Readable s 0 ∧ treeAB.nodeFields s.w = before ++ [[true], [false], byteBits 0x61] :: after ∧ before.length = 1 ∧
    Config.wbits s.w ≤ 8 ∧ before.flatten.flatten.length + 10 ≤ s.a0.toNat ∧
    pending (s.chan 0) = before.flatten.flatten ++ [true, true] ++ uintbits 8 8 ++ rest :=
  ⟨work [0x61, 0x00] 11, [[[false]]], [[[true], [false], byteBits 0x62]], [false, false, false, false, false],
    work_readable _ _ (by decide), by decide⟩

/-- A tree whose `n` first nodes in pre-order are internal. -/
def spine : Nat → PrefixTree
  | 0 => .leaf (byteBits 0)
  | n + 1 => .inner (spine n) (.leaf (byteBits 0))

theorem spine_ok (n : Nat) : (spine n).ok .one = true := by
  induction n with
  | zero => decide
  | succ n ih => simp only [spine, PrefixTree.ok, ih]; decide

theorem spine_nodeFields (n : Nat) : ∃ after, (spine n).nodeFields .one =
    List.replicate n [[false]] ++ [[true], [false], byteBits 0] :: after := by
  induction n with
  | zero => exact ⟨[], by decide⟩
  | succ n ih =>
    obtain ⟨after, h⟩ := ih
    exact ⟨after ++ (PrefixTree.leaf (byteBits 0)).nodeFields .one, by simp [spine, PrefixTree.nodeFields, h,
      List.replicate_succ]⟩

theorem zeros_flatten (n : Nat) : (List.replicate n [[false]]).flatten.flatten = List.replicate n false := by
  induction n with
  | zero => rfl
  | succ n ih => exact congrArg (false :: ·) ih

theorem zeros_pending (n : Nat) (x : Reg) : pending ((work (List.replicate n 0) x).chan 0) = List.replicate (8 * n) false := by
  show bytesBits (List.replicate n 0) = _
  induction n with
  | zero => rfl
  | succ n ih => exact congrArg (byteBits 0 ++ ·) ih

theorem witness_TreadRefuses_full : ∃ (s : State) (T : PrefixTree) (before : List (List Bits)) (node : List Bits)
    (after : List (List Bits)) (rest : Bits), Readable s 0 ∧ T.ok s.w = true ∧ T.nodeFields s.w = before ++ node :: after ∧
    before.length = Config.nodeCap s.w ∧ before.flatten.flatten.length ≤ s.a0.toNat ∧
    pending (s.chan 0) = before.flatten.flatten ++ rest :=
  let ⟨after, h⟩ := spine_nodeFields 513
  ⟨work (List.replicate 65 0) 513, spine 513, List.replicate 513 [[false]], _, after, List.replicate 7 false,
    work_readable _ _ (by rw [List.length_replicate]; decide), spine_ok 513, h, by rw [List.length_replicate]; decide,
    by rw [zeros_flatten, List.length_replicate]; decide,
    by rw [zeros_flatten, ← List.replicate_add, zeros_pending]⟩

theorem witness_EncodeWritesCodes :
    ∃ (s : State) (pats : List Bits), s.cursorOf? 0 = some 0 ∧ s.cursorOf? 1 = some 1 ∧ Readable s 0 ∧
    (s.cur 0).fid ≠ (s.cur 1).fid ∧
    (wordsOf s.w (pending (s.chan 0))).map (fun p => s.codeAt (wordSlot s.w p.1 p.2)) = pats.map some ∧
    Writable s 1 pats.flatten.length :=
  ⟨work [0x61, 0x62, 0x62] 0, [[false], [true], [true]], by decide, by decide, work_readable _ _ (by decide), by decide,
    by decide, work_writable _ _ (by decide) (by decide)⟩

theorem witness_EncodeStopsAtNoCode :
    ∃ (s : State) (ws : List (WordBytes × Nat)) (rest : _), Readable s 0 ∧ (s.cur 0).fid ≠ (s.cur 1).fid ∧
    wordsOf s.w (pending (s.chan 0)) = ws ++ (⟨0x63, 0⟩, 8) :: rest ∧
    ws.map (fun p => s.codeAt (wordSlot s.w p.1 p.2)) = [[false]].map some ∧
    s.codeAt (wordSlot s.w ⟨0x63, 0⟩ 8) = none ∧ Writable s 1 1 :=
  ⟨work [0x61, 0x63] 0, [(⟨0x61, 0⟩, 8)], [], work_readable _ _ (by decide), by decide, by decide, by decide, by decide,
    work_writable _ _ (by decide) (by decide)⟩

theorem witness_DecodeWritesWords :
    ∃ (s : State) (leaves : List Nat), Readable s 0 ∧ (s.cur 0).fid ≠ (s.cur 1).fid ∧ s.root = some 2 ∧
    s.a0.toNat ≤ (pending (s.chan 0)).length ∧
    walkBits s.nodes 2 2 ((pending (s.chan 0)).take s.a0.toNat) = some (leaves, 2) ∧
    Writable s 1 (leaves.flatMap fun n => leafBits (nodeAt s.nodes n)).length :=
  ⟨work [0x60] 3, [0, 1, 1], work_readable _ _ (by decide), by decide, rfl, by decide, by decide,
    work_writable _ _ (by decide) (by decide)⟩

theorem witness_DecodeStops :
    ∃ (s : State) (leaves : List Nat), Readable s 0 ∧ (s.cur 0).fid ≠ (s.cur 1).fid ∧ s.root = some 2 ∧
    (pending (s.chan 0)).length < s.a0.toNat ∧ walkBits s.nodes 2 2 (pending (s.chan 0)) = some (leaves, 2) ∧
    Writable s 1 (leaves.flatMap fun n => leafBits (nodeAt s.nodes n)).length :=
  ⟨work [0x60] 9, [0, 1, 1, 0, 0, 0, 0, 0], work_readable _ _ (by decide), by decide, rfl, by decide, by decide,
    work_writable _ _ (by decide) (by decide)⟩

theorem witness_DecodeStops_none : ∃ s : State, s.a0 ≠ 0 ∧ s.root = none ∧ (s.cur 1).isOpen = true ∧
    (s.cur 1).mode = .write := ⟨{ heaped with a0 := 1 }, by decide⟩

theorem witness_DecodeStops_leaf :
    ∃ (s : State) (n : _) (rest : _), Readable s 0 ∧ s.root = some 0 ∧ (nodeAt s.nodes 0).leaf = true ∧
    n < s.a0.toNat ∧ pending (s.chan 0) = List.replicate n false ++ true :: rest ∧
    Writable s 1 (n * (nodeAt s.nodes 0).bitLen) :=
  ⟨leafRoot 3, 2, [false, false, false, false, false],
    ⟨leafRoot_inv 3, rfl, rfl, fun _ hb => absurd hb List.not_mem_nil⟩, rfl, rfl, by decide, by decide,
    ⟨leafRoot_inv 3, rfl, rfl, Nat.zero_le _, fun _ hb => absurd hb List.not_mem_nil, by decide⟩⟩

theorem witness_DecodeInvertsEncode :
    ∃ (s : State) (c : State) (stream : Bits) (pats : List Bits) (d : State) (rest : _), Inv s ∧ s.root = some 2 ∧
    exec .ctbuild s = .next c ∧
    c.err = 0 ∧ (wordsOf s.w stream).map (fun p => c.codeAt (wordSlot s.w p.1 p.2)) = pats.map some ∧
    (∀ p ∈ wordsOf s.w stream, ¬ p.2 < Config.wbits s.w) ∧ Readable d 0 ∧ Writable d 1 stream.length ∧
    (d.cur 0).fid ≠ (d.cur 1).fid ∧ d.w = s.w ∧ d.root = some 2 ∧ treeShape d.nodes 2 = treeShape s.nodes 2 ∧
    pending (d.chan 0) = pats.flatten ++ rest ∧ d.a0.toNat = pats.flatten.length :=
  let ⟨c, h, e⟩ := after_some (by decide : after (exec .ctbuild (work [] 0)) (fun t => (t.err, t.code)) =
    some (0, [(0x61, [false]), (0x62, [true])]))
  have hc : ∀ i, c.codeAt i = tableGet [(0x61, [false]), (0x62, [true])] i := fun i => by
    unfold State.codeAt; rw [(Prod.mk.inj e).2]
  ⟨work [] 0, c, bytesBits [0x61, 0x62, 0x62], [[false], [true], [true]], work [0x60] 3,
    [false, false, false, false, false], work_inv _ _ (by decide), rfl, h, (Prod.mk.inj e).1,
    by simp only [hc]; decide, by decide, work_readable _ _ (by decide), work_writable _ _ (by decide) (by decide),
      by decide,
    rfl, rfl, rfl, by decide, by decide⟩

theorem witness_OwnCursorsOnly : ∃ (t : State), exec (.ctell 0) midByte = .next t ∧ midByte.cursorOf? 0 = some 0 ∧
    (midByte.cur 0).fid ≠ 2 ∧ (t.cur 0).fid ≠ 2 := ⟨_, rfl, by decide⟩

theorem witness_TablesApart : ∃ (t : State), exec .nrd (work [] 0) = .next t ∧ (work [] 0).nodes ≠ [] ∧
    Part.tree ∉ partsOf .nrd ∧ Part.buffer ∉ partsOf .nrd := ⟨_, rfl, by decide⟩

theorem witness_RegistersKept : ∃ (t : State), exec .frd (work [] 3) = .next t ∧ 1 ∉ resultRegs .frd := ⟨_, rfl, by decide⟩

theorem witness_BindingAndParametersFixed :
    ∃ (s : State) (t : State), step s = .next t ∧ (s.cur 0).isOpen = true ∧ (t.cur 0).isOpen = true :=
  ⟨withAct (work [1] 0) (.write 0 0x18000000), _, rfl, by decide⟩

theorem witness_RegisterReads : ∃ (s : State) (rest : _), s.inbox = .read 0x8FF :: rest :=
  ⟨withAct State.reset (.read 0x8FF), [], rfl⟩

theorem witness_RegisterReads_tail : State.reset.tail.bits < 32 ∧ ¬ (0x800 ≤ 0x900 ∧ 0x900 < 0x800 + State.reset.env.par.dbBytes) := by
  decide

theorem witness_RegisterWrites : ∃ (s : State) (rest : _), s.inbox = .write 0x008 5 :: rest :=
  ⟨withAct State.reset (.write 0x008 5), [], rfl⟩

theorem witness_HostFiles : ∃ (s : State) (rest : _), Inv s ∧ s.inbox = .setFile 2 (some [1]) :: rest ∧
    (2 : BitVec 16).toNat < s.env.par.nfid ∧ (s.cur 1).isOpen = true ∧ (s.cur 1).fid = 2 ∧ (s.cur 1).fpos ≤ 1 ∧
    1 ≤ s.env.par.maxFileBytes :=
  ⟨withAct (workWith small [] 0) (.setFile 2 (some [1])), [], withAct_inv (workWith_small_inv 0) _, rfl, by decide⟩

/-- FPOS lies beyond the old and the new length. -/
theorem witness_HostFiles_beyond : ∃ (s : State) (rest : _), Inv s ∧ s.inbox = .setFile 2 (some [1]) :: rest ∧
    (s.cur 1).isOpen = true ∧ (s.cur 1).fid = 2 ∧ (fileBytes (s.chan 1)).length ≤ 1 ∧ (s.cur 1).fpos = 3 :=
  ⟨withAct (buffered 3 []) (.setFile 2 (some [1])), [], withAct_inv (buffered_inv 3 [] (by decide)) _, rfl, by decide⟩

theorem witness_HostFiles_long : ∃ (s : State) (rest : _), Inv s ∧ s.inbox = .setFile 3 (some [1, 2]) :: rest ∧
    (3 : BitVec 16).toNat < s.env.par.nfid ∧ s.env.par.maxFileBytes < 2 :=
  ⟨withAct (workWith small [] 0) (.setFile 3 (some [1, 2])), [], withAct_inv (workWith_small_inv 0) _, rfl, by decide⟩

theorem witness_HostFiles_identifier : ∃ (s : State) (rest : _), Inv s ∧ s.inbox = .readFile 4 :: rest ∧
    s.env.par.nfid ≤ (4 : BitVec 16).toNat :=
  ⟨withAct (workWith small [] 0) (.readFile 4), [], withAct_inv (workWith_small_inv 0) _, rfl, by decide⟩

theorem witness_HostFiles_answers : ∃ (s : State) (rest : _), Inv s ∧ s.inbox = .answerIO [true] :: rest :=
  ⟨withAct (work [] 0) (.answerIO [true]), [], withAct_inv (work_inv _ _ (by decide)) _, rfl⟩

theorem witness_HostFiles_duty :
    ∃ (s : State) (rest : _), Inv s ∧ s.inbox = .setFile 1 none :: rest ∧ (s.cur 0).isOpen = true ∧
    (s.cur 0).fid = 1 :=
  ⟨withAct (work [] 0) (.setFile 1 none), [], withAct_inv (work_inv _ _ (by decide)) _, rfl, by decide⟩

end Sys2Proof.Machine.Tests
end

/-! # Proofs, family "state": every command as one body

A command is `finish` of a body (R270), so what is proved once of every body holds of every command. -/

namespace Sys2Proof.Machine

open Sys2Proof

/-- The body of a one-cursor command; a cursor number of `NCUR` or more makes it illegal (R92, R276). -/
def oneCursor (i : Instr) (c : BitVec 4) (f : Fin Config.curSlots → State → Res State Unit) (s : State) : Res State Unit :=
  match s.cursorOf? c with
  | some k => f k s
  | none => .raise (.illegalCommand (encodeCmd i)) s

/-- The body of a two-cursor command. -/
def twoCursors (i : Instr) (a b : BitVec 4) (f : Fin Config.curSlots → Fin Config.curSlots → State → Res State Unit)
    (s : State) : Res State Unit :=
  match s.cursorOf? a, s.cursorOf? b with
  | some k, some m => f k m s
  | _, _ => .raise (.illegalCommand (encodeCmd i)) s

/-- What a command does before it ends (R93, R270). -/
def bodyOf (i : Instr) (s : State) : Res State Unit :=
  match i with
  | .nop => .ok () s
  | .srst => .ok () (resetBlock s)
  | .cfgw imm => cfgw imm s
  | .copen ca m => oneCursor i ca (copen m) s
  | .cclose ca => oneCursor i ca cclose s
  | .crdbits ca => oneCursor i ca crdbits s
  | .cwrbits ca => oneCursor i ca cwrbits s
  | .crdbytes ca => oneCursor i ca crdbytes s
  | .cwrbytes ca => oneCursor i ca cwrbytes s
  | .cflush ca => oneCursor i ca cflush s
  | .cseekbits ca => oneCursor i ca cseekbits s
  | .ctell ca => oneCursor i ca ctell s
  | .chseek ca => oneCursor i ca chseek s
  | .hclr => .ok () (clearHistogram s)
  | .hscan ca => oneCursor i ca hscan s
  | .frd => frd s
  | .fwr => fwr s
  | .tbinit => .ok () (freeTree s)
  | .tbins => tbins s
  | .tbext => tbext s
  | .tbuild => tbuild s
  | .nrd => nrd s
  | .ctbuild => buildCodes (clearCodes s)
  | .ctrd => ctrd s
  | .twrite ca => oneCursor i ca twrite s
  | .tread ca => oneCursor i ca tread s
  | .encode ca cb => twoCursors i ca cb encodeStream s
  | .decode ca cb => twoCursors i ca cb decodeStream s

theorem onCursor_eq_finish (i : Instr) (c : BitVec 4) (f : Fin Config.curSlots → State → Res State Unit) (s : State) :
    onCursor i c f s = finish (oneCursor i c f s) := by
  unfold onCursor oneCursor
  cases s.cursorOf? c <;> rfl

theorem onCursors_eq_finish (i : Instr) (a b : BitVec 4)
    (f : Fin Config.curSlots → Fin Config.curSlots → State → Res State Unit) (s : State) :
    onCursors i a b f s = finish (twoCursors i a b f s) := by
  unfold onCursors twoCursors
  cases s.cursorOf? a <;> cases s.cursorOf? b <;> rfl

/-- Every command is the end of its body (R270). -/
theorem exec_eq_finish (i : Instr) (s : State) : exec i s = finish (bodyOf i s) := by
  cases i with
  | copen | cclose | crdbits | cwrbits | crdbytes | cwrbytes | cflush | cseekbits | ctell | chseek | hscan | twrite | tread =>
    exact onCursor_eq_finish _ _ _ _
  | encode | decode => exact onCursors_eq_finish _ _ _ _ _
  | _ => rfl

/-- A property of states that the body leaves and that the end of a command keeps holds after the command. -/
theorem exec_leaves {P : State → Prop} {i : Instr} {s t : State} (hb : (bodyOf i s).leaves P)
    (hok : ∀ u, P u → P (endOk u)) (herr : ∀ e u, P u → P (takeError e u)) (h : exec i s = .next t) : P t := by
  rw [exec_eq_finish] at h
  rcases finish_eq_next.1 h with ⟨u, hu, rfl⟩ | ⟨e, u, hu, rfl⟩ <;> rw [hu] at hb
  · exact hok u hb
  · exact herr e u hb

/-- A one-cursor body leaves what its illegal form and the body on the cursor it names leave. -/
theorem oneCursor_leaves {P : State → Prop} {i : Instr} {c : BitVec 4} {f : Fin Config.curSlots → State → Res State Unit}
    {s : State} (h0 : P s) (hf : ∀ k, s.cursorOf? c = some k → (f k s).leaves P) : (oneCursor i c f s).leaves P := by
  unfold oneCursor
  split
  · exact hf _ ‹_›
  · exact h0

theorem twoCursors_leaves {P : State → Prop} {i : Instr} {a b : BitVec 4}
    {f : Fin Config.curSlots → Fin Config.curSlots → State → Res State Unit} {s : State} (h0 : P s)
    (hf : ∀ k m, s.cursorOf? a = some k → s.cursorOf? b = some m → (f k m s).leaves P) :
    (twoCursors i a b f s).leaves P := by
  unfold twoCursors
  split
  · exact hf _ _ ‹_› ‹_›
  · exact h0

/-- What follows the cursor check runs on an open cursor of the direction asked (R135). -/
theorem curCheck_leaves {P : State → Prop} {k : Fin Config.curSlots} {m : Mode} {f : Unit → State → Res State Unit}
    {s : State} (h0 : P s) (hf : OpenFor s k m → (f () s).leaves P) : ((curCheck k m s).bind f).leaves P := by
  rcases curCheck_cases k m s with ⟨ho, hm, e⟩ | ⟨_, e⟩ | ⟨_, _, e⟩ <;> rw [e]
  · exact hf ⟨ho, hm⟩
  · exact h0
  · exact h0

/-! ## What a step can be -/

/-- The host's acts that run no command, and a value that is no command, leave the tables, the cursors and the parameters
of the block as they are (R20, R39, R79, R276). -/
structure Unmoved (s t : State) : Prop where
  w : t.w = s.w
  cursors : t.cursors = s.cursors
  freq : t.freq = s.freq
  tail : t.tail = s.tail
  nodes : t.nodes = s.nodes
  root : t.root = s.root
  heap : t.heap = s.heap
  code : t.code = s.code
  par : t.env.par = s.env.par

theorem writeReg_unmoved (off : Nat) (v : Reg) (s : State) : Unmoved s (writeReg off v s) := by
  unfold writeReg
  split
  case h_5 => unfold writeHigh; split <;> constructor <;> rfl
  all_goals constructor <;> rfl

theorem hostFileEnv_par (e : Env) (f : BitVec 16) (b : Option (List Byte)) : (hostFileEnv e f b).par = e.par := by
  cases b <;> rfl

/-- Everything the host's change of a file can answer when it has a move (R79). -/
theorem hostSetFile_next {f : BitVec 16} {b : Option (List Byte)} {s t : State} (h : hostSetFile f b s = .next t) :
    f.toNat < s.env.par.nfid ∧ someDuty s f b = false ∧ (b.getD []).length ≤ s.env.par.maxFileBytes ∧
      t = { s with env := hostFileEnv s.env f b } := by
  unfold hostSetFile at h
  split at h
  · cases h
  · split at h
    · cases h
    · split at h
      · cases h
      · rename_i h1 h2 h3
        exact ⟨by omega, by simpa using h2, by omega, (Host.Outcome.next.inj h).symm⟩

/-- Everything one act of the host can do. -/
theorem hostStep_cases {e : HostEvent} {s t : State} (h : hostStep e s = .next t) :
    (∃ i, exec i s = .next t) ∨ t = resetBlock s ∨ Unmoved s t := by
  cases e with
  | write off v =>
    simp only [hostStep] at h
    split at h
    · unfold runCmd at h
      split at h
      · exact .inl ⟨_, h⟩
      · cases h
        exact .inr (.inr ⟨rfl, rfl, rfl, rfl, rfl, rfl, rfl, rfl, rfl⟩)
    · cases h
      exact .inr (.inr (writeReg_unmoved off v s))
  | read off =>
    cases h
    exact .inr (.inr ⟨rfl, rfl, rfl, rfl, rfl, rfl, rfl, rfl, rfl⟩)
  | setFile f b =>
    obtain ⟨_, _, _, rfl⟩ := hostSetFile_next h
    exact .inr (.inr ⟨rfl, rfl, rfl, rfl, rfl, rfl, rfl, rfl, hostFileEnv_par _ _ _⟩)
  | readFile f =>
    simp only [hostStep, hostReadFile] at h
    split at h
    · cases h
    · cases h
      exact .inr (.inr ⟨rfl, rfl, rfl, rfl, rfl, rfl, rfl, rfl, rfl⟩)
  | answerIO fails =>
    cases h
    exact .inr (.inr ⟨rfl, rfl, rfl, rfl, rfl, rfl, rfl, rfl, rfl⟩)
  | reset =>
    cases h
    exact .inr (.inl rfl)

/-- A step is idle or takes the first act of the host (R20). -/
theorem step_eq_next {s t : State} (h : step s = .next t) :
    t = s ∨ ∃ e rest, s.inbox = e :: rest ∧ hostStep e { s with inbox := rest } = .next t := by
  unfold step at h
  split at h
  · exact .inl (Host.Outcome.next.inj h).symm
  · exact .inr ⟨_, _, ‹_›, h⟩

/-- Everything one step can do: a command, a reset, or nothing to the block's tables and cursors. -/
theorem step_cases {s t : State} (h : step s = .next t) :
    Unmoved s t ∨ ∃ rest, t = resetBlock { s with inbox := rest } ∨ ∃ i, exec i { s with inbox := rest } = .next t := by
  rcases step_eq_next h with rfl | ⟨e, rest, _, he⟩
  · exact .inl ⟨rfl, rfl, rfl, rfl, rfl, rfl, rfl, rfl, rfl⟩
  · rcases hostStep_cases he with hi | hr | hu
    · exact .inr ⟨rest, .inr hi⟩
    · exact .inr ⟨rest, .inl hr⟩
    · exact .inl ⟨hu.w, hu.cursors, hu.freq, hu.tail, hu.nodes, hu.root, hu.heap, hu.code, hu.par⟩

end Sys2Proof.Machine

/-! # Proofs, family "state": every step keeps the invariant (O9) -/

namespace Sys2Proof.Machine

open Sys2Proof

/-! ## Updates of single parts -/

/-- The invariant does not speak of the general registers. -/
theorem Inv.withRegs {s : State} (h : Inv s) (a0 a1 a2 a3 : Reg) : Inv { s with a0 := a0, a1 := a1, a2 := a2, a3 := a3 } :=
  { h with }

/-- Nor of the acts of the host that are still to come and of what the host has got. -/
theorem Inv.withHost {s : State} (h : Inv s) (inbox : List HostEvent) (seen : HostSeen) :
    Inv { s with inbox := inbox, seen := seen } :=
  { h with }

theorem Inv.withDb {s : State} (h : Inv s) {db : List Byte} (hl : db.length = s.db.length) : Inv { s with db := db } :=
  { h with db := hl.trans h.db }

theorem State.cur_setCur (s : State) (k j : Fin Config.curSlots) (c : Cursor) :
    (s.setCur k c).cur j = if j = k then c else s.cur j := by
  by_cases h : j = k
  · subst h; simp
  · simp [h]

/-- A cursor may be replaced by one that is closed or sound. -/
theorem Inv.setCur {s : State} (h : Inv s) (k : Fin Config.curSlots) {c : Cursor}
    (hc : c.isOpen = true → CursorInv s.env c) : Inv (s.setCur k c) := by
  refine { h with cursors := fun j hj => ?_ }
  rw [State.cur_setCur] at hj ⊢
  split
  · rename_i e
    rw [if_pos e] at hj
    exact hc hj
  · rename_i e
    rw [if_neg e] at hj
    exact h.cursors j hj

/-- The environment may be replaced by a lawful one with the same parameters in which the file of every open cursor is
present. -/
theorem Inv.withEnv {s : State} (h : Inv s) {e : Env} (hp : e.par = s.env.par) (hm : Memory.wf e.par e.files = true)
    (hf : ∀ k, (s.cur k).isOpen = true → (e.file (s.cur k).fid).isSome = true) : Inv { s with env := e } :=
  { h with
    params := hp ▸ h.params, memory := hm, db := h.db.trans (congrArg Params.dbBytes hp).symm
    cursors := fun k hk => (h.cursors k hk).store hp (hf k hk) }

theorem Inv.asked {s : State} (h : Inv s) : Inv { s with env := s.env.asked } :=
  h.withEnv rfl h.memory fun k hk => (h.cursors k hk).filePresent

/-- What a primitive on an open cursor leaves. -/
theorem onChan_inv {α : Type} {k : Fin Config.curSlots} {f : Chan → Res Chan α} {s : State} {m : Mode} (h : Inv s)
    (ho : OpenFor s k m) (hf : (onChan k f s).leaves (CursorStep k s)) : (onChan k f s).leaves Inv :=
  Res.leaves_mono (fun _ ht => ht.inv ho.isOpen h) hf

/-! ## Canonical tables are short -/

/-- A table whose keys rise from `lo` and stay below `n` has at most `n - lo` entries. -/
theorem length_of_tableRises {α : Type} {t : List (Nat × α)} {lo n : Nat} (hr : tableRises lo t = true)
    (hk : ∀ p ∈ t, p.1 < n) : t.length ≤ n - lo := by
  induction t generalizing lo with
  | nil => exact Nat.zero_le _
  | cons p rest ih =>
    obtain ⟨j, x⟩ := p
    simp only [tableRises, Bool.and_eq_true, decide_eq_true_eq] at hr
    have hj : j < n := hk (j, x) (by simp)
    have := ih hr.2 fun q hq => hk q (List.mem_cons_of_mem _ hq)
    simp only [List.length_cons]
    omega

/-- No more buckets are used than there are slots (R33). -/
theorem Inv.usedSlots_length {s : State} (h : Inv s) : s.usedSlots.length ≤ Config.nsym s.w := by
  obtain ⟨hr, hk⟩ := freqOk_iff.1 h.freq
  simpa [State.usedSlots] using length_of_tableRises hr fun p hp => (hk p hp).1

/-! ## The cursor commands (40_bitcursor.md) -/

/-- A cursor COPEN has bound is sound when its file is there (R128). -/
theorem openedCursor_inv {e : Env} {f : BitVec 16} {n : Nat} (m : Mode) (h1 : 1 ≤ n) (h2 : n ≤ e.par.bufMax)
    (hf : (e.file f).isSome = true) : CursorInv e (openedCursor f m n) where
  sizePos := h1
  sizeMax := h2
  bufLen := List.length_replicate
  fposMax := by simp [openedCursor]
  fposWrite _ := Nat.zero_le _
  byteLe := Nat.zero_le _
  validLe := Nat.zero_le _
  readPos _ := ⟨Nat.le_refl _, Nat.le_refl _⟩
  writePos _ _ := rfl
  padZero _ hb := absurd rfl hb
  filePresent := hf

theorem openedEnv_par (e : Env) (f : BitVec 16) (m : Mode) : (openedEnv e f m).par = e.par := by cases m <;> rfl

theorem openedEnv_wf {e : Env} {f : BitVec 16} {m : Mode} (h : Memory.wf e.par e.files = true) (hf : f.toNat < e.par.nfid) :
    Memory.wf (openedEnv e f m).par (openedEnv e f m).files = true := by
  cases m with
  | read => exact h
  | write => exact Env.setFile_wf h hf (Nat.zero_le _)

/-- An open deletes no file. -/
theorem openedEnv_present {e : Env} {f g : BitVec 16} {m : Mode} (h : (e.file g).isSome = true) :
    ((openedEnv e f m).file g).isSome = true := by
  cases m with
  | read => exact h
  | write =>
    show (tableGet (tableSet e.files f.toNat []) g.toNat).isSome = true
    rw [tableGet_tableSet]
    split
    · rfl
    · exact h

/-- The file of an open that succeeds is present: it was there, or the open for write has created it (R128). -/
theorem openedEnv_self {e : Env} {f : BitVec 16} {m : Mode} (h : ¬ (m = .read ∧ e.file f = none)) :
    ((openedEnv e f m).file f).isSome = true := by
  cases m with
  | read =>
    cases hf : e.file f with
    | none => exact absurd ⟨rfl, hf⟩ h
    | some b => simp [openedEnv, hf]
  | write => simp [openedEnv, Env.setFile, Env.file]

/-- Everything COPEN can answer (R128). -/
theorem copen_cases (m : Mode) (k : Fin Config.curSlots) (s : State) :
    (∃ e, copen m k s = .raise e s) ∨ copen m k s = .raise .ioFailure { s with env := s.env.asked } ∨
      ((s.cur k).isOpen = false ∧ s.a0.toNat < s.env.par.nfid ∧ 1 ≤ s.a1.toNat ∧ s.a1.toNat ≤ s.env.par.bufMax ∧
        ¬ (m = .read ∧ s.env.file (s.a0.setWidth 16) = none) ∧
        copen m k s = .ok () (s.putChan k
          ⟨openedCursor (s.a0.setWidth 16) m s.a1.toNat, openedEnv s.env.asked (s.a0.setWidth 16) m⟩)) := by
  unfold copen
  split
  · exact .inl ⟨_, rfl⟩
  · rename_i ho
    split
    · exact .inl ⟨_, rfl⟩
    · rename_i hr
      split
      · exact .inl ⟨_, rfl⟩
      · rename_i hf
        split
        · exact .inr (.inl rfl)
        · exact .inr (.inr ⟨by simpa using ho, by omega, by omega, by omega, hf, rfl⟩)

theorem copen_inv {s : State} (h : Inv s) (m : Mode) (k : Fin Config.curSlots) : (copen m k s).leaves Inv := by
  rcases copen_cases m k s with ⟨e, he⟩ | he | ⟨_, hf, h1, h2, hp, he⟩ <;> rw [he]
  · exact h
  · exact h.asked
  · have hpar := openedEnv_par s.env.asked (s.a0.setWidth 16) m
    have hlt : (s.a0.setWidth 16).toNat < s.env.par.nfid :=
      Nat.lt_of_le_of_lt (by simpa using Nat.mod_le _ _) hf
    have he : Inv { s with env := openedEnv s.env.asked (s.a0.setWidth 16) m } :=
      h.withEnv hpar (openedEnv_wf h.memory hlt) fun j hj => openedEnv_present (h.cursors j hj).filePresent
    exact he.setCur k fun _ => openedCursor_inv m h1 (h2.trans (Nat.le_of_eq (congrArg Params.bufMax hpar).symm))
      (openedEnv_self hp)

theorem cclose_inv {s : State} (h : Inv s) (k : Fin Config.curSlots) : (cclose k s).leaves Inv := by
  unfold cclose
  split
  · exact h
  · rename_i ho
    refine Res.leaves_bind (P := Inv) ?_ fun _ t _ ht => ht.setCur k fun hc => (by cases hc)
    split
    · rename_i hm
      exact onChan_inv h ⟨by simpa using ho, hm⟩ (onChan_flush hm)
    · exact h

theorem readToDb_inv {s : State} {k : Fin Config.curSlots} (h : Inv s) (ho : OpenFor s k .read) (n : Nat) :
    (readToDb n k s).leaves Inv :=
  Res.leaves_bind (onChan_inv h ho (onChan_readBits n ho.mode)) fun bits t _ ht =>
    (ht.withDb (setBits_length t.db 0 bits)).withRegs (resultReg bits.length) _ _ _

/-- The direction of a cursor apart, a seek leaves a read cursor sound: `BIT_P` may be any position (R136). -/
theorem CursorInv.withBitP {e : Env} {c : Cursor} (h : CursorInv e c) (hm : c.mode = .read) (b : Fin 8) :
    CursorInv e { c with bitP := b } :=
  { h with
    writePos := fun hw => by cases hm.symm.trans hw
    padZero := fun hw => by cases hm.symm.trans hw }

theorem seekTo_step {p : Nat} {ch : Chan} (hm : ch.cur.mode = .read) (hp : p < 2 ^ 64) :
    (seekTo p ch).leaves (ChanStep ch) := by
  have hf := fillAt_step (p := p / 8) hm (by omega)
  refine Res.leaves_bind (Res.leaves_mono (fun _ h => h.1) hf) fun n ch1 _ h => ?_
  exact ⟨h.isOpen, h.mode, h.fid, h.bufsz, h.env, fun w i => (h.inv w i).withBitP (h.mode.trans hm) _⟩

theorem onChan_seekTo {k : Fin Config.curSlots} {s : State} {p : Nat} (hm : (s.cur k).mode = .read) (hp : p < 2 ^ 64) :
    (onChan k (seekTo p) s).leaves (CursorStep k s) :=
  onChan_cursorStep (seekTo_step (ch := s.chan k) hm hp)

/-- Everything CHSEEK can answer behind the cursor check (R138). -/
theorem chseek_cases {k : Fin Config.curSlots} {s : State} (ho : OpenFor s k .write) :
    (∃ e, chseek k s = .raise e s) ∨ chseek k s = .stuck .fileAbsent ∨
      ∃ b, s.env.file (s.cur k).fid = some b ∧ (s.cur k).byteP = 0 ∧ (s.cur k).bitP = 0 ∧ s.a0.toNat ≤ b.length ∧
        chseek k s = .ok () (s.setCur k { s.cur k with fpos := s.a0.toNat }) := by
  unfold chseek
  rw [curCheck_ok ho.isOpen ho.mode, Res.bind_ok]
  split
  · exact .inl ⟨_, rfl⟩
  · rename_i hb
    rw [not_or, not_not, not_not] at hb
    split
    · exact .inr (.inl rfl)
    · rename_i b hf
      split
      · exact .inl ⟨_, rfl⟩
      · exact .inr (.inr ⟨b, hf, hb.1, hb.2, by omega, rfl⟩)

theorem chseek_inv {s : State} (h : Inv s) (k : Fin Config.curSlots) : (chseek k s).leaves Inv := by
  rcases curCheck_cases k .write s with ⟨ho, hm, _⟩ | ⟨_, e⟩ | ⟨_, _, e⟩
  · rcases chseek_cases ⟨ho, hm⟩ with ⟨e, he⟩ | he | ⟨b, hf, _, h0, hl, he⟩ <;> rw [he]
    · exact h
    · trivial
    · have i := h.cursors k ho
      have hb := Memory.length_le h.memory hf
      have hp := (Params.bounds h.params).2.2.2.2
      refine h.setCur k fun _ => { i with fposMax := ?_, fposWrite := fun _ => ?_, readPos := fun hr => ?_ }
      · simp only; omega
      · exact hl.trans hb
      · cases hm.symm.trans hr
  · rw [chseek, e]; exact h
  · rw [chseek, e]; exact h

/-! ## The histogram commands (41_wordalphabet_histogram.md) -/

theorem slotOperand_eq_some {s : State} {i : Nat} (h : s.slotOperand = some i) : i = s.a0.toNat ∧ i < Config.nsym s.w := by
  unfold State.slotOperand at h
  split at h
  · obtain rfl := Option.some.inj h
    exact ⟨rfl, ‹_›⟩
  · cases h

/-- A bucket other than the tail's may hold any count. -/
theorem Inv.setBucket {s : State} (h : Inv s) {i : Nat} {x : BitVec 64} (hi : i < Config.nsym s.w) (ht : i ≠ s.tailIdx) :
    Inv { s with freq := freqSet s.freq i x } := by
  refine { h with freq := freqOk_freqSet h.freq hi, bucket := fun hb => h.bucket ?_ }
  have e : freqGet (freqSet s.freq i x) s.tailIdx = s.freqAt s.tailIdx := by
    rw [freqGet_freqSet (freqOk_iff.1 h.freq).1, if_neg ht.symm]
    rfl
  exact e ▸ hb

theorem fwr_inv {s : State} (h : Inv s) : (fwr s).leaves Inv := by
  unfold fwr
  split
  · exact h
  · rename_i i hi
    have hlt := (slotOperand_eq_some hi).2
    split
    · split
      · rename_i hd
        simp only [descOk, Bool.and_eq_true, decide_eq_true_eq] at hd
        exact { h with
          freq := freqOk_freqSet h.freq hlt, bucket := fun _ => rfl
          tail := by simp [tailOk, hd.1.2, hd.2] }
      · exact h
    · rename_i ht
      exact h.setBucket hlt ht

/-! ## The tree commands (42_treebuilder.md, 44_treecodec.md) -/

theorem tbins_inv {s : State} (h : Inv s) : (tbins s).leaves Inv := by
  unfold tbins
  split
  · exact h
  · split
    · exact h
    · rename_i i _ ht
      split
      · exact h
      · refine addLeaf_inv h (fun e => ?_) (Nat.lt_of_le_of_ne h.heapCap ‹_›)
        simpa [e] using ht

theorem tbext_inv {s : State} (h : Inv s) : (tbext s).leaves Inv := by
  unfold tbext
  split
  · exact h
  · exact buildTree_inv _ h

/-- The leaves of a histogram fit into the empty heap (R174, D23). -/
theorem usedSlots_fit {s : State} (h : Inv s) :
    (freeTree s).heap.length + s.usedSlots.length ≤ Config.heapCap (freeTree s).w := by
  simpa [Config.heapCap] using h.usedSlots_length

theorem tbuild_inv {s : State} (h : Inv s) : (tbuild s).leaves Inv :=
  Res.leaves_bind (addLeaves_inv _ h.freeTree (usedSlots_fit h)) fun _ _ _ ht => tbext_inv ht

/-- A tree that has been read completely is the whole pool (R208). -/
theorem NodeRead.inv {k : Fin Config.curSlots} {s t : State} {n : Nat} (h : NodeRead k s n t) (hs : s.nodes = []) :
    Inv { t with root := some n } := by
  have hn : n = 0 := by rw [h.root, hs]; rfl
  subst hn
  have hw := h.w
  have hp := h.piece
  rw [← hw] at hp
  exact { h.reading.inv with
    poolCap := h.reading.cap
    pool := fun x hx => by
      obtain ⟨i, hi, rfl⟩ := List.getElem_of_mem hx
      have := hp.laws i (Nat.zero_le _) hi
      rwa [nodeAt, List.getD_eq_getElem _ _ hi] at this
    heapCap := by rw [h.reading.heap]; exact Nat.zero_le _
    heap := fun x hx => by rw [h.reading.heap] at hx; cases hx
    root := fun r hr => by
      obtain rfl := Option.some.inj hr
      simpa using hp.tree }

theorem freeTree_reading {k : Fin Config.curSlots} {s : State} (h : Inv s) (ho : OpenFor s k .read) :
    Reading k (freeTree s) :=
  ⟨h.freeTree, ho.isOpen, ho.mode, rfl, rfl, Nat.zero_le _⟩

theorem tread_inv {s : State} (h : Inv s) (k : Fin Config.curSlots) : (tread k s).leaves Inv := by
  refine curCheck_leaves h fun ho => ?_
  have hg := readNode_gives k s.a0.toNat (Config.nodeCap s.w + 1) 0 (freeTree_reading h ho)
  cases hr : readNode k s.a0.toNat (Config.nodeCap s.w + 1) 0 (freeTree s) with
  | ok r t =>
    rw [hr] at hg
    exact (NodeRead.inv hg rfl).withRegs (resultReg r.2) _ _ _
  | raise e t =>
    rw [hr] at hg
    exact hg
  | stuck f => trivial

theorem twrite_inv {s : State} (h : Inv s) (k : Fin Config.curSlots) : (twrite k s).leaves Inv := by
  refine curCheck_leaves h fun ho => ?_
  split
  · exact h
  · refine Res.leaves_bind (Res.leaves_mono (fun _ ht => ht.inv ho.isOpen h) (writeNode_step k _ _ ho.mode)) fun n t _ ht => ?_
    exact ht.withRegs (resultReg n) _ _ _

/-- CTBUILD on a lawful block (R191). -/
theorem buildCodes_inv {s : State} (h : Inv s) : (buildCodes s).leaves Inv := by
  unfold buildCodes
  split
  · exact h
  · split
    · exact storeCode_inv h (by simp)
    · rename_i hl
      exact codeWalk_inv _ _ _ h fun _ => by simpa using hl

theorem ctrd_inv {s : State} (h : Inv s) : (ctrd s).leaves Inv := by
  unfold ctrd
  split
  · exact h
  · split
    · exact h.withRegs 0 0 _ _
    · rename_i pat _
      exact (h.withDb (setBits_length s.db 0 _)).withRegs (resultReg pat.length) (resultReg _) _ _

/-! ## Every command, and every act of the host -/

theorem setWordSize_inv {s : State} (h : Inv s) (w : WordSize) : Inv (setWordSize w s) where
  params := h.params
  memory := h.memory
  cursors := h.cursors
  db := h.db
  freq := rfl
  tail := tailOk_none _
  bucket hb := absurd rfl hb
  code := rfl
  poolCap := Nat.zero_le _
  pool _ hn := by cases hn
  heapCap := Nat.zero_le _
  heap _ hn := by cases hn
  root _ hr := by cases hr
  status := h.status

/-- The body of every command keeps the invariant. -/
theorem bodyOf_inv (i : Instr) {s : State} (h : Inv s) : (bodyOf i s).leaves Inv := by
  cases i with
  | nop => exact h
  | srst => exact Inv.resetBlock h.params h.memory
  | cfgw imm =>
    simp only [bodyOf, cfgw]
    split
    · exact h
    · exact setWordSize_inv h _
  | copen ca m => exact oneCursor_leaves h fun k _ => copen_inv h m k
  | cclose ca => exact oneCursor_leaves h fun k _ => cclose_inv h k
  | crdbits ca | crdbytes ca =>
    refine oneCursor_leaves h fun k _ => curCheck_leaves h fun ho => ?_
    split
    · exact h
    · exact readToDb_inv h ho _
  | cwrbits ca | cwrbytes ca =>
    refine oneCursor_leaves h fun k _ => curCheck_leaves h fun ho => ?_
    split
    · exact h
    · exact onChan_inv h ho (onChan_writeBits _ ho.mode)
  | cflush ca =>
    exact oneCursor_leaves h fun k _ => curCheck_leaves h fun ho => onChan_inv h ho (onChan_flush ho.mode)
  | cseekbits ca =>
    exact oneCursor_leaves h fun k _ => curCheck_leaves h fun ho =>
      onChan_inv h ho (onChan_seekTo ho.mode s.a0.isLt)
  | ctell ca =>
    refine oneCursor_leaves h fun k _ => ?_
    unfold ctell
    split
    · exact h
    · exact h.withRegs (resultReg (absBitPos (s.cur k))) _ _ _
  | chseek ca => exact oneCursor_leaves h fun k _ => chseek_inv h k
  | hclr => exact h.clearHistogram
  | hscan ca =>
    refine oneCursor_leaves h fun k _ => curCheck_leaves h fun ho => ?_
    refine Res.leaves_bind (scanLoop_inv k _ _ h.clearHistogram (ho.same rfl)) fun r t _ ht => ?_
    exact ht.withRegs (resultReg r.1) (resultReg r.2) _ _
  | frd =>
    simp only [bodyOf, frd]
    split
    · exact h
    · exact h.withRegs (s.freqAt _) _ _ _
  | fwr => exact fwr_inv h
  | tbinit => exact h.freeTree
  | tbins => exact tbins_inv h
  | tbext => exact tbext_inv h
  | tbuild => exact tbuild_inv h
  | nrd =>
    simp only [bodyOf, nrd]
    split
    · exact h
    · exact h.withRegs _ _ _ _
  | ctbuild => exact buildCodes_inv h.clearCodes
  | ctrd => exact ctrd_inv h
  | twrite ca => exact oneCursor_leaves h fun k _ => twrite_inv h k
  | tread ca => exact oneCursor_leaves h fun k _ => tread_inv h k
  | encode ca cb =>
    refine twoCursors_leaves h fun k m _ _ => curCheck_leaves h fun ha => curCheck_leaves h fun hb => ?_
    refine Res.leaves_bind (encodeLoop_inv k m _ _ h ha hb) fun tot t _ ht => ?_
    exact ht.withRegs (resultReg tot) _ _ _
  | decode ca cb =>
    refine twoCursors_leaves h fun k m _ _ => curCheck_leaves h fun ha => curCheck_leaves h fun hb => ?_
    refine Res.leaves_bind (decodeLoop_inv k m _ _ _ _ h ha hb) fun r t _ ht => ?_
    exact ht.withRegs (resultReg r.1) (if r.2 = t.root then 0 else 1) _ _

/-- Every command keeps the invariant. -/
theorem exec_inv {i : Instr} {s t : State} (h : Inv s) (ht : exec i s = .next t) : Inv t :=
  exec_leaves (bodyOf_inv i h) (fun _ hu => hu.endOk) (fun e _ hu => hu.takeError e) ht

theorem writeReg_inv {s : State} (h : Inv s) (off : Nat) (v : Reg) : Inv (writeReg off v s) := by
  unfold writeReg
  split
  · exact h.withRegs v _ _ _
  · exact h.withRegs _ v _ _
  · exact h.withRegs _ _ v _
  · exact h.withRegs _ _ _ v
  · unfold writeHigh
    split
    · exact h.withDb List.length_set
    · exact h

/-- A change of a file that breaks no cursor's duty leaves the files of the open cursors present (R79). -/
theorem hostFileEnv_present {s : State} (h : Inv s) {f : BitVec 16} {b : Option (List Byte)} (hd : someDuty s f b = false)
    {k : Fin Config.curSlots} (hk : (s.cur k).isOpen = true) :
    ((hostFileEnv s.env f b).file (s.cur k).fid).isSome = true := by
  have hp := (h.cursors k hk).filePresent
  cases b with
  | some b =>
    show (tableGet (tableSet s.env.files f.toNat b) _).isSome = true
    rw [tableGet_tableSet]
    split
    · rfl
    · exact hp
  | none =>
    have hne : (s.cur k).fid ≠ f := by
      simpa [breaksDuty, hk] using (List.any_eq_false.1 hd) k (List.mem_finRange k)
    show (tableGet (tableErase s.env.files f.toNat) _).isSome = true
    rw [tableGet_tableErase_ne _ fun e => hne (BitVec.eq_of_toNat_eq e)]
    exact hp

theorem hostSetFile_inv {s t : State} (h : Inv s) {f : BitVec 16} {b : Option (List Byte)}
    (ht : hostSetFile f b s = .next t) : Inv t := by
  obtain ⟨hf, hd, hl, rfl⟩ := hostSetFile_next ht
  refine h.withEnv (hostFileEnv_par _ _ _) ?_ fun k hk => hostFileEnv_present h hd hk
  cases b with
  | some b => exact Env.setFile_wf h.memory hf hl
  | none => exact Env.dropFile_wf h.memory f

/-- Every act of the host keeps the invariant. -/
theorem hostStep_inv {e : HostEvent} {s t : State} (h : Inv s) (ht : hostStep e s = .next t) : Inv t := by
  cases e with
  | write off v =>
    simp only [hostStep] at ht
    split at ht
    · unfold runCmd at ht
      split at ht
      · exact exec_inv h ht
      · cases ht
        exact h.takeError _
    · cases ht
      exact writeReg_inv h off v
  | read off =>
    cases ht
    exact h.withHost _ _
  | setFile f b => exact hostSetFile_inv h ht
  | readFile f =>
    simp only [hostStep, hostReadFile] at ht
    split at ht
    · cases ht
    · cases ht
      exact h.withHost _ _
  | answerIO fails =>
    cases ht
    exact h.withEnv rfl h.memory fun k hk => (h.cursors k hk).filePresent
  | reset =>
    cases ht
    exact Inv.resetBlock h.params h.memory

/-- Settles O9: an idle step changes nothing, and every act of the host keeps the invariant, each command among them. -/
theorem stepKeepsInv : Obligations.StepKeepsInv := by
  intro s t h ht
  rcases step_eq_next ht with rfl | ⟨e, rest, _, he⟩
  · exact h
  · exact hostStep_inv (h.withHost rest s.seen) he

end Sys2Proof.Machine

/-! # Proofs, family "state": what a command leaves alone (O56, O57)

One relation, `CommandFrame`, says for every command what it may change: the registers its rule names as results, the parts
it owns, and the cursors it names with the files they are bound to. Frame statements are read off it. -/

namespace Sys2Proof.Machine

open Sys2Proof

/-! ## Cursors and files -/

/-- Only the cursors in `P` have moved, no binding has changed, and no file but those the cursors in `P` are bound to. -/
structure Moved (P : Fin Config.curSlots → Prop) (s t : State) : Prop where
  par : t.env.par = s.env.par
  others : ∀ j, ¬ P j → t.cur j = s.cur j
  isOpen : ∀ j, (t.cur j).isOpen = (s.cur j).isOpen
  mode : ∀ j, (t.cur j).mode = (s.cur j).mode
  fid : ∀ j, (t.cur j).fid = (s.cur j).fid
  bufsz : ∀ j, (t.cur j).bufsz = (s.cur j).bufsz
  files : ∀ f, (∀ j, P j → (s.cur j).fid ≠ f) → t.env.file f = s.env.file f

section

variable {P : Fin Config.curSlots → Prop} {s t u : State}

/-- `Moved` speaks of the cursors and the environment only. -/
theorem Moved.congr (h : Moved P s t) (hc : u.cursors = t.cursors) (he : u.env = t.env) : Moved P s u := by
  have hcur : ∀ j, u.cur j = t.cur j := fun j => by simp only [State.cur, hc]
  exact ⟨he ▸ h.par, fun j hj => (hcur j).trans (h.others j hj), fun j => hcur j ▸ h.isOpen j, fun j => hcur j ▸ h.mode j,
    fun j => hcur j ▸ h.fid j, fun j => hcur j ▸ h.bufsz j, fun f hf => he ▸ h.files f hf⟩

theorem Moved.refl (P : Fin Config.curSlots → Prop) (s : State) : Moved P s s :=
  ⟨rfl, fun _ _ => rfl, fun _ => rfl, fun _ => rfl, fun _ => rfl, fun _ => rfl, fun _ _ => rfl⟩

theorem Moved.trans (h : Moved P s t) (h' : Moved P t u) : Moved P s u :=
  ⟨h'.par.trans h.par, fun j hj => (h'.others j hj).trans (h.others j hj), fun j => (h'.isOpen j).trans (h.isOpen j),
    fun j => (h'.mode j).trans (h.mode j), fun j => (h'.fid j).trans (h.fid j), fun j => (h'.bufsz j).trans (h.bufsz j),
    fun f hf => (h'.files f fun j hj => by rw [h.fid]; exact hf j hj).trans (h.files f hf)⟩

end

/-- Only the cursors in `P`, the files they are bound to, and the questions to `IO_FAIL` have changed. -/
structure Streamed (P : Fin Config.curSlots → Prop) (s t : State) : Prop where
  block : t = { s with cursors := t.cursors, env := t.env }
  moved : Moved P s t

section

variable {P : Fin Config.curSlots → Prop} {s t u : State} {k : Fin Config.curSlots}

theorem Streamed.refl (P : Fin Config.curSlots → Prop) (s : State) : Streamed P s s := ⟨rfl, Moved.refl P s⟩

theorem Streamed.trans (h : Streamed P s t) (h' : Streamed P t u) : Streamed P s u := by
  refine ⟨?_, h.moved.trans h'.moved⟩
  have e := h'.block
  rw [h.block] at e
  exact e

/-- A cursor primitive moves its own cursor. -/
theorem CursorStep.streamed (h : CursorStep k s t) (hk : P k) : Streamed P s t := by
  have ho : ∀ j, j = k ∨ t.cur j = s.cur j := fun j => (em (j = k)).imp id (h.frame.2 j)
  refine ⟨congrArg (fun u => { u with cursors := t.cursors, env := t.env }) h.frame.1, h.step.env.par, fun j hj => ?_,
    fun j => (h.isOpen j).1, fun j => (h.isOpen j).2, fun j => ?_, fun j => ?_, fun f hf => ?_⟩
  · exact h.frame.2 j fun e => hj (e ▸ hk)
  · rcases ho j with rfl | e
    · exact h.step.fid
    · rw [e]
  · rcases ho j with rfl | e
    · exact h.step.bufsz
    · rw [e]
  · exact h.step.env.others _ fun e => hf k hk (BitVec.eq_of_toNat_eq e.symm)

theorem leaves_streamed {α : Type} {r : Res State α} (h : r.leaves (CursorStep k s)) (hk : P k) :
    r.leaves (Streamed P s) :=
  Res.leaves_mono (fun _ ht => ht.streamed hk) h

theorem Streamed.mode (h : Streamed P s t) {m : Mode} (hm : (s.cur k).mode = m) : (t.cur k).mode = m :=
  (h.moved.mode k).trans hm

/-! ## The loops over streams -/

/-- HSCAN's loop changes its cursor and the histogram (R152). -/
theorem scanLoop_streamed (hk : P k) (fuel nw : Nat) (hm : (s.cur k).mode = .read) :
    (scanLoop k fuel nw s).leaves fun t => Streamed P (clearHistogram s) (clearHistogram t) := by
  induction fuel generalizing nw s with
  | zero => trivial
  | succ fuel ih =>
    have hstep : ∀ t, CursorStep k s t → Streamed P (clearHistogram s) (clearHistogram t) := fun t ht => by
      have h := ht.streamed hk
      exact ⟨congrArg clearHistogram h.block, { h.moved with }⟩
    refine Res.leaves_bind (Res.leaves_mono hstep (nextWord_leaves hm)) fun r t _ ht => ?_
    match r with
    | none => exact ht
    | some (x, len) =>
      have hmt : (t.cur k).mode = .read := ht.mode hm
      simp only
      split
      · exact Res.leaves_mono (fun _ hu => ht.trans hu) (ih (nw + 1) (s := countWord x t) hmt)
      · exact ht

/-- ENCODE's loop changes its two cursors (R221). -/
theorem encodeLoop_streamed {m : Fin Config.curSlots} (hk : P k) (hm : P m) (fuel tot : Nat) (hr : (s.cur k).mode = .read)
    (hw : (s.cur m).mode = .write) : (encodeLoop k m fuel tot s).leaves (Streamed P s) := by
  induction fuel generalizing tot s with
  | zero => trivial
  | succ fuel ih =>
    refine Res.leaves_bind (leaves_streamed (nextWord_leaves hr) hk) fun r t _ ht => ?_
    match r with
    | none => exact ht
    | some (x, len) =>
      simp only
      split
      · exact ht
      · refine Res.leaves_bind (Res.leaves_mono (fun _ hu => ht.trans hu)
          (leaves_streamed (onChan_writeBits _ (ht.mode hw)) hm)) fun _ u _ hu => ?_
        split
        · exact hu
        · exact Res.leaves_mono (fun _ hv => hu.trans hv) (ih _ (hu.mode hr) (hu.mode hw))

/-- DECODE's loop changes its two cursors (R223). -/
theorem decodeLoop_streamed {m : Fin Config.curSlots} (hk : P k) (hm : P m) (n c em : Nat) (cur : Option Nat)
    (hr : (s.cur k).mode = .read) (hw : (s.cur m).mode = .write) : (decodeLoop k m n c em cur s).leaves (Streamed P s) := by
  induction n generalizing c em cur s with
  | zero => exact Streamed.refl P s
  | succ n ih =>
    unfold decodeLoop
    split
    · exact Streamed.refl P s
    · refine Res.leaves_bind (leaves_streamed (onChan_readBit hr) hk) fun b t _ ht => ?_
      cases b with
      | none => exact ht
      | some b =>
        simp only
        split
        · exact ht
        · exact Res.leaves_mono (fun _ hu => ht.trans hu) (ih _ _ _ (ht.mode hr) (ht.mode hw))
        · refine Res.leaves_bind (Res.leaves_mono (fun _ hu => ht.trans hu)
            (leaves_streamed (onChan_writeBits _ (ht.mode hw)) hm)) fun _ u _ hu => ?_
          exact Res.leaves_mono (fun _ hv => hu.trans hv) (ih _ _ _ (hu.mode hr) (hu.mode hw))

/-- What reading a tree may change: its cursor, the pool, ROOT and the heap (R208). -/
def TreeRead (P : Fin Config.curSlots → Prop) (s t : State) : Prop := Streamed P (freeTree s) (freeTree t)

theorem TreeRead.mode (h : TreeRead P s t) (hm : (s.cur k).mode = .read) : (t.cur k).mode = .read :=
  Streamed.mode (s := freeTree s) (t := freeTree t) h hm

theorem need_treeRead (hk : P k) (D cnt n : Nat) (hm : (s.cur k).mode = .read) :
    (need k D cnt n s).leaves (TreeRead P s) := by
  have hstep : ∀ t, CursorStep k s t → TreeRead P s t := fun t ht => by
    have h := ht.streamed hk
    exact ⟨congrArg freeTree h.block, { h.moved with }⟩
  unfold need
  split
  · exact Streamed.refl P _
  · refine Res.leaves_bind ?_ fun bits t _ ht => ?_
    · have hs := Res.leaves_mono hstep (onChan_readBits n hm)
      unfold readOrFree
      cases hr : onChan k (readBits n) s <;> rw [hr] at hs <;> exact hs
    · split <;> exact ht

/-- One piece of TREAD after another: the cursor is still a read cursor. -/
theorem treeRead_bind {α β : Type} {r : Res State α} {f : α → State → Res State β} (hm : (s.cur k).mode = .read)
    (hr : r.leaves (TreeRead P s)) (hf : ∀ a u, (u.cur k).mode = .read → (f a u).leaves (TreeRead P u)) :
    (r.bind f).leaves (TreeRead P s) :=
  Res.leaves_bind hr fun a u _ hu => Res.leaves_mono (fun _ hv => Streamed.trans hu hv) (hf a u (hu.mode hm))

theorem readLeaf_treeRead (hk : P k) (D cnt : Nat) (hm : (s.cur k).mode = .read) :
    (readLeaf k D cnt s).leaves (TreeRead P s) := by
  refine treeRead_bind hm ?_ fun r t ht =>
    treeRead_bind ht (need_treeRead hk D r.2 r.1 ht) fun _ u _ => Streamed.refl P _
  refine treeRead_bind hm (need_treeRead hk D cnt 1 hm) fun fl t ht => ?_
  split
  · exact Streamed.refl P _
  · refine treeRead_bind ht (need_treeRead hk D (cnt + 1) Config.lenf ht) fun len u _ => ?_
    split <;> exact Streamed.refl P _

/-- `ReadNode` changes its cursor, the pool, ROOT and the heap (R209). -/
theorem readNode_treeRead (hk : P k) (D fuel cnt : Nat) (hm : (s.cur k).mode = .read) :
    (readNode k D fuel cnt s).leaves (TreeRead P s) := by
  induction fuel generalizing cnt s with
  | zero => exact Streamed.refl P _
  | succ fuel ih =>
    unfold readNode
    split
    · exact Streamed.refl P _
    · rename_i hc
      rcases alloc_cases freshNode s with ⟨h, _⟩ | ⟨_, e⟩
      · exact absurd h hc
      · rw [e, Res.bind_ok]
        refine treeRead_bind (s := { s with nodes := _ }) hm (need_treeRead hk D cnt 1 hm) fun st t ht => ?_
        split
        · exact treeRead_bind ht (readLeaf_treeRead hk D (cnt + 1) ht) fun _ u _ => Streamed.refl P _
        · refine treeRead_bind ht (ih (cnt + 1) ht) fun l u hu => ?_
          exact treeRead_bind (s := updateNode _ _ u) hu (ih l.2 hu) fun _ v _ => Streamed.refl P _

end

/-! ## The commands over the tree and the codes -/

/-- States that differ in the tree only: the pool, ROOT and the heap. -/
theorem eq_of_freeTree {s t : State} (h : freeTree t = freeTree s) :
    t = { s with nodes := t.nodes, root := t.root, heap := t.heap } := by
  cases s; cases t; simp_all [freeTree]

/-- States that differ in the codes only. -/
theorem eq_of_clearCodes {s t : State} (h : clearCodes t = clearCodes s) : t = { s with code := t.code } := by
  cases s; cases t; simp_all [clearCodes]

/-- States that differ in the histogram only. -/
theorem eq_of_clearHistogram {s t : State} (h : clearHistogram t = clearHistogram s) :
    t = { s with freq := t.freq, tail := t.tail } := by
  cases s; cases t; simp_all [clearHistogram]

theorem addLeaf_freeTree (i : Nat) (s : State) : (addLeaf i s).leaves fun t => freeTree t = freeTree s := by
  rcases addLeaf_cases i s with ⟨_, e⟩ | ⟨_, e⟩ <;> rw [e] <;> rfl

theorem addLeaves_freeTree (is : List Nat) (s : State) : (addLeaves is s).leaves fun t => freeTree t = freeTree s := by
  induction is generalizing s with
  | nil => rfl
  | cons i is ih =>
    unfold addLeaves
    split
    · rfl
    · exact Res.leaves_bind (addLeaf_freeTree i s) fun _ t _ ht => Res.leaves_mono (fun _ hu => hu.trans ht) (ih t)

theorem buildTree_freeTree (fuel : Nat) (s : State) : (buildTree fuel s).leaves fun t => freeTree t = freeTree s := by
  induction fuel generalizing s with
  | zero => rfl
  | succ fuel ih =>
    rcases buildTree_cases fuel s with ⟨_, e⟩ | ⟨r, _, e⟩ | ⟨a, b, rest, rest', _, _, e⟩ <;> rw [e]
    · rfl
    · rfl
    · rcases merge_cases a b { s with heap := heapRest (freqOf s.nodes) rest' } with ⟨_, e⟩ | ⟨_, _, e⟩ | ⟨_, _, e⟩ <;>
        rw [e]
      · rfl
      · rfl
      · exact ih _

theorem tbins_freeTree (s : State) : (tbins s).leaves fun t => freeTree t = freeTree s := by
  unfold tbins
  split
  · rfl
  · split
    · rfl
    · split
      · rfl
      · exact addLeaf_freeTree _ s

theorem tbext_freeTree (s : State) : (tbext s).leaves fun t => freeTree t = freeTree s := by
  unfold tbext
  split
  · rfl
  · exact buildTree_freeTree _ s

theorem tbuild_freeTree (s : State) : (tbuild s).leaves fun t => freeTree t = freeTree s :=
  Res.leaves_bind (addLeaves_freeTree s.usedSlots (freeTree s)) fun _ t _ ht =>
    Res.leaves_mono (fun _ hu => hu.trans ht) (tbext_freeTree t)

theorem storeCode_clearCodes (n : Node) (pat : Bits) (s : State) :
    (storeCode n pat s).leaves fun t => clearCodes t = clearCodes s := by
  unfold storeCode
  split <;> rfl

theorem codeWalk_clearCodes (fuel n : Nat) (pat : Bits) (s : State) :
    (codeWalk fuel n pat s).leaves fun t => clearCodes t = clearCodes s := by
  induction fuel generalizing n pat s with
  | zero => trivial
  | succ fuel ih =>
    unfold codeWalk
    split
    · exact storeCode_clearCodes _ _ _
    · split
      · exact Res.leaves_bind (ih _ _ s) fun _ t _ ht => Res.leaves_mono (fun _ hu => hu.trans ht) (ih _ _ t)
      · rfl

theorem buildCodes_clearCodes (s : State) : (buildCodes s).leaves fun t => clearCodes t = clearCodes s := by
  unfold buildCodes
  split
  · rfl
  · split
    · exact storeCode_clearCodes _ _ _
    · exact codeWalk_clearCodes _ _ _ _

theorem fwr_clearHistogram (s : State) : (fwr s).leaves fun t => clearHistogram t = clearHistogram s := by
  unfold fwr
  split
  · rfl
  · split
    · split <;> rfl
    · rfl

/-! ## The frame of a command -/

/-- The registers and parts a command may change (R21, R26, R303, R304, R305), and the host's own. -/
structure BlockFrame (i : Instr) (s t : State) : Prop where
  a0 : 0 ∉ resultRegs i → t.a0 = s.a0
  a1 : 1 ∉ resultRegs i → t.a1 = s.a1
  a2 : 2 ∉ resultRegs i → t.a2 = s.a2
  a3 : 3 ∉ resultRegs i → t.a3 = s.a3
  wordSize : .wordSize ∉ partsOf i → t.w = s.w
  histogram : .histogram ∉ partsOf i → t.freq = s.freq ∧ t.tail = s.tail
  tree : .tree ∉ partsOf i → t.nodes = s.nodes ∧ t.root = s.root ∧ t.heap = s.heap
  codes : .codes ∉ partsOf i → t.code = s.code
  buffer : .buffer ∉ partsOf i → t.db = s.db
  host : t.inbox = s.inbox ∧ t.seen = s.seen

/-- The cursors in `P` are those the command may move, open or close (R30, R78, R279). -/
structure CursorFrame (P : Fin Config.curSlots → Prop) (s t : State) : Prop where
  par : t.env.par = s.env.par
  others : ∀ j, ¬ P j → t.cur j = s.cur j
  binding : ∀ j, (s.cur j).isOpen = true → (t.cur j).isOpen = true →
    (t.cur j).mode = (s.cur j).mode ∧ (t.cur j).fid = (s.cur j).fid ∧ (t.cur j).bufsz = (s.cur j).bufsz
  files : ∀ f, (∀ j, P j → (s.cur j).fid ≠ f ∧ (t.cur j).fid ≠ f) → t.env.file f = s.env.file f

/-- The command names the cursor `k`. -/
def namesCursor (i : Instr) (s : State) (k : Fin Config.curSlots) : Prop := ∃ c ∈ cursorsOf i, s.cursorOf? c = some k

/-- What a command other than SRST leaves alone. -/
structure CommandFrame (i : Instr) (s t : State) : Prop where
  block : BlockFrame i s t
  cursors : CursorFrame (namesCursor i s) s t

theorem Moved.cursorFrame {P : Fin Config.curSlots → Prop} {s t : State} (h : Moved P s t) : CursorFrame P s t :=
  ⟨h.par, h.others, fun j _ _ => ⟨h.mode j, h.fid j, h.bufsz j⟩, fun f hf => h.files f fun j hj => (hf j hj).1⟩

theorem BlockFrame.refl (i : Instr) (s : State) : BlockFrame i s s :=
  ⟨fun _ => rfl, fun _ => rfl, fun _ => rfl, fun _ => rfl, fun _ => rfl, fun _ => ⟨rfl, rfl⟩, fun _ => ⟨rfl, rfl, rfl⟩,
    fun _ => rfl, fun _ => rfl, rfl, rfl⟩

/-- A command that changes nothing, or fails at once. -/
theorem CommandFrame.refl (i : Instr) (s : State) : CommandFrame i s s :=
  ⟨BlockFrame.refl i s, (Moved.refl _ s).cursorFrame⟩

/-- A command that touches no cursor and no file. -/
theorem BlockFrame.command {i : Instr} {s t : State} (h : BlockFrame i s t) (hc : t.cursors = s.cursors) (he : t.env = s.env) :
    CommandFrame i s t :=
  ⟨h, ((Moved.refl _ s).congr hc he).cursorFrame⟩

/-- The end of a command writes STATUS and EINFO only (R270). -/
theorem CommandFrame.endOk {i : Instr} {s t : State} (h : CommandFrame i s t) : CommandFrame i s (endOk t) :=
  ⟨{ h.block with }, { h.cursors with }⟩

theorem CommandFrame.takeError {i : Instr} {s t : State} (h : CommandFrame i s t) (e : Err) :
    CommandFrame i s (takeError e t) :=
  ⟨{ h.block with }, { h.cursors with }⟩

theorem Streamed.blockFrame {P : Fin Config.curSlots → Prop} {i : Instr} {s t : State} (h : Streamed P s t) :
    BlockFrame i s t := by
  rw [h.block]
  exact { BlockFrame.refl i s with }

/-- A command that only moves cursors it names. -/
theorem Streamed.command {i : Instr} {s t : State} (h : Streamed (namesCursor i s) s t) : CommandFrame i s t :=
  ⟨h.blockFrame, h.moved.cursorFrame⟩

/-! ## Results -/

section

variable {i : Instr} {s t u : State}

theorem CommandFrame.withA0 (h : CommandFrame i s t) (hi : 0 ∈ resultRegs i) (v : Reg) :
    CommandFrame i s { t with a0 := v } :=
  ⟨{ h.block with a0 := fun hn => absurd hi hn }, { h.cursors with }⟩

theorem CommandFrame.withA1 (h : CommandFrame i s t) (hi : 1 ∈ resultRegs i) (v : Reg) :
    CommandFrame i s { t with a1 := v } :=
  ⟨{ h.block with a1 := fun hn => absurd hi hn }, { h.cursors with }⟩

theorem CommandFrame.withDb (h : CommandFrame i s t) (hi : .buffer ∈ partsOf i) (db : List Byte) :
    CommandFrame i s { t with db := db } :=
  ⟨{ h.block with buffer := fun hn => absurd hi hn }, { h.cursors with }⟩

/-- A command that owns the histogram may change it. -/
theorem CommandFrame.ofHistogram (hi : .histogram ∈ partsOf i) (h : CommandFrame i s u)
    (hu : clearHistogram t = clearHistogram u) : CommandFrame i s t := by
  rw [eq_of_clearHistogram hu]
  exact ⟨{ h.block with histogram := fun hn => absurd hi hn }, { h.cursors with }⟩

/-- A command that owns the tree may change it. -/
theorem CommandFrame.ofTree (hi : .tree ∈ partsOf i) (h : CommandFrame i s u) (hu : freeTree t = freeTree u) :
    CommandFrame i s t := by
  rw [eq_of_freeTree hu]
  exact ⟨{ h.block with tree := fun hn => absurd hi hn }, { h.cursors with }⟩

/-- A command that owns the codes may change them. -/
theorem CommandFrame.ofCodes (hi : .codes ∈ partsOf i) (h : CommandFrame i s u) (hu : clearCodes t = clearCodes u) :
    CommandFrame i s t := by
  rw [eq_of_clearCodes hu]
  exact ⟨{ h.block with codes := fun hn => absurd hi hn }, { h.cursors with }⟩

/-- A command that owns the histogram and otherwise only moves cursors it names. -/
theorem CommandFrame.ofStreamedHistogram (hi : .histogram ∈ partsOf i)
    (h : Streamed (namesCursor i s) (clearHistogram s) (clearHistogram t)) : CommandFrame i s t := by
  have hu : Streamed (namesCursor i s) s { s with cursors := t.cursors, env := t.env } := ⟨rfl, { h.moved with }⟩
  exact hu.command.ofHistogram hi h.block

/-- A command that owns the tree and otherwise only moves cursors it names. -/
theorem CommandFrame.ofTreeRead (hi : .tree ∈ partsOf i) (h : TreeRead (namesCursor i s) s t) : CommandFrame i s t := by
  have hu : Streamed (namesCursor i s) s { s with cursors := t.cursors, env := t.env } := ⟨rfl, { h.moved with }⟩
  exact hu.command.ofTree hi h.block

end

/-! ## One command after the other -/

section

variable {i : Instr} {s : State} {k : Fin Config.curSlots}

/-- What a primitive on a cursor the command names leaves. -/
theorem onChan_frame {α : Type} {f : Chan → Res Chan α} (hk : namesCursor i s k)
    (h : (onChan k f s).leaves (CursorStep k s)) : (onChan k f s).leaves (CommandFrame i s) :=
  Res.leaves_mono (fun _ ht => (ht.streamed hk).command) h

theorem copen_frame (hk : namesCursor i s k) (m : Mode) : (copen m k s).leaves (CommandFrame i s) := by
  rcases copen_cases m k s with ⟨e, he⟩ | he | ⟨ho, _, _, _, _, he⟩ <;> rw [he]
  · exact CommandFrame.refl i s
  · exact Streamed.command ⟨rfl, { Moved.refl _ s with }⟩
  · refine ⟨{ BlockFrame.refl i s with }, openedEnv_par _ _ _, fun j hj => ?_, fun j hj _ => ?_, fun f hf => ?_⟩
    · exact State.putChan_cur_ne s _ (fun e : j = k => hj (e ▸ hk))
    · have : j ≠ k := fun e => by rw [e, ho] at hj; cases hj
      rw [State.putChan_cur_ne s _ this]
      exact ⟨rfl, rfl, rfl⟩
    · have hk' := (hf k hk).2
      rw [State.putChan_cur_self] at hk'
      cases m with
      | read => rfl
      | write => exact tableGet_tableSet_ne _ _ fun e => hk' (BitVec.eq_of_toNat_eq e.symm)

theorem cclose_frame (hk : namesCursor i s k) : (cclose k s).leaves (CommandFrame i s) := by
  unfold cclose
  split
  · exact CommandFrame.refl i s
  · refine Res.leaves_bind (P := CommandFrame i s) ?_ fun _ t _ ht => ?_
    · split
      · exact onChan_frame hk (onChan_flush ‹_›)
      · exact CommandFrame.refl i s
    · have hcur : ∀ j, (t.setCur k { t.cur k with isOpen := false }).cur j =
          if j = k then { t.cur k with isOpen := false } else t.cur j := fun j => State.cur_setCur t k j _
      refine ⟨{ ht.block with }, ht.cursors.par, fun j hj => ?_, fun j hs hj => ?_, fun f hf => ht.cursors.files f fun j hj => ?_⟩
      · rw [hcur, if_neg (fun e : j = k => hj (e ▸ hk))]
        exact ht.cursors.others j hj
      · by_cases e : j = k
        · rw [hcur, if_pos e] at hj; cases hj
        · rw [hcur, if_neg e] at hj ⊢
          exact ht.cursors.binding j hs hj
      · have h := hf j hj
        rw [hcur] at h
        split at h
        · rename_i e
          subst e
          exact h
        · exact h

theorem readToDb_frame (hk : namesCursor i s k) (h0 : 0 ∈ resultRegs i) (hb : .buffer ∈ partsOf i)
    (hm : (s.cur k).mode = .read) (n : Nat) : (readToDb n k s).leaves (CommandFrame i s) :=
  Res.leaves_bind (onChan_frame hk (onChan_readBits n hm)) fun bits t _ ht =>
    (ht.withDb hb (setBits t.db 0 bits)).withA0 h0 (resultReg bits.length)

theorem chseek_frame (hk : namesCursor i s k) : (chseek k s).leaves (CommandFrame i s) := by
  rcases curCheck_cases k .write s with ⟨ho, hm, _⟩ | ⟨_, e⟩ | ⟨_, _, e⟩
  · rcases chseek_cases ⟨ho, hm⟩ with ⟨e, he⟩ | he | ⟨_, _, _, _, _, he⟩ <;> rw [he]
    · exact CommandFrame.refl i s
    · trivial
    · have hcur : ∀ j, (s.setCur k { s.cur k with fpos := s.a0.toNat }).cur j =
          if j = k then { s.cur k with fpos := s.a0.toNat } else s.cur j := fun j => State.cur_setCur s k j _
      refine Streamed.command ⟨rfl, rfl, fun j hj => ?_, fun j => ?_, fun j => ?_, fun j => ?_, fun j => ?_, fun _ _ => rfl⟩
      · rw [hcur, if_neg (fun e : j = k => hj (e ▸ hk))]
      all_goals
        rw [hcur]
        split
        · rename_i e; rw [e]
        · rfl
  · rw [chseek, e]; exact CommandFrame.refl i s
  · rw [chseek, e]; exact CommandFrame.refl i s

theorem ctrd_frame (s : State) : (ctrd s).leaves (CommandFrame .ctrd s) := by
  have h0 : 0 ∈ resultRegs .ctrd := by simp [resultRegs]
  have h1 : 1 ∈ resultRegs .ctrd := by simp [resultRegs]
  unfold ctrd
  split
  · exact CommandFrame.refl _ s
  · split
    · exact ((CommandFrame.refl _ s).withA0 h0 0).withA1 h1 0
    · exact (((CommandFrame.refl _ s).withDb (by simp [partsOf]) _).withA0 h0 _).withA1 h1 _

end

/-- A one-cursor body runs on a cursor the command names. -/
theorem oneCursor_frame {i : Instr} {c : BitVec 4} {f : Fin Config.curSlots → State → Res State Unit} {s : State}
    (hc : c ∈ cursorsOf i) (hf : ∀ k, namesCursor i s k → (f k s).leaves (CommandFrame i s)) :
    (oneCursor i c f s).leaves (CommandFrame i s) :=
  oneCursor_leaves (CommandFrame.refl i s) fun k hk => hf k ⟨c, hc, hk⟩

/-- A two-cursor body runs on two cursors the command names. -/
theorem twoCursors_frame {i : Instr} {a b : BitVec 4}
    {f : Fin Config.curSlots → Fin Config.curSlots → State → Res State Unit} {s : State} (ha : a ∈ cursorsOf i)
    (hb : b ∈ cursorsOf i)
    (hf : ∀ k m, namesCursor i s k → namesCursor i s m → (f k m s).leaves (CommandFrame i s)) :
    (twoCursors i a b f s).leaves (CommandFrame i s) :=
  twoCursors_leaves (CommandFrame.refl i s) fun k m hk hm => hf k m ⟨a, ha, hk⟩ ⟨b, hb, hm⟩

/-- What each command but SRST may change. -/
theorem bodyOf_frame {i : Instr} (hi : i ≠ .srst) (s : State) : (bodyOf i s).leaves (CommandFrame i s) := by
  have hs := CommandFrame.refl i s
  cases i with
  | nop => exact hs
  | srst => exact absurd rfl hi
  | cfgw imm =>
    simp only [bodyOf, cfgw]
    split
    · exact hs
    · refine BlockFrame.command { BlockFrame.refl _ s with wordSize := ?_, histogram := ?_, tree := ?_, codes := ?_ } rfl rfl
      all_goals exact fun h => absurd (by simp [partsOf]) h
  | copen ca m => exact oneCursor_frame (by simp [cursorsOf]) fun k hk => copen_frame hk m
  | cclose ca => exact oneCursor_frame (by simp [cursorsOf]) fun k hk => cclose_frame hk
  | crdbits ca | crdbytes ca =>
    refine oneCursor_frame (by simp [cursorsOf]) fun k hk => curCheck_leaves hs fun ho => ?_
    split
    · exact hs
    · exact readToDb_frame hk (by simp [resultRegs]) (by simp [partsOf]) ho.mode _
  | cwrbits ca | cwrbytes ca =>
    refine oneCursor_frame (by simp [cursorsOf]) fun k hk => curCheck_leaves hs fun ho => ?_
    split
    · exact hs
    · exact onChan_frame hk (onChan_writeBits _ ho.mode)
  | cflush ca =>
    exact oneCursor_frame (by simp [cursorsOf]) fun k hk => curCheck_leaves hs fun ho =>
      onChan_frame hk (onChan_flush ho.mode)
  | cseekbits ca =>
    exact oneCursor_frame (by simp [cursorsOf]) fun k hk => curCheck_leaves hs fun ho =>
      onChan_frame hk (onChan_seekTo ho.mode s.a0.isLt)
  | ctell ca =>
    refine oneCursor_frame (by simp [cursorsOf]) fun k _ => ?_
    unfold ctell
    split
    · exact hs
    · exact hs.withA0 (by simp [resultRegs]) _
  | chseek ca => exact oneCursor_frame (by simp [cursorsOf]) fun k hk => chseek_frame hk
  | hclr => exact hs.ofHistogram (by simp [partsOf]) rfl
  | hscan ca =>
    refine oneCursor_frame (by simp [cursorsOf]) fun k hk => curCheck_leaves hs fun ho => ?_
    have hl := scanLoop_streamed (s := clearHistogram s) hk (streamFuel (s.chan k)) 0 ho.mode
    refine Res.leaves_bind (Res.leaves_mono (fun t ht => CommandFrame.ofStreamedHistogram (by simp [partsOf]) ht) hl)
      fun r t _ ht => ?_
    exact (ht.withA0 (by simp [resultRegs]) _).withA1 (by simp [resultRegs]) _
  | frd =>
    simp only [bodyOf, frd]
    split
    · exact hs
    · exact hs.withA0 (by simp [resultRegs]) _
  | fwr => exact Res.leaves_mono (fun _ => hs.ofHistogram (by simp [partsOf])) (fwr_clearHistogram s)
  | tbinit => exact hs.ofTree (by simp [partsOf]) rfl
  | tbins => exact Res.leaves_mono (fun _ => hs.ofTree (by simp [partsOf])) (tbins_freeTree s)
  | tbext => exact Res.leaves_mono (fun _ => hs.ofTree (by simp [partsOf])) (tbext_freeTree s)
  | tbuild => exact Res.leaves_mono (fun _ => hs.ofTree (by simp [partsOf])) (tbuild_freeTree s)
  | nrd =>
    simp only [bodyOf, nrd]
    split
    · exact hs
    · refine BlockFrame.command { BlockFrame.refl _ s with a0 := ?_, a1 := ?_, a2 := ?_, a3 := ?_ } rfl rfl
      all_goals exact fun h => absurd (by simp [resultRegs]) h
  | ctbuild => exact Res.leaves_mono (fun _ => hs.ofCodes (by simp [partsOf])) (buildCodes_clearCodes (clearCodes s))
  | ctrd => exact ctrd_frame s
  | twrite ca =>
    refine oneCursor_frame (by simp [cursorsOf]) fun k hk => curCheck_leaves hs fun ho => ?_
    split
    · exact hs
    · refine Res.leaves_bind (Res.leaves_mono (fun t ht => ?_) (writeNode_step k _ _ ho.mode)) fun n t _ ht =>
        ht.withA0 (by simp [resultRegs]) _
      exact (ht.streamed hk).command
  | tread ca =>
    refine oneCursor_frame (by simp [cursorsOf]) fun k hk => curCheck_leaves hs fun ho => ?_
    have hl := readNode_treeRead (s := freeTree s) hk s.a0.toNat (Config.nodeCap s.w + 1) 0 ho.mode
    refine Res.leaves_bind (Res.leaves_mono (fun t ht => CommandFrame.ofTreeRead (by simp [partsOf]) ht) hl)
      fun r t _ ht => ?_
    exact (ht.ofTree (t := { t with root := some r.1 }) (by simp [partsOf]) rfl).withA0 (by simp [resultRegs]) _
  | encode ca cb =>
    refine twoCursors_frame (by simp [cursorsOf]) (by simp [cursorsOf]) fun k m hk hm =>
      curCheck_leaves hs fun ha => curCheck_leaves hs fun hb => ?_
    have hl := encodeLoop_streamed hk hm (streamFuel (s.chan k)) 0 ha.mode hb.mode
    exact Res.leaves_bind (Res.leaves_mono (fun _ ht => ht.command) hl) fun tot t _ ht => ht.withA0 (by simp [resultRegs]) _
  | decode ca cb =>
    refine twoCursors_frame (by simp [cursorsOf]) (by simp [cursorsOf]) fun k m hk hm =>
      curCheck_leaves hs fun ha => curCheck_leaves hs fun hb => ?_
    have hl := decodeLoop_streamed hk hm s.a0.toNat 0 0 s.root ha.mode hb.mode
    refine Res.leaves_bind (Res.leaves_mono (fun _ ht => ht.command) hl) fun r t _ ht => ?_
    exact (ht.withA0 (by simp [resultRegs]) _).withA1 (by simp [resultRegs]) _

/-- What every command but SRST leaves alone. -/
theorem exec_frame {i : Instr} {s t : State} (hi : i ≠ .srst) (h : exec i s = .next t) : CommandFrame i s t :=
  exec_leaves (bodyOf_frame hi s) (fun _ hu => hu.endOk) (fun e _ hu => hu.takeError e) h

/-- SRST resets the block (R236). -/
theorem exec_srst {s t : State} (h : exec .srst s = .next t) : t = endOk (resetBlock s) := (Host.Outcome.next.inj h).symm

/-- Settles O56: SRST names all four registers as results, every other command keeps those it does not name. -/
theorem registersKept : Obligations.RegistersKept := by
  intro i s t h
  by_cases hi : i = .srst
  · subst hi
    simp [resultRegs]
  · have hb := (exec_frame hi h).block
    exact ⟨hb.a0, hb.a1, hb.a2, hb.a3⟩

/-! ## Bindings -/

theorem Unmoved.cur {s t : State} (h : Unmoved s t) (k : Fin Config.curSlots) : t.cur k = s.cur k := by
  simp only [State.cur, h.cursors]

/-- Settles O57: a reset closes every cursor, a command keeps the binding of a cursor that is open before and after it, and
no other step touches a cursor. -/
theorem bindingAndParametersFixed : Obligations.BindingAndParametersFixed := by
  intro s t h
  have hreset : ∀ rest k, ((resetBlock { s with inbox := rest }).cur k).isOpen ≠ true := fun rest k => by
    rw [resetBlock_cur]
    exact Bool.false_ne_true
  rcases step_cases h with hu | ⟨rest, rfl | ⟨i, hi⟩⟩
  · exact ⟨hu.par, fun k _ _ => by rw [hu.cur k]; exact ⟨rfl, rfl, rfl⟩⟩
  · exact ⟨rfl, fun k _ hk => absurd hk (hreset rest k)⟩
  · by_cases hs : i = .srst
    · subst hs
      obtain rfl := exec_srst hi
      exact ⟨rfl, fun k _ hk => absurd hk (hreset rest k)⟩
    · have hc := (exec_frame hs hi).cursors
      exact ⟨hc.par, hc.binding⟩

end Sys2Proof.Machine

/-! # Proofs, family "state": the two heap algorithms keep the heap property (R37, R166, R167) -/

namespace Sys2Proof.Machine

open Sys2Proof

variable {F : Nat → Nat} {h : List Nat}

/-- In the middle of `HeapInsert`: only the entry at `i` may be less frequent than its parent (R166). -/
structure OrderedAbove (F : Nat → Nat) (h : List Nat) (i : Nat) : Prop where
  others : ∀ j, 0 < j → j < h.length → j ≠ i → F (h.getD ((j - 1) / 2) 0) ≤ F (h.getD j 0)
  around : 0 < i → ∀ j, 0 < j → j < h.length → (j - 1) / 2 = i → F (h.getD ((i - 1) / 2) 0) ≤ F (h.getD j 0)

/-- In the middle of `HeapExtract`: only the entry at `i` may be more frequent than its children (R167). -/
structure OrderedBelow (F : Nat → Nat) (h : List Nat) (i : Nat) : Prop where
  others : ∀ j, 0 < j → j < h.length → (j - 1) / 2 ≠ i → F (h.getD ((j - 1) / 2) 0) ≤ F (h.getD j 0)
  around : 0 < i → ∀ j, 0 < j → j < h.length → (j - 1) / 2 = i → F (h.getD ((i - 1) / 2) 0) ≤ F (h.getD j 0)

/-- One turn of the sift-up loop moves the disorder to the parent. -/
theorem OrderedAbove.swap {i : Nat} (ho : OrderedAbove F h i) (h0 : 0 < i) (hi : i < h.length)
    (hlt : F (h.getD i 0) < F (h.getD ((i - 1) / 2) 0)) : OrderedAbove F (swapAt h i ((i - 1) / 2)) ((i - 1) / 2) := by
  obtain ⟨p, hp⟩ : ∃ p, p = (i - 1) / 2 := ⟨_, rfl⟩
  rw [← hp] at hlt ⊢
  have hpi : p < i := by omega
  have hg := getD_swapAt hi (show p < h.length by omega)
  have hgi : (swapAt h i p).getD i 0 = h.getD p 0 := by rw [hg, if_neg (by omega), if_pos rfl]
  have hgp : (swapAt h i p).getD p 0 = h.getD i 0 := by rw [hg, if_pos rfl]
  have hgo : ∀ j, j ≠ i → j ≠ p → (swapAt h i p).getD j 0 = h.getD j 0 := fun j h1 h2 => by
    rw [hg, if_neg h2, if_neg h1]
  refine ⟨fun j hj hl hne => ?_, fun hp0 j hj hl hpar => ?_⟩
  · rw [swapAt_length] at hl
    by_cases hji : j = i
    · subst hji
      rw [← hp, hgp, hgi]
      exact hlt.le
    · rw [hgo j hji hne]
      have hle := ho.others j hj hl hji
      by_cases h1 : (j - 1) / 2 = p
      · rw [h1] at hle ⊢
        rw [hgp]
        exact hlt.le.trans hle
      · by_cases h2 : (j - 1) / 2 = i
        · rw [h2, hgi, hp]
          exact ho.around h0 j hj hl h2
        · rw [hgo _ h2 h1]
          exact hle
  · rw [swapAt_length] at hl
    rw [hgo ((p - 1) / 2) (by omega) (by omega)]
    have hpp := ho.others p hp0 (by omega) (by omega)
    by_cases hji : j = i
    · rw [hji, hgi]
      exact hpp
    · rw [hgo j hji (by omega)]
      have hle := ho.others j hj hl hji
      rw [hpar] at hle
      exact hpp.trans hle

/-- `HeapInsert`'s loop restores the heap property (R166). -/
theorem siftUp_ordered (fuel i : Nat) (ho : OrderedAbove F h i) (hi : i < h.length) (hf : i ≤ fuel) :
    heapOrdered F (siftUp F fuel i h) := by
  induction fuel generalizing i h with
  | zero => exact fun j hj hl => ho.others j hj hl (by omega)
  | succ fuel ih =>
    unfold siftUp
    split
    · exact fun j hj hl => ho.others j hj hl (by omega)
    · rename_i h0
      split
      · rename_i hlt
        exact ih _ (ho.swap (by omega) hi hlt) (by rw [swapAt_length]; omega) (by omega)
      · rename_i hle
        intro j hj hl
        by_cases hji : j = i
        · rw [hji]
          exact not_lt.1 hle
        · exact ho.others j hj hl hji

/-- `HeapInsert` keeps the heap property (R166). -/
theorem heapInsert_ordered (ho : heapOrdered F h) (n : Nat) : heapOrdered F (heapInsert F n h) := by
  have hlen : (h ++ [n]).length = h.length + 1 := by simp
  refine siftUp_ordered _ _ ⟨fun j hj hl hne => ?_, fun _ j _ hl hpar => ?_⟩ (by omega) le_rfl
  · rw [List.getD_append _ _ _ _ (by omega), List.getD_append _ _ _ _ (by omega)]
    exact ho j hj (by omega)
  · omega

/-- What `HeapExtract` compares (R167): the smallest of an entry and its children, and where it stands. -/
theorem smallest_spec (F : Nat → Nat) (h : List Nat) (i : Nat) :
    (smallest F h i = i ∨ (i < smallest F h i ∧ smallest F h i < h.length ∧ (smallest F h i - 1) / 2 = i)) ∧
      F (h.getD (smallest F h i) 0) ≤ F (h.getD i 0) ∧
      ∀ j, 0 < j → j < h.length → (j - 1) / 2 = i → F (h.getD (smallest F h i) 0) ≤ F (h.getD j 0) := by
  have hleft : (smallerLeft F h i = i ∨ (smallerLeft F h i = 2 * i + 1 ∧ 2 * i + 1 < h.length)) ∧
      F (h.getD (smallerLeft F h i) 0) ≤ F (h.getD i 0) ∧
      (2 * i + 1 < h.length → F (h.getD (smallerLeft F h i) 0) ≤ F (h.getD (2 * i + 1) 0)) := by
    unfold smallerLeft
    split
    · rename_i hc
      exact ⟨.inr ⟨rfl, hc.1⟩, hc.2.le, fun _ => le_rfl⟩
    · rename_i hc
      exact ⟨.inl rfl, le_rfl, fun hl => not_lt.1 fun hlt => hc ⟨hl, hlt⟩⟩
  obtain ⟨hpos, hself, hchild⟩ := hleft
  have hcases : ∀ j, 0 < j → (j - 1) / 2 = i → j = 2 * i + 1 ∨ j = 2 * i + 2 := fun j _ _ => by omega
  unfold smallest
  split
  · rename_i hc
    refine ⟨.inr ⟨by omega, hc.1, by omega⟩, hc.2.le.trans hself, fun j hj hl hpar => ?_⟩
    rcases hcases j hj hpar with rfl | rfl
    · exact hc.2.le.trans (hchild hl)
    · exact le_rfl
  · rename_i hc
    refine ⟨hpos.imp id fun hp => ⟨by omega, by omega, by omega⟩, hself, fun j hj hl hpar => ?_⟩
    rcases hcases j hj hpar with rfl | rfl
    · exact hchild hl
    · exact not_lt.1 fun hlt => hc ⟨hl, hlt⟩

/-- One turn of the sift-down loop moves the disorder to the smallest child. -/
theorem OrderedBelow.swap {i m : Nat} (ho : OrderedBelow F h i) (him : i < m) (hm : m < h.length) (hpar : (m - 1) / 2 = i)
    (hle : F (h.getD m 0) ≤ F (h.getD i 0))
    (hmin : ∀ j, 0 < j → j < h.length → (j - 1) / 2 = i → F (h.getD m 0) ≤ F (h.getD j 0)) :
    OrderedBelow F (swapAt h i m) m := by
  have hg := getD_swapAt (show i < h.length by omega) hm
  have hgi : (swapAt h i m).getD i 0 = h.getD m 0 := by rw [hg, if_neg (by omega), if_pos rfl]
  have hgm : (swapAt h i m).getD m 0 = h.getD i 0 := by rw [hg, if_pos rfl]
  have hgo : ∀ j, j ≠ i → j ≠ m → (swapAt h i m).getD j 0 = h.getD j 0 := fun j h1 h2 => by
    rw [hg, if_neg h2, if_neg h1]
  refine ⟨fun j hj hl hne => ?_, fun _ j hj hl hpj => ?_⟩
  · rw [swapAt_length] at hl
    by_cases hji : j = i
    · subst hji
      rw [hgo _ (by omega) (by omega), hgi]
      exact ho.around hj m (by omega) hm hpar
    · by_cases hq : (j - 1) / 2 = i
      · rw [hq, hgi]
        by_cases hjm : j = m
        · rw [hjm, hgm]
          exact hle
        · rw [hgo j hji hjm]
          exact hmin j hj hl hq
      · rw [hgo _ hq hne, hgo j hji (by omega)]
        exact ho.others j hj hl hq
  · rw [swapAt_length] at hl
    rw [hpar, hgi, hgo j (by omega) (by omega)]
    have := ho.others j hj hl (by omega)
    rwa [hpj] at this

/-- `HeapExtract`'s loop restores the heap property (R167). -/
theorem siftDown_ordered (fuel i : Nat) (ho : OrderedBelow F h i) (hi : i < h.length) (hf : h.length ≤ fuel + i) :
    heapOrdered F (siftDown F fuel i h) := by
  induction fuel generalizing i h with
  | zero => omega
  | succ fuel ih =>
    obtain ⟨hpos, hself, hmin⟩ := smallest_spec F h i
    unfold siftDown
    split
    · rename_i he
      rw [he] at hmin
      intro j hj hl
      by_cases hpar : (j - 1) / 2 = i
      · rw [hpar]
        exact hmin j hj hl hpar
      · exact ho.others j hj hl hpar
    · rename_i he
      rcases hpos with hpos | ⟨him, hm, hpar⟩
      · exact absurd hpos he
      · exact ih _ (ho.swap him hm hpar hself hmin) (by rw [swapAt_length]; exact hm) (by rw [swapAt_length]; omega)

/-- `HeapExtract` keeps the heap property (R167). -/
theorem heapRest_ordered {top : Nat} {rest : List Nat} (ho : heapOrdered F (top :: rest)) :
    heapOrdered F (heapRest F rest) := by
  unfold heapRest
  split
  · intro j _ hl
    cases hl
  · rename_i last hlast
    have hne : rest ≠ [] := fun e => by rw [e] at hlast; cases hlast
    have hpos := List.length_pos_iff.2 hne
    have hlen : (last :: rest.dropLast).length = rest.length := by simp; omega
    have hget : ∀ j, 0 < j → j < rest.length → (last :: rest.dropLast).getD j 0 = (top :: rest).getD j 0 := by
      intro j hj hl
      obtain ⟨j, rfl⟩ : ∃ i, j = i + 1 := ⟨j - 1, by omega⟩
      have hj' : j < rest.length - 1 := by omega
      have hj'' : j < rest.length := by omega
      simp [List.getD_eq_getElem?_getD, hj', hj'']
    refine siftDown_ordered _ _ ⟨fun j hj hl hpar => ?_, fun h0 => absurd h0 (by omega)⟩ (by simp) (by omega)
    rw [hget j hj (by omega), hget _ (by omega) (by omega)]
    exact ho j hj (by simp; omega)

/-- The heap property depends on the frequencies of the entries only. -/
theorem heapOrdered_congr {G : Nat → Nat} (he : ∀ n ∈ h, G n = F n) (ho : heapOrdered F h) : heapOrdered G h := by
  have hmem : ∀ j, j < h.length → h.getD j 0 ∈ h := fun j hj => by
    rw [List.getD_eq_getElem _ _ hj]
    exact List.getElem_mem hj
  intro j hj hl
  rw [he _ (hmem _ (by omega)), he _ (hmem j hl)]
  exact ho j hj hl

end Sys2Proof.Machine

/-! # Proofs, family "state": what the steps do to the heap and the trees (O11, O12)

`TreeKept` lists the few ways in which a step can change the pool, ROOT and the heap; a property that all of them keep is
kept by every step. -/

namespace Sys2Proof.Machine

open Sys2Proof

/-- A piece that fails leaves a state with `Q`. -/
def Res.raises {σ α : Type} (Q : σ → Prop) (r : Res σ α) : Prop := ∀ e t, r = .raise e t → Q t

theorem Res.raises_ok {σ α : Type} {Q : σ → Prop} (a : α) (s : σ) : (Res.ok a s).raises Q := fun _ _ h => by cases h

theorem Res.raises_raise {σ α : Type} {Q : σ → Prop} {e : Err} {s : σ} (h : Q s) : (Res.raise e s : Res σ α).raises Q :=
  fun _ _ he => by cases he; exact h

theorem Res.raises_bind {σ α β : Type} {Q : σ → Prop} {r : Res σ α} {k : α → σ → Res σ β} (hr : r.raises Q)
    (hk : ∀ a s, (k a s).raises Q) : (r.bind k).raises Q := by
  cases r with
  | ok a s => exact hk a s
  | raise e s => exact fun _ _ he => by cases he; exact hr e s rfl
  | stuck f => exact fun _ _ he => by cases he

/-! ## TREAD frees the tree when it fails (R208, R271) -/

/-- No tree and no heap. -/
def NoTree (s : State) : Prop := s.nodes = [] ∧ s.root = none ∧ s.heap = []

theorem freeTree_noTree (s : State) : NoTree (freeTree s) := ⟨rfl, rfl, rfl⟩

theorem need_raises (k : Fin Config.curSlots) (D cnt n : Nat) (s : State) : (need k D cnt n s).raises NoTree := by
  unfold need
  split
  · exact Res.raises_raise (freeTree_noTree s)
  · refine Res.raises_bind ?_ fun bits t => ?_
    · unfold readOrFree
      split
      · exact Res.raises_ok _ _
      · exact Res.raises_raise (freeTree_noTree _)
      · exact fun _ _ h => by cases h
    · split
      · exact Res.raises_raise (freeTree_noTree t)
      · exact Res.raises_ok _ _

theorem readLeaf_raises (k : Fin Config.curSlots) (D cnt : Nat) (s : State) : (readLeaf k D cnt s).raises NoTree := by
  refine Res.raises_bind (Res.raises_bind (need_raises k D cnt 1 s) fun fl t => ?_) fun r t =>
    Res.raises_bind (need_raises k D r.2 r.1 t) fun _ _ => Res.raises_ok _ _
  split
  · exact Res.raises_ok _ _
  · refine Res.raises_bind (need_raises k D (cnt + 1) Config.lenf t) fun len u => ?_
    split
    · exact Res.raises_raise (freeTree_noTree u)
    · exact Res.raises_ok _ _

theorem readNode_raises (k : Fin Config.curSlots) (D fuel cnt : Nat) (s : State) :
    (readNode k D fuel cnt s).raises NoTree := by
  induction fuel generalizing cnt s with
  | zero => exact Res.raises_raise (freeTree_noTree s)
  | succ fuel ih =>
    unfold readNode
    split
    · exact Res.raises_raise (freeTree_noTree s)
    · rename_i hc
      rcases alloc_cases freshNode s with ⟨h, _⟩ | ⟨_, e⟩
      · exact absurd h hc
      · rw [e, Res.bind_ok]
        refine Res.raises_bind (need_raises k D cnt 1 _) fun st t => ?_
        split
        · exact Res.raises_bind (readLeaf_raises k D (cnt + 1) t) fun _ _ => Res.raises_ok _ _
        · exact Res.raises_bind (ih (cnt + 1) t) fun l u =>
            Res.raises_bind (ih l.2 _) fun _ _ => Res.raises_ok _ _

/-! ## The ways in which a step changes the tree -/

/-- The block after the leaf of slot `i` is put into the pool and the heap (R169, R174). -/
def withLeaf (s : State) (i : Nat) : State := pushHeap s.nodes.length { s with nodes := s.nodes ++ [leafOf s i] }

/-- The block after the two nodes extracted first, `a` and `b`, are merged; `rest` is the heap without them (R170, R171). -/
def withMerge (s : State) (a b : Nat) (rest : List Nat) : State :=
  pushHeap s.nodes.length
    { s with heap := heapRest (freqOf s.nodes) rest, nodes := s.nodes ++ [mergedNode s.nodes a b] }

/-- A property of the pool, ROOT and the heap that every way of changing them keeps, from lawful states. -/
structure TreeKept (Q : State → Prop) : Prop where
  /-- It speaks of the pool, ROOT and the heap only. -/
  same : ∀ {s t : State}, Q s → t.nodes = s.nodes → t.root = s.root → t.heap = s.heap → Q t
  /-- It holds without trees. -/
  empty : ∀ {s : State}, NoTree s → Q s
  leaf : ∀ {s : State} (i : Nat), Inv s → Q s → Q (withLeaf s i)
  merge : ∀ {s : State} {a b : Nat} {rest rest' : List Nat}, Inv s → Q s → s.heap = a :: rest →
    heapRest (freqOf s.nodes) rest = b :: rest' → Q (withMerge s a b rest')
  /-- The last node of the heap becomes ROOT (R171). -/
  done : ∀ {s : State} {r : Nat}, Inv s → Q s → s.heap = [r] → Q { s with heap := [], root := some r }
  /-- A tree is read (R208). -/
  read : ∀ {s t : State} {k : Fin Config.curSlots} {D fuel n m : Nat}, Reading k (freeTree s) →
    readNode k D fuel 0 (freeTree s) = .ok (n, m) t → Q { t with root := some n }

/-- A turn of the building loop keeps the invariant. -/
theorem withMerge_inv {s : State} {a b : Nat} {rest rest' : List Nat} (h : Inv s) (hh : s.heap = a :: rest)
    (hr : heapRest (freqOf s.nodes) rest = b :: rest') (hf : freqOf s.nodes a + freqOf s.nodes b < 2 ^ 64)
    (hc : s.nodes.length ≠ Config.nodeCap s.w) : Inv (withMerge s a b rest') := by
  have hinv := buildTree_inv 1 h
  rcases buildTree_cases 0 s with ⟨e, _⟩ | ⟨r, e, _⟩ | ⟨a', b', rest1, rest2, e1, e2, eb⟩
  · rw [hh] at e; cases e
  · rw [hh] at e
    obtain ⟨_, rfl⟩ := List.cons.inj e
    cases hr
  · rw [hh] at e1
    obtain ⟨rfl, rfl⟩ := List.cons.inj e1
    rw [hr] at e2
    obtain ⟨rfl, rfl⟩ := List.cons.inj e2
    rcases merge_cases a b { s with heap := heapRest (freqOf s.nodes) rest' } with ⟨h1, _⟩ | ⟨_, h2, _⟩ | ⟨_, _, em⟩
    · exact absurd h1 (not_le.2 hf)
    · exact absurd h2 hc
    · rw [eb, em] at hinv
      exact hinv

section

variable {Q : State → Prop} {s : State}

theorem TreeKept.addLeaf (hQ : TreeKept Q) (h : Inv s) (hq : Q s) (i : Nat) : (addLeaf i s).leaves Q := by
  rcases addLeaf_cases i s with ⟨_, e⟩ | ⟨_, e⟩ <;> rw [e]
  · exact hq
  · exact hQ.leaf i h hq

theorem TreeKept.addLeaves (hQ : TreeKept Q) (is : List Nat) (h : Inv s) (hq : Q s)
    (hc : s.heap.length + is.length ≤ Config.heapCap s.w) : (addLeaves is s).leaves Q := by
  induction is generalizing s with
  | nil => exact hq
  | cons i is ih =>
    rw [List.length_cons] at hc
    unfold Machine.addLeaves
    split
    · exact hQ.empty (freeTree_noTree s)
    · rename_i ht
      have hl := addLeaf_inv h (i := i) (fun e => by simpa [e] using ht) (by omega)
      have hq' := hQ.addLeaf h hq i
      rcases addLeaf_cases i s with ⟨_, e⟩ | ⟨_, e⟩ <;> rw [e] at hl hq' ⊢
      · exact hq'
      · refine ih hl hq' ?_
        show (heapInsert _ _ s.heap).length + is.length ≤ Config.heapCap s.w
        rw [heapInsert_length]; omega

theorem TreeKept.buildTree (hQ : TreeKept Q) (fuel : Nat) (h : Inv s) (hq : Q s) : (buildTree fuel s).leaves Q := by
  induction fuel generalizing s with
  | zero => exact hq
  | succ fuel ih =>
    rcases buildTree_cases fuel s with ⟨_, e⟩ | ⟨r, hr, e⟩ | ⟨a, b, rest, rest', hh, hr, e⟩ <;> rw [e]
    · exact hq
    · exact hQ.done h hq hr
    · rcases merge_cases a b { s with heap := heapRest (freqOf s.nodes) rest' } with ⟨_, em⟩ | ⟨_, _, em⟩ | ⟨hf, hc, em⟩ <;>
        rw [em]
      · exact hQ.empty (freeTree_noTree _)
      · exact hQ.empty (freeTree_noTree _)
      · exact ih (s := withMerge s a b rest') (withMerge_inv h hh hr hf hc) (hQ.merge h hq hh hr)

theorem TreeKept.tbins (hQ : TreeKept Q) (h : Inv s) (hq : Q s) : (tbins s).leaves Q := by
  unfold Machine.tbins
  split
  · exact hq
  · split
    · exact hq
    · split
      · exact hq
      · exact hQ.addLeaf h hq _

theorem TreeKept.tbext (hQ : TreeKept Q) (h : Inv s) (hq : Q s) : (tbext s).leaves Q := by
  unfold Machine.tbext
  split
  · exact hq
  · exact hQ.buildTree _ h hq

theorem TreeKept.tbuild (hQ : TreeKept Q) (h : Inv s) : (tbuild s).leaves Q := by
  have hfit := usedSlots_fit h
  have hi := addLeaves_inv s.usedSlots h.freeTree hfit
  refine Res.leaves_bind (hQ.addLeaves s.usedSlots h.freeTree (hQ.empty (freeTree_noTree s)) hfit) fun _ t ht hq => ?_
  rw [ht] at hi
  exact hQ.tbext hi hq

theorem TreeKept.tread (hQ : TreeKept Q) (h : Inv s) (hq : Q s) (k : Fin Config.curSlots) : (tread k s).leaves Q := by
  refine curCheck_leaves hq fun ho => ?_
  have hr := readNode_raises k s.a0.toNat (Config.nodeCap s.w + 1) 0 (freeTree s)
  cases he : readNode k s.a0.toNat (Config.nodeCap s.w + 1) 0 (freeTree s) with
  | ok r t => exact hQ.same (hQ.read (freeTree_reading h ho) he) rfl rfl rfl
  | raise e t => exact hQ.empty (hr e t he)
  | stuck f => trivial

/-- The body of every command keeps the property. -/
theorem TreeKept.bodyOf (hQ : TreeKept Q) (i : Instr) (h : Inv s) (hq : Q s) : (bodyOf i s).leaves Q := by
  by_cases hi : Part.tree ∈ partsOf i
  · cases i with
    | srst => exact hQ.empty ⟨rfl, rfl, rfl⟩
    | cfgw imm =>
      simp only [Machine.bodyOf, cfgw]
      split
      · exact hq
      · exact hQ.empty ⟨rfl, rfl, rfl⟩
    | tbinit => exact hQ.empty (freeTree_noTree s)
    | tbins => exact hQ.tbins h hq
    | tbext => exact hQ.tbext h hq
    | tbuild => exact hQ.tbuild h
    | tread ca => exact oneCursor_leaves hq fun k _ => hQ.tread h hq k
    | _ => simp [partsOf] at hi
  · have hs : i ≠ .srst := fun e => hi (by simp [e, partsOf])
    refine Res.leaves_mono (fun t ht => ?_) (bodyOf_frame hs s)
    obtain ⟨hn, hr, hh⟩ := ht.block.tree hi
    exact hQ.same hq hn hr hh

/-- Every step keeps the property. -/
theorem TreeKept.step {t : State} (hQ : TreeKept Q) (h : Inv s) (hq : Q s) (ht : step s = .next t) : Q t := by
  rcases step_cases ht with hu | ⟨rest, rfl | ⟨i, hi⟩⟩
  · exact hQ.same hq hu.nodes hu.root hu.heap
  · exact hQ.empty ⟨rfl, rfl, rfl⟩
  · exact exec_leaves (hQ.bodyOf i (h.withHost rest s.seen) (hQ.same hq rfl rfl rfl))
      (fun _ hu => hQ.same hu rfl rfl rfl) (fun _ _ hu => hQ.same hu rfl rfl rfl) hi

end

/-! ## The heap property (R37) -/

/-- A new node does not change the frequencies of the nodes in the heap. -/
theorem Inv.freqOf_append {s : State} (h : Inv s) (x : Node) :
    ∀ n ∈ s.heap, freqOf (s.nodes ++ [x]) n = freqOf s.nodes n :=
  fun n hn => freqOf_append_left (treeOk_lt (h.heap n hn))

/-- The ways of changing the tree keep the heap property. -/
theorem heapOrdered_kept : TreeKept fun s => heapOrdered (freqOf s.nodes) s.heap where
  same hq hn _ hh := by rw [hn, hh]; exact hq
  empty hs := by rw [hs.2.2]; exact fun j _ hl => by cases hl
  leaf i h hq := heapInsert_ordered (heapOrdered_congr (h.freqOf_append _) hq) _
  merge := by
    intro s a b rest rest' h hq hh hr
    rw [hh] at hq
    have h1 := heapRest_ordered hq
    rw [hr] at h1
    refine heapInsert_ordered (heapOrdered_congr (fun n hn => h.freqOf_append _ n ?_) (heapRest_ordered h1)) _
    rw [hh]
    have : n ∈ heapRest (freqOf s.nodes) rest := by rw [hr]; exact List.mem_cons_of_mem _ (mem_heapRest.1 hn)
    exact List.mem_cons_of_mem _ (mem_heapRest.1 this)
  done _ _ _ := fun j _ hl => by cases hl
  read := by
    intro s t k D fuel n m hs he
    have hg := readNode_gives k D fuel 0 hs
    rw [he] at hg
    show heapOrdered _ t.heap
    rw [hg.reading.heap]
    exact fun j _ hl => by cases hl

/-- Settles O11: the two heap algorithms keep the heap property, and a new node changes no frequency. -/
theorem heapStaysOrdered : Obligations.HeapStaysOrdered := fun _ _ h hq ht => heapOrdered_kept.step h hq ht

/-! ## Nodes reached by one path (R36) -/

theorem nodesUnder_leaf {nodes : List Node} {n : Nat} (fuel : Nat) (h : (nodeAt nodes n).leaf = true) :
    nodesUnder nodes (fuel + 1) n = [n] := by simp [nodesUnder, h]

theorem nodesUnder_inner {nodes : List Node} {n l r : Nat} (fuel : Nat) (h : (nodeAt nodes n).leaf = false)
    (hl : (nodeAt nodes n).left = some l) (hr : (nodeAt nodes n).right = some r) :
    nodesUnder nodes (fuel + 1) n = n :: (nodesUnder nodes fuel l ++ nodesUnder nodes fuel r) := by
  simp [nodesUnder, h, hl, hr]

/-- The two shapes of a tree node: a leaf, or an internal node with two trees below it. -/
theorem treeOk_shape {nodes : List Node} {fuel n : Nat} (h : treeOk nodes (fuel + 1) n = true) :
    (nodeAt nodes n).leaf = true ∨ (nodeAt nodes n).leaf = false ∧ ∃ l r, (nodeAt nodes n).left = some l ∧
      (nodeAt nodes n).right = some r ∧ treeOk nodes fuel l = true ∧ treeOk nodes fuel r = true := by
  cases hl : (nodeAt nodes n).leaf with
  | true => exact .inl rfl
  | false => exact .inr ⟨rfl, (treeOk_succ.1 h).2.resolve_left (by simp [hl])⟩

/-- More fuel and more nodes change nothing in a tree. -/
theorem nodesUnder_append {nodes : List Node} (more : List Node) {fuel fuel' n : Nat} (h : treeOk nodes fuel n = true)
    (hf : fuel ≤ fuel') : nodesUnder (nodes ++ more) fuel' n = nodesUnder nodes fuel n := by
  induction fuel generalizing fuel' n with
  | zero => cases h
  | succ fuel ih =>
    obtain ⟨fuel', rfl⟩ : ∃ k, fuel' = k + 1 := ⟨fuel' - 1, by omega⟩
    have e := nodeAt_append_left (more := more) (treeOk_lt h)
    rcases treeOk_shape h with hl | ⟨hl, l, r, e1, e2, h1, h2⟩
    · rw [nodesUnder_leaf _ hl, nodesUnder_leaf _ (by rw [e]; exact hl)]
    · rw [nodesUnder_inner _ hl e1 e2, nodesUnder_inner (l := l) (r := r) _ (by rw [e]; exact hl) (by rw [e]; exact e1)
        (by rw [e]; exact e2), ih h1 (by omega), ih h2 (by omega)]

/-- A tree is made of allocated nodes. -/
theorem nodesUnder_lt {nodes : List Node} {fuel n m : Nat} (h : treeOk nodes fuel n = true) (hm : m ∈ nodesUnder nodes fuel n) :
    m < nodes.length := by
  induction fuel generalizing n with
  | zero => cases h
  | succ fuel ih =>
    rcases treeOk_shape h with hl | ⟨hl, l, r, e1, e2, h1, h2⟩
    · rw [nodesUnder_leaf _ hl, List.mem_singleton] at hm
      exact hm ▸ treeOk_lt h
    · rw [nodesUnder_inner _ hl e1 e2, List.mem_cons, List.mem_append] at hm
      rcases hm with rfl | hm | hm
      · exact treeOk_lt h
      · exact ih h1 hm
      · exact ih h2 hm

/-- The nodes of the trees at the roots `l`, by number. -/
def nodesOf (nodes : List Node) (l : List Nat) : List Nat := l.flatMap (nodesUnder nodes nodes.length)

theorem nodesOf_cons (nodes : List Node) (n : Nat) (l : List Nat) :
    nodesOf nodes (n :: l) = nodesUnder nodes nodes.length n ++ nodesOf nodes l := List.flatMap_cons

theorem nodesOf_perm (nodes : List Node) {l l' : List Nat} (h : l.Perm l') : (nodesOf nodes l).Perm (nodesOf nodes l') :=
  h.flatMap_right _

/-- A new node leaves the nodes of the trees as they are. -/
theorem nodesOf_append {nodes : List Node} {l : List Nat} (x : Node) (h : ∀ n ∈ l, treeOk nodes nodes.length n = true) :
    nodesOf (nodes ++ [x]) l = nodesOf nodes l :=
  List.flatMap_congr fun n hn => nodesUnder_append [x] (h n hn) (by simp)

/-- A new node is in none of the trees. -/
theorem not_mem_nodesOf {nodes : List Node} {l : List Nat} (h : ∀ n ∈ l, treeOk nodes nodes.length n = true) :
    nodes.length ∉ nodesOf nodes l := fun hm => by
  obtain ⟨n, hn, hm⟩ := List.mem_flatMap.1 hm
  exact absurd (nodesUnder_lt (h n hn) hm) (lt_irrefl _)

/-- The tree at ROOT stays owned when a node is added to the pool. -/
theorem Owned.root_append {s : State} (h : Inv s) (ho : Owned s) (x : Node) :
    ∀ r, s.root = some r → (nodesUnder (s.nodes ++ [x]) (s.nodes ++ [x]).length r).Nodup := fun r hr => by
  rw [nodesUnder_append [x] (h.root r hr) (by simp)]
  exact ho.root r hr

theorem Owned.withLeaf {s : State} (h : Inv s) (ho : Owned s) (i : Nat) : Owned (withLeaf s i) := by
  refine ⟨ho.root_append h _, ?_⟩
  refine (nodesOf_perm _ (heapInsert_perm _ _ s.heap)).nodup_iff.2 ?_
  show (nodesOf (s.nodes ++ [leafOf s i]) (s.nodes.length :: s.heap)).Nodup
  rw [nodesOf_cons, nodesOf_append _ h.heap, List.length_append, List.length_singleton,
    nodesUnder_leaf _ (by rw [nodeAt_append_last]; exact leafOf_leaf s i)]
  exact List.nodup_cons.2 ⟨not_mem_nodesOf h.heap, ho.heap⟩

/-- The nodes of a merged tree: its root, then those of the two trees, in one order or the other (R170). -/
theorem nodesUnder_merged {nodes : List Node} {a b : Nat} (ha : treeOk nodes nodes.length a = true)
    (hb : treeOk nodes nodes.length b = true) :
    (nodesUnder (nodes ++ [mergedNode nodes a b]) (nodes.length + 1) nodes.length).Perm
      (nodes.length :: (nodesUnder nodes nodes.length a ++ nodesUnder nodes nodes.length b)) := by
  have e := nodeAt_append_last nodes (mergedNode nodes a b)
  rw [nodesUnder_inner nodes.length (by rw [e]; rfl) (by rw [e]; rfl) (by rw [e]; rfl)]
  refine List.Perm.cons _ ?_
  have ea := nodesUnder_append [mergedNode nodes a b] ha le_rfl
  have eb := nodesUnder_append [mergedNode nodes a b] hb le_rfl
  unfold mergeOrder
  split
  · rw [ea, eb]
    exact List.perm_append_comm
  · rw [ea, eb]

theorem Owned.withMerge {s : State} {a b : Nat} {rest rest' : List Nat} (h : Inv s) (ho : Owned s) (hh : s.heap = a :: rest)
    (hr : heapRest (freqOf s.nodes) rest = b :: rest') : Owned (withMerge s a b rest') := by
  have hp : s.heap.Perm (a :: b :: rest') := by
    rw [hh]
    exact (hr ▸ heapRest_perm (freqOf s.nodes) rest).symm.cons a
  have hok : ∀ n ∈ a :: b :: rest', treeOk s.nodes s.nodes.length n = true := fun n hn => h.heap n (hp.mem_iff.2 hn)
  have hok' : ∀ n ∈ rest', treeOk s.nodes s.nodes.length n = true := fun n hn => hok n (by simp [hn])
  refine ⟨ho.root_append h _, ?_⟩
  have hnew : (nodesOf (s.nodes ++ [mergedNode s.nodes a b])
      (heapInsert (freqOf (s.nodes ++ [mergedNode s.nodes a b])) s.nodes.length (heapRest (freqOf s.nodes) rest'))).Perm
      (s.nodes.length :: nodesOf s.nodes (a :: b :: rest')) := by
    refine (nodesOf_perm _ ((heapInsert_perm _ _ _).trans ((heapRest_perm _ rest').cons _))).trans ?_
    rw [nodesOf_cons, nodesOf_append _ hok', List.length_append, List.length_singleton, nodesOf_cons, nodesOf_cons,
      ← List.append_assoc]
    exact (nodesUnder_merged (hok a (by simp)) (hok b (by simp))).append_right _
  exact hnew.nodup_iff.2 (List.nodup_cons.2 ⟨not_mem_nodesOf hok, (nodesOf_perm _ hp).nodup_iff.1 ho.heap⟩)

/-! ## The tree TREAD makes lies in the pool in pre-order (R208, R209) -/

/-- Everything `ReadNode` can have done when it succeeds: one leaf, or two trees one after the other under a new node. -/
theorem readNode_ok {k : Fin Config.curSlots} {D fuel cnt : Nat} {s t : State} {r : Nat × Nat} (h : Reading k s)
    (he : readNode k D (fuel + 1) cnt s = .ok r t) :
    (∃ bits, t.nodes = s.nodes ++ [asLeaf bits freshNode]) ∨
      ∃ s' c l u m v, Reading k s' ∧ s'.nodes = s.nodes ++ [freshNode] ∧ readNode k D fuel c s' = .ok l u ∧
        readNode k D fuel l.2 (updateNode s.nodes.length (fun x => { x with left := some l.1 }) u) = .ok m v ∧
        t.nodes = v.nodes.modify s.nodes.length fun x => { x with right := some m.1 } := by
  unfold readNode at he
  split at he
  · cases he
  · rename_i hcap
    rcases alloc_cases freshNode s with ⟨hc, _⟩ | ⟨_, e⟩
    · exact absurd hc hcap
    · rw [e, Res.bind_ok] at he
      have h1 : Reading k { s with nodes := s.nodes ++ [freshNode] } :=
        h.withNodes (by have := h.cap; simp; omega)
      obtain ⟨st, s', hst, he⟩ := Res.bind_eq_ok.1 he
      have hs' := need_gives D cnt 1 h1
      rw [hst] at hs'
      split at he
      · obtain ⟨lf, u, hu, he⟩ := Res.bind_eq_ok.1 he
        have hg := readLeaf_gives D (cnt + 1) hs'.1.reading
        rw [hu] at hg
        cases he
        refine .inl ⟨lf.1, ?_⟩
        show u.nodes.modify s.nodes.length (asLeaf lf.1) = _
        rw [hg.1.nodes, hs'.1.nodes, modify_append_last]
      · obtain ⟨l, u, hl, he⟩ := Res.bind_eq_ok.1 he
        obtain ⟨m, v, hm, he⟩ := Res.bind_eq_ok.1 he
        cases he
        exact .inr ⟨s', cnt + 1, l, u, m, v, hs'.1.reading, hs'.1.nodes, hl, hm, rfl⟩

/-- A tree of consecutive nodes depends on these nodes only. -/
theorem nodesUnder_congr {nodes nodes' : List Node} {lo hi : Nat} (hc : Closed nodes lo hi)
    (he : ∀ i, lo ≤ i → i < hi → nodeAt nodes' i = nodeAt nodes i) (fuel : Nat) {n : Nat} (h0 : lo ≤ n) (h1 : n < hi) :
    nodesUnder nodes' fuel n = nodesUnder nodes fuel n := by
  induction fuel generalizing n with
  | zero => rfl
  | succ fuel ih =>
    have e := he n h0 h1
    cases hl : (nodeAt nodes n).leaf with
    | true => rw [nodesUnder_leaf _ hl, nodesUnder_leaf _ (by rw [e]; exact hl)]
    | false =>
      obtain ⟨l, r, e1, e2, a, b, c, d⟩ := hc n h0 h1 hl
      rw [nodesUnder_inner _ hl e1 e2, nodesUnder_inner (l := l) (r := r) _ (by rw [e]; exact hl) (by rw [e]; exact e1)
        (by rw [e]; exact e2), ih a b, ih c d]

/-- The nodes from `n` to the end of the pool are, in pre-order, those of the tree at `n`. -/
def PreOrder (nodes : List Node) (n : Nat) : Prop :=
  nodesUnder nodes (nodes.length - n) n = List.range' n (nodes.length - n)

/-- The same with more fuel, in a larger pool. -/
theorem PreOrder.larger {w : WordSize} {nodes nodes' : List Node} {n fuel : Nat} (h : PreOrder nodes n)
    (hp : Piece w nodes n) (he : ∀ i, n ≤ i → i < nodes.length → nodeAt nodes' i = nodeAt nodes i)
    (hf : nodes.length - n ≤ fuel) : nodesUnder nodes' fuel n = List.range' n (nodes.length - n) := by
  rw [nodesUnder_congr hp.closed he fuel le_rfl hp.lt]
  have := nodesUnder_append [] hp.tree hf
  rw [List.append_nil] at this
  exact this.trans h

/-- The pool `nodes` holds at `n` an internal node, whose children are a piece of `nodes1` that begins at `n + 1` and the
piece of `nodes2` behind it. -/
structure TwoTrees (nodes1 nodes2 nodes : List Node) (n : Nat) : Prop where
  length : nodes.length = nodes2.length
  self : nodeAt nodes n = { freshNode with left := some (n + 1), right := some nodes1.length }
  left : ∀ i, n + 1 ≤ i → i < nodes1.length → nodeAt nodes i = nodeAt nodes1 i
  right : ∀ i, nodes1.length ≤ i → i < nodes2.length → nodeAt nodes i = nodeAt nodes2 i

/-- Two trees in pre-order under a new node are in pre-order. -/
theorem TwoTrees.preOrder {w : WordSize} {nodes1 nodes2 nodes : List Node} {n : Nat} (h : TwoTrees nodes1 nodes2 nodes n)
    (h1 : Piece w nodes1 (n + 1)) (p1 : PreOrder nodes1 (n + 1)) (h2 : Piece w nodes2 nodes1.length)
    (p2 : PreOrder nodes2 nodes1.length) : PreOrder nodes n := by
  have l1 := h1.lt
  have l2 := h2.lt
  have hlen := h.length
  obtain ⟨f, hf⟩ : ∃ f, nodes.length - n = f + 1 := ⟨nodes.length - n - 1, by omega⟩
  rw [PreOrder, hf, nodesUnder_inner f (by rw [h.self]; rfl) (by rw [h.self]) (by rw [h.self]),
    p1.larger h1 h.left (by omega), p2.larger h2 h.right (by omega), List.range'_succ]
  have := List.range'_append_1 (s := n + 1) (m := nodes1.length - (n + 1)) (n := nodes2.length - nodes1.length)
  rw [show n + 1 + (nodes1.length - (n + 1)) = nodes1.length by omega] at this
  rw [this, show nodes1.length - (n + 1) + (nodes2.length - nodes1.length) = f by omega]

/-- What `ReadNode` leaves of an internal node after both its children are read (R209). -/
theorem twoTrees_of_reads {k : Fin Config.curSlots} {s s' u v t : State} {l m : Nat}
    (hs : s'.nodes = s.nodes ++ [freshNode]) (hu : NodeRead k s' l u)
    (hv : NodeRead k (updateNode s.nodes.length (fun x => { x with left := some l }) u) m v)
    (ht : t.nodes = v.nodes.modify s.nodes.length fun x => { x with right := some m }) :
    l = s.nodes.length + 1 ∧ m = u.nodes.length ∧ TwoTrees u.nodes v.nodes t.nodes s.nodes.length := by
  have hs' : s'.nodes.length = s.nodes.length + 1 := by rw [hs]; simp
  have hl : l = s.nodes.length + 1 := hu.root.trans hs'
  have hulen : (updateNode s.nodes.length (fun x => { x with left := some l }) u).nodes.length = u.nodes.length :=
    List.length_modify _ _ _
  have hm : m = u.nodes.length := hv.root.trans hulen
  have hult := hu.piece.lt
  have hvlt := hv.piece.lt
  have hun : nodeAt u.nodes s.nodes.length = freshNode := by rw [hu.old _ (by omega), hs, nodeAt_append_last]
  have hvn : nodeAt v.nodes s.nodes.length = { freshNode with left := some l } := by
    rw [hv.old _ (by omega)]
    show nodeAt (u.nodes.modify s.nodes.length _) s.nodes.length = _
    rw [nodeAt_modify_self _ (by omega), hun]
  refine ⟨hl, hm, by rw [ht, List.length_modify], ?_, fun i h0 hi => ?_, fun i h0 hi => ?_⟩
  · rw [ht, nodeAt_modify_self _ (by omega), hvn, hl, hm]
  · rw [ht, nodeAt_modify_ne _ (by omega), hv.old i (by omega)]
    exact nodeAt_modify_ne _ (by omega)
  · rw [ht, nodeAt_modify_ne _ (by omega)]

theorem readNode_preOrder (k : Fin Config.curSlots) (D fuel cnt : Nat) {s t : State} {r : Nat × Nat} (h : Reading k s)
    (he : readNode k D fuel cnt s = .ok r t) : PreOrder t.nodes r.1 := by
  induction fuel generalizing cnt s t r with
  | zero => cases he
  | succ fuel ih =>
    have ht := readNode_gives k D (fuel + 1) cnt h
    rw [he] at ht
    rw [show r.1 = s.nodes.length from ht.root]
    rcases readNode_ok h he with ⟨bits, hn⟩ | ⟨s', c, l, u, m, v, hs', hsn, hl, hm, hn⟩
    · rw [hn, PreOrder, List.length_append, List.length_singleton, Nat.add_sub_cancel_left,
        nodesUnder_leaf 0 (by rw [nodeAt_append_last]; rfl)]
      rfl
    · have hu := readNode_gives k D fuel c hs'
      rw [hl] at hu
      have hu' : Reading k (updateNode s.nodes.length (fun x => { x with left := some l.1 }) u) :=
        hu.reading.withNodes (by rw [List.length_modify]; exact hu.reading.cap)
      have hv := readNode_gives k D fuel l.2 hu'
      rw [hm] at hv
      obtain ⟨e1, e2, htwo⟩ := twoTrees_of_reads hsn hu hv hn
      have p1 := ih c hs' hl
      have p2 := ih l.2 hu' hm
      have c1 := hu.piece
      have c2 := hv.piece
      rw [e1] at p1 c1
      rw [e2] at p2 c2
      exact htwo.preOrder c1 p1 (hu.w ▸ c2) p2

/-- The ways of changing the tree keep the paths apart. -/
theorem owned_kept : TreeKept Owned where
  same ho hn hr hh := ⟨by rw [hn, hr]; exact ho.root, by rw [hn, hh]; exact ho.heap⟩
  empty hs := ⟨fun r hr => (by rw [hs.2.1] at hr; cases hr), by rw [hs.2.2]; exact List.nodup_nil⟩
  leaf i h ho := ho.withLeaf h i
  merge h ho hh hr := ho.withMerge h hh hr
  done := by
    intro s r _ ho hh
    refine ⟨fun r' hr' => ?_, List.nodup_nil⟩
    obtain rfl := Option.some.inj hr'
    have := ho.heap
    rwa [hh, List.flatMap_singleton] at this
  read := by
    intro s t k D fuel n m hs he
    have hg := readNode_gives k D fuel 0 hs
    rw [he] at hg
    have hn : n = 0 := hg.root
    refine ⟨fun r hr => ?_, ?_⟩
    · obtain rfl := Option.some.inj hr
      have hp := readNode_preOrder k D fuel 0 hs he
      rw [hn, PreOrder, Nat.sub_zero] at hp
      show (nodesUnder t.nodes t.nodes.length n).Nodup
      rw [hn, hp]
      exact List.nodup_range'
    · show (List.flatMap _ t.heap).Nodup
      rw [hg.reading.heap]
      exact List.nodup_nil

/-- Settles O12: a new leaf is reached by no path yet, a merge joins two trees that share no node, and TREAD numbers the
nodes of its tree in pre-order. -/
theorem treesStayOwned : Obligations.TreesStayOwned := fun _ _ h ho ht => owned_kept.step h ho ht

end Sys2Proof.Machine

/-! # Proofs, family "state": no code is longer than `TAILIDX` bits (O13)

A code of `n` bits is the path to a leaf of a full tree, so the walk has stored at least `n + 1` codes by its end; the table
has `NSYM = TAILIDX + 1` slots, and no slot takes two codes. -/

namespace Sys2Proof.Machine

open Sys2Proof

/-- A new key makes a table one entry longer. -/
theorem length_tableSet_new {α : Type} {t : List (Nat × α)} {k : Nat} (x : α) (h : tableGet t k = none) :
    (tableSet t k x).length = t.length + 1 := by
  induction t with
  | nil => rfl
  | cons p rest ih =>
    obtain ⟨j, y⟩ := p
    simp only [tableGet] at h
    split at h
    · cases h
    · rename_i hne
      simp only [tableSet]
      split
      · rfl
      · rw [if_neg fun e => hne e.symm, List.length_cons, ih h, List.length_cons]

/-- What a walk that started from the codes `old` with a path of `d` bits has stored: at least one code, and none longer than
the path and the number of codes allow. -/
structure CodesGrown (d : Nat) (old new : List (Nat × Bits)) : Prop where
  more : old.length + 1 ≤ new.length
  short : ∀ p ∈ new, p ∈ old ∨ p.2.length + 1 + old.length ≤ d + new.length

theorem CodesGrown.two {d : Nat} {a b c : List (Nat × Bits)} (h : CodesGrown (d + 1) a b) (h' : CodesGrown (d + 1) b c) :
    CodesGrown d a c := by
  have m1 := h.more
  have m2 := h'.more
  refine ⟨by omega, fun p hp => ?_⟩
  rcases h'.short p hp with hp | hl
  · exact (h.short p hp).imp id fun hl => by omega
  · exact .inr (by omega)

theorem storeCode_grown {n : Node} {pat : Bits} {s t : State} (h : storeCode n pat s = .ok () t) :
    CodesGrown pat.length s.code t.code := by
  unfold storeCode at h
  split at h
  · cases h
  · rename_i hnone
    cases h
    have hlen := length_tableSet_new pat hnone
    refine ⟨hlen.ge, fun p hp => ?_⟩
    rcases mem_tableSet hp with rfl | hp
    · refine .inr ?_
      show pat.length + 1 + s.code.length ≤ pat.length + (tableSet s.code (slotOf s.w n) pat).length
      omega
    · exact .inl hp

theorem codeWalk_grown {fuel n : Nat} {pat : Bits} {s t : State} (h : codeWalk fuel n pat s = .ok () t) :
    CodesGrown pat.length s.code t.code := by
  induction fuel generalizing n pat s t with
  | zero => cases h
  | succ fuel ih =>
    unfold codeWalk at h
    split at h
    · exact storeCode_grown h
    · split at h
      · obtain ⟨_, u, hu, ht⟩ := Res.bind_eq_ok.1 h
        have h1 := ih hu
        have h2 := ih ht
        simp only [List.length_append, List.length_singleton] at h1 h2
        exact h1.two h2
      · cases h

/-- CTBUILD leaves no code when it fails (R271). -/
theorem buildCodes_raises {s : State} (hs : s.code = []) : (buildCodes s).raises fun t => t.code = [] := by
  have hstore : ∀ n pat u, (storeCode n pat u).raises fun t => t.code = [] := fun n pat u => by
    unfold storeCode
    split
    · exact Res.raises_raise rfl
    · exact Res.raises_ok _ _
  have hwalk : ∀ fuel n pat u, (codeWalk fuel n pat u).raises fun t => t.code = [] := fun fuel => by
    induction fuel with
    | zero => exact fun n pat u _ _ h => by cases h
    | succ fuel ih =>
      intro n pat u
      unfold codeWalk
      split
      · exact hstore _ _ _
      · split
        · exact Res.raises_bind (ih _ _ _) fun _ _ => ih _ _ _
        · exact Res.raises_raise rfl
  unfold buildCodes
  split
  · exact Res.raises_raise hs
  · split
    · exact hstore _ _ _
    · exact hwalk _ _ _ _

/-- A leaf root gets one bit; otherwise the codes are those of a walk from the empty path (R191). -/
theorem buildCodes_grown {s t : State} (hs : s.code = []) (h : buildCodes s = .ok () t) :
    (∀ p ∈ t.code, p.2 = [false]) ∨ CodesGrown 0 [] t.code := by
  unfold buildCodes at h
  split at h
  · cases h
  · split at h
    · unfold storeCode at h
      split at h
      · cases h
      · cases h
        simp [hs, tableSet]
    · exact .inr (hs ▸ codeWalk_grown h)

/-- The code table has at most `NSYM` entries (R38). -/
theorem Inv.code_length {s : State} (h : Inv s) : s.code.length ≤ Config.nsym s.w := by
  obtain ⟨hr, hk⟩ := codeOk_iff.1 h.code
  exact length_of_tableRises hr fun p hp => (hk p hp).1

theorem codesShort_of_nil {s : State} (h : s.code = []) : codesShort s := fun p hp => by rw [h] at hp; cases hp

theorem buildCodes_short {s : State} (h : Inv s) (hs : s.code = []) : (buildCodes s).leaves codesShort := by
  have hi := buildCodes_inv h
  cases hb : buildCodes s with
  | ok u t =>
    rw [hb] at hi
    have hlen := Inv.code_length hi
    have hpos : 0 < Config.tailIdx t.w := Nat.two_pow_pos _
    intro p hp
    rcases buildCodes_grown hs hb with h1 | hg
    · rw [h1 p hp]
      exact hpos
    · have hp := (hg.short p hp).resolve_left List.not_mem_nil
      simp only [Config.nsym] at hlen
      simp only [List.length_nil] at hp
      omega
  | raise e t => exact codesShort_of_nil (buildCodes_raises hs e t hb)
  | stuck f => trivial

/-- No command makes a code longer than `TAILIDX` bits. -/
theorem bodyOf_codesShort (i : Instr) {s : State} (h : Inv s) (hc : codesShort s) : (bodyOf i s).leaves codesShort := by
  by_cases hi : Part.codes ∈ partsOf i
  · cases i with
    | srst => exact codesShort_of_nil rfl
    | cfgw imm =>
      simp only [bodyOf, cfgw]
      split
      · exact hc
      · exact codesShort_of_nil rfl
    | ctbuild => exact buildCodes_short h.clearCodes rfl
    | _ => simp [partsOf] at hi
  · have hs : i ≠ .srst := fun e => hi (by simp [e, partsOf])
    have hw : Part.wordSize ∉ partsOf i := by
      cases i with
      | srst | cfgw => simp [partsOf] at hi
      | _ => simp [partsOf]
    refine Res.leaves_mono (fun t ht p hp => ?_) (bodyOf_frame hs s)
    rw [ht.block.codes hi] at hp
    rw [ht.block.wordSize hw]
    exact hc p hp

/-- Settles O13: only CTBUILD makes codes, and it makes more codes than the longest of them has bits. -/
theorem codesStayShort : Obligations.CodesStayShort := by
  intro s t h _ hc ht
  rcases step_cases ht with hu | ⟨rest, rfl | ⟨i, hi⟩⟩
  · intro p hp
    rw [hu.code] at hp
    rw [hu.w]
    exact hc p hp
  · exact codesShort_of_nil rfl
  · exact exec_leaves (bodyOf_codesShort i (h.withHost rest s.seen) hc) (fun _ hu => hu) (fun _ _ hu => hu) hi

end Sys2Proof.Machine

/-! # Proofs, family "state": the step, reset and the register map (O5, O7, O8, O58, O59) -/

namespace Sys2Proof.Machine

open Sys2Proof

/-! ## The step (R20, R22) -/

theorem step_cons {s : State} {e : HostEvent} {rest : List HostEvent} (h : s.inbox = e :: rest) :
    step s = hostStep e { s with inbox := rest } := by simp only [step, h]

/-- A write to CMD of a value that decodes runs the command (R22). -/
theorem step_command {s : State} {v : Reg} {rest : List HostEvent} {i : Instr} (h : s.inbox = .write cmdOffset v :: rest)
    (hd : decodeCmd s.env.par.ncur v = .ok i) : step s = exec i { s with inbox := rest } := by
  rw [step_cons h]
  simp only [hostStep, if_true, runCmd, hd]

/-- Settles O5: `step` takes the first act, and `withFetchWord` puts a write of the word there. -/
theorem stepRunsCommand : Obligations.StepRunsCommand := by
  refine ⟨fun s v rest i h hd => step_command h hd, fun s h => by simp only [step, h], fun s w i hd => ?_⟩
  have hv : BitVec.ofNat 64 (w.toNat % 2 ^ 32) = w.setWidth 64 := by
    rw [Nat.mod_eq_of_lt w.isLt, BitVec.ofNat_toNat]
  exact step_command (s := s.withFetchWord 32 w.toNat) (rest := s.inbox) rfl (by rw [hv]; exact hd)

/-! ## Reset (R43, R236, R290, R291) -/

theorem Cursor.reset_atReset : CursorAtReset Cursor.reset where
  isOpen := rfl
  mode := rfl
  fid := rfl
  fpos := rfl
  bufsz := rfl
  byteP := rfl
  bitP := rfl
  valid := rfl
  buf _ h := by cases h

/-- Reset leaves every item of R43 at its reset value. -/
theorem resetBlock_atReset (s : State) : AtReset (resetBlock s) where
  registers := ⟨rfl, rfl, rfl, rfl⟩
  status := ⟨rfl, rfl, rfl⟩
  einfo := rfl
  wordSize := rfl
  cursors k := by rw [resetBlock_cur]; exact Cursor.reset_atReset
  db := ⟨List.length_replicate, fun _ hb => List.eq_of_mem_replicate hb⟩
  histogram _ := rfl
  tail := ⟨rfl, rfl, rfl⟩
  nodes := rfl
  heap := rfl
  root := rfl
  codes _ := rfl

/-- The reset state is what reset leaves of itself. -/
theorem resetBlock_reset : resetBlock State.reset = State.reset := rfl

/-- Settles O7: SRST and the reset input leave `resetBlock`, and the reset state is of that form. -/
theorem resetValues : Obligations.ResetValues := by
  refine ⟨resetBlock_reset ▸ resetBlock_atReset _, rfl, fun s => ?_, fun s rest h => ?_, rfl⟩
  · exact ⟨endOk (resetBlock s), rfl, { resetBlock_atReset s with }, rfl, rfl, rfl⟩
  · exact ⟨resetBlock { s with inbox := rest }, step_cons h, resetBlock_atReset _, rfl, rfl, rfl⟩

/-- Settles O8: reset leaves a lawful block over any lawful store, and the store of the reset state is empty. -/
theorem resetInv : Obligations.ResetInv := by
  rw [Obligations.ResetInv, ← resetBlock_reset]
  exact Inv.resetBlock (by decide) rfl

/-! ## Host writes (R39, R40) -/

theorem step_write {s : State} {off : Nat} {v : Reg} {rest : List HostEvent} (h : s.inbox = .write off v :: rest)
    (hoff : off ≠ cmdOffset) : step s = .next (writeReg off v { s with inbox := rest }) := by
  rw [step_cons h]
  simp only [hostStep, if_neg hoff]

/-- An offset that is none of A0 to A3 is one of DB, or unmapped. -/
theorem writeReg_high {off : Nat} (v : Reg) (s : State) (h : off ∉ [0x020, 0x028, 0x030, 0x038]) :
    writeReg off v s = writeHigh off v s := by
  simp only [List.mem_cons, List.not_mem_nil, or_false, not_or] at h
  obtain ⟨h0, h1, h2, h3⟩ := h
  unfold writeReg
  split
  case h_5 => rfl
  all_goals contradiction

/-- Settles O59: A0 to A3 are written whole, a byte of DB takes the low 8 bits, and no other offset takes a write. -/
theorem registerWrites : Obligations.RegisterWrites := by
  intro s off v rest h
  have hw : off ≠ cmdOffset → step s = .next (writeReg off v { s with inbox := rest }) := step_write h
  refine ⟨fun e => ?_, fun e => ?_, fun e => ?_, fun e => ?_, fun j e hj => ?_, fun hn hdb => ?_⟩
  · subst e; exact hw (by decide)
  · subst e; exact hw (by decide)
  · subst e; exact hw (by decide)
  · subst e; exact hw (by decide)
  · subst e
    rw [hw (by simp [cmdOffset]), writeReg_high _ _ (by simp; omega), writeHigh, if_pos ⟨by omega, by simpa using hj⟩,
      Nat.add_sub_cancel_left]
  · rw [List.mem_cons, not_or] at hn
    rw [hw hn.1, writeReg_high _ _ hn.2, writeHigh, if_neg hdb]

/-! ## Host reads (R23, R25 to R32, R39, R40) -/

/-- Two fields side by side in a 64-bit word. -/
theorem setWidth_append_fields {n m : Nat} (x : BitVec n) (y : BitVec m) (h : n + m ≤ 64) :
    (x ++ y).setWidth 64 = y.setWidth 64 ||| x.setWidth 64 <<< m := by
  apply BitVec.eq_of_getLsbD_eq
  intro i hi
  simp only [BitVec.getLsbD_append, BitVec.getLsbD_or, BitVec.getLsbD_shiftLeft, BitVec.getLsbD_setWidth]
  by_cases him : i < m
  · simp [him, hi]
  · have : i - m < 64 := by omega
    simp [him, hi, this, BitVec.getLsbD_of_ge y i (by omega)]

/-- STATUS (R23). -/
theorem statusWord_eq (e : BitVec 8) (b : Bool) (f : BitVec 8) :
    statusWord e b f = e.setWidth 64 ||| (BitVec.ofBool b).setWidth 64 <<< 8 ||| f.setWidth 64 <<< 16 := by
  have h : statusWord e b f = ((0 : BitVec 40) ++ f ++ (0 : BitVec 7) ++ BitVec.ofBool b ++ e).setWidth 64 :=
    (BitVec.setWidth_eq _).symm
  rw [h]
  simp (disch := decide) only [setWidth_append_fields, BitVec.shiftLeft_or_distrib, ← BitVec.shiftLeft_add,
    ← BitVec.or_assoc, BitVec.ofNat_eq_ofNat, BitVec.setWidth_zero, BitVec.zero_shiftLeft, BitVec.zero_or, BitVec.or_zero]

/-- TAIL (R29). -/
theorem tailReg_eq {t : Tail} (h : t.bits < 32) :
    tailReg t = t.wb.b0.setWidth 64 ||| t.wb.b1.setWidth 64 <<< 8 ||| BitVec.ofNat 64 t.bits <<< 16 |||
      (BitVec.ofBool t.valid).setWidth 64 <<< 24 := by
  have hr : tailReg t = ((0 : BitVec 39) ++ BitVec.ofBool t.valid ++ (0 : BitVec 3) ++ BitVec.ofNat 5 t.bits ++ t.wb.b1 ++
      t.wb.b0).setWidth 64 := (BitVec.setWidth_eq _).symm
  have hb : (BitVec.ofNat 5 t.bits).setWidth 64 = BitVec.ofNat 64 t.bits := by
    apply BitVec.eq_of_toNat_eq
    simp
    omega
  rw [hr]
  simp (disch := decide) only [setWidth_append_fields, BitVec.shiftLeft_or_distrib, ← BitVec.shiftLeft_add,
    ← BitVec.or_assoc, BitVec.ofNat_eq_ofNat, BitVec.setWidth_zero, BitVec.zero_shiftLeft, BitVec.zero_or, BitVec.or_zero, hb]

/-- CSTAT (R31). -/
theorem cstatReg_eq (c : Cursor) :
    cstatReg c = (BitVec.ofBool c.isOpen).setWidth 64 ||| (if c.mode = .write then 2 else 0) |||
      BitVec.ofNat 64 c.bitP.val <<< 4 ||| c.fid.setWidth 64 <<< 16 := by
  have hr : cstatReg c = ((0 : BitVec 32) ++ c.fid ++ (0 : BitVec 9) ++ BitVec.ofNat 3 c.bitP.val ++ (0 : BitVec 2) ++
      modeBit c.mode ++ BitVec.ofBool c.isOpen).setWidth 64 := (BitVec.setWidth_eq _).symm
  have hb : (BitVec.ofNat 3 c.bitP.val).setWidth 64 = BitVec.ofNat 64 c.bitP.val := by
    apply BitVec.eq_of_toNat_eq
    simp
  have hm : (modeBit c.mode).setWidth 64 <<< 1 = ((if c.mode = .write then 2 else 0 : Nat) : Reg) := by
    cases c.mode <;> rfl
  rw [hr, ← hm]
  simp (disch := decide) only [setWidth_append_fields, BitVec.shiftLeft_or_distrib, ← BitVec.shiftLeft_add,
    ← BitVec.or_assoc, BitVec.ofNat_eq_ofNat, BitVec.setWidth_zero, BitVec.zero_shiftLeft, BitVec.zero_or, BitVec.or_zero, hb]

/-- CFG (R26). -/
theorem cfgReg_eq (s : State) : cfgReg s = if s.w = .one then 1 else 2 := by
  unfold cfgReg
  cases s.w <;> rfl

/-- HEAPN (R28). -/
theorem heapnReg_eq (s : State) : heapnReg s = (BitVec.ofNat 32 s.heap.length).setWidth 64 := by
  have hr : heapnReg s = ((0 : BitVec 32) ++ BitVec.ofNat 32 s.heap.length).setWidth 64 := (BitVec.setWidth_eq _).symm
  rw [hr, setWidth_append_fields _ _ (by decide)]
  simp

/-- TREE (R27). -/
theorem treeReg_fields (s : State) :
    (treeReg s).extractLsb' 0 32 = refWord s.root ∧ (treeReg s).extractLsb' 32 32 = BitVec.ofNat 32 s.nodes.length :=
  ⟨BitVec.extractLsb'_append_eq_right, BitVec.extractLsb'_append_eq_left⟩

/-- An offset that no register below the cursors' has. -/
theorem readReg_high {s : State} {off : Nat}
    (h : off ∉ [0x008, 0x010, 0x018, 0x020, 0x028, 0x030, 0x038, 0x040, 0x048, 0x050]) : readReg s off = readHigh s off := by
  simp only [List.mem_cons, List.not_mem_nil, or_false, not_or] at h
  obtain ⟨h0, h1, h2, h3, h4, h5, h6, h7, h8, h9⟩ := h
  unfold readReg
  split
  case h_11 => rfl
  all_goals contradiction

/-- The registers of a cursor that exists (R31, R39). -/
theorem readReg_cursor {s : State} {k : Fin Config.curSlots} (hk : k.val < s.env.par.ncur) {d : Nat} (hd : d < 0x40) :
    readReg s (0x100 + 0x40 * k.val + d) = cursorReg (s.cur k) d := by
  have h16 : k.val < 16 := k.isLt
  have hdiv : (0x100 + 0x40 * k.val + d - 0x100) / 0x40 = k.val := by omega
  have hmod : (0x100 + 0x40 * k.val + d - 0x100) % 0x40 = d := by omega
  rw [readReg_high (by simp; omega), readHigh, if_neg (by omega),
    dif_pos (by rw [hdiv]; exact ⟨⟨by omega, hk⟩, k.isLt⟩), hmod]
  exact congrArg (fun j => cursorReg (s.cur j) d) (Fin.ext hdiv)

/-- The bytes of DB (R32). -/
theorem readReg_db {s : State} {j : Nat} (hj : j < s.env.par.dbBytes) :
    readReg s (0x800 + j) = (s.db.getD j 0).setWidth 64 := by
  rw [readReg_high (by simp; omega), readHigh, if_pos (by omega), if_pos (by omega), Nat.add_sub_cancel_left]

/-- A cursor has five registers (R31). -/
theorem cursorReg_unmapped (c : Cursor) {d : Nat} (h : d ∉ [0x00, 0x08, 0x10, 0x18, 0x20]) : cursorReg c d = 0 := by
  simp only [List.mem_cons, List.not_mem_nil, or_false, not_or] at h
  obtain ⟨h0, h1, h2, h3, h4⟩ := h
  unfold cursorReg
  split
  case h_6 => rfl
  all_goals contradiction

/-- Every other offset reads 0, CMD among them (R40). -/
theorem readReg_unmapped {s : State} {off : Nat}
    (h : off ∉ [0x008, 0x010, 0x018, 0x020, 0x028, 0x030, 0x038, 0x040, 0x048, 0x050])
    (hc : ∀ k : Fin Config.curSlots, k.val < s.env.par.ncur →
      ∀ d ∈ [0x00, 0x08, 0x10, 0x18, 0x20], off ≠ 0x100 + 0x40 * k.val + d)
    (hdb : ¬ (0x800 ≤ off ∧ off < 0x800 + s.env.par.dbBytes)) : readReg s off = 0 := by
  rw [readReg_high h, readHigh]
  split
  · rename_i h8
    rw [if_neg fun hl => hdb ⟨h8, hl⟩]
  · split
    · rename_i hk
      refine cursorReg_unmapped _ fun hd => hc ⟨_, hk.2⟩ hk.1.2 _ hd ?_
      have := hk.1.1
      simp only
      omega
    · rfl

/-- Settles O58: one lemma for each register, and one for the offsets that are none. -/
theorem registerReads : Obligations.RegisterReads := by
  refine ⟨fun s off rest h => step_cons h, fun s => ?_⟩
  refine ⟨statusWord_eq _ _ _, rfl, cfgReg_eq s, rfl, rfl, rfl, rfl, ?_, (treeReg_fields s).2, heapnReg_eq s, tailReg_eq,
    fun k hk => ⟨?_, ?_, ?_, ?_, ?_⟩, fun j hj => readReg_db hj, fun off h hc hdb => readReg_unmapped h hc hdb⟩
  · exact (treeReg_fields s).1.trans (by cases s.root <;> rfl)
  · exact (readReg_cursor hk (d := 0) (by decide)).trans (cstatReg_eq _)
  · exact readReg_cursor hk (by decide)
  · exact readReg_cursor hk (by decide)
  · exact readReg_cursor hk (by decide)
  · exact readReg_cursor hk (by decide)

end Sys2Proof.Machine

/-! # Proofs, family "memory": a command's own cursors, the host's files, and a flush that is refused (O18, O54, O60) -/

namespace Sys2Proof.Machine

open Sys2Proof

/-- Settles O54: SRST resets the block and leaves the store; every other command moves the cursors it names and changes
the files they are bound to. -/
theorem ownCursorsOnly : Obligations.OwnCursorsOnly := by
  intro i s t h
  by_cases hi : i = .srst
  · subst hi
    obtain rfl := exec_srst h
    exact ⟨rfl, rfl, fun hn => absurd rfl hn, fun _ _ => rfl⟩
  · obtain ⟨hb, hc⟩ := exec_frame hi h
    refine ⟨hb.host.1, hb.host.2, fun _ k hk => hc.others k ?_, fun f hf => hc.files f ?_⟩
    · rintro ⟨c, hc, hk'⟩
      exact hk c hc hk'
    · rintro k ⟨c, hc, hk⟩
      exact hf c hc k hk

/-! ## The host's files (R60, R64, R79) -/

/-- The store after the host has set a file: that file and no other has changed. -/
theorem hostFileEnv_file {e : Env} (h : Memory.wf e.par e.files = true) (f g : BitVec 16) (b : Option (List Byte)) :
    (hostFileEnv e f b).file g = if g = f then b else e.file g := by
  have hr : tableRises 0 e.files = true := (Bool.and_eq_true_iff.1 h).1
  by_cases hg : g = f
  · subst hg
    rw [if_pos rfl]
    cases b with
    | some b => exact tableGet_tableSet_self _ _ _
    | none => exact tableGet_tableErase_self hr
  · have hne : g.toNat ≠ f.toNat := fun e => hg (BitVec.eq_of_toNat_eq e)
    rw [if_neg hg]
    cases b with
    | some b => exact tableGet_tableSet_ne _ _ hne
    | none => exact tableGet_tableErase_ne _ hne

theorem hostFileEnv_eq (e : Env) (f : BitVec 16) (b : Option (List Byte)) :
    hostFileEnv e f b = { e with files := (hostFileEnv e f b).files } := by
  cases b <;> rfl

/-- When the host's duty towards a cursor forbids a change of a file (R79; log entry 9). -/
theorem breaksDuty_iff {c : Cursor} {f : BitVec 16} {old : Nat} {b : Option (List Byte)} :
    breaksDuty c f old b = true ↔
      c.isOpen = true ∧ c.fid = f ∧ ∀ x, b = some x → x.length < old ∧ x.length < c.fpos := by
  cases b <;> simp [breaksDuty, and_assoc]

/-- Some open cursor forbids the change. -/
theorem someDuty_iff {s : State} {f : BitVec 16} {b : Option (List Byte)} :
    someDuty s f b = true ↔ ∃ k, (s.cur k).isOpen = true ∧ (s.cur k).fid = f ∧
      ∀ x, b = some x → x.length < (fileBytes (s.chan k)).length ∧ x.length < (s.cur k).fpos := by
  simp only [someDuty, List.any_eq_true, List.mem_finRange, true_and, breaksDuty_iff]
  refine exists_congr fun k => and_congr_right fun _ => and_congr_right fun hf => ?_
  rw [fileBytes, State.chan_env, State.chan_cur, hf]

/-- Settles O60: the checks of a change of a file in their order, and what it leaves. -/
theorem hostFiles : Obligations.HostFiles := by
  intro s f rest hi
  refine ⟨fun bytes h => ?_, fun h => ?_, fun fails h => step_cons h⟩
  · have hstep : step s = hostSetFile f bytes { s with inbox := rest } := step_cons h
    have hduty : ∀ hf : ¬ s.env.par.nfid ≤ f.toNat, hostSetFile f bytes { s with inbox := rest } =
        if someDuty s f bytes = true then .fault .hostDuty
        else if s.env.par.maxFileBytes < (bytes.getD []).length then .fault .hostFileTooLong
        else .next { s with inbox := rest, env := hostFileEnv s.env f bytes } := fun hf => if_neg hf
    rw [hstep]
    refine ⟨fun hf => if_pos hf, fun k hf ho hk hb => ?_, fun hf hkeep => ?_⟩
    · rw [hduty (not_le.2 hf), if_pos (someDuty_iff.2 ⟨k, ho, hk, hb⟩)]
    · have hno : ¬ someDuty s f bytes = true := fun hd => by
        obtain ⟨k, ho, hk, hb⟩ := someDuty_iff.1 hd
        obtain ⟨b, rfl, hl⟩ := hkeep k ho hk
        have := hb b rfl
        omega
      rw [hduty (not_le.2 hf), if_neg hno]
      refine ⟨fun hl => if_pos hl, fun hl => ⟨_, if_neg (not_lt.2 hl), ?_, fun g =>
        hostFileEnv_file hi.memory f g bytes⟩⟩
      exact congrArg (fun e => { s with inbox := rest, env := e }) (hostFileEnv_eq s.env f bytes)
  · have hstep : step s = hostReadFile f { s with inbox := rest } := step_cons h
    rw [hstep]
    exact ⟨fun hf => if_pos hf, fun hf => if_neg (not_le.2 hf)⟩

/-! ## A flush that is refused (R63, R64, R124) -/

/-- The bytes a flush stores (R124). -/
theorem flush_length {env : Env} {c : Cursor} (hm : c.mode = .write) (i : CursorInv env c) :
    (c.buf.take (pendingBytes c)).length = pendingBytes c := by
  have := pendingBytes_le hm i
  rw [List.length_take, i.bufLen]
  omega

/-- A flush that the environment refuses, or that would pass `MAX_FILE_BYTES`, leaves its cursor and the store as they
are and uses up one answer. -/
theorem flush_refused {ch : Chan} (hm : ch.cur.mode = .write) (i : CursorInv ch.env ch.cur)
    (h0 : pendingBytes ch.cur ≠ 0)
    (hr : ch.env.ioAnswer = true ∨ ch.env.par.maxFileBytes < ch.cur.fpos + pendingBytes ch.cur) :
    flush ch = .raise .ioFailure { ch with env := ch.env.asked } := by
  have hl := flush_length hm i
  rcases flush_cases ch with ⟨h, _⟩ | ⟨_, ⟨h, _⟩ | ⟨_, _, _, h⟩ | ⟨_, _, ha, hf, _⟩⟩
  · exact absurd h h0
  · rw [i.file] at h
    cases h
  · exact h
  · rw [hl] at hf
    rw [ha] at hr
    rcases hr with hr | hr
    · cases hr
    · omega

/-- Settles O18: CFLUSH and CCLOSE both start with the flush that is refused. -/
theorem failedFlush : Obligations.FailedFlush := by
  intro s ca k hi hk ho hm h0 hr
  have hf : onChan k flush s = .raise .ioFailure { s with env := s.env.asked } := by
    have h := flush_refused (ch := s.chan k) hm (hi.cursors k ho) h0 hr
    rw [onChan, h]
    simp [State.putChan, State.setCur, State.cur]
  have hflush : cflush k s = .raise .ioFailure { s with env := s.env.asked } := by
    rw [cflush, curCheck_ok ho hm, Res.bind_ok, hf]
  have hclose : cclose k s = .raise .ioFailure { s with env := s.env.asked } := by
    rw [cclose, if_neg (by simp [ho]), if_pos hm, hf, Res.bind_raise]
  intro mk hmk
  simp only [List.mem_cons, List.not_mem_nil, or_false] at hmk
  rcases hmk with rfl | rfl
  · exact (onCursor_some hk _ _).trans (by rw [hflush]; rfl)
  · exact (onCursor_some hk _ _).trans (by rw [hclose]; rfl)

end Sys2Proof.Machine

/-! # Proofs, family "memory": writing bits whatever the answers of `IO_FAIL` are

The lemmas of Laws/Streams.lean and Laws/Written.lean assume that no access is refused. What a primitive that succeeds
leaves does not depend on the answers: it leaves the same from the cursor with no answers to come. -/

namespace Sys2Proof.Machine

open Sys2Proof

/-! ## The answers of `IO_FAIL` (R64) -/

/-- The cursor with no answers of `IO_FAIL` to come, so that no access fails (D38). -/
def Chan.quiet (ch : Chan) : Chan := { ch with env := { ch.env with ioFail := [] } }

theorem Chan.quiet_noFail (ch : Chan) : noFail ch.quiet.env := fun _ hb => by cases hb

theorem granted_zero (e : Env) : granted e 0 := fun _ hb => by cases hb

/-- The first of several granted accesses, and the others. -/
theorem granted_succ {e : Env} {j : Nat} : granted e (j + 1) ↔ e.ioAnswer = false ∧ granted e.asked j := by
  simp only [granted, Env.ioAnswer, Env.asked_ioFail]
  cases e.ioFail <;> simp

theorem answer_zero (e : Env) : e.ioFail.getD 0 false = e.ioAnswer := by
  rw [Env.ioAnswer]
  cases e.ioFail <;> rfl

theorem answer_succ (e : Env) (j : Nat) : e.ioFail.getD (j + 1) false = e.asked.ioFail.getD j false := by
  rw [Env.asked_ioFail]
  cases e.ioFail <;> rfl

theorem answers_drop_succ (e : Env) (j : Nat) : e.ioFail.drop (j + 1) = e.asked.ioFail.drop j := by
  rw [Env.asked_ioFail, List.drop_tail]

/-! ## Flushes -/

/-- A flush that succeeds would succeed without answers to come, and leave the same. -/
theorem flush_quiet {ch ch' : Chan} (h : flush ch = .ok () ch') : flush ch.quiet = .ok () ch'.quiet := by
  rcases flush_cases ch with ⟨h0, e⟩ | ⟨h0, ⟨_, e⟩ | ⟨_, _, _, e⟩ | ⟨old, ho, _, hl, e⟩⟩ <;> rw [e] at h <;> cases h
  · exact if_pos h0
  · rcases flush_cases ch.quiet with ⟨h1, _⟩ | ⟨_, ⟨h1, _⟩ | ⟨_, _, h1, _⟩ | ⟨old', ho', _, _, e'⟩⟩
    · exact absurd h1 (Nat.pos_iff_ne_zero.1 h0)
    · cases h1.symm.trans ho
    · rcases h1 with h1 | h1
      · cases h1
      · exact absurd h1 (not_lt.2 hl)
    · obtain rfl := Option.some.inj (ho'.symm.trans ho)
      exact e'

/-- A flush that succeeds puts in the file what the cursor was making (R71, R124). -/
theorem flush_put {ch ch' : Chan} (h : flush ch = .ok () ch') (hm : ch.cur.mode = .write)
    (i : CursorInv ch.env ch.cur) : ChanStep ch ch' ∧ fileBytes ch' = image ch ∧ image ch' = image ch ∧
      ch'.cur.fpos = ch.cur.fpos + pendingBytes ch.cur ∧ ch'.cur.byteP = 0 ∧ ch'.cur.bitP = 0 := by
  have hs := flush_step hm
  rw [h] at hs
  have hf : ch.cur.fpos + pendingBytes ch.cur ≤ ch.env.par.maxFileBytes := by
    rcases flush_cases ch with ⟨h0, _⟩ | ⟨_, ⟨_, e⟩ | ⟨_, _, _, e⟩ | ⟨_, _, _, hl, _⟩⟩
    · rw [h0]
      exact i.fposWrite hm
    · cases e.symm.trans h
    · cases e.symm.trans h
    · rwa [flush_length hm i] at hl
  have iq : CursorInv ch.quiet.env ch.quiet.cur := i.store rfl i.filePresent
  obtain ⟨ch1, hq, _, h1, h2, h3, h4, h5, _⟩ := flush_image (ch := ch.quiet) ch.quiet_noFail hm iq hf
  cases (flush_quiet h).symm.trans hq
  exact ⟨hs, h1, h2, h3, h4, h5⟩

/-! ## Bits -/

/-- A write buffer that is full holds whole bytes (R30). -/
theorem CursorInv.full {env : Env} {c : Cursor} (i : CursorInv env c) (hm : c.mode = .write) (hf : c.byteP = c.bufsz) :
    c.bitP = 0 ∧ pendingBytes c = c.bufsz := by
  have h0 := i.writePos hm hf
  exact ⟨h0, by simp [pendingBytes, h0, hf]⟩

/-- Bits that fit in the buffer need no flush (R122). -/
theorem flushedBytes_eq_zero {c : Cursor} {n : Nat} (hz : 1 ≤ c.bufsz)
    (h : 8 * c.byteP + c.bitP.val + n ≤ 8 * c.bufsz) : flushedBytes c n = 0 := by
  rw [flushedBytes, Nat.div_eq_of_lt (by omega), Nat.mul_zero]

/-- The bit that finds the buffer full has it stored (R122). -/
theorem flushedBytes_full {c : Cursor} (hz : 1 ≤ c.bufsz) (hf : c.byteP = c.bufsz) (h0 : c.bitP = 0) :
    flushedBytes c 1 = c.bufsz := by
  rw [flushedBytes, hf, h0]
  simp only [Fin.val_zero, Nat.add_zero, Nat.add_sub_cancel]
  rw [Nat.div_self (by omega), Nat.mul_one]

/-- Writing nothing. -/
theorem Put.nil {ch : Chan} (hm : ch.cur.mode = .write) (i : CursorInv ch.env ch.cur)
    (hh : ch.cur.fpos ≤ (fileBytes ch).length) : Put ch ch [] := by
  have hroom : 8 * ch.cur.byteP + ch.cur.bitP.val ≤ 8 * ch.cur.bufsz := by
    have hlt := ch.cur.bitP.isLt
    rcases Nat.lt_or_eq_of_le i.byteLe with h | h
    · omega
    · rw [(i.full hm h).1, h]
      exact le_rfl
  exact ⟨ChanStep.refl _, by simp, rfl, hh, by rw [List.length_nil, flushedBytes_eq_zero i.sizePos hroom, Nat.add_zero],
    fun _ _ => rfl⟩

/-- One bit and then others. -/
theorem Put.cons {ch ch1 ch2 : Chan} {b : Bool} {s : Bits} (p : Put ch ch1 [b]) (q : Put ch1 ch2 s)
    (hm : ch.cur.mode = .write) (i : CursorInv ch.env ch.cur) (hh : ch.cur.fpos ≤ (fileBytes ch).length) :
    Put ch ch2 (b :: s) := by
  have hm1 := p.step.mode.trans hm
  have hpos := p.pos
  rw [absBitPos_write hm1, absBitPos_write hm] at hpos
  have hadd := flushedBytes_add (m := s.length) i.sizePos p.step.bufsz p.fpos hpos
  have hin : absBitPos ch.cur ≤ 8 * (Machine.image ch).length := by
    have := pendingBytes_pos hm
    rw [image_length hm i hh]
    omega
  refine ⟨p.step.trans q.step, ?_, ?_, q.noHole, ?_, fun off ho => ?_⟩
  · rw [q.image, p.image, p.pos, written_append _ _ hin, List.singleton_append]
  · rw [q.pos, p.pos, List.length_singleton, List.length_cons, Nat.add_assoc, Nat.add_comm 1]
  · rw [q.fpos, p.fpos, Nat.add_assoc, hadd, List.length_singleton, List.length_cons, Nat.add_comm 1]
  · have hp := p.fpos
    have hq := q.fpos
    rw [q.outside off (by omega), p.outside off (by omega)]

/-- A bit that is written is in the file the cursor is making (R122, R127), whatever the answers of `IO_FAIL`. -/
theorem writeBit_put_of_ok {ch ch' : Chan} {b : Bool} (h : writeBit b ch = .ok () ch') (hm : ch.cur.mode = .write)
    (i : CursorInv ch.env ch.cur) (hw : ch.env.sound) (hh : ch.cur.fpos ≤ (fileBytes ch).length) : Put ch ch' [b] := by
  have hs := writeBit_step b hm
  have hz := i.sizePos
  rw [h] at hs
  rcases writeBit_cases b ch with ⟨hr, e⟩ | ⟨hfull, ⟨ch1, hf, e⟩ | ⟨_, _, _, e⟩ | ⟨_, _, e⟩⟩ <;> rw [e] at h <;> cases h
  · have hle := i.byteLe
    have hlt := ch.cur.bitP.isLt
    refine ⟨hs, putBit_image b hm i hh (by omega), absBitPos_putBit hm, hh, ?_, fun _ _ => rfl⟩
    rw [List.length_singleton, flushedBytes_eq_zero hz (by omega)]
    rfl
  · obtain ⟨h0, hp⟩ := i.full hm hfull
    obtain ⟨s1, hfile, himg, e1, e2, e3⟩ := flush_put hf hm i
    have i1 := s1.inv hw i
    have hm1 := s1.mode.trans hm
    have hh1 : ch1.cur.fpos ≤ (fileBytes ch1).length := by
      rw [hfile, e1, image_length hm i hh]
      omega
    have hpos : absBitPos ch1.cur = absBitPos ch.cur := by
      rw [absBitPos_write hm1, absBitPos_write hm, e1, e2, e3, hp, hfull, h0]
      rfl
    have hroom : ch1.cur.byteP < ch1.cur.bufsz := by
      have := i1.sizePos
      omega
    refine ⟨hs, ?_, ?_, hh1, ?_, fun off ho => flush_outside hh hf ?_⟩
    · rw [putBit_image b hm1 i1 hh1 hroom, himg, hpos]
    · rw [absBitPos_putBit hm1, hpos]
      rfl
    · rw [List.length_singleton, flushedBytes_full hz hfull h0, putBit_fpos, e1, hp]
    · rwa [putBit_fpos, e1] at ho

/-- Bits that are written are in the file the cursor is making (R126), whatever the answers of `IO_FAIL`. -/
theorem writeBits_put_of_ok {s : Bits} {ch ch' : Chan} (h : writeBits s ch = .ok () ch') (hm : ch.cur.mode = .write)
    (i : CursorInv ch.env ch.cur) (hw : ch.env.sound) (hh : ch.cur.fpos ≤ (fileBytes ch).length) : Put ch ch' s := by
  induction s generalizing ch with
  | nil =>
    cases h
    exact Put.nil hm i hh
  | cons b s ih =>
    obtain ⟨_, ch1, h1, h2⟩ := Res.bind_eq_ok.1 h
    have p := writeBit_put_of_ok h1 hm i hw hh
    exact p.cons (ih h2 (p.step.mode.trans hm) (p.step.inv hw i) (p.step.env.sound hw) p.noHole) hm i hh

/-- Two runs of bits are written one after the other (R126). -/
theorem writeBits_append (a b : Bits) (ch : Chan) :
    writeBits (a ++ b) ch = (writeBits a ch).bind fun _ ch' => writeBits b ch' := by
  induction a generalizing ch with
  | nil => rfl
  | cons x a ih =>
    simp only [List.cons_append, writeBits, ih, Res.bind_assoc]

/-- One primitive after another on the same cursor. -/
theorem onChan_bind {α β : Type} (k : Fin Config.curSlots) (f : Chan → Res Chan α) (g : α → Chan → Res Chan β)
    (s : State) : onChan k (fun ch => (f ch).bind g) s = (onChan k f s).bind fun a t => onChan k (g a) t := by
  cases h : f (s.chan k) with
  | ok a ch => simp [onChan, h]
  | raise e ch => simp [onChan, h]
  | stuck r => simp [onChan, h]

theorem onChan_writeBits_append (k : Fin Config.curSlots) (a b : Bits) (s : State) :
    onChan k (writeBits (a ++ b)) s = (onChan k (writeBits a) s).bind fun _ t => onChan k (writeBits b) t := by
  rw [← onChan_bind k (writeBits a) fun _ => writeBits b]
  exact congrArg (fun f => onChan k f s) (funext (writeBits_append a b))

theorem writeBits_singleton (b : Bool) (ch : Chan) : writeBits [b] ch = writeBit b ch := by
  simp only [writeBits]
  cases writeBit b ch <;> rfl

/-- What writing through a cursor of the block stores. -/
theorem Put.stored {s : State} {k : Fin Config.curSlots} {ch : Chan} {bits : Bits} (p : Put (s.chan k) ch bits) :
    Stored s (s.putChan k ch) k bits := by
  have e : (s.putChan k ch).chan k = ch := by simp
  have ec : (s.putChan k ch).cur k = ch.cur := by simp
  have hfid : ch.cur.fid = (s.cur k).fid := p.step.fid
  have hbyte : ∀ off, (s.putChan k ch).env.byteAt (s.cur k).fid off = (fileBytes ch)[off]? := fun off => by
    have := byteAt_eq (s.putChan k ch) k off
    rwa [ec, e, hfid] at this
  refine ⟨by rw [e]; exact p.image, by rw [ec]; exact p.pos, by rw [ec]; exact p.fpos, fun off ho => ?_,
    fun f off hne => ?_⟩
  · rw [ec] at ho
    rw [hbyte, e, image_getElem p.noHole ho]
  · rw [ec] at hne
    by_cases hf : f = (s.cur k).fid
    · subst hf
      rw [hbyte, byteAt_eq s k off]
      refine p.outside off (by_contra fun hc => ?_)
      exact hne ⟨rfl, not_lt.1 fun h => hc (.inl h), not_le.1 fun h => hc (.inr h)⟩
    · have hfile : tableGet ch.env.files f.toNat = tableGet s.env.files f.toNat :=
        p.step.env.others _ fun e => hf (BitVec.eq_of_toNat_eq e)
      exact congrArg (fun o : Option (List Byte) => o.bind fun b => b[off]?) hfile

/-! ## The stream of a tree (R206, R207) -/

theorem Res.bind_congr {σ α β : Type} {r : Res σ α} {f g : α → σ → Res σ β} (h : ∀ a s, r = .ok a s → f a s = g a s) :
    r.bind f = r.bind g := by
  cases r with
  | ok a s => exact h a s rfl
  | raise e s => rfl
  | stuck x => rfl

theorem treeStream_leaf {w : WordSize} {nodes : List Node} {n : Nat} (fuel : Nat) (h : (nodeAt nodes n).leaf = true) :
    treeStream w nodes (fuel + 1) n = leafStream w (nodeAt nodes n) := by simp [treeStream, h]

theorem treeStream_inner {w : WordSize} {nodes : List Node} {n l r : Nat} (fuel : Nat)
    (h : (nodeAt nodes n).leaf = false) (hl : (nodeAt nodes n).left = some l) (hr : (nodeAt nodes n).right = some r) :
    treeStream w nodes (fuel + 1) n = [false] ++ (treeStream w nodes fuel l ++ treeStream w nodes fuel r) := by
  simp [treeStream, h, hl, hr]

/-- `WriteNode` writes the stream of the tree and answers its length (R207). -/
theorem writeNode_eq {k : Fin Config.curSlots} {fuel n : Nat} {s : State} (h : treeOk s.nodes fuel n = true) :
    writeNode k fuel n s = (onChan k (writeBits (treeStream s.w s.nodes fuel n)) s).bind fun _ t =>
      .ok (treeStream s.w s.nodes fuel n).length t := by
  induction fuel generalizing n s with
  | zero => cases h
  | succ fuel ih =>
    have hsame : ∀ {bits : Bits} {u : Unit} {t v : State}, t.nodes = s.nodes ∧ t.w = s.w →
        onChan k (writeBits bits) t = .ok u v → v.nodes = s.nodes ∧ v.w = s.w := fun ht hv => by
      obtain ⟨ch, _, rfl⟩ := onChan_eq_ok.1 hv
      exact ht
    unfold writeNode
    rcases treeOk_shape h with hl | ⟨hl, l, r, e1, e2, h1, h2⟩
    · rw [if_pos hl, treeStream_leaf _ hl]
    · rw [if_neg (by simp [hl]), treeStream_inner _ hl e1 e2, onChan_writeBits_append, Res.bind_assoc,
        show writeBit false = writeBits [false] from funext fun ch => (writeBits_singleton false ch).symm]
      refine Res.bind_congr fun _ t ht => ?_
      obtain ⟨hn, hw⟩ := hsame ⟨rfl, rfl⟩ ht
      simp only [hn, e1, e2]
      rw [ih (by rw [hn]; exact h1), hn, hw, onChan_writeBits_append, Res.bind_assoc, Res.bind_assoc]
      refine Res.bind_congr fun _ u hu => ?_
      obtain ⟨hn', hw'⟩ := hsame ⟨hn, hw⟩ hu
      rw [Res.bind_ok, ih (by rw [hn']; exact h2), hn', hw', Res.bind_assoc]
      refine Res.bind_congr fun _ v _ => ?_
      rw [Res.bind_ok]
      simp only [List.length_append, List.length_singleton, Nat.add_assoc]

/-- Behind its checks TWRITE writes the stream of the tree at ROOT (R206). -/
theorem twrite_eq {k : Fin Config.curSlots} {s : State} {r : Nat} (h : Inv s) (ho : OpenFor s k .write)
    (hr : s.root = some r) :
    twrite k s = (onChan k (writeBits (treeStream s.w s.nodes s.nodes.length r)) s).bind fun _ t =>
      .ok () { t with a0 := resultReg (treeStream s.w s.nodes s.nodes.length r).length } := by
  rw [twrite, curCheck_ok ho.isOpen ho.mode, Res.bind_ok]
  simp only [hr]
  rw [writeNode_eq (h.root r hr), Res.bind_assoc]
  rfl

end Sys2Proof.Machine

/-! # Proofs, family "memory": an automatic flush that is refused (O20) -/

namespace Sys2Proof.Machine

open Sys2Proof

/-- A write cursor on its way to the automatic flush that is refused, which is number `j` of those to come. -/
structure TowardFlush (ch : Chan) (j : Nat) : Prop where
  inv : CursorInv ch.env ch.cur
  sound : ch.env.sound
  mode : ch.cur.mode = .write
  noHole : ch.cur.fpos ≤ (fileBytes ch).length
  before : granted ch.env j
  fits : ch.cur.fpos + j * ch.cur.bufsz ≤ ch.env.par.maxFileBytes
  refused : ch.env.ioFail.getD j false = true ∨ ch.env.par.maxFileBytes < ch.cur.fpos + (j + 1) * ch.cur.bufsz

theorem FlushRefused.toward {s : State} {k : Fin Config.curSlots} {j : Nat} (h : FlushRefused s k j) :
    TowardFlush (s.chan k) j :=
  ⟨h.inv.cursors k h.isOpen, ⟨h.inv.params, h.inv.memory⟩, h.mode, h.noHole, h.before, h.fits, h.refused⟩

/-- The flush that is number `j` from `ch` is number `j'` from `ch'`. -/
structure SameFlush (ch : Chan) (j : Nat) (ch' : Chan) (j' : Nat) : Prop where
  toward : TowardFlush ch' j'
  stores : ch'.cur.fpos + (j' + 1) * ch'.cur.bufsz = ch.cur.fpos + (j + 1) * ch.cur.bufsz
  answers : ch'.env.ioFail.drop (j' + 1) = ch.env.ioFail.drop (j + 1)

section

variable {ch : Chan} {j : Nat}

/-- The bits a write buffer still takes are not fewer than 0. -/
theorem TowardFlush.room (h : TowardFlush ch j) :
    bitsBeforeFlush ch.cur j + (8 * ch.cur.byteP + ch.cur.bitP.val) = 8 * ((j + 1) * ch.cur.bufsz) := by
  have hb : 8 * ch.cur.byteP + ch.cur.bitP.val ≤ 8 * ch.cur.bufsz := by
    have hlt := ch.cur.bitP.isLt
    rcases Nat.lt_or_eq_of_le h.inv.byteLe with hl | hl
    · omega
    · rw [(h.inv.full h.mode hl).1, hl]
      exact le_rfl
  have hj : ch.cur.bufsz ≤ (j + 1) * ch.cur.bufsz := Nat.le_mul_of_pos_left _ (Nat.succ_pos j)
  rw [bitsBeforeFlush, absBitPos_write h.mode]
  omega

/-- While there is room before the flush that is refused, a bit is written. -/
theorem TowardFlush.writeBit (h : TowardFlush ch j) (b : Bool) (hB : 0 < bitsBeforeFlush ch.cur j) :
    ∃ ch' j', writeBit b ch = .ok () ch' ∧ SameFlush ch j ch' j' := by
  have hs := writeBit_step b h.mode
  have hput := fun ch' (e : Machine.writeBit b ch = .ok () ch') =>
    writeBit_put_of_ok e h.mode h.inv h.sound h.noHole
  rcases writeBit_cases b ch with ⟨_, e⟩ | ⟨hfull, hc⟩
  · rw [e] at hs
    refine ⟨_, j, e, ⟨hs.inv h.sound h.inv, h.sound, h.mode, h.noHole, h.before, h.fits, h.refused⟩, rfl, rfl⟩
  · obtain ⟨h0, hp⟩ := h.inv.full h.mode hfull
    have hroom := h.room
    obtain ⟨i, rfl⟩ : ∃ i, j = i + 1 := by
      rcases j with _ | i
      · rw [hfull, h0, Nat.zero_add, Nat.one_mul, Fin.val_zero] at hroom
        omega
      · exact ⟨i, rfl⟩
    obtain ⟨ha, hg⟩ := granted_succ.1 h.before
    have hmul : (i + 1) * ch.cur.bufsz = i * ch.cur.bufsz + ch.cur.bufsz := Nat.succ_mul _ _
    have hmul' : (i + 1 + 1) * ch.cur.bufsz = (i + 1) * ch.cur.bufsz + ch.cur.bufsz := Nat.succ_mul _ _
    have hfits := h.fits
    have hrefused := h.refused
    have hlen := flush_length h.mode h.inv
    have hz := h.inv.sizePos
    rcases flush_cases ch with ⟨e0, _⟩ | ⟨_, ⟨e0, _⟩ | ⟨_, _, hr, _⟩ | ⟨old, ho, _, _, ef⟩⟩
    · omega
    · rw [h.inv.file] at e0
      cases e0
    · rw [ha, hlen, hp] at hr
      simp only [Bool.false_eq_true, false_or] at hr
      omega
    · rcases hc with ⟨ch1, ef', e⟩ | ⟨_, _, ef', _⟩ | ⟨_, ef', _⟩ <;> cases ef.symm.trans ef'
      rw [e] at hs
      refine ⟨_, i, e, ⟨hs.inv h.sound h.inv, hs.env.sound h.sound, h.mode, (hput _ e).noHole, hg, ?_, ?_⟩, ?_, ?_⟩
      · show ch.cur.fpos + pendingBytes ch.cur + i * ch.cur.bufsz ≤ ch.env.par.maxFileBytes
        omega
      · show ch.env.asked.ioFail.getD i false = true ∨
          ch.env.par.maxFileBytes < ch.cur.fpos + pendingBytes ch.cur + (i + 1) * ch.cur.bufsz
        rw [← answer_succ]
        exact hrefused.imp id fun hl => by omega
      · show ch.cur.fpos + pendingBytes ch.cur + (i + 1) * ch.cur.bufsz = _
        omega
      · exact (answers_drop_succ ch.env (i + 1)).symm

/-- The bit that needs the flush that is refused is not written, and one answer is used up. -/
theorem TowardFlush.stop (h : TowardFlush ch j) (b : Bool) (hB : bitsBeforeFlush ch.cur j = 0) :
    j = 0 ∧ ch.cur.byteP = ch.cur.bufsz ∧ ch.cur.bitP = 0 ∧
      Machine.writeBit b ch = .raise .ioFailure { ch with env := ch.env.asked } := by
  have hroom := h.room
  have hlt := ch.cur.bitP.isLt
  have hle := h.inv.byteLe
  have hz := h.inv.sizePos
  have hmul : (j + 1) * ch.cur.bufsz = j * ch.cur.bufsz + ch.cur.bufsz := Nat.succ_mul _ _
  have hj : j = 0 := by
    by_contra hne
    have : ch.cur.bufsz ≤ j * ch.cur.bufsz := Nat.le_mul_of_pos_left _ (Nat.pos_of_ne_zero hne)
    omega
  subst hj
  have hfull : ch.cur.byteP = ch.cur.bufsz := by omega
  obtain ⟨h0, hp⟩ := h.inv.full h.mode hfull
  have hr := h.refused
  rw [answer_zero, Nat.zero_add, Nat.one_mul, ← hp] at hr
  have hf := flush_refused h.mode h.inv (by omega) hr
  refine ⟨rfl, hfull, h0, ?_⟩
  rw [Machine.writeBit, if_pos hfull, hf, Res.bind_raise]

theorem SameFlush.refl (h : TowardFlush ch j) : SameFlush ch j ch j := ⟨h, rfl, rfl⟩

theorem SameFlush.trans {ch1 ch2 : Chan} {j1 j2 : Nat} (h : SameFlush ch j ch1 j1) (h' : SameFlush ch1 j1 ch2 j2) :
    SameFlush ch j ch2 j2 := ⟨h'.toward, h'.stores.trans h.stores, h'.answers.trans h.answers⟩

/-- What is written counts against the room before the flush. -/
theorem SameFlush.room {ch' : Chan} {j' : Nat} {s : Bits} (h : SameFlush ch j ch' j') (p : Put ch ch' s) :
    bitsBeforeFlush ch'.cur j' = bitsBeforeFlush ch.cur j - s.length := by
  rw [bitsBeforeFlush, bitsBeforeFlush, h.stores, p.pos, Nat.sub_sub]

/-- While there is room before the flush that is refused, bits are written. -/
theorem TowardFlush.writeBits (h : TowardFlush ch j) (s : Bits) (hs : s.length ≤ bitsBeforeFlush ch.cur j) :
    ∃ ch' j', writeBits s ch = .ok () ch' ∧ SameFlush ch j ch' j' := by
  induction s generalizing ch j with
  | nil => exact ⟨ch, j, rfl, SameFlush.refl h⟩
  | cons b s ih =>
    rw [List.length_cons] at hs
    obtain ⟨ch1, j1, e1, f1⟩ := h.writeBit b (by omega)
    have p1 := writeBit_put_of_ok e1 h.mode h.inv h.sound h.noHole
    obtain ⟨ch2, j2, e2, f2⟩ := ih f1.toward (by rw [f1.room p1, List.length_singleton]; omega)
    exact ⟨ch2, j2, by rw [Machine.writeBits, e1, Res.bind_ok, e2], f1.trans f2⟩

/-- More bits than there is room for: those that fit are written, then the flush is refused. -/
theorem TowardFlush.writeBits_stop (h : TowardFlush ch j) {s : Bits} (hs : bitsBeforeFlush ch.cur j < s.length) :
    ∃ ch', Put ch ch' (s.take (bitsBeforeFlush ch.cur j)) ∧ ch'.cur.byteP = ch'.cur.bufsz ∧ ch'.cur.bitP = 0 ∧
      ch'.env.asked.ioFail = ch.env.ioFail.drop (j + 1) ∧
      Machine.writeBits s ch = .raise .ioFailure { ch' with env := ch'.env.asked } := by
  have hlen : (s.take (bitsBeforeFlush ch.cur j)).length = bitsBeforeFlush ch.cur j := by
    rw [List.length_take, Nat.min_eq_left hs.le]
  obtain ⟨ch', j', e, f⟩ := h.writeBits (s.take (bitsBeforeFlush ch.cur j)) hlen.le
  have p := writeBits_put_of_ok e h.mode h.inv h.sound h.noHole
  have hB : bitsBeforeFlush ch'.cur j' = 0 := by rw [f.room p, hlen, Nat.sub_self]
  obtain ⟨rfl, hfull, h0, hstop⟩ := f.toward.stop (s[bitsBeforeFlush ch.cur j]) hB
  refine ⟨ch', p, hfull, h0, f.answers ▸ answers_drop_succ ch'.env 0 ▸ rfl, ?_⟩
  have hsplit : s = s.take (bitsBeforeFlush ch.cur j) ++
      s[bitsBeforeFlush ch.cur j] :: s.drop (bitsBeforeFlush ch.cur j + 1) := by
    rw [← List.drop_eq_getElem_cons hs, List.take_append_drop]
  conv_lhs => rw [hsplit]
  rw [writeBits_append, e, Res.bind_ok, Machine.writeBits, hstop, Res.bind_raise]

end

/-- What a refused automatic flush leaves is told by the cursors and the environment. -/
theorem FlushStopped.congr {s t u : State} {k : Fin Config.curSlots} {j : Nat} {bits : Bits}
    (h : FlushStopped s t k j bits) (hc : u.cursors = t.cursors) (he : u.env = t.env) : FlushStopped s u k j bits := by
  have hcur : ∀ m, u.cur m = t.cur m := fun m => by simp only [State.cur, hc]
  have hchan : u.chan k = t.chan k := by simp only [State.chan, hcur, he]
  obtain ⟨ho, hst, hfull, ha⟩ := h
  refine ⟨⟨fun m hm => (hcur m).trans (ho.others m hm), ?_, ?_, ?_, ?_⟩, ⟨?_, ?_, ?_, ?_, ?_⟩, ?_, ?_⟩ <;>
    simp only [hcur, hchan, he]
  exacts [ho.isOpen, ho.mode, ho.fid, ho.bufsz, hst.image, hst.pos, hst.fpos, hst.inside, hst.outside, hfull, ha]

/-- A run of bits written through a cursor of the block that passes the automatic flush that is refused. -/
theorem FlushRefused.onChan_writeBits {s : State} {k : Fin Config.curSlots} {j : Nat} {bits : Bits}
    (h : FlushRefused s k j) (hl : bitsBeforeFlush (s.cur k) j < bits.length) :
    ∃ t, onChan k (writeBits bits) s = .raise .ioFailure t ∧ t = { s with cursors := t.cursors, env := t.env } ∧
      FlushStopped s t k j bits := by
  obtain ⟨ch, p, hfull, h0, ha, e⟩ := h.toward.writeBits_stop hl
  have hr : onChan k (writeBits bits) s = .raise .ioFailure (s.putChan k { ch with env := ch.env.asked }) :=
    onChan_eq_raise.2 ⟨_, e, rfl⟩
  have hstep := Machine.onChan_writeBits bits h.mode
  rw [hr] at hstep
  have hput : Put (s.chan k) { ch with env := ch.env.asked } (bits.take (bitsBeforeFlush (s.cur k) j)) :=
    ⟨⟨p.step.isOpen, p.step.mode, p.step.fid, p.step.bufsz, p.step.env.trans (EnvStep.asked _ _), fun w i =>
      (p.step.inv w i).store rfl (p.step.inv w i).filePresent⟩, p.image, p.pos, p.noHole, p.fpos, p.outside⟩
  refine ⟨_, hr, rfl, CursorStep.onlyCursor hstep, hput.stored, ?_, ha⟩
  rw [State.putChan_cur_self]
  exact ⟨hfull, h0⟩

/-- Settles O20: each of the three commands writes one run of bits through its cursor, and the flush that is refused
stops that run. -/
theorem refusedFlush : Obligations.RefusedFlush := by
  intro s ca k j hk h i bits hi hl
  have ho : OpenFor s k .write := ⟨h.isOpen, h.mode⟩
  obtain ⟨t, hr, ht, hstop⟩ := h.onChan_writeBits hl
  have hbody : ∀ f : Fin Config.curSlots → State → Res State Unit, f k s = .raise .ioFailure t →
      onCursor i ca f s = .next (takeError .ioFailure t) := fun f hf => (onCursor_some hk i f).trans (by rw [hf]; rfl)
  refine ⟨takeError .ioFailure t, ?_, ?_, hstop.congr rfl rfl⟩
  · rcases hi with ⟨rfl, rfl, hn⟩ | ⟨rfl, rfl, hn⟩ | ⟨rfl, r, hroot, rfl⟩
    · refine hbody cwrbits ?_
      rw [cwrbits, curCheck_ok ho.isOpen ho.mode, Res.bind_ok, if_neg (not_lt.2 hn), hr]
    · refine hbody cwrbytes ?_
      rw [cwrbytes, curCheck_ok ho.isOpen ho.mode, Res.bind_ok, if_neg (not_lt.2 hn), hr]
    · refine hbody twrite ?_
      rw [twrite_eq h.inv ho hroot, hr, Res.bind_raise]
  · conv_lhs => rw [ht]
    rfl

end Sys2Proof.Machine

/-! # Proofs, family "memory": reading bits up to a fill that is refused (R62, R121, R125, R126) -/

namespace Sys2Proof.Machine

open Sys2Proof

/-! ## Reading whatever the answers of `IO_FAIL` are -/

/-- A fill that succeeds would succeed without answers to come, and bring the same. -/
theorem refill_quiet {ch ch' : Chan} {n : Nat} (h : refill ch = .ok n ch') : refill ch.quiet = .ok n ch'.quiet := by
  have hq : ch.quiet.env.file ch.quiet.cur.fid = ch.env.file ch.cur.fid := rfl
  rcases fillAt_cases ch.cur.fpos ch with ⟨_, e⟩ | ⟨b, hb, ⟨h0, e⟩ | ⟨_, _, e⟩ | ⟨hn, _, e⟩⟩ <;> cases e.symm.trans h
  · rw [refill, fillAt, hq, hb]
    exact if_pos h0
  · rw [refill, fillAt, hq, hb]
    refine (if_neg hn.ne').trans ?_
    rw [memRead, hq, hb]
    rfl

theorem readBit_quiet {ch ch' : Chan} {b : Option Bool} (h : readBit ch = .ok b ch') :
    readBit ch.quiet = .ok b ch'.quiet := by
  unfold readBit at h ⊢
  by_cases hv : ch.cur.valid ≤ ch.cur.byteP
  · rw [if_pos hv] at h
    obtain ⟨n, ch1, hr, h1⟩ := Res.bind_eq_ok.1 h
    rw [if_pos (show ch.quiet.cur.valid ≤ ch.quiet.cur.byteP from hv), refill_quiet hr, Res.bind_ok]
    split at h1 <;> cases h1 <;> simp_all [takeBit, Chan.quiet]
  · rw [if_neg hv] at h
    cases h
    exact if_neg hv

theorem readBits_quiet {n : Nat} {ch ch' : Chan} {s : Bits} (h : readBits n ch = .ok s ch') :
    readBits n ch.quiet = .ok s ch'.quiet := by
  induction n generalizing ch s with
  | zero =>
    cases h
    rfl
  | succ n ih =>
    obtain ⟨b, ch1, h1, h2⟩ := Res.bind_eq_ok.1 h
    rw [readBits, readBit_quiet h1, Res.bind_ok]
    cases b with
    | none =>
      cases h2
      rfl
    | some b =>
      obtain ⟨bs, ch2, h3, h4⟩ := Res.bind_eq_ok.1 h2
      cases h4
      simp only [ih h3, Res.bind_ok]

/-- The bits that are read are the first pending ones (R126), whatever the answers of `IO_FAIL`. -/
theorem readBits_took_of_ok {n : Nat} {ch ch' : Chan} {s : Bits} (h : readBits n ch = .ok s ch')
    (hm : ch.cur.mode = .read) (i : CursorInv ch.env ch.cur) (hw : ch.env.sound) :
    s = (pending ch).take n ∧ Took ch ch' n := by
  have hs := readBits_step n hm
  rw [h] at hs
  obtain ⟨ch1, hq, t⟩ := readBits_pending n (ch := ch.quiet) ⟨hw.1, hw.2⟩ ch.quiet_noFail hm (i.store rfl i.filePresent)
  cases (readBits_quiet h).symm.trans hq
  exact ⟨rfl, hs, t.pending, t.pos⟩

/-- A fill that succeeds leaves the same bits to come (R121), whatever the answers of `IO_FAIL`. -/
theorem refill_pending_of_ok {n : Nat} {ch ch' : Chan} (h : refill ch = .ok n ch') (i : CursorInv ch.env ch.cur)
    (hv : ch.cur.valid ≤ ch.cur.byteP) : pending ch' = pending ch := by
  obtain ⟨_, ch1, hq, hp, _⟩ := refill_pending (ch := ch.quiet) ch.quiet_noFail (i.store rfl i.filePresent) hv
  cases (refill_quiet h).symm.trans hq
  exact hp

/-- Two runs of bits are read one after the other, the second unless the first has met the end (R126). -/
theorem readBits_add (n m : Nat) (ch : Chan) :
    readBits (n + m) ch = (readBits n ch).bind fun s ch' =>
      if s.length < n then .ok s ch' else (readBits m ch').bind fun s' ch'' => .ok (s ++ s') ch'' := by
  induction n generalizing ch with
  | zero =>
    rw [Nat.zero_add]
    cases h : readBits m ch <;> simp [readBits, h]
  | succ n ih =>
    rw [Nat.add_right_comm, readBits, readBits, Res.bind_assoc]
    refine Res.bind_congr fun b ch1 _ => ?_
    cases b with
    | none => simp
    | some b =>
      simp only [ih, Res.bind_assoc]
      refine Res.bind_congr fun s ch2 _ => ?_
      by_cases hs : s.length < n
      · simp [hs]
      · simp only [hs, if_false, Res.bind_ok, Res.bind_assoc, List.length_cons, Nat.add_lt_add_iff_right,
          List.cons_append]

/-! ## On the way to the fill that is refused -/

/-- A read cursor on its way to the fill that is refused, which is number `j` of those to come. -/
structure TowardFill (ch : Chan) (j : Nat) : Prop where
  inv : CursorInv ch.env ch.cur
  sound : ch.env.sound
  mode : ch.cur.mode = .read
  before : granted ch.env j
  refused : ch.env.ioFail.getD j false = true
  goesOn : bitsBeforeFill ch.cur j < (pending ch).length

theorem FillRefused.toward {s : State} {k : Fin Config.curSlots} {j : Nat} (h : FillRefused s k j) :
    TowardFill (s.chan k) j :=
  ⟨h.inv.cursors k h.isOpen, ⟨h.inv.params, h.inv.memory⟩, h.mode, h.before, h.refused, h.goesOn⟩

/-- The fill that is number `j` from `ch` is number `j'` from `ch'`, and no file has changed. -/
structure SameFill (ch : Chan) (j : Nat) (ch' : Chan) (j' : Nat) : Prop where
  toward : TowardFill ch' j'
  loads : ch'.cur.fpos + j' * ch'.cur.bufsz = ch.cur.fpos + j * ch.cur.bufsz
  env : { ch'.env with ioFail := ch'.env.ioFail.drop (j' + 1) } = { ch.env with ioFail := ch.env.ioFail.drop (j + 1) }

/-- How many bits a read cursor has to deliver: those of its buffer and those of its file. -/
theorem pending_length {ch : Chan} (i : CursorInv ch.env ch.cur) :
    (pending ch).length =
      8 * (ch.cur.valid - ch.cur.byteP + ((fileBytes ch).length - ch.cur.fpos)) - ch.cur.bitP.val := by
  have hv := i.validLe
  have hl := i.bufLen
  simp only [pending, List.length_drop, bytesBits_length, List.length_append, List.length_take]
  omega

section

variable {ch : Chan} {j : Nat}

theorem SameFill.refl (h : TowardFill ch j) : SameFill ch j ch j := ⟨h, rfl, rfl⟩

theorem SameFill.trans {ch1 ch2 : Chan} {j1 j2 : Nat} (h : SameFill ch j ch1 j1) (h' : SameFill ch1 j1 ch2 j2) :
    SameFill ch j ch2 j2 := ⟨h'.toward, h'.loads.trans h.loads, h'.env.trans h.env⟩

/-- The bits before the fill are those of the buffer and of the earlier fills. -/
theorem TowardFill.room (h : TowardFill ch j) :
    bitsBeforeFill ch.cur j = 8 * (ch.cur.valid - ch.cur.byteP + j * ch.cur.bufsz) - ch.cur.bitP.val := by
  obtain ⟨hb, hv⟩ := h.inv.readPos h.mode
  simp only [bitsBeforeFill, absBitPos, h.mode]
  omega

/-- The file goes on beyond what the earlier fills load. -/
theorem TowardFill.inFile (h : TowardFill ch j) : ch.cur.fpos + j * ch.cur.bufsz < (fileBytes ch).length := by
  have hg := h.goesOn
  rw [h.room, pending_length h.inv] at hg
  omega

/-- A bit of the buffer is taken. -/
theorem TowardFill.takeBit (h : TowardFill ch j) (hv : ch.cur.byteP < ch.cur.valid) :
    SameFill ch j { ch with cur := advance ch.cur } j := by
  have hp := pending_take hv (by rw [h.inv.bufLen]; exact h.inv.validLe)
  have hg := h.goesOn
  have hlt := ch.cur.bitP.isLt
  have hB : 0 < bitsBeforeFill ch.cur j := by
    rw [h.room]
    omega
  refine ⟨⟨advance_read_inv h.mode hv h.inv, h.sound, h.mode, h.before, h.refused, ?_⟩, rfl, rfl⟩
  rw [hp, List.length_cons] at hg
  simp only [bitsBeforeFill, absBitPos_advance, advance_fpos, advance_bufsz] at hB hg ⊢
  omega

/-- A fill that is granted loads a whole buffer. -/
theorem TowardFill.refill (h : TowardFill ch (j + 1)) (hv : ch.cur.valid ≤ ch.cur.byteP) :
    ∃ ch', Machine.refill ch = .ok ch.cur.bufsz ch' ∧ SameFill ch (j + 1) ch' j := by
  obtain ⟨ha, hg⟩ := granted_succ.1 h.before
  have hin := h.inFile
  have hz := h.inv.sizePos
  have hmul : (j + 1) * ch.cur.bufsz = j * ch.cur.bufsz + ch.cur.bufsz := Nat.succ_mul _ _
  have hcount : fillCount ch.cur.bufsz ch.cur.fpos (fileBytes ch).length = ch.cur.bufsz := by
    rw [fillCount, if_neg (by omega), Nat.min_eq_left (by omega)]
  have hs := refill_step h.mode
  rcases fillAt_cases ch.cur.fpos ch with ⟨hb, _⟩ | ⟨b, hb, hc⟩
  · cases h.inv.file.symm.trans hb
  · obtain rfl := Option.some.inj (h.inv.file.symm.trans hb)
    rw [hcount] at hc
    rcases hc with ⟨h0, _⟩ | ⟨_, ha', _⟩ | ⟨_, _, e⟩
    · omega
    · cases ha.symm.trans ha'
    · have e' : Machine.refill ch = _ := e
      rw [e'] at hs
      have hp := refill_pending_of_ok e' h.inv hv
      refine ⟨_, e', ⟨hs.1.inv h.sound h.inv, h.sound, h.mode, hg, ?_, ?_⟩, ?_, ?_⟩
      · exact (answer_succ ch.env j).symm.trans h.refused
      · have hgo := h.goesOn
        rw [hp]
        refine lt_of_eq_of_lt ?_ hgo
        rw [bitsBeforeFill, bitsBeforeFill, absBitPos_refill (c' := loaded _ _ _ _) h.mode h.mode
          (h.inv.readPos h.mode) hv rfl rfl rfl rfl]
        show 8 * (ch.cur.fpos + ch.cur.bufsz + j * ch.cur.bufsz) - _ = _
        rw [hmul, Nat.add_assoc, Nat.add_comm ch.cur.bufsz]
      · show ch.cur.fpos + ch.cur.bufsz + j * ch.cur.bufsz = _
        omega
      · show { ch.env with ioFail := ch.env.asked.ioFail.drop (j + 1) } = _
        rw [← answers_drop_succ]

/-- Before the fill that is refused, a bit is read. -/
theorem TowardFill.readBit (h : TowardFill ch j) (hB : 0 < bitsBeforeFill ch.cur j) :
    ∃ b ch' j', Machine.readBit ch = .ok (some b) ch' ∧ SameFill ch j ch' j' := by
  by_cases hv : ch.cur.valid ≤ ch.cur.byteP
  · obtain ⟨i, rfl⟩ : ∃ i, j = i + 1 := by
      rcases j with _ | i
      · rw [h.room, Nat.zero_mul] at hB
        omega
      · exact ⟨i, rfl⟩
    obtain ⟨ch1, e, f⟩ := h.refill hv
    have hz := h.inv.sizePos
    obtain ⟨h0, hv1⟩ := refill_some e (by omega)
    refine ⟨bitAt ch1.cur, _, i, ?_, f.trans (f.toward.takeBit (by omega))⟩
    rw [Machine.readBit, if_pos hv, e, Res.bind_ok, if_neg (by omega)]
    rfl
  · exact ⟨_, _, j, if_neg hv, h.takeBit (not_le.1 hv)⟩

/-- The fill that is refused takes no bit, and one answer is used up. -/
theorem TowardFill.stop (h : TowardFill ch j) (hB : bitsBeforeFill ch.cur j = 0) :
    j = 0 ∧ ch.cur.valid ≤ ch.cur.byteP ∧ Machine.readBit ch = .raise .ioFailure { ch with env := ch.env.asked } := by
  have hlt := ch.cur.bitP.isLt
  have hz := h.inv.sizePos
  rw [h.room] at hB
  have hj : j = 0 := by
    by_contra hne
    have : ch.cur.bufsz ≤ j * ch.cur.bufsz := Nat.le_mul_of_pos_left _ (Nat.pos_of_ne_zero hne)
    omega
  subst hj
  have hin := h.inFile
  have hv : ch.cur.valid ≤ ch.cur.byteP := by omega
  refine ⟨rfl, hv, ?_⟩
  have ha := h.refused
  rw [answer_zero] at ha
  rcases fillAt_cases ch.cur.fpos ch with ⟨hb, _⟩ | ⟨b, hb, ⟨h0, _⟩ | ⟨_, _, e⟩ | ⟨_, ha', _⟩⟩
  · cases h.inv.file.symm.trans hb
  · obtain rfl := Option.some.inj (h.inv.file.symm.trans hb)
    rw [fillCount, if_neg (by omega)] at h0
    omega
  · rw [Machine.readBit, if_pos hv, Machine.refill, e, Res.bind_raise]
  · cases ha.symm.trans ha'

/-- What is read counts against the bits before the fill. -/
theorem SameFill.room {ch' : Chan} {j' n : Nat} (h : SameFill ch j ch' j') (t : Took ch ch' n)
    (hn : n ≤ (pending ch).length) : bitsBeforeFill ch'.cur j' = bitsBeforeFill ch.cur j - n := by
  rw [bitsBeforeFill, bitsBeforeFill, h.loads, t.pos, Nat.min_eq_left hn, Nat.sub_sub]

/-- Before the fill that is refused, bits are read. -/
theorem TowardFill.readBits (h : TowardFill ch j) {n : Nat} (hn : n ≤ bitsBeforeFill ch.cur j) :
    ∃ s ch' j', Machine.readBits n ch = .ok s ch' ∧ SameFill ch j ch' j' := by
  induction n generalizing ch j with
  | zero => exact ⟨[], ch, j, rfl, SameFill.refl h⟩
  | succ n ih =>
    obtain ⟨b, ch1, j1, e1, f1⟩ := h.readBit (by omega)
    have hone : Machine.readBits 1 ch = .ok [b] ch1 := by simp [Machine.readBits, e1]
    have t1 := (readBits_took_of_ok hone h.mode h.inv h.sound).2
    have hg := h.goesOn
    obtain ⟨s, ch2, j2, e2, f2⟩ := ih f1.toward (by rw [f1.room t1 (by omega)]; omega)
    exact ⟨b :: s, ch2, j2, by simp only [Machine.readBits, e1, e2, Res.bind_ok], f1.trans f2⟩

end

/-! ## Readers with a limit -/

/-- A reader that delivers `B` more bits; the read of one more ends with `IOFailure` and leaves `st`. -/
structure ReadsUpTo (ch : Chan) (B : Nat) (st : Chan) : Prop where
  inv : CursorInv ch.env ch.cur
  sound : ch.env.sound
  mode : ch.cur.mode = .read
  goesOn : B < (pending ch).length
  stops : ∃ ch', readBits B ch = .ok ((pending ch).take B) ch' ∧ readBit ch' = .raise .ioFailure st

section

variable {ch st : Chan} {B n : Nat}

/-- Within the limit the bits are delivered, and the limit comes nearer. -/
theorem ReadsUpTo.read (h : ReadsUpTo ch B st) (hn : n ≤ B) :
    ∃ ch', readBits n ch = .ok ((pending ch).take n) ch' ∧ Took ch ch' n ∧ ReadsUpTo ch' (B - n) st := by
  obtain ⟨ch', he, hst⟩ := h.stops
  have hg := h.goesOn
  rw [← Nat.add_sub_cancel' hn, readBits_add] at he
  obtain ⟨s, ch1, e1, he⟩ := Res.bind_eq_ok.1 he
  obtain ⟨rfl, t⟩ := readBits_took_of_ok e1 h.mode h.inv h.sound
  rw [if_neg (by rw [List.length_take]; omega)] at he
  obtain ⟨s', ch2, e2, he⟩ := Res.bind_eq_ok.1 he
  have i1 := t.step.1.inv h.sound h.inv
  have w1 := t.step.1.env.sound h.sound
  have m1 := t.step.1.mode.trans h.mode
  have hp : B - n < (pending ch1).length := by
    rw [t.pending, List.length_drop]
    omega
  obtain ⟨rfl, _⟩ := readBits_took_of_ok e2 m1 i1 w1
  obtain ⟨_, rfl⟩ := Res.ok.inj he
  exact ⟨ch1, e1, t, i1, w1, m1, hp, _, e2, hst⟩

/-- Beyond the limit the read fails. -/
theorem ReadsUpTo.stop (h : ReadsUpTo ch B st) (hn : B < n) : readBits n ch = .raise .ioFailure st := by
  obtain ⟨ch', he, hst⟩ := h.stops
  have hg := h.goesOn
  obtain ⟨m, rfl⟩ : ∃ m, n = B + (m + 1) := ⟨n - B - 1, by omega⟩
  rw [readBits_add, he, Res.bind_ok, if_neg (by rw [List.length_take]; omega), readBits, hst, Res.bind_raise,
    Res.bind_raise]

end

/-! ## What a refused fill leaves -/

/-- What a refused fill leaves is told by the cursors and the environment. -/
theorem FillStopped.congr {s t u : State} {k : Fin Config.curSlots} {j : Nat} (h : FillStopped s t k j)
    (hc : u.cursors = t.cursors) (he : u.env = t.env) : FillStopped s u k j := by
  have hcur : ∀ m, u.cur m = t.cur m := fun m => by simp only [State.cur, hc]
  have hchan : u.chan k = t.chan k := by simp only [State.chan, hcur, he]
  obtain ⟨ho, hp, hpos, hf, hu, henv⟩ := h
  refine ⟨⟨fun m hm => (hcur m).trans (ho.others m hm), ?_, ?_, ?_, ?_⟩, ?_, ?_, ?_, ?_, ?_⟩ <;>
    simp only [hcur, hchan, he]
  exacts [ho.isOpen, ho.mode, ho.fid, ho.bufsz, hp, hpos, hf, hu, henv]

/-- A cursor whose fill number `j` is refused is a reader with a limit. -/
theorem FillRefused.upTo {s : State} {k : Fin Config.curSlots} {j : Nat} (h : FillRefused s k j) :
    ∃ st, ReadsUpTo (s.chan k) (bitsBeforeFill (s.cur k) j) st ∧ FillStopped s (s.putChan k st) k j := by
  have ht := h.toward
  have hg := ht.goesOn
  obtain ⟨bits, ch, j', e, f⟩ := ht.readBits (n := bitsBeforeFill (s.cur k) j) le_rfl
  obtain ⟨rfl, t⟩ := readBits_took_of_ok e ht.mode ht.inv ht.sound
  have hB : bitsBeforeFill ch.cur j' = 0 := by
    rw [f.room t (by exact hg.le)]
    exact Nat.sub_self _
  obtain ⟨rfl, hv, hstop⟩ := f.toward.stop hB
  have hstep : CursorStep k s (s.putChan k { ch with env := ch.env.asked }) := by
    refine ⟨?_, by rw [State.putChan_chan_self]⟩
    rw [State.putChan_chan_self]
    exact t.step.1.trans ⟨rfl, rfl, rfl, rfl, EnvStep.asked _ _, fun _ i => i.store rfl i.filePresent⟩
  refine ⟨{ ch with env := ch.env.asked }, ⟨ht.inv, ht.sound, ht.mode, hg, ch, e, hstop⟩, hstep.onlyCursor,
    ?_, ?_, ?_, ?_, ?_⟩
  · rw [State.putChan_chan_self]
    exact t.pending
  · rw [State.putChan_cur_self]
    exact t.pos.trans (congrArg (absBitPos (s.cur k) + ·) (Nat.min_eq_left hg.le))
  · rw [State.putChan_cur_self]
    have := f.loads
    rwa [Nat.zero_mul, Nat.add_zero] at this
  · rw [State.putChan_cur_self]
    exact hv
  · have henv := f.env
    rw [answers_drop_succ, List.drop_zero] at henv
    exact henv

end Sys2Proof.Machine

/-! # Proofs, family "memory": the commands that read up to a fill that is refused (O19) -/

namespace Sys2Proof.Machine

open Sys2Proof

/-- What follows a primitive that fails on cursor `k` of the block. -/
theorem onChan_raise {α : Type} {k : Fin Config.curSlots} {f : Chan → Res Chan α} {s : State} {e : Err} {st : Chan}
    (h : f (s.chan k) = .raise e st) : onChan k f s = .raise e (s.putChan k st) := onChan_eq_raise.2 ⟨st, h, rfl⟩

section

variable {s : State} {k : Fin Config.curSlots} {st : Chan} {B : Nat}

/-! ## The tokeniser and HSCAN (R150, R152) -/

/-- A full word within the limit. -/
theorem nextWord_upTo (h : ReadsUpTo (s.chan k) B st) (hB : Config.wbits s.w ≤ B) :
    ∃ ch, nextWord k s = .ok (some (wordOfBits ((pending (s.chan k)).take (Config.wbits s.w)), Config.wbits s.w))
        (s.putChan k ch) ∧
      pending ch = (pending (s.chan k)).drop (Config.wbits s.w) ∧ ReadsUpTo ch (B - Config.wbits s.w) st := by
  obtain ⟨ch, e, t, h'⟩ := h.read hB
  have hlen : ((pending (s.chan k)).take (Config.wbits s.w)).length = Config.wbits s.w := by
    have := h.goesOn
    rw [List.length_take]
    omega
  have hpos := wbits_pos s.w
  refine ⟨ch, ?_, t.pending, h'⟩
  rw [nextWord, onChan_of_ok (f := readBits s.wbits) e, Res.bind_ok]
  cases hw : (pending (s.chan k)).take (Config.wbits s.w) with
  | nil =>
    rw [hw] at hlen
    exact absurd hlen hpos.ne
  | cons b bs => rw [← hlen, hw]

/-- A word beyond the limit. -/
theorem nextWord_stop (h : ReadsUpTo (s.chan k) B st) (hB : B < Config.wbits s.w) :
    nextWord k s = .raise .ioFailure (s.putChan k st) := by
  rw [nextWord, onChan_raise (f := readBits s.wbits) (h.stop hB), Res.bind_raise]

/-- How often the full word of slot `v` occurs in a stream (R152). -/
def wordCount (w : WordSize) (bits : Bits) (v : Nat) : Nat :=
  ((fullWords w bits).filter fun p => widx w p.1 = v).length

/-- Fewer bits than a word hold no full word. -/
theorem wordCount_short (w : WordSize) {bits : Bits} (h : bits.length < Config.wbits w) (v : Nat) :
    wordCount w bits v = 0 := by
  have hf : fullWords w bits = [] := by
    by_cases hb : bits = []
    · subst hb
      rfl
    · have hne : bits.length ≠ Config.wbits w := h.ne
      rw [fullWords, wordsOf_cons w hb, List.take_of_length_le h.le, List.drop_of_length_le h.le, wordsOf_nil]
      simp [hne]
  rw [wordCount, hf]
  rfl

/-- The first full word of a stream counts, and those of the rest. -/
theorem wordCount_cons (w : WordSize) {bits : Bits} (h : Config.wbits w ≤ bits.length) (v : Nat) :
    wordCount w bits v = (if v = widx w (wordOfBits (bits.take (Config.wbits w))) then 1 else 0) +
      wordCount w (bits.drop (Config.wbits w)) v := by
  have hb : bits ≠ [] := fun e => absurd h (by rw [e]; exact not_le.2 (wbits_pos w))
  have hlen : (bits.take (Config.wbits w)).length = Config.wbits w := by rw [List.length_take, Nat.min_eq_left h]
  have hf : fullWords w bits =
      (wordOfBits (bits.take (Config.wbits w)), Config.wbits w) :: fullWords w (bits.drop (Config.wbits w)) := by
    rw [fullWords, wordsOf_cons w hb, hlen, List.filter_cons_of_pos (by simp)]
    rfl
  rw [wordCount, hf]
  by_cases hv : v = widx w (wordOfBits (bits.take (Config.wbits w)))
  · rw [List.filter_cons_of_pos (by simp [hv]), if_pos hv, List.length_cons, Nat.add_comm]
    rfl
  · rw [List.filter_cons_of_neg (by simpa using Ne.symm hv), if_neg hv, Nat.zero_add]
    rfl

theorem tableRises_freqSet {t : List (Nat × BitVec 64)} (h : tableRises 0 t = true) (i : Nat) (x : BitVec 64) :
    tableRises 0 (freqSet t i x) = true := by
  unfold freqSet
  split
  · exact tableRises_tableErase h
  · exact tableRises_tableSet x h (Nat.zero_le _)

/-- A word that is counted (R152). -/
theorem countWord_freqAt (h : tableRises 0 s.freq = true) (x : WordBytes) (v : Nat) :
    (countWord x s).freqAt v = s.freqAt v + BitVec.ofNat 64 (if v = widx s.w x then 1 else 0) := by
  rw [State.freqAt, countWord_freq, freqGet_freqSet h]
  split
  · rename_i e
    rw [e]
    rfl
  · exact (BitVec.add_zero _).symm

/-- HSCAN's loop up to the limit: the full words before it are counted, and no tail word is recorded. -/
theorem scanLoop_upTo {fuel : Nat} (nw : Nat) (h : ReadsUpTo (s.chan k) B st) (hf : B < fuel)
    (hr : tableRises 0 s.freq = true) :
    ∃ F, scanLoop k fuel nw s = .raise .ioFailure ({ s with freq := F }.putChan k st) ∧
      ∀ v, freqGet F v = s.freqAt v + BitVec.ofNat 64 (wordCount s.w ((pending (s.chan k)).take B) v) := by
  induction fuel generalizing nw s B with
  | zero => exact absurd hf (Nat.not_lt_zero B)
  | succ fuel ih =>
    have hpos := wbits_pos s.w
    have hlen : ((pending (s.chan k)).take B).length = B := by
      rw [List.length_take, Nat.min_eq_left h.goesOn.le]
    by_cases hB : B < Config.wbits s.w
    · refine ⟨s.freq, by rw [scanLoop, nextWord_stop h hB, Res.bind_raise], fun v => ?_⟩
      rw [wordCount_short s.w (by rw [hlen]; exact hB)]
      exact (BitVec.add_zero _).symm
    · obtain ⟨ch, e, hp, h'⟩ := nextWord_upTo h (not_lt.1 hB)
      obtain ⟨x, hx⟩ : ∃ x, x = wordOfBits ((pending (s.chan k)).take (Config.wbits s.w)) := ⟨_, rfl⟩
      rw [← hx] at e
      have hc : (countWord x (s.putChan k ch)).chan k = ch := State.putChan_chan_self s k ch
      obtain ⟨F, eF, hF⟩ := ih (s := countWord x (s.putChan k ch)) (nw + 1) (by rw [hc]; exact h') (by omega)
        (tableRises_freqSet hr _ _)
      refine ⟨F, ?_, fun v => ?_⟩
      · rw [scanLoop, e, Res.bind_ok]
        refine (if_pos rfl).trans (eF.trans (congrArg _ ?_))
        exact State.putChan_putChan { s with freq := F } k ch st
      · have hw := wordCount_cons s.w (bits := (pending (s.chan k)).take B) (by rw [hlen]; exact not_lt.1 hB) v
        rw [List.take_take, Nat.min_eq_left (not_lt.1 hB), ← hx, List.drop_take, ← hp] at hw
        rw [hF v, hc, countWord_freqAt (s := s.putChan k ch) hr, hw, BitVec.ofNat_add, ← BitVec.add_assoc]
        rfl

/-- HSCAN up to the limit. -/
theorem hscan_upTo (ho : OpenFor s k .read) (h : ReadsUpTo (s.chan k) B st) :
    ∃ F, hscan k s = .raise .ioFailure ({ clearHistogram s with freq := F }.putChan k st) ∧
      ∀ v, freqGet F v = BitVec.ofNat 64 (wordCount s.w ((pending (s.chan k)).take B) v) := by
  obtain ⟨F, e, hF⟩ := scanLoop_upTo (s := clearHistogram s) 0 h (h.goesOn.trans (pending_lt_fuel (s.chan k))) rfl
  refine ⟨F, ?_, fun v => (hF v).trans (BitVec.zero_add _)⟩
  rw [hscan, curCheck_ok ho.isOpen ho.mode, Res.bind_ok, e, Res.bind_raise]

end

/-! ## The stream of a code tree (R100, R101) -/

/-- What follows the state bit of a leaf and comes before its word (R101): the flag, and the length of a word that is
not a full one. -/
def leafHead (w : WordSize) (n : Nat) : Bits :=
  if n = Config.wbits w then [false] else true :: uintbits Config.lenf n

/-- The stream of a code tree: its fields one after the other. -/
def PrefixTree.stream (w : WordSize) (T : PrefixTree) : Bits := (T.nodeFields w).flatten.flatten

/-- The number of nodes of a code tree. -/
def PrefixTree.size (w : WordSize) (T : PrefixTree) : Nat := (T.nodeFields w).length

theorem PrefixTree.stream_leaf (w : WordSize) (word : Bits) :
    (PrefixTree.leaf word).stream w = true :: (leafHead w word.length ++ word) := by
  by_cases h : word.length = Config.wbits w <;> simp [PrefixTree.stream, PrefixTree.nodeFields, leafHead, h]

theorem PrefixTree.stream_inner (w : WordSize) (l r : PrefixTree) :
    (PrefixTree.inner l r).stream w = false :: (l.stream w ++ r.stream w) := by
  simp [PrefixTree.stream, PrefixTree.nodeFields]

theorem PrefixTree.size_leaf (w : WordSize) (word : Bits) : (PrefixTree.leaf word).size w = 1 := by
  by_cases h : word.length = Config.wbits w <;> simp [PrefixTree.size, PrefixTree.nodeFields, h]

theorem PrefixTree.size_inner (w : WordSize) (l r : PrefixTree) :
    (PrefixTree.inner l r).size w = l.size w + r.size w + 1 := by
  simp [PrefixTree.size, PrefixTree.nodeFields]

theorem PrefixTree.size_pos (w : WordSize) (T : PrefixTree) : 0 < T.size w := by
  cases T with
  | leaf word => simp [PrefixTree.size_leaf]
  | inner l r => simp [PrefixTree.size_inner]

theorem uintbits_succ (n v : Nat) : uintbits (n + 1) v = uintbits n (v / 2) ++ [v.testBit 0] := by
  simp only [uintbits, List.range_succ, List.map_append, List.map_cons, List.map_nil, Nat.add_sub_cancel, Nat.sub_self]
  congr 1
  refine List.map_congr_left fun i hi => ?_
  have := List.mem_range.1 hi
  rw [Nat.testBit_div_two, show n - 1 - i + 1 = n - i by omega]

/-- A number that fits a field is read back from it (R8). -/
theorem bitsuint_uintbits {n v : Nat} (h : v < 2 ^ n) : bitsuint (uintbits n v) = v := by
  induction n generalizing v with
  | zero =>
    have : v = 0 := by simpa using h
    subst this
    rfl
  | succ n ih =>
    have hd := ih (v := v / 2) (by rw [Nat.pow_succ] at h; omega)
    rw [bitsuint] at hd
    rw [uintbits_succ, bitsuint, List.foldl_append, hd, Nat.testBit_zero]
    simp only [List.foldl_cons, List.foldl_nil]
    rcases Nat.mod_two_eq_zero_or_one v with h2 | h2 <;> simp [h2] <;> omega

/-! ## TREAD (R208, R209) -/

section

variable {α β : Type} {s : State} {k : Fin Config.curSlots} {st : Chan} {B n : Nat}

/-- A state of TREAD in which the cursor has taken `n` bits of the `B` it delivers since the state `s`; beside its
cursor only the tree has changed. -/
structure ReadingOn (k : Fin Config.curSlots) (st : Chan) (s : State) (B n : Nat) (t : State) : Prop where
  upTo : ReadsUpTo (t.chan k) (B - n) st
  pending : pending (t.chan k) = (Machine.pending (s.chan k)).drop n
  block : freeTree (t.putChan k st) = freeTree (s.putChan k st)

theorem ReadingOn.w {t : State} (h : ReadingOn k st s B n t) : t.w = s.w :=
  (congrArg State.w h.block : (freeTree (t.putChan k st)).w = _)

/-- A piece of TREAD that reads `n` bits: it answers what `P` says, or passes the limit and frees the tree. -/
def Res.reading (k : Fin Config.curSlots) (st : Chan) (s : State) (B n : Nat) (P : α → State → Prop) (r : Res State α) :
    Prop :=
  if B < n then r = .raise .ioFailure (freeTree (s.putChan k st))
  else ∃ a t, r = .ok a t ∧ ReadingOn k st s B n t ∧ P a t

theorem Res.reading_cases {P : α → State → Prop} {r : Res State α} (h : r.reading k st s B n P) :
    (B < n ∧ r = .raise .ioFailure (freeTree (s.putChan k st))) ∨
      (n ≤ B ∧ ∃ a t, r = .ok a t ∧ ReadingOn k st s B n t ∧ P a t) := by
  unfold Res.reading at h
  split at h
  · exact .inl ⟨‹_›, h⟩
  · exact .inr ⟨not_lt.1 ‹_›, h⟩

theorem Res.reading_raise {P : α → State → Prop} (h : B < n) :
    (Res.raise .ioFailure (freeTree (s.putChan k st)) : Res State α).reading k st s B n P := by
  rw [Res.reading, if_pos h]

theorem Res.reading_ok {P : α → State → Prop} {a : α} {t : State} (hn : n ≤ B) (h : ReadingOn k st s B n t)
    (hp : P a t) : (Res.ok a t).reading k st s B n P := by
  rw [Res.reading, if_neg (not_lt.2 hn)]
  exact ⟨a, t, rfl, h, hp⟩

/-- A state that differs in the tree only has the same cursor. -/
theorem chan_of_freeTree {t : State} (h : freeTree t = freeTree s) : t.chan k = s.chan k := by
  have e := congrArg (fun u : State => u.chan k) h
  exact e

theorem ReadingOn.of_freeTree {t u : State} (h : ReadingOn k st s B n t) (hu : freeTree u = freeTree t) :
    ReadingOn k st s B n u := by
  have hc := chan_of_freeTree (k := k) hu
  exact ⟨hc ▸ h.upTo, hc ▸ h.pending, (congrArg (fun v => v.putChan k st) hu).trans h.block⟩

/-- The start. -/
theorem ReadsUpTo.readingOn (h : ReadsUpTo (s.chan k) B st) : ReadingOn k st s B 0 s := ⟨h, rfl, rfl⟩

/-- What a piece reads counts from any state that differs in the tree only. -/
theorem Res.reading_congr {u : State} {P : α → State → Prop} {r : Res State α} (hu : freeTree u = freeTree s)
    (h : r.reading k st u B n P) : r.reading k st s B n P := by
  have hb : freeTree (u.putChan k st) = freeTree (s.putChan k st) := congrArg (fun v => v.putChan k st) hu
  rcases Res.reading_cases h with ⟨hB, rfl⟩ | ⟨hB, a, t, rfl, ht, hp⟩
  · rw [hb]
    exact Res.reading_raise hB
  · exact Res.reading_ok hB ⟨ht.upTo, chan_of_freeTree (k := k) hu ▸ ht.pending, ht.block.trans hb⟩ hp

/-- One piece after another: their bits add up. -/
theorem Res.reading_bind {m : Nat} {P : α → State → Prop} {Q : β → State → Prop} {r : Res State α}
    {f : α → State → Res State β} (hr : r.reading k st s B n P)
    (hf : ∀ a t, ReadingOn k st s B n t → P a t → (f a t).reading k st t (B - n) m Q) :
    (r.bind f).reading k st s B (n + m) Q := by
  rcases Res.reading_cases hr with ⟨hB, rfl⟩ | ⟨hB, a, t, rfl, ht, hp⟩
  · exact Res.reading_raise (by omega)
  · rw [Res.bind_ok]
    rcases Res.reading_cases (hf a t ht hp) with ⟨hB', e⟩ | ⟨hB', b, u, e, hu, hq⟩
    · rw [e, ht.block]
      exact Res.reading_raise (by omega)
    · rw [e]
      refine Res.reading_ok (by omega) ⟨?_, ?_, hu.block.trans ht.block⟩ hq
      · rw [← Nat.sub_sub]
        exact hu.upTo
      · rw [hu.pending, ht.pending, List.drop_drop]

/-- A piece and then what takes no bit and changes the tree at most. -/
theorem Res.reading_map {P : α → State → Prop} {Q : β → State → Prop} {r : Res State α} {f : α → State → β}
    {g : α → State → State} (hr : r.reading k st s B n P)
    (hf : ∀ a t, ReadingOn k st s B n t → P a t → freeTree (g a t) = freeTree t ∧ Q (f a t) (g a t)) :
    (r.bind fun a t => .ok (f a t) (g a t)).reading k st s B n Q :=
  Res.reading_bind (m := 0) hr fun a t ht hp => by
    obtain ⟨hg, hq⟩ := hf a t ht hp
    exact Res.reading_ok (Nat.zero_le _) (ht.upTo.readingOn.of_freeTree hg) hq

/-- A field within the declared size (R209). -/
theorem need_reading {D cnt : Nat} (h : ReadsUpTo (s.chan k) B st) (hD : cnt + n ≤ D) :
    (need k D cnt n s).reading k st s B n fun bits t => bits = (pending (s.chan k)).take n ∧ t.nodes = s.nodes := by
  rw [need, if_neg (not_lt.2 hD), readOrFree]
  by_cases hB : B < n
  · rw [onChan_raise (h.stop hB)]
    exact Res.reading_raise hB
  · obtain ⟨ch, e, t, h'⟩ := h.read (not_lt.1 hB)
    have hg := h.goesOn
    rw [onChan_of_ok e, Res.bind_ok, if_neg (by rw [List.length_take]; omega)]
    refine Res.reading_ok (not_lt.1 hB) ⟨?_, ?_, ?_⟩ ⟨rfl, rfl⟩
    · rwa [State.putChan_chan_self]
    · rw [State.putChan_chan_self]
      exact t.pending
    · rw [State.putChan_putChan]

variable {w : WordSize} {D cnt : Nat}

/-- The flag and the length of a leaf's word (R209). -/
theorem readLeafLen_reading {rest : Bits} {len : Nat} (h : ReadsUpTo (s.chan k) B st) (hw : s.w = w)
    (hlen : len ≤ Config.wbits w) (hp : pending (s.chan k) = leafHead w len ++ rest)
    (hD : cnt + (leafHead w len).length ≤ D) :
    (readLeafLen k D cnt s).reading k st s B (leafHead w len).length fun r t =>
      r = (len, cnt + (leafHead w len).length) ∧ t.nodes = s.nodes := by
  unfold leafHead at hp hD ⊢
  by_cases hfull : len = Config.wbits w
  · rw [if_pos hfull] at hp hD ⊢
    refine Res.reading_bind (n := 1) (m := 0) (need_reading h hD) fun fl t ht ⟨hfl, hn⟩ => ?_
    rw [hp] at hfl
    obtain rfl : fl = [false] := hfl
    refine Res.reading_ok (Nat.zero_le _) ht.upTo.readingOn ⟨?_, hn⟩
    rw [hfull, ← hw, ← ht.w]
    rfl
  · rw [if_neg hfull] at hp hD ⊢
    rw [List.length_cons, uintbits_length] at hD ⊢
    rw [Nat.add_comm Config.lenf]
    refine Res.reading_bind (need_reading h (by omega)) fun fl t ht ⟨hfl, hn⟩ => ?_
    rw [hp] at hfl
    obtain rfl : fl = [true] := hfl
    have hpt : pending (t.chan k) = uintbits Config.lenf len ++ rest := by
      rw [ht.pending, hp]
      rfl
    refine Res.reading_bind (n := Config.lenf) (m := 0) (need_reading ht.upTo (by omega)) fun bits u hu ⟨hb, hn'⟩ => ?_
    have hval : bitsuint bits = len := by
      rw [hb, hpt, List.take_left' (uintbits_length _ _)]
      exact bitsuint_uintbits (Nat.lt_of_le_of_lt (hlen.trans (wbits_le w)) (by decide))
    have hlt : ¬ u.wbits ≤ bitsuint bits := by
      have huw : u.wbits = Config.wbits w := congrArg Config.wbits (hu.w.trans (ht.w.trans hw))
      rw [huw, hval]
      omega
    rw [if_neg hlt, hval]
    exact Res.reading_ok (Nat.zero_le _) hu.upTo.readingOn ⟨by rw [Nat.add_assoc, Nat.add_comm 1], hn'.trans hn⟩

/-- A leaf after its state bit (R209). -/
theorem readLeaf_reading {word rest : Bits} (h : ReadsUpTo (s.chan k) B st) (hw : s.w = w)
    (hlen : word.length ≤ Config.wbits w) (hp : pending (s.chan k) = leafHead w word.length ++ (word ++ rest))
    (hD : cnt + (leafHead w word.length ++ word).length ≤ D) :
    (readLeaf k D cnt s).reading k st s B (leafHead w word.length ++ word).length fun r t =>
      r.2 = cnt + (leafHead w word.length ++ word).length ∧ t.nodes = s.nodes := by
  rw [List.length_append] at hD ⊢
  refine Res.reading_bind (readLeafLen_reading h hw hlen hp (by omega)) fun r t ht ⟨hr, hn⟩ => ?_
  subst hr
  exact Res.reading_map (need_reading ht.upTo (by omega)) fun bits u _ ⟨_, hn'⟩ =>
    ⟨rfl, Nat.add_assoc _ _ _, hn'.trans hn⟩

/-- `ReadNode` after the node is allocated and its state bit is read (R209). -/
theorem readNode_state {fuel : Nat} (h : ReadsUpTo (s.chan k) B st) (hcap : s.nodes.length < Config.nodeCap s.w)
    (hD : cnt + 1 ≤ D) {m : Nat} {Q : Nat × Nat → State → Prop}
    (hf : ∀ bit t, ReadingOn k st s B 1 t → bit = (pending (s.chan k)).take 1 → t.nodes = s.nodes ++ [freshNode] →
      (if bit = [true] then
          (readLeaf k D (cnt + 1) t).bind fun r u =>
            .ok (s.nodes.length, r.2) (updateNode s.nodes.length (asLeaf r.1) u)
        else
          (readNode k D fuel (cnt + 1) t).bind fun l u =>
            (readNode k D fuel l.2 (updateNode s.nodes.length (fun x => { x with left := some l.1 }) u)).bind fun r v =>
              .ok (s.nodes.length, r.2) (updateNode s.nodes.length (fun x => { x with right := some r.1 }) v)).reading
        k st t (B - 1) m Q) :
    (readNode k D (fuel + 1) cnt s).reading k st s B (1 + m) Q := by
  have hu : freeTree { s with nodes := s.nodes ++ [freshNode] } = freeTree s := rfl
  rw [readNode, if_neg hcap.ne, alloc, if_neg hcap.ne, Res.bind_ok]
  exact Res.reading_bind (Res.reading_congr hu (need_reading h hD)) fun bit t ht ⟨hb, hn⟩ => hf bit t ht hb hn

/-- `ReadNode` on the stream of a code tree (R209): the tree is read, or the limit is met and the tree is freed. -/
theorem readNode_reading {fuel : Nat} {rest : Bits} (T : PrefixTree) (h : ReadsUpTo (s.chan k) B st) (hw : s.w = w)
    (hT : T.ok w = true) (hp : pending (s.chan k) = T.stream w ++ rest)
    (hcap : s.nodes.length + T.size w ≤ Config.nodeCap w) (hf : T.size w ≤ fuel) (hD : cnt + (T.stream w).length ≤ D) :
    (readNode k D fuel cnt s).reading k st s B (T.stream w).length fun r t =>
      r.2 = cnt + (T.stream w).length ∧ t.nodes.length = s.nodes.length + T.size w := by
  have hsize := PrefixTree.size_pos w T
  induction T generalizing s B cnt fuel rest with
  | leaf word =>
    obtain ⟨f, rfl⟩ : ∃ f, fuel = f + 1 := ⟨fuel - 1, by omega⟩
    rw [PrefixTree.stream_leaf] at hp hD ⊢
    rw [PrefixTree.size_leaf] at hcap ⊢
    rw [List.length_cons] at hD ⊢
    rw [Nat.add_comm _ 1]
    refine readNode_state h (by rw [hw]; omega) (by omega) fun bit t ht hb hn => ?_
    have hbit : bit = [true] := by
      rw [hb, hp]
      rfl
    have hpt : pending (t.chan k) = leafHead w word.length ++ (word ++ rest) := by
      rw [ht.pending, hp, List.cons_append, List.append_assoc]
      rfl
    rw [if_pos hbit]
    refine Res.reading_map (readLeaf_reading ht.upTo (ht.w.trans hw) (of_decide_eq_true hT) hpt (by omega))
      fun r u _ ⟨hr, hn'⟩ => ⟨rfl, ?_, ?_⟩
    · rw [hr, Nat.add_assoc]
    · rw [updateNode_nodes, List.length_modify, hn', hn, List.length_append]
      rfl
  | inner l r ihl ihr =>
    obtain ⟨f, rfl⟩ : ∃ f, fuel = f + 1 := ⟨fuel - 1, by omega⟩
    rw [PrefixTree.stream_inner] at hp hD ⊢
    rw [PrefixTree.size_inner] at hcap hf ⊢
    rw [List.length_cons, List.length_append] at hD ⊢
    obtain ⟨hTl, hTr⟩ := Bool.and_eq_true_iff.1 hT
    have hl := PrefixTree.size_pos w l
    have hr := PrefixTree.size_pos w r
    rw [Nat.add_comm _ 1]
    refine readNode_state h (by rw [hw]; omega) (by omega) fun bit t ht hb hn => ?_
    have hbit : bit ≠ [true] := by
      rw [hb, hp]
      exact fun e => by cases e
    have htw := ht.w.trans hw
    have hpt : pending (t.chan k) = l.stream w ++ (r.stream w ++ rest) := by
      rw [ht.pending, hp, List.cons_append, List.append_assoc]
      rfl
    have hnt : t.nodes.length = s.nodes.length + 1 := by
      rw [hn, List.length_append]
      rfl
    rw [if_neg hbit]
    refine Res.reading_bind (ihl ht.upTo htw hTl hpt (by omega) (by omega) (by omega) hl) fun a u hu ⟨ha, hnu⟩ => ?_
    have hpu : pending (u.chan k) = r.stream w ++ rest := by rw [hu.pending, hpt, List.drop_left]
    obtain ⟨u', hu'⟩ : ∃ u', u' = updateNode s.nodes.length (fun x => { x with left := some a.1 }) u := ⟨_, rfl⟩
    have hfree : freeTree u' = freeTree u := by rw [hu']; rfl
    have hlen : u'.nodes.length = u.nodes.length := by rw [hu', updateNode_nodes, List.length_modify]
    have hc : u'.chan k = u.chan k := chan_of_freeTree hfree
    have huw : u'.w = w := by rw [hu', updateNode_w, hu.w, htw]
    rw [← hu']
    refine Res.reading_map (Res.reading_congr hfree
      (ihr (hc ▸ hu.upTo) huw hTr (hc ▸ hpu) (by omega) (by omega) (by omega) hr)) fun b v _ ⟨hb', hnv⟩ => ⟨rfl, ?_, ?_⟩
    · rw [hb', ha]
      omega
    · rw [updateNode_nodes, List.length_modify, hnv, hlen]
      omega

/-- TREAD of a tree whose stream passes the limit (R208). -/
theorem tread_upTo {T : PrefixTree} {rest : Bits} (ho : OpenFor s k .read) (h : ReadsUpTo (s.chan k) B st)
    (hT : T.ok s.w = true) (hsize : T.size s.w ≤ Config.nodeCap s.w) (hp : pending (s.chan k) = T.stream s.w ++ rest)
    (hD : (T.stream s.w).length ≤ s.a0.toNat) (hB : B < (T.stream s.w).length) :
    tread k s = .raise .ioFailure (freeTree (s.putChan k st)) := by
  have hr := readNode_reading (s := freeTree s) (cnt := 0) (D := s.a0.toNat) (fuel := Config.nodeCap s.w + 1) T h rfl
    hT hp (by rw [freeTree_nodes, List.length_nil, Nat.zero_add]; exact hsize) (by rw [freeTree_w]; omega)
    (by rw [freeTree_w]; omega)
  rcases Res.reading_cases hr with ⟨_, e⟩ | ⟨hn, _⟩
  · rw [tread, curCheck_ok ho.isOpen ho.mode, Res.bind_ok, e, Res.bind_raise]
    rfl
  · exact absurd hB (not_lt.2 hn)

end

/-! ## The four commands -/

/-- Settles O19: behind their checks the four commands read through a cursor that meets the refused fill. -/
theorem refusedFill : Obligations.RefusedFill := by
  intro s ca k j hk h
  have ho : OpenFor s k .read := ⟨h.isOpen, h.mode⟩
  obtain ⟨st, hst, hstop⟩ := h.upTo
  have hbody : ∀ i (f : Fin Config.curSlots → State → Res State Unit) t, f k s = .raise .ioFailure t →
      onCursor i ca f s = .next (takeError .ioFailure t) := fun i f t hf =>
    (onCursor_some hk i f).trans (by rw [hf]; rfl)
  refine ⟨fun i n hi hn hB => ⟨takeError .ioFailure (s.putChan k st), ?_, rfl, hstop.congr rfl rfl⟩, ?_, ?_⟩
  · have hread : readToDb n k s = .raise .ioFailure (s.putChan k st) := by
      rw [readToDb, onChan_raise (hst.stop hB), Res.bind_raise]
    rcases hi with ⟨rfl, rfl⟩ | ⟨rfl, rfl⟩
    · refine hbody _ crdbits _ ?_
      rw [crdbits, curCheck_ok ho.isOpen ho.mode, Res.bind_ok, if_neg (not_lt.2 hn), hread]
    · refine hbody _ crdbytes _ ?_
      rw [crdbytes, curCheck_ok ho.isOpen ho.mode, Res.bind_ok, if_neg (by omega), hread]
  · obtain ⟨F, e, hF⟩ := hscan_upTo ho hst
    refine ⟨_, hbody _ hscan _ e, rfl, hstop.congr rfl rfl, fun v _ => hF v, ?_⟩
    have hnone : wordCount s.w ((pending (s.chan k)).take (bitsBeforeFill (s.cur k) j)) (Config.tailIdx s.w) = 0 := by
      rw [wordCount, List.filter_eq_nil_iff.2 fun p _ => by simpa using (widx_lt s.w p.1).ne, List.length_nil]
    exact (hF _).trans (by rw [hnone]; rfl)
  · rintro T bits rest hT hsize rfl hp hD hB
    exact ⟨_, hbody _ tread _ (tread_upTo ho hst hT hsize hp hD hB), rfl, hstop.congr rfl rfl⟩

end Sys2Proof.Machine

/-! # Proofs, family "memory": the answers of `IO_FAIL` decide how a command ends (O22)

`Res.answered` says of a piece of a command that it got grants only, or grants and then one refusal, with which it ends.
It is proved of the primitives, kept by sequencing, and so holds of every command. -/

namespace Sys2Proof.Machine

open Sys2Proof

/-! ## Grants and refusals (R64) -/

/-- Only grants were got on the way from `e` to `e'`. -/
def Granted (e e' : Env) : Prop := ∃ j, granted e j ∧ e'.ioFail = e.ioFail.drop j

/-- Grants and then one more answer were got on the way from `e` to `e'`; where that was a grant, `full` holds. -/
def Refused (full : Prop) (e e' : Env) : Prop :=
  ∃ j, granted e j ∧ e'.ioFail = e.ioFail.drop (j + 1) ∧ (e.ioFail.getD j false = true ∨ full)

theorem Granted.refl (e : Env) : Granted e e := ⟨0, granted_zero e, rfl⟩

theorem Granted.of_eq {e e' : Env} (h : e' = e) : Granted e e' := h ▸ Granted.refl e

/-- One question that is granted. -/
theorem Granted.one {e e' : Env} (ha : e.ioAnswer = false) (h : e'.ioFail = e.asked.ioFail) : Granted e e' :=
  ⟨1, granted_succ.2 ⟨ha, granted_zero _⟩, by rw [h, answers_drop_succ, List.drop_zero]⟩

/-- One question that is refused. -/
theorem Refused.one {full : Prop} {e : Env} (h : e.ioAnswer = true ∨ full) : Refused full e e.asked :=
  ⟨0, granted_zero e, by rw [answers_drop_succ, List.drop_zero], h.imp (fun ha => (answer_zero e).trans ha) id⟩

theorem granted_add {e e' : Env} {j j' : Nat} (h : granted e j) (h' : granted e' j')
    (he : e'.ioFail = e.ioFail.drop j) : granted e (j + j') := by
  intro b hb
  rw [List.take_add, List.mem_append, ← he] at hb
  exact hb.elim (h b) (h' b)

theorem Granted.trans {e e' e'' : Env} (h : Granted e e') (h' : Granted e' e'') : Granted e e'' := by
  obtain ⟨j, hg, he⟩ := h
  obtain ⟨j', hg', he'⟩ := h'
  exact ⟨j + j', granted_add hg hg' he, by rw [he', he, List.drop_drop]⟩

/-- Grants before a refusal. -/
theorem Granted.refused {full : Prop} {e e' e'' : Env} (h : Granted e e') (h' : Refused full e' e'') :
    Refused full e e'' := by
  obtain ⟨j, hg, he⟩ := h
  obtain ⟨j', hg', he', hr⟩ := h'
  refine ⟨j + j', granted_add hg hg' he, by rw [he', he, List.drop_drop, Nat.add_assoc], hr.imp_left fun ha => ?_⟩
  rw [he, List.getD_eq_getElem?_getD, List.getElem?_drop] at ha
  rwa [List.getD_eq_getElem?_getD]

theorem Refused.mono {p q : Prop} {e e' : Env} (h : Refused p e e') (hpq : p → q) : Refused q e e' := by
  obtain ⟨j, hg, he, hr⟩ := h
  exact ⟨j, hg, he, hr.imp_right hpq⟩

/-! ## The primitives -/

/-- A write cursor whose flush would pass `max` bytes (R63). -/
def Overfull (max : Nat) (c : Cursor) : Prop := c.mode = .write ∧ max < c.fpos + pendingBytes c

/-- What a primitive that is served leaves of its cursor and the environment. -/
structure ChanServed (ch ch' : Chan) : Prop where
  par : ch'.env.par = ch.env.par
  mode : ch'.cur.mode = ch.cur.mode
  granted : Granted ch.env ch'.env

/-- What a primitive that is refused leaves of its cursor and the environment. -/
structure ChanRefused (ch ch' : Chan) : Prop where
  par : ch'.env.par = ch.env.par
  mode : ch'.cur.mode = ch.cur.mode
  refused : Refused (Overfull ch.env.par.maxFileBytes ch'.cur) ch.env ch'.env

/-- A primitive succeeds with grants only, and fails with a refusal (R64). -/
def Res.served {α : Type} (ch : Chan) : Res Chan α → Prop
  | .ok _ ch' => ChanServed ch ch'
  | .raise e ch' => e = .ioFailure ∧ ChanRefused ch ch'
  | .stuck _ => True

theorem ChanServed.refl (ch : Chan) : ChanServed ch ch := ⟨rfl, rfl, Granted.refl _⟩

theorem ChanServed.trans {a b c : Chan} (h : ChanServed a b) (h' : ChanServed b c) : ChanServed a c :=
  ⟨h'.par.trans h.par, h'.mode.trans h.mode, h.granted.trans h'.granted⟩

theorem ChanServed.refused {a b c : Chan} (h : ChanServed a b) (h' : ChanRefused b c) : ChanRefused a c :=
  ⟨h'.par.trans h.par, h'.mode.trans h.mode, h.par ▸ h.granted.refused h'.refused⟩

theorem Res.served_bind {α β : Type} {ch : Chan} {r : Res Chan α} {f : α → Chan → Res Chan β} (hr : r.served ch)
    (hf : ∀ a ch', ChanServed ch ch' → (f a ch').served ch') : (r.bind f).served ch := by
  cases r with
  | ok a ch1 =>
    have h := hf a ch1 hr
    rw [Res.bind_ok]
    cases hfa : f a ch1 with
    | ok b ch2 =>
      rw [hfa] at h
      exact ChanServed.trans hr h
    | raise e ch2 =>
      rw [hfa] at h
      exact ⟨h.1, ChanServed.refused hr h.2⟩
    | stuck x => trivial
  | raise e ch1 => exact hr
  | stuck x => trivial

theorem fillAt_served (p : Nat) (ch : Chan) : (fillAt p ch).served ch := by
  rcases fillAt_cases p ch with ⟨_, h⟩ | ⟨_, _, ⟨_, h⟩ | ⟨_, ha, h⟩ | ⟨_, ha, h⟩⟩ <;> rw [h]
  · trivial
  · exact ⟨rfl, rfl, Granted.refl _⟩
  · exact ⟨rfl, rfl, rfl, Refused.one (.inl ha)⟩
  · exact ⟨rfl, rfl, Granted.one ha rfl⟩

theorem seekTo_served (p : Nat) (ch : Chan) : (seekTo p ch).served ch :=
  Res.served_bind (fillAt_served _ ch) fun _ _ _ => ⟨rfl, rfl, Granted.refl _⟩

theorem readBit_served (ch : Chan) : (readBit ch).served ch := by
  unfold readBit
  split
  · refine Res.served_bind (fillAt_served _ ch) fun n ch' _ => ?_
    split
    · exact ChanServed.refl ch'
    · exact ⟨rfl, rfl, Granted.refl _⟩
  · exact ⟨rfl, rfl, Granted.refl _⟩

theorem readBits_served (n : Nat) (ch : Chan) : (readBits n ch).served ch := by
  induction n generalizing ch with
  | zero => exact ChanServed.refl ch
  | succ n ih =>
    refine Res.served_bind (readBit_served ch) fun b ch' _ => ?_
    cases b with
    | none => exact ChanServed.refl ch'
    | some b => exact Res.served_bind (ih ch') fun _ ch'' _ => ChanServed.refl ch''

theorem flush_served {ch : Chan} (hm : ch.cur.mode = .write) : (flush ch).served ch := by
  rcases flush_cases ch with ⟨_, h⟩ | ⟨_, ⟨_, h⟩ | ⟨_, _, hr, h⟩ | ⟨_, _, ha, _, h⟩⟩ <;> rw [h]
  · exact ⟨rfl, rfl, Granted.refl _⟩
  · trivial
  · refine ⟨rfl, rfl, rfl, Refused.one (hr.imp id fun hl => ⟨hm, ?_⟩)⟩
    have := List.length_take_le (pendingBytes ch.cur) ch.cur.buf
    show ch.env.par.maxFileBytes < ch.cur.fpos + pendingBytes ch.cur
    omega
  · exact ⟨rfl, rfl, Granted.one ha rfl⟩

theorem writeBit_served (b : Bool) {ch : Chan} (hm : ch.cur.mode = .write) : (writeBit b ch).served ch := by
  unfold writeBit
  split
  · exact Res.served_bind (flush_served hm) fun _ ch' _ => ⟨rfl, rfl, Granted.refl _⟩
  · exact ⟨rfl, rfl, Granted.refl _⟩

theorem writeBits_served (s : Bits) {ch : Chan} (hm : ch.cur.mode = .write) : (writeBits s ch).served ch := by
  induction s generalizing ch with
  | nil => exact ChanServed.refl ch
  | cons b s ih => exact Res.served_bind (writeBit_served b hm) fun _ ch' h => ih (h.mode.trans hm)

/-! ## The pieces of a command -/

/-- What a piece that is served leaves. -/
structure Served (s t : State) : Prop where
  par : t.env.par = s.env.par
  mode : ∀ k, (t.cur k).mode = (s.cur k).mode
  granted : Granted s.env t.env

/-- What a piece that is refused leaves: a refused access, or a cursor in `P` whose flush does not fit. -/
def Denied (P : Fin Config.curSlots → Prop) (s t : State) : Prop :=
  Refused (∃ k, P k ∧ Overfull s.env.par.maxFileBytes (t.cur k)) s.env t.env

/-- A piece of a command fails with `IOFailure` exactly when an access was refused. -/
def Res.answered {α : Type} (P : Fin Config.curSlots → Prop) (s : State) : Res State α → Prop
  | .ok _ t => Served s t
  | .raise .ioFailure t => Denied P s t
  | .raise _ t => Served s t
  | .stuck _ => True

section

variable {α β : Type} {P : Fin Config.curSlots → Prop} {s t u : State} {k m : Fin Config.curSlots}

theorem Served.of_eq (hc : t.cursors = s.cursors) (he : t.env = s.env) : Served s t :=
  ⟨by rw [he], fun k => by rw [State.cur, State.cur, hc], Granted.of_eq he⟩

theorem Served.refl (s : State) : Served s s := Served.of_eq rfl rfl

theorem Served.trans (h : Served s t) (h' : Served t u) : Served s u :=
  ⟨h'.par.trans h.par, fun k => (h'.mode k).trans (h.mode k), h.granted.trans h'.granted⟩

theorem Served.denied (h : Served s t) (h' : Denied P t u) : Denied P s u := by
  unfold Denied at h' ⊢
  rw [h.par] at h'
  exact h.granted.refused h'

/-- What is answered from a state that was served. -/
theorem Served.answered {r : Res State α} (h : Served s t) (hr : r.answered P t) : r.answered P s := by
  cases r with
  | ok a u => exact Served.trans h hr
  | raise e u =>
    cases e with
    | ioFailure => exact Served.denied h hr
    | _ => exact Served.trans h hr
  | stuck x => trivial

/-- Tables and pool may differ: only cursors and environment count. -/
theorem Res.answered_of_eq {r : Res State α} (hr : r.answered P t) (hc : t.cursors = s.cursors) (he : t.env = s.env) :
    r.answered P s :=
  Served.answered (Served.of_eq hc he) hr

theorem Res.answered_bind {r : Res State α} {f : α → State → Res State β} (hr : r.answered P s)
    (hf : ∀ a t, Served s t → (f a t).answered P t) : (r.bind f).answered P s := by
  cases r with
  | ok a t => exact Served.answered hr (hf a t hr)
  | raise e t => cases e <;> exact hr
  | stuck x => trivial

/-- A primitive on a cursor in `P`. -/
theorem onChan_answered {f : Chan → Res Chan α} (hk : P k) (h : (f (s.chan k)).served (s.chan k)) :
    (onChan k f s).answered P s := by
  have hserved : ∀ ch, ChanServed (s.chan k) ch → Served s (s.putChan k ch) := fun ch hc => by
    refine ⟨hc.par, fun j => ?_, hc.granted⟩
    rw [State.cur_putChan]
    split
    · rename_i e
      rw [e]
      exact hc.mode
    · rfl
  unfold onChan
  cases hf : f (s.chan k) with
  | ok a ch =>
    rw [hf] at h
    exact hserved ch h
  | raise e ch =>
    rw [hf] at h
    obtain ⟨rfl, hr⟩ := h
    refine hr.refused.mono fun ho => ⟨k, hk, ?_⟩
    rw [State.putChan_cur_self]
    exact ho
  | stuck x => trivial

/-! ## Pieces that ask nothing -/

theorem addLeaf_answered (i : Nat) (s : State) : (addLeaf i s).answered P s := by
  rcases addLeaf_cases i s with ⟨_, e⟩ | ⟨_, e⟩ <;> rw [e] <;> exact Served.of_eq rfl rfl

theorem addLeaves_answered (is : List Nat) (s : State) : (addLeaves is s).answered P s := by
  induction is generalizing s with
  | nil => exact Served.refl s
  | cons i is ih =>
    unfold addLeaves
    split
    · exact Served.of_eq rfl rfl
    · exact Res.answered_bind (addLeaf_answered i s) fun _ t _ => ih t

theorem buildTree_answered (fuel : Nat) (s : State) : (buildTree fuel s).answered P s := by
  induction fuel generalizing s with
  | zero => exact Served.refl s
  | succ fuel ih =>
    rcases buildTree_cases fuel s with ⟨_, e⟩ | ⟨r, _, e⟩ | ⟨a, b, rest, rest', _, _, e⟩ <;> rw [e]
    · exact Served.refl s
    · exact Served.of_eq rfl rfl
    · rcases merge_cases a b { s with heap := heapRest (freqOf s.nodes) rest' } with ⟨_, e⟩ | ⟨_, _, e⟩ | ⟨_, _, e⟩ <;>
        rw [e]
      · exact Served.of_eq rfl rfl
      · exact Served.of_eq rfl rfl
      · rw [Res.bind_ok]
        exact Res.answered_of_eq (ih _) rfl rfl

theorem tbins_answered (s : State) : (tbins s).answered P s := by
  unfold tbins
  split
  · exact Served.refl s
  · split
    · exact Served.refl s
    · split
      · exact Served.refl s
      · exact addLeaf_answered _ s

theorem tbext_answered (s : State) : (tbext s).answered P s := by
  unfold tbext
  split
  · exact Served.refl s
  · exact buildTree_answered _ s

theorem tbuild_answered (s : State) : (tbuild s).answered P s :=
  Served.answered (t := freeTree s) (Served.of_eq rfl rfl) <|
    Res.answered_bind (addLeaves_answered _ _) fun _ t _ => tbext_answered t

theorem storeCode_answered (n : Node) (pat : Bits) (s : State) : (storeCode n pat s).answered P s := by
  unfold storeCode
  split <;> exact Served.of_eq rfl rfl

theorem codeWalk_answered (fuel n : Nat) (pat : Bits) (s : State) : (codeWalk fuel n pat s).answered P s := by
  induction fuel generalizing n pat s with
  | zero => trivial
  | succ fuel ih =>
    unfold codeWalk
    split
    · exact storeCode_answered _ _ s
    · split
      · exact Res.answered_bind (ih _ _ s) fun _ t _ => ih _ _ t
      · exact Served.of_eq rfl rfl

theorem buildCodes_answered (s : State) : (buildCodes s).answered P s := by
  unfold buildCodes
  split
  · exact Served.refl s
  · split
    · exact storeCode_answered _ _ s
    · exact codeWalk_answered _ _ _ s

/-! ## Pieces that read and write -/

/-- What follows the cursor check runs on a cursor of the direction asked (R135). -/
theorem curCheck_answered {d : Mode} {f : Unit → State → Res State β}
    (hf : (s.cur k).mode = d → (f () s).answered P s) : ((curCheck k d s).bind f).answered P s := by
  rcases curCheck_cases k d s with ⟨_, hm, e⟩ | ⟨_, e⟩ | ⟨_, _, e⟩ <;> rw [e]
  · exact hf hm
  · exact Served.refl s
  · exact Served.refl s

theorem nextWord_answered (hk : P k) (s : State) : (nextWord k s).answered P s :=
  Res.answered_bind (onChan_answered hk (readBits_served _ _)) fun bits t _ => by
    cases bits <;> exact Served.refl t

theorem scanLoop_answered (hk : P k) (fuel nw : Nat) (s : State) : (scanLoop k fuel nw s).answered P s := by
  induction fuel generalizing nw s with
  | zero => trivial
  | succ fuel ih =>
    refine Res.answered_bind (nextWord_answered hk s) fun r t _ => ?_
    match r with
    | none => exact Served.refl t
    | some (x, len) =>
      simp only
      split
      · exact Res.answered_of_eq (ih (nw + 1) (countWord x t)) rfl rfl
      · exact Served.of_eq rfl rfl

theorem encodeLoop_answered (hk : P k) (hm : P m) (fuel tot : Nat) (hw : (s.cur m).mode = .write) :
    (encodeLoop k m fuel tot s).answered P s := by
  induction fuel generalizing tot s with
  | zero => trivial
  | succ fuel ih =>
    refine Res.answered_bind (nextWord_answered hk s) fun r t ht => ?_
    have hwt := (ht.mode m).trans hw
    match r with
    | none => exact Served.refl t
    | some (x, len) =>
      simp only
      split
      · exact Served.refl t
      · refine Res.answered_bind (onChan_answered hm (writeBits_served _ hwt)) fun _ u hu => ?_
        split
        · exact Served.refl u
        · exact ih _ ((hu.mode m).trans hwt)

theorem decodeLoop_answered (hk : P k) (hm : P m) (n c em : Nat) (cur : Option Nat) (hw : (s.cur m).mode = .write) :
    (decodeLoop k m n c em cur s).answered P s := by
  induction n generalizing c em cur s with
  | zero => exact Served.refl s
  | succ n ih =>
    unfold decodeLoop
    split
    · exact Served.refl s
    · refine Res.answered_bind (onChan_answered hk (readBit_served _)) fun b t ht => ?_
      have hwt := (ht.mode m).trans hw
      cases b with
      | none => exact Served.refl t
      | some b =>
        simp only
        split
        · exact Served.refl t
        · exact ih _ _ _ hwt
        · exact Res.answered_bind (onChan_answered hm (writeBits_served _ hwt)) fun _ u hu =>
            ih _ _ _ ((hu.mode m).trans hwt)

/-- Freeing the tree asks nothing. -/
theorem readOrFree_answered (hk : P k) (n : Nat) (s : State) : (readOrFree k n s).answered P s := by
  have h := onChan_answered hk (readBits_served n (s.chan k))
  unfold readOrFree
  cases hr : onChan k (readBits n) s with
  | ok bits t =>
    rw [hr] at h
    exact h
  | raise e t =>
    rw [hr] at h
    cases e with
    | ioFailure => exact h
    | _ => exact Served.trans h (Served.of_eq rfl rfl)
  | stuck x => trivial

theorem need_answered (hk : P k) (D cnt n : Nat) (s : State) : (need k D cnt n s).answered P s := by
  unfold need
  split
  · exact Served.of_eq rfl rfl
  · refine Res.answered_bind (readOrFree_answered hk n s) fun bits t _ => ?_
    split <;> exact Served.of_eq rfl rfl

theorem readLeaf_answered (hk : P k) (D cnt : Nat) (s : State) : (readLeaf k D cnt s).answered P s := by
  refine Res.answered_bind ?_ fun r t _ => Res.answered_bind (need_answered hk D _ _ t) fun _ u _ => Served.refl u
  refine Res.answered_bind (need_answered hk D cnt 1 s) fun fl t _ => ?_
  split
  · exact Served.refl t
  · refine Res.answered_bind (need_answered hk D _ _ t) fun len u _ => ?_
    split <;> exact Served.of_eq rfl rfl

theorem readNode_answered (hk : P k) (D fuel cnt : Nat) (s : State) : (readNode k D fuel cnt s).answered P s := by
  induction fuel generalizing cnt s with
  | zero => exact Served.of_eq rfl rfl
  | succ fuel ih =>
    unfold readNode
    split
    · exact Served.of_eq rfl rfl
    · rename_i hc
      rcases alloc_cases freshNode s with ⟨h, _⟩ | ⟨_, e⟩
      · exact absurd h hc
      · rw [e, Res.bind_ok]
        refine Res.answered_of_eq (Res.answered_bind (need_answered hk D cnt 1 _) fun st t _ => ?_) rfl rfl
        split
        · exact Res.answered_bind (readLeaf_answered hk D _ t) fun _ u _ => Served.of_eq rfl rfl
        · refine Res.answered_bind (ih _ t) fun l u _ => ?_
          exact Res.answered_of_eq (Res.answered_bind (ih l.2 _) fun r v _ => Served.of_eq rfl rfl) rfl rfl

theorem readToDb_answered (hk : P k) (n : Nat) (s : State) : (readToDb n k s).answered P s :=
  Res.answered_bind (onChan_answered hk (readBits_served n _)) fun _ _ _ => Served.of_eq rfl rfl

/-! ## The cursor commands -/

/-- A cursor may be replaced by one of the same direction. -/
theorem Served.setCur {c : Cursor} (h : c.mode = (s.cur k).mode) : Served s (s.setCur k c) := by
  refine ⟨rfl, fun j => ?_, Granted.refl _⟩
  rw [State.cur_setCur]
  split
  · rename_i e
    rw [e]
    exact h
  · rfl

theorem cclose_answered (hk : P k) (s : State) : (cclose k s).answered P s := by
  unfold cclose
  split
  · exact Served.refl s
  · refine Res.answered_bind ?_ fun _ t _ => Served.setCur rfl
    split
    · exact onChan_answered hk (flush_served ‹_›)
    · exact Served.refl s

theorem chseek_answered (s : State) : (chseek k s).answered P s := by
  refine curCheck_answered fun _ => ?_
  split
  · exact Served.refl s
  · split
    · trivial
    · split
      · exact Served.refl s
      · exact Served.setCur rfl

end

/-- What a one-cursor command does is answered when its body is, on a cursor the command names. -/
theorem oneCursor_answered {i : Instr} {c : BitVec 4} {f : Fin Config.curSlots → State → Res State Unit} {s : State}
    (hc : c ∈ cursorsOf i) (hf : ∀ k, namesCursor i s k → (f k s).answered (namesCursor i s) s) :
    (oneCursor i c f s).answered (namesCursor i s) s := by
  unfold oneCursor
  split
  · rename_i k hk
    exact hf k ⟨c, hc, hk⟩
  · exact Served.refl s

theorem twoCursors_answered {i : Instr} {a b : BitVec 4}
    {f : Fin Config.curSlots → Fin Config.curSlots → State → Res State Unit} {s : State} (ha : a ∈ cursorsOf i)
    (hb : b ∈ cursorsOf i)
    (hf : ∀ k m, namesCursor i s k → namesCursor i s m → (f k m s).answered (namesCursor i s) s) :
    (twoCursors i a b f s).answered (namesCursor i s) s := by
  unfold twoCursors
  split
  · rename_i k m hk hm
    exact hf k m ⟨a, ha, hk⟩ ⟨b, hb, hm⟩
  · exact Served.refl s

/-- Every command but SRST and COPEN, which change the direction of cursors, is answered. -/
theorem bodyOf_answered {i : Instr} {s : State} (h : Inv s) (hs : i ≠ .srst) (hc : ∀ ca m, i ≠ .copen ca m) :
    (bodyOf i s).answered (namesCursor i s) s := by
  cases i with
  | nop => exact Served.refl s
  | srst => exact absurd rfl hs
  | cfgw imm =>
    simp only [bodyOf, cfgw]
    split <;> exact Served.of_eq rfl rfl
  | copen ca m => exact absurd rfl (hc ca m)
  | cclose ca => exact oneCursor_answered (by simp [cursorsOf]) fun k hk => cclose_answered hk s
  | crdbits ca | crdbytes ca =>
    refine oneCursor_answered (by simp [cursorsOf]) fun k hk => curCheck_answered fun _ => ?_
    split
    · exact Served.refl s
    · exact readToDb_answered hk _ s
  | cwrbits ca | cwrbytes ca =>
    refine oneCursor_answered (by simp [cursorsOf]) fun k hk => curCheck_answered fun hm => ?_
    split
    · exact Served.refl s
    · exact onChan_answered hk (writeBits_served _ hm)
  | cflush ca =>
    exact oneCursor_answered (by simp [cursorsOf]) fun k hk => curCheck_answered fun hm =>
      onChan_answered hk (flush_served hm)
  | cseekbits ca =>
    exact oneCursor_answered (by simp [cursorsOf]) fun k hk => curCheck_answered fun _ =>
      onChan_answered hk (seekTo_served _ _)
  | ctell ca =>
    refine oneCursor_answered (by simp [cursorsOf]) fun k _ => ?_
    unfold ctell
    split <;> exact Served.of_eq rfl rfl
  | chseek ca => exact oneCursor_answered (by simp [cursorsOf]) fun k _ => chseek_answered s
  | hclr => exact Served.of_eq rfl rfl
  | hscan ca =>
    refine oneCursor_answered (by simp [cursorsOf]) fun k hk => curCheck_answered fun _ => ?_
    exact Res.answered_bind (Res.answered_of_eq (scanLoop_answered hk _ 0 (clearHistogram s)) rfl rfl)
      fun _ _ _ => Served.of_eq rfl rfl
  | frd =>
    simp only [bodyOf, frd]
    split <;> exact Served.of_eq rfl rfl
  | fwr =>
    simp only [bodyOf, fwr]
    split
    · exact Served.refl s
    · split
      · split <;> exact Served.of_eq rfl rfl
      · exact Served.of_eq rfl rfl
  | tbinit => exact Served.of_eq rfl rfl
  | tbins => exact tbins_answered s
  | tbext => exact tbext_answered s
  | tbuild => exact tbuild_answered s
  | nrd =>
    simp only [bodyOf, nrd]
    split <;> exact Served.of_eq rfl rfl
  | ctbuild => exact Res.answered_of_eq (buildCodes_answered (clearCodes s)) rfl rfl
  | ctrd =>
    simp only [bodyOf, ctrd]
    split
    · exact Served.refl s
    · split <;> exact Served.of_eq rfl rfl
  | twrite ca =>
    refine oneCursor_answered (by simp [cursorsOf]) fun k hk => curCheck_answered fun hm => ?_
    split
    · exact Served.refl s
    · rename_i r hr
      rw [writeNode_eq (h.root r hr), Res.bind_assoc]
      exact Res.answered_bind (onChan_answered hk (writeBits_served _ hm)) fun _ _ _ => Served.of_eq rfl rfl
  | tread ca =>
    refine oneCursor_answered (by simp [cursorsOf]) fun k hk => curCheck_answered fun _ => ?_
    exact Res.answered_bind (Res.answered_of_eq (readNode_answered hk _ _ 0 (freeTree s)) rfl rfl)
      fun _ _ _ => Served.of_eq rfl rfl
  | encode ca cb =>
    refine twoCursors_answered (by simp [cursorsOf]) (by simp [cursorsOf]) fun k m hk hm =>
      curCheck_answered fun _ => curCheck_answered fun hw => ?_
    exact Res.answered_bind (encodeLoop_answered hk hm _ 0 hw) fun _ _ _ => Served.of_eq rfl rfl
  | decode ca cb =>
    refine twoCursors_answered (by simp [cursorsOf]) (by simp [cursorsOf]) fun k m hk hm =>
      curCheck_answered fun _ => curCheck_answered fun hw => ?_
    exact Res.answered_bind (decodeLoop_answered hk hm _ 0 0 _ hw) fun _ _ _ => Served.of_eq rfl rfl

/-! ## How a command ends -/

/-- Only `IOFailure` has code 1 (R265). -/
theorem Err.code_eq_one {e : Err} : e.code = 1 ↔ e = .ioFailure := by
  cases e <;> simp [Err.code]

/-- How a command ends, as `Obligations.AnswersDecide` has it. -/
structure Decided (i : Instr) (s t : State) : Prop where
  granted : t.err ≠ 1 → Granted s.env t.env
  refused : t.err = 1 → Denied (namesCursor i s) s t ∨
    ∃ c, i = .copen c .read ∧ s.env.file (s.a0.setWidth 16) = none ∧ t.env = s.env

/-- A command that got grants only and does not end with `IOFailure`. -/
theorem Decided.of_granted {i : Instr} {s t : State} (h : Granted s.env t.env) (he : t.err ≠ 1) : Decided i s t :=
  ⟨fun _ => h, fun e => absurd e he⟩

theorem Decided.of_answered {i : Instr} {s t : State} (hb : (bodyOf i s).answered (namesCursor i s) s)
    (h : exec i s = .next t) : Decided i s t := by
  rw [exec_eq_finish] at h
  rcases finish_eq_next.1 h with ⟨u, hu, rfl⟩ | ⟨e, u, hu, rfl⟩ <;> rw [hu] at hb
  · have hu : Served s u := hb
    exact Decided.of_granted hu.granted (by simp)
  · by_cases he : e = .ioFailure
    · subst he
      exact ⟨fun hn => absurd rfl hn, fun _ => .inl hb⟩
    · refine Decided.of_granted ?_ fun hc => he (Err.code_eq_one.1 hc)
      cases e with
      | ioFailure => exact absurd rfl he
      | _ =>
        have hu : Served s u := hb
        exact hu.granted

/-- COPEN asks one question, unless a check fails or the file it is to read is absent (R128). -/
theorem copen_decided {ca : BitVec 4} {m : Mode} {s t : State} (h : exec (.copen ca m) s = .next t) :
    Decided (.copen ca m) s t := by
  rw [exec_eq_finish] at h
  simp only [bodyOf, oneCursor] at h
  split at h
  · rename_i k _
    unfold copen at h
    split at h
    · cases h
      exact Decided.of_granted (Granted.refl _) (by simp [Err.code])
    · split at h
      · cases h
        exact Decided.of_granted (Granted.refl _) (by simp [Err.code])
      · split at h
        · rename_i hf
          obtain ⟨rfl, hfile⟩ := hf
          cases h
          exact ⟨fun hn => absurd rfl hn, fun _ => .inr ⟨ca, rfl, hfile, rfl⟩⟩
        · split at h
          · rename_i ha
            cases h
            exact ⟨fun hn => absurd rfl hn, fun _ => .inl (Refused.one (.inl ha))⟩
          · rename_i ha
            cases h
            refine Decided.of_granted (Granted.one (by simpa using ha) ?_) (by simp)
            cases m <;> rfl
  · cases h
    exact Decided.of_granted (Granted.refl _) (by simp [Err.code])

/-- Settles O22: SRST asks nothing, COPEN at most once, and the pieces of every other command are answered. -/
theorem answersDecide : Obligations.AnswersDecide := by
  intro i s t hi h
  have hd : Decided i s t := by
    by_cases hs : i = .srst
    · subst hs
      obtain rfl := exec_srst h
      exact Decided.of_granted (Granted.refl _) (by simp)
    · by_cases hc : ∃ ca m, i = .copen ca m
      · obtain ⟨ca, m, rfl⟩ := hc
        exact copen_decided h
      · exact Decided.of_answered (bodyOf_answered hi hs fun ca m e => hc ⟨ca, m, e⟩) h
  refine ⟨hd.granted, fun he => (hd.refused he).imp_left ?_⟩
  rintro ⟨j, hg, hj, hr⟩
  refine ⟨j, hg, hj, hr.imp_right ?_⟩
  rintro ⟨k, ⟨c, hc, hk⟩, hm, hl⟩
  exact ⟨c, hc, k, hk, hm, hl⟩

end Sys2Proof.Machine

/-! # Proofs, family "encoding": the formats of the opcode map (O3, O4)

The opcode of a word fixes its format and its mnemonic, the format which of the other three fields carry an operand. So
the decoder, the encoder and the opcode table are each compared with the format once, not with the 28 commands. -/

namespace Sys2Proof.Machine

open Sys2Proof
open Sys2Proof.Laws.Opcode (opcode)

/-- A format of R91 with the command that its operands make. -/
inductive Format where
  /-- Format N. -/
  | plain (i : Instr)
  /-- Format C. -/
  | cursor (mk : BitVec 4 → Instr)
  /-- Format CC. -/
  | cursors (mk : BitVec 4 → BitVec 4 → Instr)
  /-- Format CM. -/
  | cursorMode (mk : BitVec 4 → Mode → Instr)
  /-- Format I. -/
  | immediate (mk : BitVec 16 → Instr)

namespace Format

/-- The model's decoder of the format. -/
def decode (n : Nat) (w : BitVec 32) : Format → Except DecodeError Instr
  | plain i => decodeN w i
  | cursor mk => decodeC n w mk
  | cursors mk => decodeCC n w mk
  | cursorMode mk => decodeCM n w mk
  | immediate mk => decodeI w mk

/-- The fields that carry no operand are 0 (R91, R92). -/
def fieldsOk (ca cb : BitVec 4) (imm : BitVec 16) : Format → Prop
  | plain _ => ca = 0 ∧ cb = 0 ∧ imm = 0
  | cursor _ => cb = 0 ∧ imm = 0
  | cursors _ => imm = 0
  | cursorMode _ => cb = 0 ∧ (imm = 0 ∨ imm = 1)
  | immediate _ => ca = 0 ∧ cb = 0

/-- The cursor numbers are below `NCUR` (R94 item 3). -/
def cursorsOk (n : Nat) (ca cb : BitVec 4) : Format → Bool
  | plain _ => true
  | cursor _ => cursorNoOk n ca
  | cursors _ => cursorNoOk n ca && cursorNoOk n cb
  | cursorMode _ => cursorNoOk n ca
  | immediate _ => true

/-- The command that the fields of a word make. -/
def instr (ca cb : BitVec 4) (imm : BitVec 16) : Format → Instr
  | plain i => i
  | cursor mk => mk ca
  | cursors mk => mk ca cb
  | cursorMode mk => mk ca (if imm = 0 then .read else .write)
  | immediate mk => mk imm

/-- What the decoder of a format accepts, and what it answers then. -/
theorem decode_eq_ok (n : Nat) (f : Format) (w : BitVec 32) (j : Instr) :
    f.decode n w = .ok j ↔ f.fieldsOk (caField w) (cbField w) (immField w) ∧
      f.cursorsOk n (caField w) (cbField w) = true ∧ f.instr (caField w) (cbField w) (immField w) = j := by
  cases f with
  | plain => simp only [decode, decodeN, fieldsOk, cursorsOk, instr]; split <;> simp_all
  | cursor => simp only [decode, decodeC, fieldsOk, cursorsOk, instr]; repeat' split <;> simp_all
  | cursors => simp only [decode, decodeCC, fieldsOk, cursorsOk, instr]; repeat' split <;> simp_all
  | cursorMode => simp only [decode, decodeCM, fieldsOk, cursorsOk, instr]; repeat' split <;> simp_all
  | immediate => simp only [decode, decodeI, fieldsOk, cursorsOk, instr]; split <;> simp_all

end Format

/-- The format of a command (R93). -/
def formatOf : Instr → Format
  | .cfgw _ => .immediate .cfgw
  | .copen _ _ => .cursorMode .copen
  | .cclose _ => .cursor .cclose
  | .crdbits _ => .cursor .crdbits
  | .cwrbits _ => .cursor .cwrbits
  | .crdbytes _ => .cursor .crdbytes
  | .cwrbytes _ => .cursor .cwrbytes
  | .cflush _ => .cursor .cflush
  | .cseekbits _ => .cursor .cseekbits
  | .ctell _ => .cursor .ctell
  | .chseek _ => .cursor .chseek
  | .hscan _ => .cursor .hscan
  | .twrite _ => .cursor .twrite
  | .tread _ => .cursor .tread
  | .encode _ _ => .cursors .encode
  | .decode _ _ => .cursors .decode
  | i => .plain i

/-- One command of each row of the opcode table, in the table's order. -/
def representatives : List Instr :=
  [.nop, .srst, .hclr, .frd, .fwr, .tbinit, .tbins, .tbext, .tbuild, .nrd, .ctbuild, .ctrd, .cclose 0, .crdbits 0,
    .cwrbits 0, .crdbytes 0, .cwrbytes 0, .cflush 0, .cseekbits 0, .ctell 0, .chseek 0, .hscan 0, .twrite 0, .tread 0,
    .encode 0 0, .decode 0 0, .copen 0 .read, .cfgw 0]

theorem opField_encodeWord (i : Instr) : opField (encodeWord i) = opcode i := by
  cases i <;> exact opField_packWord _ _ _ _

/-- A word with the opcode of a command is decoded in that command's format (R93). -/
theorem decodeWord_of_opcode {n : Nat} {w : BitVec 32} {i : Instr} (h : opField w = opcode i) :
    decodeWord n w = (formatOf i).decode n w := by
  unfold decodeWord
  rw [h]
  cases i <;> rfl

/-- A word with no command's opcode is no command (R94 item 2). -/
theorem decodeWord_unassigned (n : Nat) {w : BitVec 32} (h : ∀ i ∈ representatives, opField w ≠ opcode i) :
    decodeWord n w = .error .unassigned := by
  have hop : (opField w).toNat ∉ representatives.map fun i => (opcode i).toNat := fun hm => by
    obtain ⟨i, hi, e⟩ := List.mem_map.1 hm
    exact h i hi (BitVec.eq_of_toNat_eq e.symm)
  unfold decodeWord
  split
  case h_29 => rfl
  all_goals
    rename_i e
    exact absurd (e ▸ by decide) hop

/-- A word that decodes has the opcode of a command. -/
theorem exists_opcode_of_decodeWord {n : Nat} {w : BitVec 32} {j : Instr} (h : decodeWord n w = .ok j) :
    ∃ i ∈ representatives, opField w = opcode i := by
  by_contra hne
  rw [decodeWord_unassigned n fun i hi e => hne ⟨i, hi, e⟩] at h
  cases h

/-- The word of the command that a format makes of its fields is laid out from these fields. -/
theorem encodeWord_instr (i : Instr) {ca cb : BitVec 4} {imm : BitVec 16} (h : (formatOf i).fieldsOk ca cb imm) :
    encodeWord ((formatOf i).instr ca cb imm) = packWord (opcode i) ca cb imm := by
  cases i with
  | copen =>
    obtain ⟨rfl, rfl | rfl⟩ := h <;> rfl
  | cfgw =>
    obtain ⟨rfl, rfl⟩ := h
    rfl
  | encode | decode =>
    obtain rfl := h
    rfl
  | cclose | crdbits | cwrbits | crdbytes | cwrbytes | cflush | cseekbits | ctell | chseek | hscan | twrite | tread =>
    obtain ⟨rfl, rfl⟩ := h
    rfl
  | _ =>
    obtain ⟨rfl, rfl, rfl⟩ := h
    rfl

/-- R94 item 3 is the check of the format. -/
theorem wf_instr (n : Nat) (i : Instr) (ca cb : BitVec 4) (imm : BitVec 16) :
    ((formatOf i).instr ca cb imm).wf n = (formatOf i).cursorsOk n ca cb := by cases i <;> rfl

/-- Every command is made by its format from operands. -/
theorem exists_instr_eq (i : Instr) :
    ∃ ca cb imm, (formatOf i).fieldsOk ca cb imm ∧ (formatOf i).instr ca cb imm = i := by
  cases i with
  | copen ca m => cases m with
    | read => exact ⟨ca, 0, 0, ⟨rfl, .inl rfl⟩, rfl⟩
    | write => exact ⟨ca, 0, 1, ⟨rfl, .inr rfl⟩, rfl⟩
  | cfgw imm => exact ⟨0, 0, imm, ⟨rfl, rfl⟩, rfl⟩
  | encode ca cb | decode ca cb => exact ⟨ca, cb, 0, rfl, rfl⟩
  | cclose ca | crdbits ca | cwrbits ca | crdbytes ca | cwrbytes ca | cflush ca | cseekbits ca | ctell ca | chseek ca
  | hscan ca | twrite ca | tread ca => exact ⟨ca, 0, 0, ⟨rfl, rfl⟩, rfl⟩
  | _ => exact ⟨0, 0, 0, ⟨rfl, rfl, rfl⟩, rfl⟩

/-- What a word with the opcode of a command decodes to (R91, R93, R94). -/
theorem decodeWord_packWord {n : Nat} {i j : Instr} {ca cb : BitVec 4} {imm : BitVec 16} :
    decodeWord n (packWord (opcode i) ca cb imm) = .ok j ↔
      (formatOf i).fieldsOk ca cb imm ∧ (formatOf i).cursorsOk n ca cb = true ∧ (formatOf i).instr ca cb imm = j := by
  rw [decodeWord_of_opcode (opField_packWord _ _ _ _), Format.decode_eq_ok, caField_packWord, cbField_packWord,
    immField_packWord]

/-- The decoder of a word inverts the encoder, on the well-formed commands. -/
theorem decodeWord_eq_ok {n : Nat} {w : BitVec 32} {i : Instr} :
    decodeWord n w = .ok i ↔ encodeWord i = w ∧ i.wf n = true := by
  constructor
  · intro h
    obtain ⟨k, -, hk⟩ := exists_opcode_of_decodeWord h
    rw [← packWord_fields w, hk] at h ⊢
    obtain ⟨hf, hc, rfl⟩ := decodeWord_packWord.1 h
    exact ⟨encodeWord_instr k hf, by rw [wf_instr, hc]⟩
  · rintro ⟨rfl, hwf⟩
    obtain ⟨ca, cb, imm, hf, e⟩ := exists_instr_eq i
    have hw := encodeWord_instr i hf
    rw [e] at hw
    rw [hw]
    exact decodeWord_packWord.2 ⟨hf, by rw [← wf_instr n i ca cb imm, e, hwf], e⟩

/-- A value that is a command has upper half 0 and the word of the command below (R94). -/
theorem decodeCmd_eq_ok {n : Nat} {v : Reg} {i : Instr} :
    decodeCmd n v = .ok i ↔ v.extractLsb' 32 32 = 0 ∧ decodeWord n (v.extractLsb' 0 32) = .ok i := by
  unfold decodeCmd
  split <;> simp_all

/-- Settles O3: the halves of the value are 0 and the word, and the decoder of a word inverts the encoder. -/
theorem decodeEncode : Obligations.DecodeEncode := by
  intro n i hwf
  obtain ⟨hlow, hhigh⟩ := encodeCmd_low i
  exact decodeCmd_eq_ok.2 ⟨hhigh, decodeWord_eq_ok.2 ⟨hlow.symm, hwf⟩⟩

/-- Settles O4: a value whose upper half is 0 is its lower half, which is the word of the command. -/
theorem encodeDecode : Obligations.EncodeDecode := by
  intro n v i h
  obtain ⟨hhigh, hw⟩ := decodeCmd_eq_ok.1 h
  obtain ⟨he, hwf⟩ := decodeWord_eq_ok.1 hw
  refine ⟨?_, hwf⟩
  rw [encodeCmd, he, ← hhigh]
  exact (BitVec.extractLsb'_append_extractLsb'_eq_extractLsb' rfl).trans BitVec.extractLsb'_eq_self

end Sys2Proof.Machine

/-! # Proofs, family "encoding": the opcode table (O1, O2) -/

namespace Sys2Proof.Machine

open Sys2Proof
open Sys2Proof.Laws.Opcode (opcode)

/-- The mask of a format (R91): it leaves out the operands. -/
def Format.mask : Format → BitVec 32
  | plain _ => packWord 0xFF 0xF 0xF 0xFFFF
  | cursor _ => packWord 0xFF 0 0xF 0xFFFF
  | cursors _ => packWord 0xFF 0 0 0xFFFF
  | cursorMode _ => packWord 0xFF 0 0xF 0xFFFE
  | immediate _ => packWord 0xFF 0xF 0xF 0

/-- The row of a command in the opcode table. -/
def rowOf (i : Instr) : OpcodeRow := ⟨mnemonicOf i, (formatOf i).mask, packWord (opcode i) 0 0 0⟩

theorem opcodeTable_eq : opcodeTable = representatives.map rowOf := by decide

theorem representatives_opcode_inj {i k : Instr} (hi : i ∈ representatives) (hk : k ∈ representatives)
    (h : opcode i = opcode k) : i = k :=
  List.inj_on_of_nodup_map (f := opcode) (by decide) hi hk h

/-- The mode bit is all that the mask of format CM leaves out of `imm16` (R91, R92). -/
theorem and_modeMask_eq_zero (imm : BitVec 16) : imm &&& 0xFFFE = 0 ↔ imm = 0 ∨ imm = 1 := by
  constructor
  · intro h
    have hbit : imm = imm &&& 1 := by
      calc imm = imm &&& (0xFFFE ||| 1) := BitVec.and_allOnes.symm
        _ = imm &&& 0xFFFE ||| imm &&& 1 := BitVec.and_or_distrib_left
        _ = imm &&& 1 := by rw [h]; exact BitVec.zero_or
    rw [hbit, show imm &&& 1 = _ from BitVec.and_one_eq_setWidth_ofBool_getLsbD]
    cases imm.getLsbD 0
    · exact .inl rfl
    · exact .inr rfl
  · rintro (rfl | rfl) <;> rfl

/-- The row of a command selects the words with its opcode whose other fields fit its format (R91). -/
theorem rowOf_selects (i : Instr) (op : BitVec 8) (ca cb : BitVec 4) (imm : BitVec 16) :
    (rowOf i).selects (packWord op ca cb imm) = true ↔ op = opcode i ∧ (formatOf i).fieldsOk ca cb imm := by
  have hop : op &&& 0xFF = op := BitVec.and_allOnes
  have hca : ca &&& 0xF = ca := BitVec.and_allOnes
  have hcb : cb &&& 0xF = cb := BitVec.and_allOnes
  have himm : imm &&& 0xFFFF = imm := BitVec.and_allOnes
  have hzero : ∀ {n : Nat} (x : BitVec n), x &&& 0 = 0 := fun _ => BitVec.and_zero
  rw [OpcodeRow.selects, beq_iff_eq, rowOf]
  cases formatOf i <;>
    simp only [Format.mask, Format.fieldsOk, packWord_and, packWord_inj, hop, hca, hcb, himm, hzero,
      and_modeMask_eq_zero, true_and, and_true]

/-- A format uses a cursor field exactly when its mask leaves it out, so the table's check of the cursor numbers is the
format's (R91, R94 item 3). -/
theorem Format.cursorsOk_iff (f : Format) (n : Nat) (ca cb : BitVec 4) :
    f.cursorsOk n ca cb = true ↔
      (f.mask &&& 0x00F00000 = 0 → ca.toNat < n) ∧ (f.mask &&& 0x000F0000 = 0 → cb.toNat < n) := by
  have hca : (0x00F00000 : BitVec 32) = packWord 0 0xF 0 0 := rfl
  have hcb : (0x000F0000 : BitVec 32) = packWord 0 0 0xF 0 := rfl
  have hzero : (0 : BitVec 32) = packWord 0 0 0 0 := rfl
  rw [hca, hcb, hzero]
  cases f <;> simp [cursorsOk, cursorNoOk, mask, packWord_and, packWord_inj]

/-- The words that the row of a command selects with legal cursor numbers. -/
theorem rowOf_selectsLegally (n : Nat) (i : Instr) (op : BitVec 8) (ca cb : BitVec 4) (imm : BitVec 16) :
    selectsLegally n (rowOf i) (packWord op ca cb imm) ↔
      op = opcode i ∧ (formatOf i).fieldsOk ca cb imm ∧ (formatOf i).cursorsOk n ca cb = true := by
  rw [selectsLegally, rowOf_selects, caField_packWord, cbField_packWord, Format.cursorsOk_iff, and_assoc, rowOf]

/-- A row that selects a word is that of a representative with the word's opcode. -/
theorem exists_rowOf_of_selects {r : OpcodeRow} {w : BitVec 32} (hr : r ∈ opcodeTable) (h : r.selects w = true) :
    ∃ i ∈ representatives, rowOf i = r ∧ opField w = opcode i := by
  rw [opcodeTable_eq] at hr
  obtain ⟨i, hi, rfl⟩ := List.mem_map.1 hr
  rw [← packWord_fields w, rowOf_selects] at h
  exact ⟨i, hi, rfl, h.1⟩

/-- At most one row selects a word (R91). -/
theorem eq_of_selects {w : BitVec 32} {r r' : OpcodeRow} (hr : r ∈ opcodeTable) (hr' : r' ∈ opcodeTable)
    (h : r.selects w = true) (h' : r'.selects w = true) : r = r' := by
  obtain ⟨i, hi, rfl, e⟩ := exists_rowOf_of_selects hr h
  obtain ⟨k, hk, rfl, e'⟩ := exists_rowOf_of_selects hr' h'
  rw [representatives_opcode_inj hi hk (e.symm.trans e')]

/-- A word decodes exactly when a row selects it with legal cursor numbers (R94). -/
theorem exists_decodeWord_iff {n : Nat} {w : BitVec 32} :
    (∃ j, decodeWord n w = .ok j) ↔ ∃ r ∈ opcodeTable, selectsLegally n r w := by
  constructor
  · rintro ⟨j, h⟩
    obtain ⟨i, hi, e⟩ := exists_opcode_of_decodeWord h
    rw [← packWord_fields w, e] at h ⊢
    obtain ⟨hf, hc, -⟩ := decodeWord_packWord.1 h
    exact ⟨rowOf i, opcodeTable_eq ▸ List.mem_map_of_mem hi, (rowOf_selectsLegally _ _ _ _ _ _).2 ⟨rfl, hf, hc⟩⟩
  · rintro ⟨r, hr, h⟩
    obtain ⟨i, -, rfl, -⟩ := exists_rowOf_of_selects hr h.1
    rw [← packWord_fields w] at h ⊢
    obtain ⟨e, hf, hc⟩ := (rowOf_selectsLegally _ _ _ _ _ _).1 h
    rw [e]
    exact ⟨_, decodeWord_packWord.2 ⟨hf, hc, rfl⟩⟩

theorem mnemonicOf_instr (i : Instr) (ca cb : BitVec 4) (imm : BitVec 16) :
    mnemonicOf ((formatOf i).instr ca cb imm) = mnemonicOf i := by cases i <;> rfl

/-- A row that selects a word carries the mnemonic of the command it decodes to (R93). -/
theorem mnemonic_of_selects {n : Nat} {w : BitVec 32} {j : Instr} {r : OpcodeRow} (h : decodeWord n w = .ok j)
    (hr : r ∈ opcodeTable) (hs : r.selects w = true) : r.mnemonic = mnemonicOf j := by
  obtain ⟨i, -, rfl, e⟩ := exists_rowOf_of_selects hr hs
  rw [← packWord_fields w, e] at h
  obtain ⟨-, -, rfl⟩ := decodeWord_packWord.1 h
  exact (mnemonicOf_instr i _ _ _).symm

/-- Settles O2: the decoder and the table both ask for the opcode of a command, its format's fields and its cursors. -/
theorem decoderFollowsTable : Obligations.DecoderFollowsTable := by
  refine ⟨fun n v => ⟨?_, fun i h r hr hs => mnemonic_of_selects (decodeCmd_eq_ok.1 h).2 hr hs⟩,
    fun _ _ _ hr hr' h h' => eq_of_selects hr hr' h h'⟩
  rw [legalCmd, ← exists_decodeWord_iff (n := n), ← exists_and_left]
  exact exists_congr fun i => decodeCmd_eq_ok

/-- Settles O1: the words are closed, so the decoder runs on them. -/
theorem decodeKnownWords : Obligations.DecodeKnownWords := by
  unfold Obligations.DecodeKnownWords
  decide

end Sys2Proof.Machine

/-! # Proofs, family "encoding": the size of a tree's stream (O46) -/

namespace Sys2Proof.Machine

open Sys2Proof

/-- The length of a leaf's stream (R101): state bit, flag and a full word, or these, the length field and the bits. -/
theorem leafStream_length (w : WordSize) (n : Node) :
    (leafStream w n).length = if n.bitLen = Config.wbits w then 2 + Config.wbits w else 10 + n.bitLen := by
  unfold leafStream
  split
  · rename_i h
    rw [List.length_append, wordBits_length, h]
    rfl
  · rw [List.length_append, List.length_append, uintbits_length, wordBits_length]
    rfl

theorem leavesOf_leaf {nodes : List Node} {n : Nat} (fuel : Nat) (h : (nodeAt nodes n).leaf = true) :
    leavesOf nodes (fuel + 1) n = [n] := by simp [leavesOf, h]

theorem leavesOf_inner {nodes : List Node} {n l r : Nat} (fuel : Nat) (h : (nodeAt nodes n).leaf = false)
    (hl : (nodeAt nodes n).left = some l) (hr : (nodeAt nodes n).right = some r) :
    leavesOf nodes (fuel + 1) n = leavesOf nodes fuel l ++ leavesOf nodes fuel r := by
  simp [leavesOf, h, hl, hr]

/-- A tree's stream has the bits of its leaves, and one bit for each internal node, which are one less than the
leaves. -/
theorem treeStream_length {w : WordSize} {nodes : List Node} {fuel n : Nat} (h : treeOk nodes fuel n = true) :
    (treeStream w nodes fuel n).length + 1 =
      ((leavesOf nodes fuel n).map fun m => (leafStream w (nodeAt nodes m)).length + 1).sum := by
  induction fuel generalizing n with
  | zero => cases h
  | succ fuel ih =>
    rcases treeOk_shape h with hl | ⟨hl, l, r, e1, e2, h1, h2⟩
    · rw [treeStream_leaf _ hl, leavesOf_leaf _ hl, List.map_singleton, List.sum_singleton]
    · rw [treeStream_inner _ hl e1 e2, leavesOf_inner _ hl e1 e2, List.map_append, List.sum_append, ← ih h1, ← ih h2]
      simp only [List.length_append, List.length_singleton]
      omega

/-- Settles O46: ROOT is the root of a tree under the invariant. -/
theorem treeStreamSize : Obligations.TreeStreamSize := by
  intro s r h hr
  simp only [← leafStream_length]
  exact treeStream_length (h.root r hr)

end Sys2Proof.Machine

/-! # Proofs, family "bitcursor": how a body ends its command, and cursors checked, opened and moved (O17, O24, O30, O31)
-/

namespace Sys2Proof.Machine

open Sys2Proof

/-! ## Running a command -/

theorem oneCursor_some {c : BitVec 4} {k : Fin Config.curSlots} {s : State} (h : s.cursorOf? c = some k) (i : Instr)
    (f : Fin Config.curSlots → State → Res State Unit) : oneCursor i c f s = f k s := by
  simp only [oneCursor, h]

theorem twoCursors_some {a b : BitVec 4} {k m : Fin Config.curSlots} {s : State} (ha : s.cursorOf? a = some k)
    (hb : s.cursorOf? b = some m) (i : Instr)
    (f : Fin Config.curSlots → Fin Config.curSlots → State → Res State Unit) : twoCursors i a b f s = f k m s := by
  simp only [twoCursors, ha, hb]

/-- A body that succeeds ends its command without error (R270). -/
theorem exec_of_ok {i : Instr} {s t : State} (h : bodyOf i s = .ok () t) : exec i s = .next (endOk t) := by
  rw [exec_eq_finish, h, finish_ok]

/-- A body that raises ends its command with that error (R270). -/
theorem exec_of_raise {i : Instr} {s t : State} {e : Err} (h : bodyOf i s = .raise e t) :
    exec i s = .next (failed t e.code e.info) := by
  rw [exec_eq_finish, h, finish_raise]
  rfl

/-! ## The cursor check (R135) -/

section

variable {i : Instr} {k : Fin Config.curSlots} {m : Mode} {s : State} {g : Unit → State → Res State Unit}

/-- A command that starts with the check of a cursor that is closed. -/
theorem exec_of_closed (hb : bodyOf i s = (curCheck k m s).bind g) (h : (s.cur k).isOpen = false) :
    exec i s = .next (failed s 18 1) :=
  exec_of_raise (e := .cursorState 1) (by rw [hb, curCheck_closed h, Res.bind_raise])

/-- A command that starts with the check of a cursor of the other direction. -/
theorem exec_of_wrongMode (hb : bodyOf i s = (curCheck k m s).bind g) (h : (s.cur k).isOpen = true)
    (hm : (s.cur k).mode ≠ m) : exec i s = .next (failed s 18 3) :=
  exec_of_raise (e := .cursorState 3) (by rw [hb, curCheck_wrong h hm, Res.bind_raise])

/-- Behind a check that passes the rest of the body runs on the same state. -/
theorem bodyOf_of_checked (hb : bodyOf i s = (curCheck k m s).bind g) (ho : OpenFor s k m) : bodyOf i s = g () s := by
  rw [hb, curCheck_ok ho.isOpen ho.mode, Res.bind_ok]

end

/-- Settles O17: the body of each of the twelve commands starts with the check; ENCODE and DECODE make the second one
behind the first. -/
theorem cursorChecks : Obligations.CursorChecks := by
  intro s ca k hk
  refine ⟨fun mk hmk => ?_, fun mk hmk => ?_, fun mk hmk cb m hm => ?_⟩ <;>
    simp only [List.mem_cons, List.not_mem_nil, or_false] at hmk
  · obtain ⟨g, hb⟩ : ∃ g, bodyOf (mk ca) s = (curCheck k .read s).bind g := by
      rcases hmk with rfl | rfl | rfl | rfl | rfl <;> exact ⟨_, oneCursor_some hk _ _⟩
    exact ⟨exec_of_closed hb, fun ho hw => exec_of_wrongMode hb ho (by simp [hw])⟩
  · obtain ⟨g, hb⟩ : ∃ g, bodyOf (mk ca) s = (curCheck k .write s).bind g := by
      rcases hmk with rfl | rfl | rfl | rfl | rfl <;> exact ⟨_, oneCursor_some hk _ _⟩
    exact ⟨exec_of_closed hb, fun ho hr => exec_of_wrongMode hb ho (by simp [hr])⟩
  · obtain ⟨g, hb⟩ : ∃ g : State → Unit → State → Res State Unit, bodyOf (mk ca cb) s =
        (curCheck k .read s).bind fun _ t => (curCheck m .write t).bind (g t) := by
      rcases hmk with rfl | rfl <;> exact ⟨_, twoCursors_some hk hm _ _⟩
    refine ⟨exec_of_closed hb, fun ho hw => exec_of_wrongMode hb ho (by simp [hw]), fun ho hr => ?_⟩
    have hb' := bodyOf_of_checked hb ⟨ho, hr⟩
    exact ⟨exec_of_closed hb', fun ho' hr' => exec_of_wrongMode hb' ho' (by simp [hr'])⟩

/-! ## CTELL and CHSEEK (R137, R138) -/

/-- A result that fits its register (R12). -/
theorem resultReg_of_lt {n : Nat} (h : n < 2 ^ 64) : resultReg n = BitVec.ofNat 64 n := if_pos h

/-- Settles O30: the body is one check and one result (log entry 4 for a position that does not fit). -/
theorem ctellGivesPosition : Obligations.CtellGivesPosition := by
  intro s ca k hk
  have hb : bodyOf (.ctell ca) s = ctell k s := oneCursor_some hk _ _
  refine ⟨fun ho => exec_of_raise (e := .cursorState 1) (hb.trans (if_pos ho)), fun ho hp => ?_⟩
  have hok : ctell k s = .ok () { s with a0 := BitVec.ofNat 64 (absBitPos (s.cur k)) } := by
    rw [ctell, if_neg (by simp [ho]), resultReg_of_lt hp]
  exact exec_of_ok (hb.trans hok)

/-- Settles O31: the buffer is checked before the offset. -/
theorem chseekMovesHandle : Obligations.ChseekMovesHandle := by
  intro s ca k B hk ho hm hf
  have hb := bodyOf_of_checked (i := .chseek ca) (oneCursor_some hk _ _) ⟨ho, hm⟩
  refine ⟨fun hne => exec_of_raise (e := .cursorState 4) (hb.trans (if_pos hne)), fun h0 h1 => ?_⟩
  rw [if_neg (by simp [h0, h1]), hf] at hb
  exact ⟨fun hl => exec_of_raise (e := .positionFailure s.a0) (hb.trans (if_pos hl)),
    fun hl => exec_of_ok (hb.trans (if_neg (not_lt.2 hl)))⟩

/-! ## COPEN (R128) -/

/-- The word of a command with one cursor: its opcode, its cursor and its immediate at their places (R90). -/
theorem packWord_oneCursor (op : BitVec 8) (c : BitVec 4) (imm : BitVec 16) :
    packWord op c 0 imm = op.setWidth 32 <<< 24 ||| c.setWidth 32 <<< 20 ||| imm.setWidth 32 := by
  apply BitVec.eq_of_getLsbD_eq
  intro j hj
  simp only [packWord, BitVec.getLsbD_append, BitVec.getLsbD_or, BitVec.getLsbD_shiftLeft, BitVec.getLsbD_setWidth]
  grind

/-- The store after an open: the file is empty after an open for write, and every other file is as before (R128). -/
theorem openedEnv_file (e : Env) (f g : BitVec 16) (m : Mode) :
    (openedEnv e f m).file g = if m = .write ∧ g = f then some [] else e.file g := by
  cases m with
  | read => simp [openedEnv]
  | write =>
    have hg : g.toNat = f.toNat ↔ g = f := BitVec.toNat_inj
    simp only [openedEnv, Env.setFile, Env.file, tableGet_tableSet, hg, true_and]

/-- Settles O24: the checks in their order, and the cursor and the store after the open. -/
theorem copenBindsCursor : Obligations.CopenBindsCursor := by
  intro s ca k m hk
  have hb : bodyOf (.copen ca m) s = copen m k s := oneCursor_some hk _ _
  refine ⟨fun ho => exec_of_raise (e := .cursorState 2) (hb.trans (if_pos ho)), fun ho => ?_, ?_⟩
  · have hb := hb.trans (if_neg (by simp [ho]))
    refine ⟨fun hr => exec_of_raise (e := .badOperand 0) (hb.trans (if_pos hr)), fun h0 h1 h2 => ?_⟩
    have hb := hb.trans (if_neg (by omega))
    refine ⟨fun hr hf => exec_of_raise (e := .ioFailure) (hb.trans (if_pos ⟨hr, hf⟩)), fun hp => ?_⟩
    have hb := hb.trans (if_neg fun h => hp h.1 h.2)
    refine ⟨fun ha => exec_of_raise (e := .ioFailure) (hb.trans (if_pos ha)), fun ha => ?_⟩
    have hc : (endOk (s.putChan k ⟨openedCursor (s.a0.setWidth 16) m s.a1.toNat,
        openedEnv s.env.asked (s.a0.setWidth 16) m⟩)).cur k = openedCursor (s.a0.setWidth 16) m s.a1.toNat :=
      State.putChan_cur_self s k _
    refine ⟨_, exec_of_ok (hb.trans (if_neg (by simp [ha]))), rfl, fun j hj => State.putChan_cur_ne s _ hj, ?_,
      fun f => openedEnv_file s.env.asked _ f m⟩
    rw [hc]
    rfl
  · rw [encodeWord, packWord_oneCursor]
    cases m <;> rfl

end Sys2Proof.Machine

/-! # Proofs, family "bitcursor": fills, seeks and the position of a cursor (O29, O32) -/

namespace Sys2Proof.Machine

open Sys2Proof

/-! ## What a fill leaves (R121, R136) -/

/-- A fill of `n` bytes from byte `p` of the file. -/
structure Filled (ch : Chan) (p n : Nat) (ch' : Chan) : Prop where
  count : n = fillCount ch.cur.bufsz p (fileBytes ch).length
  cur : ch'.cur = { ch.cur with buf := ch'.cur.buf, fpos := p + n, valid := n, byteP := 0 }
  buf : ch'.cur.buf.take n = ((fileBytes ch).drop p).take n
  env : ch'.env = if n = 0 then ch.env else ch.env.asked

theorem fillAt_filled {ch ch' : Chan} {p n : Nat} (h : fillAt p ch = .ok n ch') : Filled ch p n ch' := by
  rcases fillAt_cases p ch with ⟨_, e⟩ | ⟨b, hb, ⟨h0, e⟩ | ⟨_, _, e⟩ | ⟨hpos, _, e⟩⟩ <;> cases e.symm.trans h <;>
    obtain rfl := fileBytes_some hb
  · exact ⟨h0.symm, rfl, rfl, rfl⟩
  · have hc := fillCount_le ch.cur.bufsz p (fileBytes ch).length
    refine ⟨rfl, rfl, List.take_left' ?_, (if_neg hpos.ne').symm⟩
    rw [List.length_take, List.length_drop, Nat.min_eq_left hc.2]

/-- A fill that brings bytes is refused when the environment says so (R64). -/
theorem fillAt_refused {ch : Chan} {p : Nat} (i : CursorInv ch.env ch.cur)
    (hn : fillCount ch.cur.bufsz p (fileBytes ch).length ≠ 0) (ha : ch.env.ioAnswer = true) :
    fillAt p ch = .raise .ioFailure { ch with env := ch.env.asked } := by
  rcases fillAt_cases p ch with ⟨hb, _⟩ | ⟨b, hb, hc⟩ <;> cases i.file.symm.trans hb
  rcases hc with ⟨h0, _⟩ | ⟨_, _, e⟩ | ⟨_, ha', _⟩
  · exact absurd h0 hn
  · exact e
  · cases ha.symm.trans ha'

/-- A fill that is not refused succeeds. -/
theorem fillAt_granted {ch : Chan} {p : Nat} (i : CursorInv ch.env ch.cur)
    (ha : fillCount ch.cur.bufsz p (fileBytes ch).length ≠ 0 → ch.env.ioAnswer = false) :
    ∃ ch', fillAt p ch = .ok (fillCount ch.cur.bufsz p (fileBytes ch).length) ch' := by
  rcases fillAt_cases p ch with ⟨hb, _⟩ | ⟨b, hb, hc⟩ <;> cases i.file.symm.trans hb
  rcases hc with ⟨h0, e⟩ | ⟨hpos, ha', _⟩ | ⟨_, _, e⟩
  · exact ⟨_, h0 ▸ e⟩
  · cases (ha hpos.ne').symm.trans ha'
  · exact ⟨_, e⟩

section

variable {ch ch' : Chan} {p n : Nat}

theorem Filled.fileBytes_eq (h : Filled ch p n ch') : fileBytes ch' = fileBytes ch := by
  unfold fileBytes
  rw [h.cur, h.env]
  split <;> rfl

/-- After a fill the bits to come are those of the file from the fill on, but for `BIT_P` of them (R136). -/
theorem Filled.pending_eq (h : Filled ch p n ch') :
    pending ch' = (bytesBits (fileBytes ch)).drop (8 * p + ch.cur.bitP.val) := by
  have hlist : pendingList ch' = (fileBytes ch).drop p := by
    rw [pendingList, h.fileBytes_eq, h.cur]
    show (ch'.cur.buf.take n).drop 0 ++ (fileBytes ch).drop (p + n) = _
    rw [h.buf, List.drop_zero, ← List.drop_drop, List.take_append_drop]
  rw [Machine.pending_eq, hlist, ← bytesBits_drop, List.drop_drop, h.cur]

/-- After a fill the position is the byte of the fill and `BIT_P` (R127). -/
theorem Filled.absBitPos_eq (h : Filled ch p n ch') (hm : ch.cur.mode = .read) :
    absBitPos ch'.cur = 8 * p + ch.cur.bitP.val := by
  rw [h.cur]
  simp [absBitPos, hm]

/-- The bytes a fill has counted stand in the buffer. -/
theorem Filled.valid_le (h : Filled ch p n ch') : n ≤ ch'.cur.buf.length := by
  have hc := (fillCount_le ch.cur.bufsz p (fileBytes ch).length).2
  have hl := congrArg List.length h.buf
  rw [← h.count] at hc
  rw [List.length_take, List.length_take, List.length_drop] at hl
  omega

/-- The first bit after a fill is the file's bit at the position (R127). -/
theorem Filled.bitAt_eq (h : Filled ch p n ch') (hn : n ≠ 0) :
    bitAt ch'.cur = bufbit (fileBytes ch) (8 * p + ch.cur.bitP.val) := by
  have hv : ch'.cur.valid = n := by rw [h.cur]
  have h0 : ch'.cur.byteP = 0 := by rw [h.cur]
  have htake := pending_take (ch := ch') (by omega) (hv ▸ h.valid_le)
  have hhead := congrArg List.head? (h.pending_eq.symm.trans htake)
  rw [List.head?_drop, List.head?_cons] at hhead
  rw [bufbit_eq_bytesBits, List.getD_eq_getElem?_getD, hhead, Option.getD_some]

end

/-! ## CSEEKBITS (R136) -/

/-- A primitive that has only used the environment leaves the cursors. -/
theorem State.putChan_withEnv (s : State) (k : Fin Config.curSlots) (e : Env) :
    s.putChan k { s.chan k with env := e } = { s with env := e } := by
  simp [State.putChan, State.setCur, State.cur]

/-- The cursor with `BIT_P` at bit `p` of a byte. -/
def Chan.atBit (ch : Chan) (p : Nat) : Chan := { ch with cur := { ch.cur with bitP := Fin.ofNat 8 p } }

/-- A seek whose fill succeeds is a fill of a cursor that stands at the bit of the address (R136). -/
theorem seekTo_of_fill {ch ch' : Chan} {p n : Nat} (h : fillAt (p / 8) ch = .ok n ch') :
    seekTo p ch = .ok () (ch'.atBit (p % 8)) ∧ Filled (ch.atBit (p % 8)) (p / 8) n (ch'.atBit (p % 8)) := by
  obtain ⟨hcount, hcur, hbuf, henv⟩ := fillAt_filled h
  have hbit : (⟨p % 8, Nat.mod_lt p (by decide)⟩ : Fin 8) = Fin.ofNat 8 (p % 8) := Fin.ext (Nat.mod_mod p 8).symm
  exact ⟨by rw [seekTo, h, Res.bind_ok, hbit]; rfl, hcount, by rw [Chan.atBit, hcur]; rfl, hbuf, henv⟩

/-- The byte and the bit of an address (R127). -/
theorem bitAddress (ch : Chan) (p : Nat) : 8 * (p / 8) + (ch.atBit (p % 8)).cur.bitP.val = p := by
  show 8 * (p / 8) + p % 8 % 8 = p
  omega

/-- Settles O29: the seek is a fill at the byte of the address, after which `BIT_P` is set. -/
theorem cseekbitsFillsAfresh : Obligations.CseekbitsFillsAfresh := by
  intro s ca k n hi hk ho hm hn
  have i := hi.cursors k ho
  have hb : bodyOf (.cseekbits ca) s = onChan k (seekTo s.a0.toNat) s :=
    bodyOf_of_checked (i := .cseekbits ca) (oneCursor_some hk _ _) ⟨ho, hm⟩
  have hcount : n = fillCount (s.chan k).cur.bufsz (s.a0.toNat / 8) (fileBytes (s.chan k)).length := hn
  refine ⟨fun h0 ha => ?_, fun ha => ?_, ?_⟩
  · have hf := fillAt_refused (ch := s.chan k) i (hcount ▸ h0) ha
    have hseek : bodyOf (.cseekbits ca) s = .raise .ioFailure (s.putChan k { s.chan k with env := s.env.asked }) :=
      hb.trans (onChan_eq_raise.2 ⟨_, by rw [seekTo, hf, Res.bind_raise]; rfl, rfl⟩)
    rw [State.putChan_withEnv] at hseek
    exact exec_of_raise hseek
  · obtain ⟨ch, hf⟩ := fillAt_granted (ch := s.chan k) (p := s.a0.toNat / 8) i (hcount ▸ ha)
    rw [← hcount] at hf
    obtain ⟨hseek, hfill⟩ := seekTo_of_fill hf
    have haddr := bitAddress (s.chan k) s.a0.toNat
    refine ⟨_, exec_of_ok (hb.trans (onChan_of_ok hseek)), ?_, fun j hj => State.putChan_cur_ne s _ hj, ?_, ?_, ?_, ?_⟩
    · have henv : ch.env = if n = 0 then s.env else s.env.asked := hfill.env
      rw [← henv]
      rfl
    all_goals simp only [endOk_cur, endOk_chan, State.putChan_cur_self, State.putChan_chan_self]
    · exact hfill.cur
    · exact hfill.buf
    · exact (hfill.absBitPos_eq hm).trans haddr
    · rw [hfill.pending_eq, haddr]
      rfl
  · rw [encodeWord, packWord_oneCursor]
    exact BitVec.or_zero

/-! ## The laws of the position (R127) -/

/-- The position of a read cursor whose buffer is used up. -/
theorem absBitPos_usedUp {env : Env} {c : Cursor} (hm : c.mode = .read) (i : CursorInv env c) (hv : c.valid ≤ c.byteP) :
    absBitPos c = 8 * c.fpos + c.bitP.val := by
  have := i.readPos hm
  simp only [absBitPos, hm]
  omega

theorem absBitPos_refill_of_ok {ch ch' : Chan} {n : Nat} (h : refill ch = .ok n ch') (hm : ch.cur.mode = .read)
    (i : CursorInv ch.env ch.cur) (hv : ch.cur.valid ≤ ch.cur.byteP) : absBitPos ch'.cur = absBitPos ch.cur :=
  ((fillAt_filled h).absBitPos_eq hm).trans (absBitPos_usedUp hm i hv).symm

theorem flush_cur {ch ch' : Chan} (h : flush ch = .ok () ch') : ch'.cur = flushedCur ch.cur := by
  rcases flush_cases ch with ⟨h0, e⟩ | ⟨_, ⟨_, e⟩ | ⟨_, _, _, e⟩ | ⟨_, _, _, _, e⟩⟩ <;> cases e.symm.trans h
  · rw [flushedCur, h0, Nat.add_zero]
  · rfl

/-- A flush rounds the position up to a whole byte (R124, R127). -/
theorem absBitPos_flushedCur {c : Cursor} (hm : c.mode = .write) :
    absBitPos (flushedCur c) = 8 * ((absBitPos c + 7) / 8) := by
  have hlt := c.bitP.isLt
  rw [absBitPos_write hm, absBitPos_write (c := flushedCur c) hm]
  show 8 * (c.fpos + pendingBytes c + 0) + 0 = _
  unfold pendingBytes
  split <;> omega

/-- The flush of a full buffer leaves the position (R127). -/
theorem absBitPos_flushedCur_full {env : Env} {c : Cursor} (hm : c.mode = .write) (i : CursorInv env c)
    (hf : c.byteP = c.bufsz) : absBitPos (flushedCur c) = absBitPos c := by
  rw [absBitPos_flushedCur hm, absBitPos_write hm, (i.full hm hf).1]
  show 8 * ((8 * (c.fpos + c.byteP) + 0 + 7) / 8) = 8 * (c.fpos + c.byteP) + 0
  omega

/-- `ReadBit` moves the position by the bit it returns, and not at `EOF` (R125, R127). -/
theorem absBitPos_readBit {ch ch' : Chan} {b : Option Bool} (h : readBit ch = .ok b ch') (hm : ch.cur.mode = .read)
    (i : CursorInv ch.env ch.cur) : absBitPos ch'.cur = absBitPos ch.cur + if b.isSome then 1 else 0 := by
  rcases readBit_cases ch with ⟨_, e⟩ | ⟨hv, ⟨_, _, hr, _, e⟩ | ⟨_, hr, e⟩ | ⟨_, _, _, e⟩ | ⟨_, _, e⟩⟩ <;>
    cases e.symm.trans h
  · exact absBitPos_advance
  · rw [absBitPos_advance, absBitPos_refill_of_ok hr hm i hv]
    rfl
  · exact absBitPos_refill_of_ok hr hm i hv

/-- The bit `ReadBit` returns from a fresh fill is the file's bit at the position (R127). -/
theorem readBit_usedUp {ch ch' : Chan} {b : Bool} (h : readBit ch = .ok (some b) ch') (hm : ch.cur.mode = .read)
    (i : CursorInv ch.env ch.cur) (hv : ch.cur.valid ≤ ch.cur.byteP) : b = bufbit (fileBytes ch) (absBitPos ch.cur) := by
  rcases readBit_cases ch with ⟨hv', _⟩ | ⟨_, ⟨n, ch1, hr, hn, e⟩ | ⟨_, _, e⟩ | ⟨_, _, _, e⟩ | ⟨_, _, e⟩⟩
  · omega
  all_goals cases e.symm.trans h
  rw [absBitPos_usedUp hm i hv]
  exact (fillAt_filled hr).bitAt_eq hn

/-- `WriteBit` moves the position by one bit, whether or not it flushes first (R122, R127). -/
theorem absBitPos_writeBit {ch ch' : Chan} {b : Bool} (h : writeBit b ch = .ok () ch') (hm : ch.cur.mode = .write)
    (i : CursorInv ch.env ch.cur) : absBitPos ch'.cur = absBitPos ch.cur + 1 := by
  rcases writeBit_cases b ch with ⟨_, e⟩ | ⟨hf, ⟨ch1, hr, e⟩ | ⟨_, _, _, e⟩ | ⟨_, _, e⟩⟩ <;> cases e.symm.trans h
  · exact absBitPos_putBit hm
  · have hc := flush_cur hr
    rw [absBitPos_putBit (by rw [hc]; exact hm), hc, absBitPos_flushedCur_full hm i hf]

/-- Settles O32: each primitive leaves the position its own lemma gives. -/
theorem positionLaws : Obligations.PositionLaws := by
  intro ch ch' i
  refine ⟨fun hm => ⟨fun b h => absBitPos_readBit h hm i, fun h => absBitPos_readBit h hm i,
    fun n hv h => absBitPos_refill_of_ok h hm i hv, fun b hv h => readBit_usedUp h hm i hv⟩,
    fun hm => ⟨fun b h => absBitPos_writeBit h hm i, fun hf h => ?_, fun h => ?_⟩⟩ <;> rw [flush_cur h]
  · exact absBitPos_flushedCur_full hm i hf
  · exact absBitPos_flushedCur hm

end Sys2Proof.Machine

/-! # Proofs, family "bitcursor": the commands that flush, read and write (O25, O26, O27, O28) -/

namespace Sys2Proof.Machine

open Sys2Proof

/-! ## What a flush leaves (R124) -/

/-- What the flush of cursor `k` leaves: the cursor emptied, the file that was being made, and no other byte changed. -/
structure FlushDone (s : State) (k : Fin Config.curSlots) (ch : Chan) : Prop where
  cur : ch.cur = flushedCur (s.cur k)
  file : ch.env.file (s.cur k).fid = some (image (s.chan k))
  inside : ∀ j, j < pendingBytes (s.cur k) →
    ch.env.byteAt (s.cur k).fid ((s.cur k).fpos + j) = some ((s.cur k).buf.getD j 0)
  outside : ∀ f off, ¬ (f = (s.cur k).fid ∧ (s.cur k).fpos ≤ off ∧ off < (s.cur k).fpos + pendingBytes (s.cur k)) →
    ch.env.byteAt f off = s.env.byteAt f off

/-- The bytes of the buffer in the file being made. -/
theorem image_getElem_pending {ch : Chan} (hm : ch.cur.mode = .write) (i : CursorInv ch.env ch.cur)
    (hh : ch.cur.fpos ≤ (fileBytes ch).length) {j : Nat} (hj : j < pendingBytes ch.cur) :
    (image ch)[ch.cur.fpos + j]? = some (ch.cur.buf.getD j 0) := by
  have hle := pendingBytes_le hm i
  have hlen := i.bufLen
  rw [image_eq hh (by omega), List.append_assoc, List.getElem?_append_right (by simp),
    List.getElem?_append_left (by simp; omega), List.length_take, Nat.min_eq_left hh, Nat.add_sub_cancel_left,
    List.getElem?_take_of_lt hj, List.getD_eq_getElem?_getD, List.getElem?_eq_getElem (by omega), Option.getD_some]

/-- The bytes of the buffer of a ready cursor fit in its file. -/
theorem Writable.flush_fits {s : State} {k : Fin Config.curSlots} {n : Nat} (hw : Writable s k n) :
    (s.cur k).fpos + pendingBytes (s.cur k) ≤ s.env.par.maxFileBytes := by
  have hfits := hw.fits
  rw [absBitPos_write hw.mode] at hfits
  unfold pendingBytes
  split <;> omega

/-- The flush of a ready cursor. -/
theorem Writable.onChan_flush {s : State} {k : Fin Config.curSlots} {n : Nat} (hw : Writable s k n) :
    ∃ ch, onChan k flush s = .ok () (s.putChan k ch) ∧ FlushDone s k ch := by
  have i : CursorInv (s.chan k).env (s.chan k).cur := hw.inv.cursors k hw.isOpen
  obtain ⟨ch, hf, hstep, himg, _⟩ := flush_image (ch := s.chan k) hw.noFail hw.mode i hw.flush_fits
  have hcur := flush_cur hf
  have hfile : ch.env.file (s.cur k).fid = some (image (s.chan k)) := by
    have h := (hstep.inv ⟨hw.inv.params, hw.inv.memory⟩ i).file
    rwa [himg, hcur] at h
  have hbyte : ∀ off, ch.env.byteAt (s.cur k).fid off = (image (s.chan k))[off]? := fun off => by
    rw [Env.byteAt, hfile, Option.bind_some]
  refine ⟨ch, onChan_of_ok hf, hcur, hfile, fun j hj => ?_, fun f off hne => ?_⟩
  · rw [hbyte]
    exact image_getElem_pending hw.mode i hw.noHole hj
  · by_cases hfid : f = (s.cur k).fid
    · subst hfid
      rw [hbyte, byteAt_eq, ← himg]
      refine flush_outside hw.noHole hf (by_contra fun hc => hne ⟨rfl, ?_⟩)
      rw [not_or, not_lt, not_le] at hc
      exact hc
    · have hother : ch.env.file f = s.env.file f := hstep.env.others _ fun e => hfid (BitVec.eq_of_toNat_eq e)
      rw [Env.byteAt, Env.byteAt, hother]

/-- Settles O26: behind the cursor check CFLUSH is the flush of a ready cursor. -/
theorem cflushStoresBuffer : Obligations.CflushStoresBuffer := by
  intro s ca k hk hw
  obtain ⟨ch, hf, hcur, hfile, hin, hout⟩ := hw.onChan_flush
  have hb := (bodyOf_of_checked (i := .cflush ca) (oneCursor_some hk _ _) hw.openFor).trans hf
  refine ⟨_, exec_of_ok hb, rfl, fun j hj => State.putChan_cur_ne s _ hj, ?_, hfile, ?_, hin, hout⟩ <;>
    rw [endOk_cur, State.putChan_cur_self, hcur]
  · rfl
  · exact absBitPos_flushedCur hw.mode

/-- Settles O25: a write cursor is flushed and then closed. -/
theorem ccloseFlushesAndCloses : Obligations.CcloseFlushesAndCloses := by
  intro s ca k hk
  have hb : bodyOf (.cclose ca) s = cclose k s := oneCursor_some hk _ _
  refine ⟨fun ho => exec_of_raise (e := .cursorState 1) (hb.trans (if_pos ho)), fun ho hm => ?_, fun hw => ?_⟩
  · refine exec_of_ok (hb.trans ?_)
    rw [cclose, if_neg (by simp [ho]), if_neg (by simp [hm]), Res.bind_ok]
  · obtain ⟨ch, hf, hcur, hfile, hin, hout⟩ := hw.onChan_flush
    have hok : cclose k s = .ok () ((s.putChan k ch).setCur k { ch.cur with isOpen := false }) := by
      rw [cclose, if_neg (by simp [hw.isOpen]), if_pos hw.mode, hf, Res.bind_ok, State.putChan_cur_self]
    refine ⟨_, exec_of_ok (hb.trans hok), rfl, fun j hj => ?_, ?_, hfile, hin, hout⟩
    · rw [endOk_cur, State.setCur_cur_ne _ _ hj, State.putChan_cur_ne _ _ hj]
    · rw [endOk_cur, State.setCur_cur_self, hcur]
      rfl

/-! ## What a stream leaves does not depend on the registers and DB -/

section

variable {s t u : State} {k : Fin Config.curSlots}

theorem State.cur_congr (hc : u.cursors = t.cursors) (k : Fin Config.curSlots) : u.cur k = t.cur k := by
  rw [State.cur, State.cur, hc]

theorem OnlyCursor.congr (h : OnlyCursor s t k) (hc : u.cursors = t.cursors) : OnlyCursor s u k := by
  obtain ⟨hj, ho, hm, hf, hb⟩ := h
  refine ⟨fun j hne => (State.cur_congr hc j).trans (hj j hne), ?_, ?_, ?_, ?_⟩ <;> rwa [State.cur_congr hc k]

theorem Delivered.congr {n : Nat} (h : Delivered s t k n) (hc : u.cursors = t.cursors) (he : u.env = t.env) :
    Delivered s u k n := by
  obtain ⟨hp, hpos, hb, hf⟩ := h
  refine ⟨?_, ?_, ?_, ?_⟩
  · rwa [State.chan, State.cur_congr hc k, he]
  · rwa [State.cur_congr hc k]
  · rwa [he]
  · rwa [he]

theorem Stored.congr {bits : Bits} (h : Stored s t k bits) (hc : u.cursors = t.cursors) (he : u.env = t.env) :
    Stored s u k bits := by
  have hcur := State.cur_congr hc k
  have hchan : u.chan k = t.chan k := by rw [State.chan, State.chan, hcur, he]
  obtain ⟨hi, hp, hf, hin, hout⟩ := h
  refine ⟨?_, ?_, ?_, ?_, ?_⟩
  · rwa [hchan]
  · rwa [hcur]
  · rwa [hcur]
  · rwa [hcur, he, hchan]
  · rwa [hcur, he]

end

/-! ## CRDBITS and CRDBYTES (R130, R132) -/

/-- The two reading commands on an open read cursor: the count is checked, then the bits are read into DB. -/
theorem bodyOf_read {s : State} {ca : BitVec 4} {k : Fin Config.curSlots} {i : Instr} {n : Nat}
    (hk : s.cursorOf? ca = some k) (ho : OpenFor s k .read)
    (hi : i = .crdbits ca ∧ n = s.a0.toNat ∨ i = .crdbytes ca ∧ n = 8 * s.a0.toNat) :
    bodyOf i s = if 8 * s.env.par.dbBytes < n then .raise (.badOperand 0) s else readToDb n k s := by
  rcases hi with ⟨rfl, rfl⟩ | ⟨rfl, rfl⟩
  · exact bodyOf_of_checked (i := .crdbits ca) (oneCursor_some hk _ _) ho
  · rw [bodyOf_of_checked (i := .crdbytes ca) (oneCursor_some hk _ _) ho]
    simp only [Nat.mul_lt_mul_left (show 0 < 8 by decide)]

/-- What `readToDb` leaves of a cursor that is ready, where DB has room for the bits. -/
theorem Readable.readToDb {s : State} {k : Fin Config.curSlots} {n : Nat} (hr : Readable s k)
    (hn : n ≤ 8 * s.env.par.dbBytes) : ∃ ch, Machine.readToDb n k s =
      .ok () { s.putChan k ch with
        db := setBits s.db 0 ((pending (s.chan k)).take n)
        a0 := BitVec.ofNat 64 ((pending (s.chan k)).take n).length } ∧
      OnlyCursor s (s.putChan k ch) k ∧ Delivered s (s.putChan k ch) k n := by
  obtain ⟨t, he, hstep, hdel⟩ := onChan_read hr n
  obtain ⟨ch, rfl⟩ : ∃ ch, t = s.putChan k ch := ⟨_, hstep.eq⟩
  have hdb := (Params.bounds hr.inv.params).2.2.1
  have hlen := List.length_take_le n (pending (s.chan k))
  refine ⟨ch, ?_, hstep.onlyCursor, hdel⟩
  rw [Machine.readToDb, he, Res.bind_ok, resultReg_of_lt (by omega)]
  rfl

/-- Settles O27: both commands read `n` bits into DB when it has room for them. -/
theorem readToBuffer : Obligations.ReadToBuffer := by
  intro s ca k hk hr i n hi
  have hb := bodyOf_read hk hr.openFor hi
  refine ⟨fun h => exec_of_raise (e := .badOperand 0) (hb.trans (if_pos h)), fun h => ?_⟩
  obtain ⟨ch, hok, honly, hdel⟩ := hr.readToDb h
  rw [if_neg (not_lt.2 h), hok] at hb
  refine ⟨_, exec_of_ok hb, rfl, setBits_length _ _ _, fun j => ?_, honly.congr rfl, hdel.congr rfl rfl⟩
  have hlen : ((pending (s.chan k)).take n).length ≤ 8 * s.db.length :=
    (List.length_take_le _ _).trans (hr.inv.db ▸ h)
  refine (bufbit_setBits s.db 0 j _ (by omega)).trans ?_
  simp only [Nat.zero_le, true_and, Nat.zero_add, Nat.sub_zero]
  refine if_ctx_congr Iff.rfl (fun hj => ?_) fun _ => rfl
  have hjn : j < n := hj.trans_le (List.length_take_le _ _)
  rw [List.getD_eq_getElem?_getD, List.getElem?_take_of_lt hjn, List.getD_eq_getElem?_getD]

/-! ## CWRBITS and CWRBYTES (R131, R133) -/

/-- The two writing commands on an open write cursor: the range is checked, then its bits are written. -/
theorem bodyOf_write {s : State} {ca : BitVec 4} {k : Fin Config.curSlots} {i : Instr} {a n : Nat}
    (hk : s.cursorOf? ca = some k) (ho : OpenFor s k .write)
    (hi : i = .cwrbits ca ∧ a = s.a1.toNat ∧ n = s.a0.toNat ∨ i = .cwrbytes ca ∧ a = 0 ∧ n = 8 * s.a0.toNat) :
    bodyOf i s = if 8 * s.env.par.dbBytes < a + n then .raise (.badOperand 0) s
      else onChan k (writeBits (bufbits s.db a n)) s := by
  rcases hi with ⟨rfl, rfl, rfl⟩ | ⟨rfl, rfl, rfl⟩
  · exact bodyOf_of_checked (i := .cwrbits ca) (oneCursor_some hk _ _) ho
  · rw [bodyOf_of_checked (i := .cwrbytes ca) (oneCursor_some hk _ _) ho]
    simp only [Nat.zero_add, Nat.mul_lt_mul_left (show 0 < 8 by decide)]

/-- Settles O28: both commands write the `n` bits of DB from bit `a` on when they are there. -/
theorem writeFromBuffer : Obligations.WriteFromBuffer := by
  intro s ca k hk i a n hi
  refine ⟨fun ho hm h => ?_, fun hw h => ?_⟩
  · exact exec_of_raise (e := .badOperand 0) ((bodyOf_write hk ⟨ho, hm⟩ hi).trans (if_pos h))
  · rw [← bufbits_length s.db a n] at hw
    obtain ⟨t, he, hstep, hst, _⟩ := onChan_write (bufbits s.db a n) hw
    obtain ⟨ch, rfl⟩ : ∃ ch, t = s.putChan k ch := ⟨_, hstep.eq⟩
    have hb := ((bodyOf_write hk hw.openFor hi).trans (if_neg (not_lt.2 h))).trans he
    exact ⟨_, exec_of_ok hb, rfl, hstep.onlyCursor.congr rfl, hst.congr rfl rfl⟩

end Sys2Proof.Machine

/-! # Proofs, family "histogram": the words of a stream and their slots (O33) -/

namespace Sys2Proof.Machine

open Sys2Proof

/-! ## The words of a stream (R150) -/

/-- Induction along the tokeniser: a stream is empty, shorter than a word, or a full word and a rest. -/
theorem bits_wordInduction (w : WordSize) {P : Bits → Prop} (nil : P [])
    (short : ∀ bits, bits ≠ [] → bits.length < Config.wbits w → P bits)
    (full : ∀ bits, Config.wbits w ≤ bits.length → P (bits.drop (Config.wbits w)) → P bits)
    (bits : Bits) : P bits := by
  by_cases hf : Config.wbits w ≤ bits.length
  · exact full bits hf (bits_wordInduction w nil short full (bits.drop (Config.wbits w)))
  · by_cases hb : bits = []
    · exact hb ▸ nil
    · exact short bits hb (not_le.1 hf)
termination_by bits.length
decreasing_by
  have hpos := wbits_pos w
  rw [List.length_drop]
  omega

/-- A stream shorter than a word is its own tail word. -/
theorem wordsOf_short (w : WordSize) {bits : Bits} (hb : bits ≠ []) (h : bits.length < Config.wbits w) :
    wordsOf w bits = [(wordOfBits bits, bits.length)] := by
  rw [wordsOf_cons w hb, List.take_of_length_le h.le, List.drop_of_length_le h.le, wordsOf_nil]

/-- A longer stream is a full word and the words of the rest. -/
theorem wordsOf_full (w : WordSize) {bits : Bits} (h : Config.wbits w ≤ bits.length) :
    wordsOf w bits = (wordOfBits (bits.take (Config.wbits w)), Config.wbits w) ::
      wordsOf w (bits.drop (Config.wbits w)) := by
  have hb : bits ≠ [] := List.ne_nil_of_length_pos ((wbits_pos w).trans_le h)
  rw [wordsOf_cons w hb, List.length_take_of_le h]

/-- The words of a stream joined are the stream. -/
theorem flatMap_wordsOf (w : WordSize) (bits : Bits) :
    (wordsOf w bits).flatMap (fun p => wordBits p.1 p.2) = bits := by
  induction bits using bits_wordInduction w with
  | nil => rfl
  | short bits hb h =>
    rw [wordsOf_short w hb h, List.flatMap_singleton, wordBits_wordOfBits bits (h.le.trans (wbits_le w))]
  | full bits h ih =>
    have hlen := List.length_take_of_le h
    have hword := wordBits_wordOfBits (bits.take (Config.wbits w)) (hlen.trans_le (wbits_le w))
    rw [hlen] at hword
    rw [wordsOf_full w h, List.flatMap_cons, hword, ih, List.take_append_drop]

/-- Every word of a stream but the last is full. -/
theorem full_of_mem_dropLast (w : WordSize) (bits : Bits) :
    ∀ p ∈ (wordsOf w bits).dropLast, p.2 = Config.wbits w := by
  induction bits using bits_wordInduction w with
  | nil => exact fun p hp => absurd hp List.not_mem_nil
  | short bits hb h =>
    rw [wordsOf_short w hb h]
    exact fun p hp => absurd hp List.not_mem_nil
  | full bits h ih =>
    rw [wordsOf_full w h]
    cases hrest : wordsOf w (bits.drop (Config.wbits w)) with
    | nil => exact fun p hp => absurd hp List.not_mem_nil
    | cons q qs =>
      rw [hrest] at ih
      exact List.forall_mem_cons.2 ⟨rfl, ih⟩

/-- Every word of a stream has 1 to `WBITS` bits, and its unused bits are 0. -/
theorem wordOk_of_mem (w : WordSize) (bits : Bits) :
    ∀ p ∈ wordsOf w bits, 1 ≤ p.2 ∧ p.2 ≤ Config.wbits w ∧ wordClear p.1 p.2 = true := by
  induction bits using bits_wordInduction w with
  | nil => exact fun p hp => absurd hp List.not_mem_nil
  | short bits hb h =>
    rw [wordsOf_short w hb h]
    exact List.forall_mem_singleton.2
      ⟨List.length_pos_iff.2 hb, h.le, wordClear_wordOfBits bits (h.le.trans (wbits_le w))⟩
  | full bits h ih =>
    have hlen := List.length_take_of_le h
    have hclear := wordClear_wordOfBits (bits.take (Config.wbits w)) (hlen.trans_le (wbits_le w))
    rw [hlen] at hclear
    rw [wordsOf_full w h]
    exact List.forall_mem_cons.2 ⟨⟨wbits_pos w, le_rfl, hclear⟩, ih⟩

/-! ## Slots and words (R66) -/

/-- The word of a full word's slot is the word: with `W = 1` its second byte is 0, with `W = 2` the slot holds both. -/
theorem idxword_widx (w : WordSize) {x : WordBytes} (h : wordClear x (Config.wbits w) = true) :
    idxword w (widx w x) = x := by
  obtain ⟨b0, b1⟩ := x
  have h0 := b0.isLt
  cases w with
  | one =>
    have hb1 : b1 = 0 := by
      apply byte_ext
      intro j hj
      have hbit := (wordClear_iff _ _).1 h (8 + j) (Nat.le_add_right 8 j) (by omega)
      simpa [bufbit, wordList, show (8 + j) / 8 = 1 by omega, show (8 + j) % 8 = j by omega] using hbit
    rw [idxword, widx, hb1, Nat.mod_eq_of_lt h0, BitVec.ofNat_toNat, BitVec.setWidth_eq]
  | two =>
    have hlow : (b0.toNat + 256 * b1.toNat) % 256 = b0.toNat := by omega
    have hhigh : (b0.toNat + 256 * b1.toNat) / 256 = b1.toNat := by omega
    simp only [idxword, widx, hlow, hhigh, BitVec.ofNat_toNat, BitVec.setWidth_eq]

/-- Settles O33: three inductions along the tokeniser, and the two inverse laws of a slot and its word. -/
theorem wordsOfStream : Obligations.WordsOfStream := by
  intro w bits
  exact ⟨flatMap_wordsOf w bits, full_of_mem_dropLast w bits, wordOk_of_mem w bits,
    fun v hv => ⟨widx_idxword w hv, wordClear_idxword w v⟩, fun x hx => ⟨widx_lt w x, idxword_widx w hx⟩⟩

end Sys2Proof.Machine

/-! # Proofs, family "histogram": the commands that clear tables and access buckets (O34, O36) -/

namespace Sys2Proof.Machine

open Sys2Proof

/-- Settles O34: both bodies are one update of the state. -/
theorem clearsEmptyTables : Obligations.ClearsEmptyTables :=
  ⟨fun s => ⟨⟨endOk (clearHistogram s), exec_of_ok (i := .hclr) rfl, rfl, fun _ => rfl⟩, rfl⟩,
    fun s => ⟨exec_of_ok (i := .tbinit) (t := freeTree s) rfl, rfl⟩⟩

section

variable {s : State}

/-- A slot of `NSYM` or more is no operand (R153, R154). -/
theorem slotOperand_of_le (h : Config.nsym s.w ≤ s.a0.toNat) : s.slotOperand = none := if_neg (not_lt.2 h)

theorem slotOperand_of_lt (h : s.a0.toNat < Config.nsym s.w) : s.slotOperand = some s.a0.toNat := if_pos h

/-- A well-formed tail descriptor, bit by bit (R154). -/
theorem descOk_iff {w : WordSize} {a2 : Reg} :
    descOk w a2 = true ↔ a2.extractLsb' 21 43 = 0 ∧ descLen a2 < Config.wbits w ∧
      ∀ j, descLen a2 ≤ j → j < 16 → bufbit (wordList (descBytes a2)) j = false := by
  simp only [descOk, Bool.and_eq_true, beq_iff_eq, decide_eq_true_eq, wordClear_iff, and_assoc]

theorem frd_of_le (h : Config.nsym s.w ≤ s.a0.toNat) : frd s = .raise (.badOperand 0) s := by
  rw [frd, slotOperand_of_le h]

theorem frd_of_lt (h : s.a0.toNat < Config.nsym s.w) : frd s = .ok () { s with a0 := s.freqAt s.a0.toNat } := by
  rw [frd, slotOperand_of_lt h]

theorem fwr_of_le (h : Config.nsym s.w ≤ s.a0.toNat) : fwr s = .raise (.badOperand 0) s := by
  rw [fwr, slotOperand_of_le h]

/-- FWR of the tail's bucket refuses a malformed descriptor. -/
theorem fwr_of_not_descOk (ht : s.a0.toNat = s.tailIdx) (hd : ¬ descOk s.w s.a2 = true) :
    fwr s = .raise (.badOperand 1) s := by
  rw [fwr, slotOperand_of_lt (ht.trans_lt (Nat.lt_succ_self _))]
  exact (if_pos ht).trans (if_neg hd)

/-- FWR of any other slot, and of the tail's with a well-formed descriptor. -/
theorem fwr_of_lt (h : s.a0.toNat < Config.nsym s.w) (hd : s.a0.toNat = s.tailIdx → descOk s.w s.a2 = true) :
    fwr s = .ok () { s with
      freq := freqSet s.freq s.a0.toNat s.a1
      tail := if s.a0.toNat = s.tailIdx then ⟨true, descBytes s.a2, descLen s.a2⟩ else s.tail } := by
  rw [fwr, slotOperand_of_lt h]
  by_cases ht : s.a0.toNat = s.tailIdx
  · rw [if_pos ht]
    exact (if_pos ht).trans (if_pos (hd ht))
  · rw [if_neg ht]
    exact if_neg ht

end

/-- Settles O36: the slot is checked first, and the descriptor for the tail's slot only. -/
theorem bucketAccess : Obligations.BucketAccess := by
  refine ⟨fun s => ⟨fun h => exec_of_raise (i := .frd) (frd_of_le h),
    fun h => exec_of_ok (i := .frd) (frd_of_lt h), rfl⟩, ?_⟩
  rintro s x len hinv rfl rfl
  have hfreq (j : Nat) := freqGet_freqSet (freqOk_iff.1 hinv.freq).1 s.a0.toNat j s.a1
  refine ⟨fun h => exec_of_raise (i := .fwr) (fwr_of_le h), fun ht hbad => ?_, fun h hdesc => ?_, rfl⟩
  · refine exec_of_raise (i := .fwr) (fwr_of_not_descOk ht fun hd => ?_)
    obtain ⟨hz, hl, hc⟩ := descOk_iff.1 hd
    rcases hbad with hne | hle | ⟨j, hj, hj16, hbit⟩
    · exact hne hz
    · exact not_lt.2 hle hl
    · exact Bool.false_ne_true ((hc j hj hj16).symm.trans hbit)
  · exact ⟨_, exec_of_ok (i := .fwr) (fwr_of_lt h fun ht => descOk_iff.2 (hdesc ht)), rfl,
      (hfreq _).trans (if_pos rfl), fun j hj => (hfreq j).trans (if_neg hj)⟩

end Sys2Proof.Machine

/-! # Proofs, family "histogram": HSCAN over a whole stream (O35) -/

namespace Sys2Proof.Machine

open Sys2Proof

/-! ## The full words of a stream -/

/-- Fewer bits than a word hold no full word. -/
theorem fullWords_short (w : WordSize) {bits : Bits} (hb : bits ≠ []) (h : bits.length < Config.wbits w) :
    fullWords w bits = [] := by
  rw [fullWords, wordsOf_short w hb h, List.filter_cons_of_neg (by simpa using h.ne), List.filter_nil]

/-- The first full word of a stream, and those of the rest. -/
theorem fullWords_full (w : WordSize) {bits : Bits} (h : Config.wbits w ≤ bits.length) :
    fullWords w bits = (wordOfBits (bits.take (Config.wbits w)), Config.wbits w) ::
      fullWords w (bits.drop (Config.wbits w)) := by
  rw [fullWords, wordsOf_full w h, List.filter_cons_of_pos (by simp), fullWords]

/-- The full words of a stream have `WBITS` bits each. -/
theorem length_fullWords_mul_le (w : WordSize) (bits : Bits) :
    (fullWords w bits).length * Config.wbits w ≤ bits.length := by
  induction bits using bits_wordInduction w with
  | nil => exact Nat.le_of_eq (Nat.zero_mul _)
  | short bits hb h =>
    rw [fullWords_short w hb h, List.length_nil, Nat.zero_mul]
    exact Nat.zero_le _
  | full bits h ih =>
    rw [List.length_drop] at ih
    rw [fullWords_full w h, List.length_cons, Nat.add_one_mul]
    omega

section

variable {s t : State} {k : Fin Config.curSlots}

/-- The number of full words a cursor has to come fits its register (R12). -/
theorem Inv.length_fullWords_lt (h : Inv s) (ho : (s.cur k).isOpen = true) :
    (fullWords s.w (pending (s.chan k))).length < 2 ^ 64 := by
  obtain ⟨-, hbuf, -, -, hmax⟩ := Params.bounds h.params
  have i := h.cursors k ho
  have hvalid : (s.cur k).valid < 2 ^ 13 := (i.validLe.trans i.sizeMax).trans_lt hbuf
  have hfile : ((s.env.file (s.cur k).fid).getD []).length < 2 ^ 61 := by
    cases hb : s.env.file (s.cur k).fid with
    | none => exact Nat.two_pow_pos 61
    | some b => exact (Memory.length_le h.memory hb).trans_lt hmax
  have hfuel := pending_lt_fuel (s.chan k)
  simp only [streamFuel, State.chan_cur, State.chan_env] at hfuel
  have hmul := length_fullWords_mul_le s.w (pending (s.chan k))
  have hw8 : 8 ≤ Config.wbits s.w := by rcases wbits_cases s.w with e | e <;> omega
  have := Nat.mul_le_mul_left (fullWords s.w (pending (s.chan k))).length hw8
  omega

/-! ## The histogram of a stream (R152) -/

/-- What HSCAN makes of the buckets and the tail word of `s` when it has scanned `bits`: FREQ is `F`, the tail word `T`,
the tail's length `len`. -/
structure Scanned (s : State) (bits : Bits) (F : List (Nat × BitVec 64)) (T : Tail) (len : Nat) : Prop where
  counts : ∀ v, v < Config.tailIdx s.w → freqGet F v = s.freqAt v + BitVec.ofNat 64 (wordCount s.w bits v)
  tail : ∀ p, (wordsOf s.w bits).getLast? = some p → p.2 < Config.wbits s.w →
    T = ⟨true, p.1, p.2⟩ ∧ freqGet F (Config.tailIdx s.w) = 1 ∧ len = p.2
  noTail : (∀ p ∈ wordsOf s.w bits, p.2 = Config.wbits s.w) →
    T = s.tail ∧ freqGet F (Config.tailIdx s.w) = s.freqAt (Config.tailIdx s.w) ∧ len = 0

theorem Scanned.nil (s : State) : Scanned s [] s.freq s.tail 0 where
  counts v _ := by
    rw [wordCount_short s.w (bits := []) (wbits_pos s.w)]
    exact (BitVec.add_zero _).symm
  tail p hp _ := by cases hp
  noTail _ := ⟨rfl, rfl, rfl⟩

/-- A stream shorter than a word is recorded as the tail word. -/
theorem Scanned.short {bits : Bits} (hr : tableRises 0 s.freq = true) (hb : bits ≠ [])
    (h : bits.length < Config.wbits s.w) :
    Scanned s bits (freqSet s.freq s.tailIdx 1) ⟨true, wordOfBits bits, bits.length⟩ bits.length where
  counts v hv := by
    rw [freqGet_freqSet hr, if_neg (show v ≠ s.tailIdx from hv.ne), wordCount_short s.w h]
    exact (BitVec.add_zero _).symm
  tail p hp _ := by
    rw [wordsOf_short s.w hb h] at hp
    obtain rfl := Option.some.inj hp
    exact ⟨rfl, (freqGet_freqSet hr _ _ _).trans (if_pos rfl), rfl⟩
  noTail hall := by
    rw [wordsOf_short s.w hb h] at hall
    exact absurd (hall _ (List.mem_singleton_self _)) h.ne

/-- A full word is counted, and then the rest is scanned. -/
theorem Scanned.full {bits : Bits} {x : WordBytes} {F : List (Nat × BitVec 64)} {T : Tail} {len : Nat}
    (hr : tableRises 0 s.freq = true) (h : Config.wbits s.w ≤ bits.length)
    (hx : x = wordOfBits (bits.take (Config.wbits s.w)))
    (hrest : Scanned (Machine.countWord x s) (bits.drop (Config.wbits s.w)) F T len) : Scanned s bits F T len := by
  obtain ⟨hcounts, htail, hno⟩ := hrest
  simp only [countWord_w, countWord_tail, countWord_freqAt hr] at hcounts htail hno
  have hwords := wordsOf_full s.w h
  refine ⟨fun v hv => ?_, fun p hp hlt => htail p ?_ hlt, fun hall => ?_⟩
  · rw [hcounts v hv, wordCount_cons s.w h, BitVec.ofNat_add, ← BitVec.add_assoc, hx]
  · rw [hwords, List.getLast?_cons] at hp
    cases hl : (wordsOf s.w (bits.drop (Config.wbits s.w))).getLast? with
    | none =>
      rw [hl] at hp
      obtain rfl := Option.some.inj hp
      exact absurd hlt (lt_irrefl _)
    | some q => rwa [hl] at hp
  · rw [hwords] at hall
    obtain ⟨hT, hF, hlen⟩ := hno (List.forall_mem_cons.1 hall).2
    rw [if_neg (widx_lt s.w x).ne'] at hF
    exact ⟨hT, hF.trans (BitVec.add_zero _), hlen⟩

/-! ## HSCAN (R152) -/

/-- A read of at least the bits that are pending delivers them all. -/
theorem Delivered.all {n : Nat} (h : Delivered s t k n) (hn : (Machine.pending (s.chan k)).length ≤ n) :
    Delivered s t k (Machine.pending (s.chan k)).length := by
  obtain ⟨hp, hpos, hbytes, hfiles⟩ := h
  refine ⟨?_, ?_, hbytes, hfiles⟩
  · rw [hp, List.drop_of_length_le hn, List.drop_length]
  · rw [hpos, Nat.min_eq_right hn, Nat.min_self]

/-- A word counted between two reads does not matter for what they deliver. -/
theorem Delivered.trans_countWord {a b : Chan} {x : WordBytes} {n m : Nat} (h : Delivered s (s.putChan k a) k n)
    (h' : Delivered (countWord x (s.putChan k a)) ((countWord x (s.putChan k a)).putChan k b) k m) :
    Delivered s (s.putChan k b) k (n + m) := by
  have hread : Delivered (s.putChan k a) ((s.putChan k a).putChan k b) k m :=
    ⟨h'.pending, h'.pos, h'.bytes, h'.files⟩
  rw [State.putChan_putChan] at hread
  exact h.trans hread

theorem Readable.countWord (h : Readable s k) (x : WordBytes) : Readable (Machine.countWord x s) k :=
  ⟨h.inv.countWord x, h.isOpen, h.mode, h.noFail⟩

theorem Readable.clearHistogram (h : Readable s k) : Readable (Machine.clearHistogram s) k :=
  ⟨h.inv.clearHistogram, h.isOpen, h.mode, h.noFail⟩

/-- HSCAN's loop from `s`, with `nw` words counted so far, ends with the pending bits of cursor `k` scanned and
delivered. -/
def ScansPending (k : Fin Config.curSlots) (fuel nw : Nat) (s : State) : Prop :=
  ∃ F T len ch, scanLoop k fuel nw s =
      .ok (nw + (fullWords s.w (pending (s.chan k))).length, len) ({ s with freq := F, tail := T }.putChan k ch) ∧
    Scanned s (pending (s.chan k)) F T len ∧ ChanStep (s.chan k) ch ∧
    Delivered s (s.putChan k ch) k (pending (s.chan k)).length

/-- The loop ends at a stream shorter than a word, which it records unless it is empty. -/
theorem scansPending_short (fuel nw : Nat) (hr : Readable s k)
    (hshort : (pending (s.chan k)).length < Config.wbits s.w) : ScansPending k (fuel + 1) nw s := by
  obtain ⟨t, hnext, hstep, hdel⟩ := nextWord_pending hr
  obtain ⟨ch, rfl⟩ : ∃ ch, t = s.putChan k ch := ⟨_, hstep.eq⟩
  have hch := hstep.step
  rw [State.putChan_chan_self] at hch
  by_cases hnil : pending (s.chan k) = []
  · rw [hnil, wordsOf_nil, List.head?_nil] at hnext
    refine ⟨s.freq, s.tail, 0, ch, ?_, hnil ▸ Scanned.nil s, hch, hdel.all hshort.le⟩
    rw [scanLoop, hnext, Res.bind_ok, hnil]
    rfl
  · rw [wordsOf_short s.w hnil hshort, List.head?_cons] at hnext
    refine ⟨_, _, _, ch, ?_, Scanned.short (freqOk_iff.1 hr.inv.freq).1 hnil hshort, hch, hdel.all hshort.le⟩
    rw [scanLoop, hnext, Res.bind_ok, fullWords_short s.w hnil hshort]
    exact if_neg hshort.ne

/-- The loop counts a full word and goes on with the rest. -/
theorem scansPending_full {fuel nw : Nat} (hr : Readable s k)
    (hfull : Config.wbits s.w ≤ (pending (s.chan k)).length)
    (hrest : ∀ u, Readable u k → (pending (u.chan k)).length = (pending (s.chan k)).length - Config.wbits s.w →
      ScansPending k fuel (nw + 1) u) : ScansPending k (fuel + 1) nw s := by
  obtain ⟨t, hnext, hstep, hdel⟩ := nextWord_pending hr
  obtain ⟨ch, rfl⟩ : ∃ ch, t = s.putChan k ch := ⟨_, hstep.eq⟩
  have hch := hstep.step
  rw [State.putChan_chan_self] at hch
  obtain ⟨x, hx⟩ : ∃ x, x = wordOfBits ((pending (s.chan k)).take (Config.wbits s.w)) := ⟨_, rfl⟩
  rw [wordsOf_full s.w hfull, List.head?_cons, ← hx] at hnext
  have hchan : (countWord x (s.putChan k ch)).chan k = ch := State.putChan_chan_self s k ch
  have hdrop : pending ch = (pending (s.chan k)).drop (Config.wbits s.w) := by
    rw [← hdel.pending, State.putChan_chan_self]
  have hlen : (pending ch).length = (pending (s.chan k)).length - Config.wbits s.w := by rw [hdrop, List.length_drop]
  obtain ⟨F, T, len, ch', hloop, hscan, hch', hdel'⟩ := hrest _ ((hr.step hstep).countWord x) (by rw [hchan, hlen])
  rw [hchan] at hloop hscan hch' hdel'
  have hcount : nw + 1 + (fullWords s.w (pending ch)).length = nw + (fullWords s.w (pending (s.chan k))).length := by
    rw [fullWords_full s.w hfull, ← hdrop, List.length_cons, Nat.add_right_comm, Nat.add_assoc]
  have hscan' : Scanned (countWord x s) ((pending (s.chan k)).drop (Config.wbits s.w)) F T len :=
    hdrop ▸ ⟨hscan.counts, hscan.tail, hscan.noTail⟩
  have hdelAll := hdel.trans_countWord hdel'
  rw [hlen, Nat.add_sub_cancel' hfull] at hdelAll
  refine ⟨F, T, len, ch', ?_, hscan'.full (freqOk_iff.1 hr.inv.freq).1 hfull hx, hch.trans hch', hdelAll⟩
  rw [scanLoop, hnext, Res.bind_ok, ← hcount, ← State.putChan_putChan { s with freq := F, tail := T } k ch ch']
  exact (if_pos rfl).trans hloop

/-- HSCAN's loop scans the pending bits to their end. -/
theorem scanLoop_scansPending {fuel : Nat} (nw : Nat) (hr : Readable s k)
    (hf : (pending (s.chan k)).length < fuel) : ScansPending k fuel nw s := by
  induction fuel generalizing nw s with
  | zero => exact absurd hf (Nat.not_lt_zero _)
  | succ fuel ih =>
    have hpos := wbits_pos s.w
    by_cases hshort : (pending (s.chan k)).length < Config.wbits s.w
    · exact scansPending_short fuel nw hr hshort
    · exact scansPending_full hr (not_lt.1 hshort) fun u hu hlen => ih (nw + 1) hu (by omega)

/-- HSCAN scans the pending bits into an empty histogram. -/
theorem hscan_scans (hr : Readable s k) :
    ∃ F T len ch, hscan k s = .ok () { { s with freq := F, tail := T }.putChan k ch with
        a0 := BitVec.ofNat 64 (fullWords s.w (pending (s.chan k))).length, a1 := resultReg len } ∧
      Scanned (clearHistogram s) (pending (s.chan k)) F T len ∧ ChanStep (s.chan k) ch ∧
      Delivered s (s.putChan k ch) k (pending (s.chan k)).length := by
  obtain ⟨F, T, len, ch, hloop, hscanned, hch, hdel⟩ :=
    scanLoop_scansPending 0 hr.clearHistogram (pending_lt_fuel (s.chan k))
  refine ⟨F, T, len, ch, ?_, hscanned, hch, ⟨hdel.pending, hdel.pos, hdel.bytes, hdel.files⟩⟩
  rw [Nat.zero_add] at hloop
  rw [hscan, curCheck_ok hr.isOpen hr.mode, Res.bind_ok, hloop, Res.bind_ok,
    ← resultReg_of_lt (hr.inv.length_fullWords_lt hr.isOpen)]
  rfl

end

/-- Settles O35: HSCAN scans the pending bits into an empty histogram, and its two results fit their registers. -/
theorem hscanCountsWords : Obligations.HscanCountsWords := by
  intro s ca k hk hr
  obtain ⟨F, T, len, ch, hok, ⟨hcounts, htail, hno⟩, hch, hdel⟩ := hscan_scans hr
  have hstep : CursorStep k s (s.putChan k ch) :=
    ⟨by rwa [State.putChan_chan_self], by rw [State.putChan_chan_self]⟩
  refine ⟨_, exec_of_ok ((oneCursor_some hk _ _).trans hok), rfl, fun v hv => ?_, fun p hp hlt => ?_, fun hall => ?_,
    hstep.onlyCursor.congr rfl, hdel.congr rfl rfl⟩
  · exact (hcounts v hv).trans (BitVec.zero_add _)
  · obtain ⟨hT, hF, hlen⟩ := htail p hp hlt
    have := wbits_le s.w
    exact ⟨hT, hF, hlen ▸ resultReg_of_lt (by omega)⟩
  · obtain ⟨hT, hF, hlen⟩ := hno hall
    exact ⟨hT, hF, hlen ▸ resultReg_of_lt (n := 0) (Nat.two_pow_pos 64)⟩

end Sys2Proof.Machine

/-! # Proofs, family "treebuilder": the heap's laws and the commands over one node (O37, O38, O41) -/

namespace Sys2Proof.Machine

open Sys2Proof

/-! ## The heap (R37, R166, R167, R170) -/

/-- The top of a heap is a least entry (R37). -/
theorem heapOrdered.top_le {F : Nat → Nat} {top x : Nat} {rest : List Nat} (ho : heapOrdered F (top :: rest))
    (hx : x ∈ rest) : F top ≤ F x := by
  have hall : ∀ i, i < (top :: rest).length → F top ≤ F ((top :: rest).getD i 0) := fun i => by
    induction i using Nat.strong_induction_on with
    | _ i ih =>
      intro hi
      rcases Nat.eq_zero_or_pos i with rfl | h0
      · exact le_rfl
      · exact (ih ((i - 1) / 2) (by omega) (by omega)).trans (ho i h0 hi)
  obtain ⟨i, hi, rfl⟩ := List.getElem_of_mem (List.mem_cons_of_mem top hx)
  have hle := hall i hi
  rwa [List.getD_eq_getElem _ _ hi] at hle

/-- On a tie the node extracted first is the left child (R170). -/
theorem mergeOrder_of_le {F : Nat → Nat} {a b : Nat} (h : F a ≤ F b) : mergeOrder F a b = (a, b) := if_neg (not_lt.2 h)

/-- Settles O37: the top is a least entry, so no second one goes to its left. -/
theorem heapLaws : Obligations.HeapLaws := by
  refine fun F n h ho => ⟨⟨heapInsert_ordered ho n, heapInsert_perm F n h⟩, ?_⟩
  rintro top rest rfl
  refine ⟨heapRest_ordered ho, heapRest_perm F rest, fun x hx => ho.top_le hx, fun b rest' hr => ?_⟩
  exact mergeOrder_of_le (ho.top_le (mem_heapRest.1 (hr ▸ List.mem_cons_self)))

/-! ## TBINS (R169) -/

section

variable {s : State}

theorem tbins_of_le (h : Config.nsym s.w ≤ s.a0.toNat) : tbins s = .raise (.badOperand 0) s := by
  rw [tbins, slotOperand_of_le h]

/-- The tail's slot has no leaf without a tail word. -/
theorem tbins_of_noTail (ht : s.a0.toNat = Config.tailIdx s.w) (hv : s.tail.valid = false) :
    tbins s = .raise (.badOperand 2) s := by
  rw [tbins, slotOperand_of_lt (ht.trans_lt (Nat.lt_succ_self _))]
  exact if_pos ⟨ht, hv⟩

/-- Behind the checks of the operand. -/
theorem tbins_of_lt (h : s.a0.toNat < Config.nsym s.w)
    (hv : s.a0.toNat = Config.tailIdx s.w → s.tail.valid = true) :
    tbins s = if s.heap.length = Config.heapCap s.w then .raise (.outOfMemory 2) s else addLeaf s.a0.toNat s := by
  rw [tbins, slotOperand_of_lt h]
  exact if_neg fun ⟨ht, hf⟩ => Bool.false_ne_true (hf.symm.trans (hv ht))

end

/-- Settles O38: the slot, the tail word, the heap and the pool are checked in this order, and then the leaf is added. -/
theorem tbinsAddsLeaf : Obligations.TbinsAddsLeaf := by
  rintro s leaf hleaf
  obtain rfl : leaf = leafOf s s.a0.toNat := hleaf
  refine ⟨fun h => exec_of_raise (i := .tbins) (tbins_of_le h),
    fun ht hv => exec_of_raise (i := .tbins) (tbins_of_noTail ht hv), fun h hv => ⟨fun hfull => ?_, fun hroom => ?_⟩, rfl⟩
  · exact exec_of_raise (i := .tbins) ((tbins_of_lt h hv).trans (if_pos hfull))
  · have hb : tbins s = addLeaf s.a0.toNat s := (tbins_of_lt h hv).trans (if_neg hroom)
    rcases addLeaf_cases s.a0.toNat s with ⟨hfull, e⟩ | ⟨hfree, e⟩
    · exact ⟨fun _ => exec_of_raise (i := .tbins) (hb.trans e), fun hfree => absurd hfull hfree⟩
    · exact ⟨fun hfull => absurd hfull hfree, fun _ => exec_of_ok (i := .tbins) (hb.trans e)⟩

/-! ## NRD (R176) -/

/-- Settles O41: the number is checked, and a listed node is the one shown. -/
theorem nrdShowsNode : Obligations.NrdShowsNode := by
  refine fun s => ⟨fun h => exec_of_raise (i := .nrd) (e := .badOperand 0) (if_pos h), fun n hn => ?_, rfl⟩
  obtain ⟨hlt, -⟩ := List.getElem?_eq_some_iff.1 hn
  have hnode : nodeAt s.nodes s.a0.toNat = n := by rw [nodeAt, List.getD_eq_getElem?_getD, hn, Option.getD_some]
  have hb : nrd s = .ok () (showNode n s) := by rw [nrd, if_neg (not_le.2 hlt), hnode]
  obtain ⟨leaf, wb, len, freq, left, right⟩ := n
  rw [exec_of_ok (i := .nrd) hb]
  cases left <;> cases right <;> rfl

end Sys2Proof.Machine

/-! # Proofs, family "treebuilder": merging the nodes of the heap into one tree (O39) -/

namespace Sys2Proof.Machine

open Sys2Proof

/-! ## The leaves of trees -/

/-- The leaves of a tree are those of its nodes that are leaves. -/
theorem leavesOf_eq_filter (nodes : List Node) (fuel n : Nat) :
    leavesOf nodes fuel n = (nodesUnder nodes fuel n).filter fun m => (nodeAt nodes m).leaf := by
  induction fuel generalizing n with
  | zero => rfl
  | succ fuel ih =>
    unfold leavesOf nodesUnder
    split
    · rename_i hl
      simp [hl]
    · rename_i hl
      split
      · simp [hl, ih]
      · simp [hl]

/-- The leaves of the trees at the roots `l`, by number. -/
def leavesOfAll (nodes : List Node) (l : List Nat) : List Nat := l.flatMap (leavesOf nodes nodes.length)

theorem leavesOfAll_eq_filter (nodes : List Node) (l : List Nat) :
    leavesOfAll nodes l = (nodesOf nodes l).filter fun m => (nodeAt nodes m).leaf := by
  rw [leavesOfAll, nodesOf, List.filter_flatMap]
  exact List.flatMap_congr fun n _ => leavesOf_eq_filter nodes _ n

/-! ## Merged nodes (R170) -/

/-- Node `n` merges two earlier nodes, the left one not the more frequent. -/
def IsMerge (nodes : List Node) (n : Nat) : Prop :=
  ∃ l r, l < n ∧ r < n ∧ nodeAt nodes n = ⟨false, ⟨0, 0⟩, 0, (nodeAt nodes n).freq, some l, some r⟩ ∧
    freqOf nodes n = freqOf nodes l + freqOf nodes r ∧ freqOf nodes l ≤ freqOf nodes r

/-- More nodes do not change a merged one. -/
theorem IsMerge.append {nodes : List Node} {n : Nat} (h : IsMerge nodes n) (hn : n < nodes.length) (more : List Node) :
    IsMerge (nodes ++ more) n := by
  obtain ⟨l, r, hl, hr, hnode, hsum, hle⟩ := h
  refine ⟨l, r, hl, hr, ?_, ?_, ?_⟩
  · rwa [nodeAt_append_left hn]
  · rwa [freqOf_append_left hn, freqOf_append_left (hl.trans hn), freqOf_append_left (hr.trans hn)]
  · rwa [freqOf_append_left (hl.trans hn), freqOf_append_left (hr.trans hn)]

section

variable {nodes : List Node} {a b : Nat}

/-- The frequency of the node a merge adds is that of its two children together, unless it overflows. -/
theorem freqOf_mergedNode (hf : freqOf nodes a + freqOf nodes b < 2 ^ 64) :
    freqOf (nodes ++ [mergedNode nodes a b]) nodes.length = freqOf nodes a + freqOf nodes b := by
  rw [freqOf, nodeAt_append_last]
  exact (BitVec.toNat_ofNat _ _).trans (Nat.mod_eq_of_lt hf)

/-- The children of a merge: the two nodes in one order or the other, the left one not the more frequent. -/
theorem mergeOrder_cases (F : Nat → Nat) (a b : Nat) :
    ∃ l r, mergeOrder F a b = (l, r) ∧ (l = a ∧ r = b ∨ l = b ∧ r = a) ∧ F l ≤ F r := by
  by_cases h : F b < F a
  · exact ⟨b, a, if_pos h, .inr ⟨rfl, rfl⟩, h.le⟩
  · exact ⟨a, b, mergeOrder_of_le (not_lt.1 h), .inl ⟨rfl, rfl⟩, not_lt.1 h⟩

theorem isMerge_mergedNode (ha : a < nodes.length) (hb : b < nodes.length)
    (hf : freqOf nodes a + freqOf nodes b < 2 ^ 64) : IsMerge (nodes ++ [mergedNode nodes a b]) nodes.length := by
  obtain ⟨l, r, e, hlr, hle⟩ := mergeOrder_cases (freqOf nodes) a b
  have hl : l < nodes.length := by omega
  have hr : r < nodes.length := by omega
  have hsum : freqOf nodes a + freqOf nodes b = freqOf nodes l + freqOf nodes r := by
    rcases hlr with ⟨rfl, rfl⟩ | ⟨rfl, rfl⟩
    · rfl
    · exact Nat.add_comm _ _
  refine ⟨l, r, hl, hr, ?_, ?_, ?_⟩
  · rw [nodeAt_append_last, mergedNode, e]
    rfl
  · rw [freqOf_mergedNode hf, hsum, freqOf_append_left hl, freqOf_append_left hr]
  · rwa [freqOf_append_left hl, freqOf_append_left hr]

end

/-! ## One turn of the building loop (R171) -/

/-- The frequencies of the nodes in the heap together. -/
def heapSum (s : State) : Nat := (s.heap.map (freqOf s.nodes)).sum

section

variable {s : State} {a b : Nat} {rest rest' : List Nat}

/-- Two nodes extracted in a row leave the others. -/
theorem heap_perm_extracted (hh : s.heap = a :: rest) (hr : heapRest (freqOf s.nodes) rest = b :: rest') :
    s.heap.Perm (a :: b :: rest') :=
  hh ▸ (hr ▸ heapRest_perm (freqOf s.nodes) rest).symm.cons a

theorem withMerge_heap_perm (s : State) (a b : Nat) (rest' : List Nat) :
    (withMerge s a b rest').heap.Perm (s.nodes.length :: rest') :=
  (heapInsert_perm _ _ _).trans ((heapRest_perm _ rest').cons _)

theorem heapSum_of_perm (hp : s.heap.Perm (a :: b :: rest')) :
    heapSum s = freqOf s.nodes a + freqOf s.nodes b + (rest'.map (freqOf s.nodes)).sum := by
  rw [heapSum, (hp.map _).sum_eq, List.map_cons, List.map_cons, List.sum_cons, List.sum_cons, Nat.add_assoc]

/-- A turn keeps the sum of the frequencies. -/
theorem heapSum_withMerge (h : Inv s) (hp : s.heap.Perm (a :: b :: rest'))
    (hf : freqOf s.nodes a + freqOf s.nodes b < 2 ^ 64) : heapSum (withMerge s a b rest') = heapSum s := by
  have hrest : rest'.map (freqOf (s.nodes ++ [mergedNode s.nodes a b])) = rest'.map (freqOf s.nodes) :=
    List.map_congr_left fun n hn => h.freqOf_append _ n (hp.mem_iff.2 (by simp [hn]))
  rw [heapSum_of_perm hp, heapSum, ((withMerge_heap_perm s a b rest').map _).sum_eq, List.map_cons, List.sum_cons]
  exact congrArg₂ (· + ·) (freqOf_mergedNode hf) (congrArg List.sum hrest)

/-- A turn takes one node off the heap and adds one to the pool. -/
theorem withMerge_lengths (hp : s.heap.Perm (a :: b :: rest')) :
    (withMerge s a b rest').heap.length + 1 = s.heap.length ∧
      (withMerge s a b rest').nodes.length = s.nodes.length + 1 := by
  rw [(withMerge_heap_perm s a b rest').length_eq, hp.length_eq]
  exact ⟨rfl, List.length_append⟩

/-- The nodes of the trees in the heap after a turn: the new one, and those before it. -/
theorem nodesOf_withMerge (h : Inv s) (hp : s.heap.Perm (a :: b :: rest')) :
    (nodesOf (withMerge s a b rest').nodes (withMerge s a b rest').heap).Perm
      (s.nodes.length :: nodesOf s.nodes s.heap) := by
  have hok : ∀ n ∈ a :: b :: rest', treeOk s.nodes s.nodes.length n = true := fun n hn => h.heap n (hp.mem_iff.2 hn)
  refine ((nodesOf_perm _ (withMerge_heap_perm s a b rest')).trans ?_).trans ((nodesOf_perm _ hp).symm.cons _)
  show (nodesOf (s.nodes ++ [mergedNode s.nodes a b]) (s.nodes.length :: rest')).Perm _
  rw [nodesOf_cons, nodesOf_append _ fun n hn => hok n (by simp [hn]), List.length_append, List.length_singleton,
    nodesOf_cons, nodesOf_cons, ← List.append_assoc]
  exact (nodesUnder_merged (hok a (by simp)) (hok b (by simp))).append_right _

/-- A turn keeps the leaves of the trees in the heap. -/
theorem leavesOfAll_withMerge (h : Inv s) (hp : s.heap.Perm (a :: b :: rest')) :
    (leavesOfAll (withMerge s a b rest').nodes (withMerge s a b rest').heap).Perm (leavesOfAll s.nodes s.heap) := by
  rw [leavesOfAll_eq_filter, leavesOfAll_eq_filter]
  refine ((nodesOf_withMerge h hp).filter _).trans (.of_eq ?_)
  show List.filter (fun m => (nodeAt (s.nodes ++ [mergedNode s.nodes a b]) m).leaf) _ = _
  rw [List.filter_cons_of_neg (by rw [nodeAt_append_last]; exact Bool.false_ne_true)]
  refine List.filter_congr fun m hm => ?_
  obtain ⟨n, hn, hm⟩ := List.mem_flatMap.1 hm
  rw [nodeAt_append_left (nodesUnder_lt (h.heap n hn) hm)]

/-- Everything the loop can do from a heap that is not empty: it ends with the last node, it fails at a merge, or it goes
on behind one. -/
theorem buildTree_heap_cases (h : Inv s) (hne : s.heap ≠ []) :
    (∃ r, s.heap = [r] ∧ buildTree s.heap.length s = .ok () { s with heap := [], root := some r }) ∨
      ∃ a b rest', s.heap.Perm (a :: b :: rest') ∧
        ((2 ^ 64 ≤ freqOf s.nodes a + freqOf s.nodes b ∧
            buildTree s.heap.length s = .raise .freqOverflow (freeTree s)) ∨
          (freqOf s.nodes a + freqOf s.nodes b < 2 ^ 64 ∧ s.nodes.length = Config.nodeCap s.w ∧
            buildTree s.heap.length s = .raise (.outOfMemory 1) (freeTree s)) ∨
          (freqOf s.nodes a + freqOf s.nodes b < 2 ^ 64 ∧ s.nodes.length ≠ Config.nodeCap s.w ∧
            Inv (withMerge s a b rest') ∧ buildTree s.heap.length s =
              buildTree (withMerge s a b rest').heap.length (withMerge s a b rest'))) := by
  obtain ⟨fuel, hfuel⟩ : ∃ fuel, s.heap.length = fuel + 1 :=
    Nat.exists_eq_add_one.2 (List.length_pos_iff.2 hne)
  rw [hfuel]
  rcases buildTree_cases fuel s with ⟨e, _⟩ | ⟨r, hr, e⟩ | ⟨a, b, rest, rest', hh, hr, e⟩
  · exact absurd e hne
  · exact .inl ⟨r, hr, e⟩
  · have hp := heap_perm_extracted hh hr
    have hlen := (withMerge_lengths hp).1
    refine .inr ⟨a, b, rest', hp, ?_⟩
    rcases merge_cases a b { s with heap := heapRest (freqOf s.nodes) rest' } with ⟨hf, em⟩ | ⟨hf, hc, em⟩ | ⟨hf, hc, em⟩ <;>
      rw [em] at e
    · exact .inl ⟨hf, e⟩
    · exact .inr (.inl ⟨hf, hc, e⟩)
    · refine .inr (.inr ⟨hf, hc, withMerge_inv h hh hr hf hc, ?_⟩)
      rw [show (withMerge s a b rest').heap.length = fuel by omega]
      exact e

end

/-! ## The whole loop -/

/-- `t` is `s` with the nodes of the heap merged into the one tree at `r` (R171). -/
structure Built (s t : State) (r : Nat) : Prop where
  state : t = { s with nodes := t.nodes, root := some r, heap := [] }
  length : t.nodes.length = s.nodes.length + s.heap.length - 1
  keeps : s.nodes <+: t.nodes
  freq : freqOf t.nodes r = heapSum s
  leaves : (leavesOf t.nodes t.nodes.length r).Perm (leavesOfAll s.nodes s.heap)
  merges : ∀ n, s.nodes.length ≤ n → n < t.nodes.length → IsMerge t.nodes n

/-- A heap of one node is a tree already. -/
theorem Built.one {s : State} {r : Nat} (hr : s.heap = [r]) : Built s { s with heap := [], root := some r } r where
  state := rfl
  length := by rw [hr]; rfl
  keeps := ⟨[], List.append_nil _⟩
  freq := by rw [heapSum, hr]; rfl
  leaves := by rw [leavesOfAll, hr, List.flatMap_singleton]
  merges n h0 h1 := absurd h1 (not_lt.2 h0)

/-- A turn and what is built behind it. -/
theorem Built.turn {s t : State} {a b r : Nat} {rest' : List Nat} (h : Inv s) (hp : s.heap.Perm (a :: b :: rest'))
    (hf : freqOf s.nodes a + freqOf s.nodes b < 2 ^ 64) (ht : Built (withMerge s a b rest') t r) : Built s t r := by
  obtain ⟨hheap, hpool⟩ := withMerge_lengths hp
  refine ⟨ht.state, ?_, List.IsPrefix.trans ⟨[mergedNode s.nodes a b], rfl⟩ ht.keeps, ht.freq.trans (heapSum_withMerge h hp hf),
    ht.leaves.trans (leavesOfAll_withMerge h hp), fun n h0 h1 => ?_⟩
  · have := ht.length
    omega
  · rcases h0.eq_or_lt with rfl | hlt
    · have ha := treeOk_lt (h.heap a (hp.mem_iff.2 (by simp)))
      have hb := treeOk_lt (h.heap b (hp.mem_iff.2 (by simp)))
      obtain ⟨more, hmore⟩ := ht.keeps
      exact hmore ▸ (isMerge_mergedNode ha hb hf).append (by simp) more
    · exact ht.merges n (by omega) h1

/-- How the building loop ends: with an overflow, with a full pool, or with a tree, by the sum of the frequencies and the
room in the pool (R171, R172). -/
structure Builds (s : State) : Prop where
  overflow : 2 ^ 64 ≤ heapSum s → s.nodes.length + s.heap.length - 1 ≤ Config.nodeCap s.w →
    buildTree s.heap.length s = .raise .freqOverflow (freeTree s)
  full : heapSum s < 2 ^ 64 → Config.nodeCap s.w < s.nodes.length + s.heap.length - 1 →
    buildTree s.heap.length s = .raise (.outOfMemory 1) (freeTree s)
  tree : heapSum s < 2 ^ 64 → s.nodes.length + s.heap.length - 1 ≤ Config.nodeCap s.w →
    ∃ t r, buildTree s.heap.length s = .ok () t ∧ Built s t r

/-- A turn changes neither the sum nor the room that decide how the loop ends. -/
theorem Builds.turn {s : State} {a b : Nat} {rest' : List Nat} (h : Inv s) (hp : s.heap.Perm (a :: b :: rest'))
    (hf : freqOf s.nodes a + freqOf s.nodes b < 2 ^ 64)
    (e : buildTree s.heap.length s = buildTree (withMerge s a b rest').heap.length (withMerge s a b rest'))
    (hu : Builds (withMerge s a b rest')) : Builds s := by
  have hsum := heapSum_withMerge h hp hf
  have hroom : (withMerge s a b rest').nodes.length + (withMerge s a b rest').heap.length - 1 =
      s.nodes.length + s.heap.length - 1 := by
    obtain ⟨hheap, hpool⟩ := withMerge_lengths hp
    omega
  obtain ⟨hover, hfull, htree⟩ := hu
  rw [← e, hsum, hroom] at hover hfull htree
  refine ⟨hover, hfull, fun h1 h2 => ?_⟩
  obtain ⟨t, r, ht, hb⟩ := htree h1 h2
  exact ⟨t, r, ht, hb.turn h hp hf⟩

/-- The building loop from a lawful state with a heap that is not empty. -/
theorem buildTree_builds {s : State} (h : Inv s) (hne : s.heap ≠ []) : Builds s := by
  induction hn : s.heap.length using Nat.strong_induction_on generalizing s with
  | _ n ih =>
    rcases buildTree_heap_cases h hne with ⟨r, hr, e⟩ | ⟨a, b, rest', hp, hcases⟩
    · have hsum : heapSum s < 2 ^ 64 := by
        rw [heapSum, hr]
        exact (nodeAt s.nodes r).freq.isLt
      have hcap := h.poolCap
      have hlen : s.heap.length = 1 := by rw [hr]; rfl
      exact ⟨fun h1 => absurd h1 (not_le.2 hsum), fun _ h2 => absurd h2 (by omega), fun _ _ => ⟨_, r, e, .one hr⟩⟩
    · have hsum := heapSum_of_perm hp
      have hlen : s.heap.length = rest'.length + 2 := hp.length_eq
      rcases hcases with ⟨hf, e⟩ | ⟨hf, hc, e⟩ | ⟨hf, hc, hu, e⟩
      · exact ⟨fun _ _ => e, fun h1 => absurd h1 (by omega), fun h1 => absurd h1 (by omega)⟩
      · exact ⟨fun _ h2 => absurd h2 (by omega), fun _ _ => e, fun _ h2 => absurd h2 (by omega)⟩
      · have hlt := (withMerge_lengths hp).1
        exact .turn h hp hf e (ih _ (by omega) hu (List.length_pos_iff.1 (by omega)) rfl)

theorem tbext_of_nil {s : State} (h : s.heap = []) : tbext s = .raise .emptyInput s := if_pos h

theorem tbext_of_ne {s : State} (h : s.heap ≠ []) : tbext s = buildTree s.heap.length s := if_neg h

/-- Settles O39: TBEXT is the building loop from the heap as it stands. -/
theorem tbextMergesHeap : Obligations.TbextMergesHeap := by
  refine fun s h _ => ⟨fun hnil => exec_of_raise (i := .tbext) (tbext_of_nil hnil), fun hne => ?_⟩
  have hb := tbext_of_ne hne
  obtain ⟨hover, hfull, htree⟩ := buildTree_builds h hne
  refine ⟨fun h1 h2 => exec_of_raise (i := .tbext) (hb.trans (hover h1 h2)),
    fun h1 h2 => exec_of_raise (i := .tbext) (hb.trans (hfull h1 h2)), fun h1 h2 => ?_⟩
  obtain ⟨t, r, ht, hbuilt⟩ := htree h1 h2
  exact ⟨endOk t, r, exec_of_ok (i := .tbext) (hb.trans ht), congrArg endOk hbuilt.state, hbuilt.length, hbuilt.keeps,
    hbuilt.freq, hbuilt.leaves, hbuilt.merges⟩

end Sys2Proof.Machine

/-! # Proofs, family "treebuilder": the tree of a histogram (O40) -/

namespace Sys2Proof.Machine

open Sys2Proof

/-! ## The buckets in use (R33) -/

/-- The keys of a canonical table rise. -/
theorem pairwise_lt_of_tableRises {α : Type} {t : List (Nat × α)} {lo : Nat} (h : tableRises lo t = true) :
    (t.map Prod.fst).Pairwise (· < ·) ∧ ∀ k ∈ t.map Prod.fst, lo ≤ k := by
  induction t generalizing lo with
  | nil => exact ⟨.nil, fun k hk => absurd hk List.not_mem_nil⟩
  | cons p rest ih =>
    obtain ⟨j, x⟩ := p
    simp only [tableRises, Bool.and_eq_true, decide_eq_true_eq] at h
    obtain ⟨hrest, hlow⟩ := ih h.2
    exact ⟨List.pairwise_cons.2 ⟨hlow, hrest⟩,
      List.forall_mem_cons.2 ⟨h.1, fun k hk => h.1.trans ((Nat.le_succ j).trans (hlow k hk))⟩⟩

/-- FREQ lists the slots whose bucket is not 0. -/
theorem Inv.mem_usedSlots {s : State} (h : Inv s) (i : Nat) :
    i ∈ s.usedSlots ↔ i < Config.nsym s.w ∧ s.freqAt i ≠ 0 := by
  obtain ⟨hr, hk⟩ := freqOk_iff.1 h.freq
  constructor
  · intro hi
    obtain ⟨⟨i, x⟩, hp, rfl⟩ := List.mem_map.1 hi
    obtain ⟨hlt, hx⟩ := hk _ hp
    refine ⟨hlt, ?_⟩
    rwa [State.freqAt, freqGet, tableGet_of_mem hr hp]
  · rintro ⟨-, hne⟩
    cases hg : tableGet s.freq i with
    | none => exact absurd (by rw [State.freqAt, freqGet, hg]; rfl) hne
    | some x => exact List.mem_map.2 ⟨(i, x), mem_of_tableGet hg, rfl⟩

/-- It lists them in ascending order (log entry 15). -/
theorem Inv.usedSlots_eq {s : State} (h : Inv s) :
    s.usedSlots = (List.range (Config.nsym s.w)).filter (fun i => s.freqAt i ≠ 0) := by
  refine List.Pairwise.eq_of_mem_iff (pairwise_lt_of_tableRises (freqOk_iff.1 h.freq).1).1
    (List.pairwise_lt_range.filter _) fun i => ?_
  rw [List.mem_filter, List.mem_range, decide_eq_true_eq]
  exact h.mem_usedSlots i

/-! ## A pool of leaves -/

theorem leafOf_freq (s : State) (i : Nat) : (leafOf s i).freq = s.freqAt i := by
  unfold leafOf
  split <;> rfl

/-- The frequencies of all nodes of a pool, by number. -/
theorem map_freqOf_range (nodes : List Node) :
    (List.range nodes.length).map (freqOf nodes) = nodes.map fun x => x.freq.toNat := by
  refine List.ext_getElem (by simp) fun n h1 h2 => ?_
  rw [List.length_map] at h2
  rw [List.getElem_map, List.getElem_map, List.getElem_range, freqOf, nodeAt, List.getD_eq_getElem _ _ h2]

/-- In a pool of leaves every tree is a leaf. -/
theorem leavesOfAll_of_leaves {nodes : List Node} {l : List Nat} (hleaf : ∀ x ∈ nodes, x.leaf = true)
    (hl : ∀ n ∈ l, n < nodes.length) : leavesOfAll nodes l = l := by
  refine (List.flatMap_congr fun n hn => ?_).trans (List.flatMap_singleton' l)
  obtain ⟨fuel, hfuel⟩ := Nat.exists_eq_add_one.2 (Nat.zero_lt_of_lt (hl n hn))
  have hn' := hleaf _ (nodeAt_mem (hl n hn))
  rw [hfuel]
  exact leavesOf_leaf fuel hn'

/-! ## The leaves of the buckets (R174) -/

/-- `t` is `s` with the leaves of the slots `is` in the pool and the heap. -/
structure LeavesAdded (is : List Nat) (s t : State) : Prop where
  state : t = { s with nodes := s.nodes ++ is.map (leafOf s), heap := t.heap }
  heap : t.heap.Perm (List.range' s.nodes.length is.length ++ s.heap)

/-- One leaf, and the others behind it. -/
theorem LeavesAdded.cons {i : Nat} {is : List Nat} {s t : State} (h : LeavesAdded is (withLeaf s i) t) :
    LeavesAdded (i :: is) s t := by
  have hpool : (withLeaf s i).nodes ++ is.map (leafOf (withLeaf s i)) = s.nodes ++ (i :: is).map (leafOf s) :=
    List.append_assoc _ [leafOf s i] (is.map (leafOf s))
  have hheap : (withLeaf s i).heap.Perm (s.nodes.length :: s.heap) := heapInsert_perm _ _ _
  have hlen : (withLeaf s i).nodes.length = s.nodes.length + 1 := List.length_append
  obtain ⟨hstate, hperm⟩ := h
  rw [hpool] at hstate
  rw [hlen] at hperm
  exact ⟨hstate, (hperm.trans (hheap.append_left _)).trans List.perm_middle⟩

/-- The leaves are added while the pool has room for them and the tail's slot has a tail word. -/
theorem addLeaves_added (is : List Nat) {s : State} (ht : ∀ i ∈ is, i = s.tailIdx → s.tail.valid = true)
    (hc : s.nodes.length + is.length ≤ Config.nodeCap s.w) : ∃ t, addLeaves is s = .ok () t ∧ LeavesAdded is s t := by
  induction is generalizing s with
  | nil => exact ⟨s, rfl, by rw [List.map_nil, List.append_nil], .refl _⟩
  | cons i is ih =>
    obtain ⟨hi, his⟩ := List.forall_mem_cons.1 ht
    rw [List.length_cons] at hc
    have hlen : (withLeaf s i).nodes.length = s.nodes.length + 1 := List.length_append
    obtain ⟨t, hok, hadded⟩ := ih (s := withLeaf s i) his (show _ ≤ Config.nodeCap s.w by omega)
    refine ⟨t, ?_, hadded.cons⟩
    rw [addLeaves, if_neg fun ⟨e, hv⟩ => Bool.false_ne_true (hv.symm.trans (hi e))]
    rcases addLeaf_cases i s with ⟨hfull, _⟩ | ⟨_, e⟩
    · omega
    · rw [e, Res.bind_ok]
      exact hok

/-- `u` is `s` with one leaf for each bucket in use and nothing else in the pool, all of them in the heap: what TBUILD
makes before it merges. -/
structure Histogrammed (s u : State) : Prop where
  state : u = { s with nodes := s.usedSlots.map (leafOf s), root := none, heap := u.heap }
  heap : u.heap.Perm (List.range s.usedSlots.length)

namespace Histogrammed

variable {s u : State} (h : Histogrammed s u)

include h

theorem nodes : u.nodes = s.usedSlots.map (leafOf s) := congrArg State.nodes h.state

theorem nodes_length : u.nodes.length = s.usedSlots.length := by rw [h.nodes, List.length_map]

theorem heap_length : u.heap.length = s.usedSlots.length := by rw [h.heap.length_eq, List.length_range]

theorem w_eq : u.w = s.w := by rw [h.state]

theorem freeTree_eq : freeTree u = freeTree s := by
  rw [h.state]
  rfl

/-- With every bucket 0 nothing is in the heap. -/
theorem heap_eq_nil : u.heap = [] ↔ s.usedSlots = [] := by
  rw [← List.length_eq_zero_iff, h.heap_length, List.length_eq_zero_iff]

theorem eq_freeTree (hnil : s.usedSlots = []) : u = freeTree s := by
  rw [h.state, h.heap_eq_nil.2 hnil, hnil]
  rfl

theorem heapSum : heapSum u = (s.usedSlots.map fun i => (s.freqAt i).toNat).sum := by
  rw [Machine.heapSum, (h.heap.map _).sum_eq, ← h.nodes_length, map_freqOf_range, h.nodes, List.map_map]
  exact congrArg List.sum (List.map_congr_left fun i _ => congrArg BitVec.toNat (leafOf_freq s i))

theorem leaves : (leavesOfAll u.nodes u.heap).Perm (List.range s.usedSlots.length) := by
  rw [leavesOfAll_of_leaves]
  · exact h.heap
  · rw [h.nodes]
    exact List.forall_mem_map.2 fun i _ => leafOf_leaf s i
  · exact fun n hn => h.nodes_length ▸ List.mem_range.1 (h.heap.mem_iff.1 hn)

end Histogrammed

/-- TBUILD adds the leaves of the buckets in use; the rest of it is TBEXT (R174). -/
theorem tbuild_eq_tbext {s : State} (h : Inv s) : ∃ u, tbuild s = tbext u ∧ Inv u ∧ Histogrammed s u := by
  have hslots := h.usedSlots_length
  have hcap : s.usedSlots.length ≤ Config.nodeCap s.w := by
    unfold Config.nodeCap
    omega
  obtain ⟨u, hok, hstate, hheap⟩ := addLeaves_added s.usedSlots (s := freeTree s)
    (fun i hi ht => h.bucket (ht ▸ ((h.mem_usedSlots i).1 hi).2)) (by simpa using hcap)
  have hinv := addLeaves_inv s.usedSlots h.freeTree (usedSlots_fit h)
  rw [hok] at hinv
  refine ⟨u, ?_, hinv, hstate, ?_⟩
  · rw [tbuild, hok]
    rfl
  · rw [List.range_eq_range']
    simpa using hheap

/-- Settles O40: the pool has room for the internal nodes, so the sum of the buckets alone decides how the loop ends. -/
theorem tbuildBuildsTree : Obligations.TbuildBuildsTree := by
  intro s slots h hslots
  rw [← h.usedSlots_eq] at hslots
  subst hslots
  obtain ⟨u, hb, hu, hist⟩ := tbuild_eq_tbext h
  have hpool := hist.nodes_length
  have hheap := hist.heap_length
  have hroom : u.nodes.length + u.heap.length - 1 ≤ Config.nodeCap u.w := by
    have := h.usedSlots_length
    rw [hist.w_eq, Config.nodeCap]
    omega
  refine ⟨fun hnil => ?_, fun hbig => ?_, fun hne hsmall => ?_⟩
  · rw [tbext_of_nil (hist.heap_eq_nil.2 hnil), hist.eq_freeTree hnil] at hb
    exact exec_of_raise (i := .tbuild) hb
  · have hne : u.heap ≠ [] := fun e => by
      rw [hist.heap_eq_nil.1 e] at hbig
      exact absurd hbig (Nat.two_pow_pos 64).not_ge
    have hover := (buildTree_builds hu hne).overflow (hist.heapSum ▸ hbig) hroom
    rw [hist.freeTree_eq] at hover
    exact exec_of_raise (i := .tbuild) ((hb.trans (tbext_of_ne hne)).trans hover)
  · have hne' : u.heap ≠ [] := mt hist.heap_eq_nil.1 hne
    obtain ⟨t, r, ht, hbuilt⟩ := (buildTree_builds hu hne').tree (hist.heapSum ▸ hsmall) hroom
    obtain ⟨hstate, hlen, hkeeps, hfreq, hleaves, hmerges⟩ := hbuilt
    refine ⟨endOk t, r, exec_of_ok (i := .tbuild) ((hb.trans (tbext_of_ne hne')).trans ht), ?_, ?_, ?_,
      hfreq.trans hist.heapSum, hleaves.trans hist.leaves, fun n hn => hmerges n (hpool.trans_le hn)⟩
    · rw [hist.state] at hstate
      exact congrArg endOk hstate
    · rw [endOk_nodes, hlen]
      omega
    · obtain ⟨more, hmore⟩ := hkeeps
      rw [endOk_nodes, ← hpool, ← hist.nodes, ← hmore, List.take_left]

end Sys2Proof.Machine

/-! # Proofs, family "codes": the table CTBUILD builds (O42)

The walk of CTBUILD stores the codes of the leaves one after the other. A code stored is one more entry of the table, so
a walk that ends without an error leaves the codes of its leaves and the old entries in the table, and it ends with an
error exactly when these have a slot twice. -/

namespace Sys2Proof.Machine

open Sys2Proof

/-! ## Slots of a table -/

section

variable {α : Type}

/-- The keys of a list of entries, in order. -/
def keysOf (t : List (Nat × α)) : List Nat := t.map Prod.fst

@[simp] theorem keysOf_append (t u : List (Nat × α)) : keysOf (t ++ u) = keysOf t ++ keysOf u := List.map_append

theorem keysOf_perm {t u : List (Nat × α)} (h : t.Perm u) : (keysOf t).Perm (keysOf u) := h.map _

/-- A key that reads as nothing is not listed. -/
theorem tableGet_eq_none_iff {t : List (Nat × α)} {k : Nat} : tableGet t k = none ↔ k ∉ keysOf t := by
  induction t with
  | nil => simp [keysOf]
  | cons p rest ih =>
    obtain ⟨j, y⟩ := p
    by_cases hj : j = k
    · simp [tableGet, keysOf, hj]
    · rw [tableGet, if_neg hj, ih]
      simp [keysOf, Ne.symm hj]

/-- A new key makes one more entry, whatever its place. -/
theorem tableSet_perm {t : List (Nat × α)} {k : Nat} (x : α) (h : tableGet t k = none) :
    (tableSet t k x).Perm ((k, x) :: t) := by
  induction t with
  | nil => exact .refl _
  | cons p rest ih =>
    obtain ⟨j, y⟩ := p
    by_cases hj : j = k
    · simp [tableGet, hj] at h
    · rw [tableGet, if_neg hj] at h
      rw [tableSet, if_neg (Ne.symm hj)]
      split
      · exact .refl _
      · exact ((ih h).cons _).trans (.swap _ _ _)

/-- In canonical form, reading a key is listing its entry. -/
theorem tableGet_eq_some_iff {t : List (Nat × α)} {lo k : Nat} {x : α} (h : tableRises lo t = true) :
    tableGet t k = some x ↔ (k, x) ∈ t := ⟨mem_of_tableGet, tableGet_of_mem h⟩

end

/-! ## The leaves of a tree -/

section

variable {nodes : List Node} {n l r : Nat}

theorem leafPaths_leaf (fuel : Nat) (path : Bits) (h : (nodeAt nodes n).leaf = true) :
    leafPaths nodes (fuel + 1) n path = [(nodeAt nodes n, path)] := by simp [leafPaths, h]

theorem leafPaths_inner (fuel : Nat) (path : Bits) (h : (nodeAt nodes n).leaf = false)
    (hl : (nodeAt nodes n).left = some l) (hr : (nodeAt nodes n).right = some r) :
    leafPaths nodes (fuel + 1) n path =
      leafPaths nodes fuel l (path ++ [false]) ++ leafPaths nodes fuel r (path ++ [true]) := by
  simp [leafPaths, h, hl, hr]

end

/-- The code of a leaf that a path leads to, with its slot (R191, R192). -/
def leafCode (w : WordSize) (p : Node × Bits) : Nat × Bits := (slotOf w p.1, p.2)

theorem treeCodes_leaf {s : State} {r : Nat} (h : (nodeAt s.nodes r).leaf = true) :
    treeCodes s r = [leafCode s.w (nodeAt s.nodes r, [false])] := if_pos h

theorem treeCodes_inner {s : State} {r : Nat} (h : (nodeAt s.nodes r).leaf = false) :
    treeCodes s r = (leafPaths s.nodes s.nodes.length r []).map (leafCode s.w) := if_neg (by simp [h])

/-! ## The walk (R191, R194) -/

section

variable {s : State} {fuel n l r : Nat} {pat : Bits}

theorem storeCode_of_none {x : Node} (h : s.codeAt (slotOf s.w x) = none) :
    storeCode x pat s = .ok () { s with code := tableSet s.code (slotOf s.w x) pat } := by simp only [storeCode, h]

theorem storeCode_of_ne_none {x : Node} (h : s.codeAt (slotOf s.w x) ≠ none) :
    storeCode x pat s = .raise (.corruptedTree 7) (clearCodes s) := by
  obtain ⟨p, hp⟩ := Option.ne_none_iff_exists'.1 h
  simp only [storeCode, hp]

theorem codeWalk_leaf (h : (nodeAt s.nodes n).leaf = true) :
    codeWalk (fuel + 1) n pat s = storeCode (nodeAt s.nodes n) pat s := by simp [codeWalk, h]

theorem codeWalk_inner (h : (nodeAt s.nodes n).leaf = false) (hl : (nodeAt s.nodes n).left = some l)
    (hr : (nodeAt s.nodes n).right = some r) :
    codeWalk (fuel + 1) n pat s =
      (codeWalk fuel l (pat ++ [false]) s).bind fun _ t => codeWalk fuel r (pat ++ [true]) t := by
  simp [codeWalk, h, hl, hr]

theorem buildCodes_leaf (hr : s.root = some r) (h : (nodeAt s.nodes r).leaf = true) :
    buildCodes s = storeCode (nodeAt s.nodes r) [false] s := by simp [buildCodes, hr, h]

theorem buildCodes_inner (hr : s.root = some r) (h : (nodeAt s.nodes r).leaf = false) :
    buildCodes s = codeWalk s.nodes.length r [] s := by simp [buildCodes, hr, h]

end

/-- A piece `r` of CTBUILD, run from `s`, puts the codes `cs` into the table beside those there, or ends with
`CorruptedTree(7)` and no code where a slot would have two (R194). -/
structure StoresCodes (cs : List (Nat × Bits)) (s : State) (r : Res State Unit) : Prop where
  ok : (keysOf (cs ++ s.code)).Nodup → ∃ code, r = .ok () { s with code := code } ∧ code.Perm (cs ++ s.code)
  clash : ¬ (keysOf (cs ++ s.code)).Nodup → r = .raise (.corruptedTree 7) (clearCodes s)

/-- Storing one code; `s` lists no slot twice. -/
theorem storeCode_stores (n : Node) (pat : Bits) {s : State} (hs : (keysOf s.code).Nodup) :
    StoresCodes [leafCode s.w (n, pat)] s (storeCode n pat s) := by
  have hkeys : (keysOf ([leafCode s.w (n, pat)] ++ s.code)).Nodup ↔ s.codeAt (slotOf s.w n) = none := by
    rw [State.codeAt, tableGet_eq_none_iff]
    exact List.nodup_cons.trans (and_iff_left hs)
  refine ⟨fun h => ?_, fun h => ?_⟩ <;> rw [hkeys] at h
  · exact ⟨_, storeCode_of_none h, tableSet_perm pat h⟩
  · exact storeCode_of_ne_none h

/-- One piece after another stores the codes of both. -/
theorem StoresCodes.bind {cs ds : List (Nat × Bits)} {s : State} {r : Res State Unit}
    {k : Unit → State → Res State Unit} (hr : StoresCodes cs s r)
    (hk : ∀ code, (keysOf code).Nodup → StoresCodes ds { s with code := code } (k () { s with code := code })) :
    StoresCodes (cs ++ ds) s (r.bind k) := by
  have hperm : (cs ++ ds ++ s.code).Perm (ds ++ (cs ++ s.code)) :=
    List.append_assoc cs ds s.code ▸ List.perm_append_comm_assoc cs ds s.code
  have hkeys := (keysOf_perm hperm).nodup_iff
  by_cases hcs : (keysOf (cs ++ s.code)).Nodup
  · obtain ⟨code, rfl, hcode⟩ := hr.ok hcs
    have hds := hk code ((keysOf_perm hcode).nodup_iff.2 hcs)
    have hall : (ds ++ code).Perm (cs ++ ds ++ s.code) := (hcode.append_left ds).trans hperm.symm
    have hkeys' := (keysOf_perm hall).nodup_iff
    refine ⟨fun h => ?_, fun h => hds.clash (mt hkeys'.1 h)⟩
    obtain ⟨code', he, hcode'⟩ := hds.ok (hkeys'.2 h)
    exact ⟨code', he, hcode'.trans hall⟩
  · rw [hr.clash hcs]
    exact ⟨fun h => absurd (List.Nodup.of_append_right (keysOf_append ds _ ▸ hkeys.1 h)) hcs, fun _ => rfl⟩

/-- The walk from a node stores the paths of its leaves. -/
theorem codeWalk_stores {fuel n : Nat} (pat : Bits) {s : State} (h : treeOk s.nodes fuel n = true)
    (hs : (keysOf s.code).Nodup) :
    StoresCodes ((leafPaths s.nodes fuel n pat).map (leafCode s.w)) s (codeWalk fuel n pat s) := by
  induction fuel generalizing n pat s with
  | zero => cases h
  | succ fuel ih =>
    rcases treeOk_shape h with hleaf | ⟨hinner, l, r, hl, hr, hokl, hokr⟩
    · rw [leafPaths_leaf _ _ hleaf, codeWalk_leaf hleaf]
      exact storeCode_stores _ pat hs
    · rw [leafPaths_inner _ _ hinner hl hr, codeWalk_inner hinner hl hr, List.map_append]
      exact (ih _ hokl hs).bind fun code hcode => ih (s := { s with code := code }) _ hokr hcode

/-- CTBUILD's body on a tree stores the tree's codes. -/
theorem bodyOf_ctbuild_stores {s : State} {r : Nat} (h : Inv s) (hr : s.root = some r) :
    StoresCodes (treeCodes s r) (clearCodes s) (bodyOf .ctbuild s) := by
  have hnil : (keysOf (clearCodes s).code).Nodup := List.nodup_nil
  rw [bodyOf]
  cases hleaf : (nodeAt s.nodes r).leaf with
  | true =>
    rw [treeCodes_leaf hleaf, buildCodes_leaf (s := clearCodes s) hr hleaf]
    exact storeCode_stores _ _ hnil
  | false =>
    rw [treeCodes_inner hleaf, buildCodes_inner (s := clearCodes s) hr hleaf]
    exact codeWalk_stores (s := clearCodes s) [] (h.root r hr) hnil

/-- What a CTBUILD without error leaves: the tree's codes, in the table's order. -/
structure CodesBuilt (s t : State) (r : Nat) : Prop where
  state : t = { s with code := t.code, err := 0, einfo := 0 }
  perm : t.code.Perm (treeCodes s r)
  rises : tableRises 0 t.code = true

theorem CodesBuilt.codeAt_iff {s t : State} {r i : Nat} {p : Bits} (h : CodesBuilt s t r) :
    t.codeAt i = some p ↔ (i, p) ∈ treeCodes s r := (tableGet_eq_some_iff h.rises).trans h.perm.mem_iff

/-- CTBUILD on a tree whose leaves have different slots (R191). -/
theorem exec_ctbuild_of_nodup {s : State} {r : Nat} (h : Inv s) (hr : s.root = some r)
    (hn : (keysOf (treeCodes s r)).Nodup) : ∃ t, exec .ctbuild s = .next t ∧ CodesBuilt s t r := by
  have hstores := bodyOf_ctbuild_stores h hr
  obtain ⟨code, hb, hperm⟩ := hstores.ok (by rwa [clearCodes_code, List.append_nil])
  rw [clearCodes_code, List.append_nil] at hperm
  have hinv : (bodyOf .ctbuild s).leaves Inv := buildCodes_inv h.clearCodes
  rw [hb] at hinv
  exact ⟨_, exec_of_ok hb, rfl, hperm, (codeOk_iff.1 (Inv.code hinv)).1⟩

/-- CTBUILD on a tree with two leaves of one slot (R194). -/
theorem exec_ctbuild_of_not_nodup {s : State} {r : Nat} (h : Inv s) (hr : s.root = some r)
    (hn : ¬ (keysOf (treeCodes s r)).Nodup) : exec .ctbuild s = .next (failed { s with code := [] } 3 7) :=
  exec_of_raise (e := .corruptedTree 7)
    ((bodyOf_ctbuild_stores h hr).clash (by rwa [clearCodes_code, List.append_nil]))

/-- Settles O42: the walk stores the tree's codes, or meets a slot twice. -/
theorem ctbuildGivesPaths : Obligations.CtbuildGivesPaths := by
  intro s h
  refine ⟨fun hr => ?_, fun r hr => ⟨exec_ctbuild_of_not_nodup h hr, fun hn => ?_⟩⟩
  · have hb : bodyOf .ctbuild s = .raise .emptyInput (clearCodes s) := by
      rw [bodyOf, buildCodes, clearCodes_root, hr]
    exact exec_of_raise hb
  · obtain ⟨t, ht, hbuilt⟩ := exec_ctbuild_of_nodup h hr hn
    exact ⟨t, ht, hbuilt.state, fun _ _ => hbuilt.codeAt_iff⟩

end Sys2Proof.Machine

/-! # Proofs, family "codes": no code begins another, and no bit sequence is left over (O44) -/

namespace Sys2Proof.Machine

open Sys2Proof

/-! ## Walks along a bit sequence (R223) -/

/-- A walk along two sequences, one after the other. -/
theorem walkBits_append (nodes : List Node) (root cur : Nat) (p q : Bits) :
    walkBits nodes root cur (p ++ q) =
      (walkBits nodes root cur p).bind fun a => (walkBits nodes root a.2 q).map fun b => (a.1 ++ b.1, b.2) := by
  induction p generalizing cur with
  | nil => simp [walkBits]
  | cons b p ih =>
    rw [List.cons_append, walkBits, walkBits]
    cases walkStep nodes root cur b with
    | fail _ => rfl
    | goto nx => exact ih nx
    | emit leaf =>
      simp only [ih root]
      cases walkBits nodes root root p with
      | none => rfl
      | some a =>
        simp only [Option.bind_some, Option.map_some, Option.map_map]
        rfl

/-- A walk from the root along `path` that meets no leaf before it comes to node `n`: it has emitted `n` and is back at the
root if `n` is a leaf, and stands at `n` otherwise. -/
def WalksTo (nodes : List Node) (root : Nat) (path : Bits) (n : Nat) : Prop :=
  walkBits nodes root root path = some (if (nodeAt nodes n).leaf then ([n], root) else ([], n))

section

variable {nodes : List Node} {root : Nat}

theorem WalksTo.leaf {path : Bits} {n : Nat} (h : WalksTo nodes root path n) (hn : (nodeAt nodes n).leaf = true) :
    walkBits nodes root root path = some ([n], root) := Eq.trans h (by rw [if_pos hn])

/-- The walk goes on from an internal node to the child the next bit names. -/
theorem WalksTo.child {path : Bits} {n c : Nat} {b : Bool} (hroot : (nodeAt nodes root).leaf = false)
    (h : WalksTo nodes root path n) (hn : (nodeAt nodes n).leaf = false)
    (hc : (if b then (nodeAt nodes n).right else (nodeAt nodes n).left) = some c) :
    WalksTo nodes root (path ++ [b]) c := by
  have hstep : walkStep nodes root n b = if (nodeAt nodes c).leaf then .emit c else .goto c := by
    simp [walkStep, hroot, hc]
  have hat : walkBits nodes root root path = some ([], n) := Eq.trans h (by simp [hn])
  rw [WalksTo, walkBits_append, hat, Option.bind_some, walkBits, hstep]
  cases (nodeAt nodes c).leaf <;> rfl

/-- The path of every leaf under a node that the walk comes to is a walk to that leaf. -/
theorem WalksTo.of_mem_leafPaths {fuel n : Nat} {path : Bits} (hroot : (nodeAt nodes root).leaf = false)
    (h : treeOk nodes fuel n = true) (hw : WalksTo nodes root path n) {x : Node} {p : Bits}
    (hx : (x, p) ∈ leafPaths nodes fuel n path) :
    ∃ m, nodeAt nodes m = x ∧ x.leaf = true ∧ WalksTo nodes root p m := by
  induction fuel generalizing n path with
  | zero => cases h
  | succ fuel ih =>
    rcases treeOk_shape h with hleaf | ⟨hinner, l, r, hl, hr, hokl, hokr⟩
    · rw [leafPaths_leaf _ _ hleaf, List.mem_singleton] at hx
      cases hx
      exact ⟨n, rfl, hleaf, hw⟩
    · rw [leafPaths_inner _ _ hinner hl hr, List.mem_append] at hx
      rcases hx with hx | hx
      · exact ih hokl (hw.child (b := false) hroot hinner hl) hx
      · exact ih hokr (hw.child (b := true) hroot hinner hr) hx

/-- No walk to a leaf is the beginning of a walk to another leaf. -/
theorem WalksTo.eq_of_isPrefix {p q : Bits} {m n : Nat} (hp : WalksTo nodes root p m) (hm : (nodeAt nodes m).leaf = true)
    (hq : WalksTo nodes root q n) (hn : (nodeAt nodes n).leaf = true) (hpq : p <+: q) : m = n := by
  obtain ⟨u, rfl⟩ := hpq
  have hwalk := hq.leaf hn
  rw [walkBits_append, hp.leaf hm, Option.bind_some, Option.map_eq_some_iff] at hwalk
  obtain ⟨_, _, hmn⟩ := hwalk
  exact (List.cons.inj (Prod.mk.inj hmn).1).1

end

/-! ## The sum of the codes (R195) -/

/-- The part `2^(-LEN)` of all bit sequences that begin with a code. -/
def codeWeight (p : Bits) : ℚ := (1 / 2) ^ p.length

/-- A bit sequence weighs as much as its two continuations by one bit. -/
theorem codeWeight_split (p : Bits) : codeWeight (p ++ [false]) + codeWeight (p ++ [true]) = codeWeight p := by
  simp only [codeWeight, List.length_append, List.length_singleton, pow_succ]
  ring

/-- The paths of the leaves under a node weigh as much as the path to the node. -/
theorem sum_codeWeight_leafPaths {nodes : List Node} {fuel n : Nat} (path : Bits) (h : treeOk nodes fuel n = true) :
    ((leafPaths nodes fuel n path).map fun x => codeWeight x.2).sum = codeWeight path := by
  induction fuel generalizing n path with
  | zero => cases h
  | succ fuel ih =>
    rcases treeOk_shape h with hleaf | ⟨hinner, l, r, hl, hr, hokl, hokr⟩
    · rw [leafPaths_leaf _ _ hleaf, List.map_singleton, List.sum_singleton]
    · rw [leafPaths_inner _ _ hinner hl hr, List.map_append, List.sum_append, ih _ hokl, ih _ hokr, codeWeight_split]

/-! ## The codes of a tree -/

section

variable {s : State} {r : Nat}

theorem sum_codeWeight_treeCodes (h : treeOk s.nodes s.nodes.length r = true) (hr : (nodeAt s.nodes r).leaf = false) :
    ((treeCodes s r).map fun c => codeWeight c.2).sum = 1 := by
  rw [treeCodes_inner hr, List.map_map]
  exact (sum_codeWeight_leafPaths [] h).trans (pow_zero _)

/-- Every code of a tree with an internal root is a walk to a leaf of its slot. -/
theorem walksTo_of_mem_treeCodes (h : treeOk s.nodes s.nodes.length r = true) (hr : (nodeAt s.nodes r).leaf = false)
    {i : Nat} {p : Bits} (hp : (i, p) ∈ treeCodes s r) :
    ∃ n, WalksTo s.nodes r p n ∧ (nodeAt s.nodes n).leaf = true ∧ slotOf s.w (nodeAt s.nodes n) = i := by
  rw [treeCodes_inner hr, List.mem_map] at hp
  obtain ⟨⟨x, q⟩, hx, he⟩ := hp
  obtain ⟨rfl, rfl⟩ := Prod.mk.inj he
  have hstart : WalksTo s.nodes r [] r := by rw [WalksTo, hr]; rfl
  obtain ⟨n, rfl, hleaf, hw⟩ := hstart.of_mem_leafPaths hr h hx
  exact ⟨n, hw, hleaf, rfl⟩

end

/-- A CTBUILD that ends without error has built the codes of the tree. -/
theorem codesBuilt_of_exec {s t : State} {r : Nat} (h : Inv s) (hr : s.root = some r) (ht : exec .ctbuild s = .next t)
    (he : t.err = 0) : CodesBuilt s t r := by
  by_cases hn : (keysOf (treeCodes s r)).Nodup
  · obtain ⟨u, hu, hbuilt⟩ := exec_ctbuild_of_nodup h hr hn
    cases ht.symm.trans hu
    exact hbuilt
  · cases ht.symm.trans (exec_ctbuild_of_not_nodup h hr hn)
    exact absurd he (by simp [failed])

/-- Settles O44: the codes are the paths to the leaves of a full tree, and a walk stops at the first leaf it meets. -/
theorem prefixFree : Obligations.PrefixFree := by
  intro s t r h hr ht he
  have hbuilt := codesBuilt_of_exec h hr ht he
  refine ⟨fun hleaf i p => ?_, fun hinner => ?_⟩
  · rw [hbuilt.codeAt_iff, treeCodes_leaf hleaf, List.mem_singleton]
    exact Prod.mk_inj
  · have hwalk (i : Nat) (p : Bits) (hp : t.codeAt i = some p) :=
      walksTo_of_mem_treeCodes (h.root r hr) hinner (hbuilt.codeAt_iff.1 hp)
    refine ⟨fun i j p q hp hq hij hpq => ?_, ?_, fun i p hp => ?_⟩
    · obtain ⟨m, hm, hmleaf, rfl⟩ := hwalk i p hp
      obtain ⟨n, hn, hnleaf, rfl⟩ := hwalk j q hq
      exact hij (by rw [hm.eq_of_isPrefix hmleaf hn hnleaf hpq])
    · exact (hbuilt.perm.map _).sum_eq.trans (sum_codeWeight_treeCodes (h.root r hr) hinner)
    · obtain ⟨n, hn, hleaf, hslot⟩ := hwalk i p hp
      exact ⟨n, hn.leaf hleaf, hleaf, hslot⟩

end Sys2Proof.Machine

/-! # Proofs, family "codes": CTRD (O43) -/

namespace Sys2Proof.Machine

open Sys2Proof

section

variable {s : State}

theorem ctrd_of_le (h : Config.nsym s.w ≤ s.a0.toNat) : ctrd s = .raise (.badOperand 0) s := by
  rw [ctrd, slotOperand_of_le h]

theorem ctrd_of_none (h : s.a0.toNat < Config.nsym s.w) (hc : s.codeAt s.a0.toNat = none) :
    ctrd s = .ok () { s with a0 := 0, a1 := 0 } := by
  simp only [ctrd, slotOperand_of_lt h, hc]

/-- CTRD of a slot with a code: its length, its window's length, and the window in DB. -/
theorem ctrd_of_some {pat win : Bits} (h : s.a0.toNat < Config.nsym s.w) (hc : s.codeAt s.a0.toNat = some pat)
    (hlen : pat.length < 2 ^ 64) (hwin : win = codeWindow s.env.par.dbBytes pat s.a1.toNat)
    (hw : win.length < 2 ^ 64) :
    ctrd s = .ok () { s with
      db := setBits s.db 0 win, a0 := BitVec.ofNat 64 pat.length, a1 := BitVec.ofNat 64 win.length } := by
  subst hwin
  simp only [ctrd, slotOperand_of_lt h, hc, resultReg_of_lt hlen, resultReg_of_lt hw]

end

theorem codeWindow_length (size : Nat) (pat : Bits) (off : Nat) :
    (codeWindow size pat off).length = min (8 * size) (pat.length - off) := by
  rw [codeWindow, List.length_take, List.length_drop]

/-- The bits of the window are those of the code from the offset on. -/
theorem codeWindow_getD {size : Nat} {pat : Bits} {off j : Nat} (h : j < (codeWindow size pat off).length) :
    (codeWindow size pat off).getD j false = pat.getD (off + j) false := by
  rw [codeWindow_length] at h
  rw [codeWindow, List.getD_eq_getElem?_getD, List.getElem?_take_of_lt (lt_min_iff.1 h).1, List.getElem?_drop,
    List.getD_eq_getElem?_getD]

/-- Settles O43: the window begins at buffer bit 0 and is no longer than DB. -/
theorem ctrdReadsCode : Obligations.CtrdReadsCode := by
  intro s hinv
  refine ⟨fun h => exec_of_raise (i := .ctrd) (ctrd_of_le h), fun h hc => exec_of_ok (i := .ctrd) (ctrd_of_none h hc),
    fun pat n h hc hlen hn => ?_, rfl⟩
  obtain ⟨win, hwin⟩ : ∃ win, win = codeWindow s.env.par.dbBytes pat s.a1.toNat := ⟨_, rfl⟩
  have hwlen : win.length = min (8 * s.env.par.dbBytes) (pat.length - s.a1.toNat) := by rw [hwin, codeWindow_length]
  obtain rfl : n = win.length := by
    rw [hn, hwlen]
    split <;> omega
  refine ⟨_, exec_of_ok (i := .ctrd) (ctrd_of_some h hc hlen hwin (by omega)), rfl, setBits_length _ _ _, fun j => ?_⟩
  have hfits : 0 + win.length ≤ 8 * s.db.length := by
    rw [hinv.db]
    omega
  refine (bufbit_setBits s.db 0 j win hfits).trans ?_
  simp only [Nat.zero_le, true_and, Nat.zero_add, Nat.sub_zero]
  exact if_ctx_congr Iff.rfl (fun hj => by subst hwin; exact codeWindow_getD hj) fun _ => rfl

end Sys2Proof.Machine

/-! # Proofs, family "treecodec": TWRITE appends the stream of the tree at ROOT (O45) -/

namespace Sys2Proof.Machine

open Sys2Proof

/-- What a ready cursor is to write has a length that fits a register. -/
theorem Writable.length_lt {s : State} {k : Fin Config.curSlots} {n : Nat} (hw : Writable s k n) : n < 2 ^ 64 := by
  obtain ⟨_, _, _, _, hmax⟩ := Params.bounds hw.inv.params
  have hfits := hw.fits
  omega

/-- Settles O45: behind its checks TWRITE writes one run of bits, the stream of the tree. -/
theorem twriteAppendsTree : Obligations.TwriteAppendsTree := by
  intro s ca k hk
  have hb : bodyOf (.twrite ca) s = twrite k s := oneCursor_some hk _ _
  refine ⟨fun ho hm hr => exec_of_raise (e := .emptyInput) (hb.trans ?_), ?_⟩
  · rw [twrite, curCheck_ok ho hm, Res.bind_ok]
    simp only [hr]
  · rintro r bits hr rfl hw
    obtain ⟨t, he, hstep, hst, _⟩ := onChan_write _ hw
    obtain ⟨ch, rfl⟩ : ∃ ch, t = s.putChan k ch := ⟨_, hstep.eq⟩
    rw [twrite_eq hw.inv hw.openFor hr, he, Res.bind_ok, resultReg_of_lt hw.length_lt] at hb
    exact ⟨_, exec_of_ok hb, rfl, hstep.onlyCursor.congr rfl, hst.congr rfl rfl⟩

end Sys2Proof.Machine

/-! # Proofs, family "treecodec": what TREAD does with the stream of a tree

A piece of TREAD either succeeds, having taken some bits (`Res.took`), or ends the command with an error and frees the
tree, having taken some bits (`Res.stops`). One induction over a code tree says what `ReadNode` makes of its whole
stream, a second one carries an error at one node of it to the end of TREAD.

The lemmas for O19 read through a cursor with a limit, and ask that the stream goes on beyond it. Here no access fails,
and the stream may end anywhere. -/

namespace Sys2Proof.Machine

open Sys2Proof

/-! ## Bits taken by a piece of TREAD -/

/-- From `s` to `t` cursor `k` has taken `n` bits; beside the cursor and the environment, only the tree has changed. -/
structure TreeTook (k : Fin Config.curSlots) (s : State) (n : Nat) (t : State) : Prop where
  step : CursorStep k (freeTree s) (freeTree t)
  delivered : Delivered (freeTree s) (freeTree t) k n

section

variable {s t u : State} {k : Fin Config.curSlots} {n m : Nat}

/-- A change of the tree takes no bit. -/
theorem TreeTook.of_freeTree (h : freeTree t = freeTree s) : TreeTook k s 0 t := by
  refine ⟨by rw [h]; exact CursorStep.refl k _, ?_⟩
  rw [h]
  exact ⟨rfl, by rw [Nat.zero_min, Nat.add_zero], fun _ _ => rfl, rfl⟩

theorem TreeTook.trans (h : TreeTook k s n t) (h' : TreeTook k t m u) : TreeTook k s (n + m) u :=
  ⟨h.step.trans h'.step, h.delivered.trans h'.delivered⟩

theorem TreeTook.pending (h : TreeTook k s n t) : pending (t.chan k) = (Machine.pending (s.chan k)).drop n :=
  h.delivered.pending

/-- What is still pending after the first bits are taken. -/
theorem TreeTook.pending_append {a b : Bits} (h : TreeTook k s a.length t) (hp : Machine.pending (s.chan k) = a ++ b) :
    Machine.pending (t.chan k) = b := by rw [h.pending, hp, List.drop_left]

theorem TreeTook.w_eq (h : TreeTook k s n t) : t.w = s.w := (congrArg State.w h.step.eq : (freeTree t).w = _)

/-- What TREAD may change so far (R208). -/
theorem TreeTook.eq (h : TreeTook k s n t) :
    t = { s with nodes := t.nodes, root := t.root, heap := t.heap, cursors := t.cursors, env := t.env } := by
  have ht := eq_of_freeTree (s := s.putChan k (t.chan k)) (t := t) h.step.eq
  have hcursors := congrArg State.cursors h.step.eq
  have henv := congrArg State.env h.step.eq
  rw [freeTree_cursors] at hcursors
  rw [freeTree_env] at henv
  conv_lhs => rw [ht]
  rw [hcursors, henv]
  rfl

theorem TreeTook.onlyCursor (h : TreeTook k s n t) : OnlyCursor s t k := by
  obtain ⟨hothers, hopen, hmode, hfid, hbufsz⟩ := h.step.onlyCursor
  exact ⟨hothers, hopen, hmode, hfid, hbufsz⟩

/-- What is delivered does not depend on the tree. -/
theorem TreeTook.deliveredBits (h : TreeTook k s n t) : Delivered s t k n := by
  obtain ⟨hpending, hpos, hbytes, hfiles⟩ := h.delivered
  exact ⟨hpending, hpos, hbytes, hfiles⟩

/-- The cursor stays ready. -/
theorem TreeTook.readable (h : TreeTook k s n t) (hr : Readable (freeTree s) k) : Readable (freeTree t) k :=
  hr.step h.step

end

/-! ## Pieces that succeed and pieces that fail -/

section

variable {α β : Type} {s t : State} {k : Fin Config.curSlots} {n m : Nat} {e : Err}

/-- A piece that takes `n` bits and answers what `P` says. -/
def Res.took (k : Fin Config.curSlots) (s : State) (n : Nat) (P : α → State → Prop) (r : Res State α) : Prop :=
  ∃ a t, r = .ok a t ∧ TreeTook k s n t ∧ P a t

/-- A piece that takes `n` bits, then raises `e` and frees the tree. -/
def Res.stops (k : Fin Config.curSlots) (s : State) (n : Nat) (e : Err) (r : Res State α) : Prop :=
  ∃ t, r = .raise e (freeTree t) ∧ TreeTook k s n t

/-- A piece that succeeds and then one that succeeds: their bits add up. -/
theorem Res.took_bind {P : α → State → Prop} {Q : β → State → Prop} {r : Res State α} {f : α → State → Res State β}
    (hr : r.took k s n P) (hf : ∀ a t, TreeTook k s n t → P a t → (f a t).took k t m Q) :
    (r.bind f).took k s (n + m) Q := by
  obtain ⟨a, t, rfl, ht, ha⟩ := hr
  obtain ⟨b, u, hb, hu, hq⟩ := hf a t ht ha
  exact ⟨b, u, hb, ht.trans hu, hq⟩

/-- A piece that succeeds and then what takes no bit and changes the tree at most. -/
theorem Res.took_map {P : α → State → Prop} {Q : β → State → Prop} {r : Res State α} {f : α → State → β}
    {g : α → State → State} (hr : r.took k s n P)
    (hf : ∀ a t, P a t → freeTree (g a t) = freeTree t ∧ Q (f a t) (g a t)) :
    (r.bind fun a t => .ok (f a t) (g a t)).took k s n Q :=
  Res.took_bind (m := 0) hr fun a t _ ha => ⟨_, _, rfl, TreeTook.of_freeTree (hf a t ha).1, (hf a t ha).2⟩

/-- A piece that succeeds and then one that fails. -/
theorem Res.took_bind_stops {P : α → State → Prop} {r : Res State α} {f : α → State → Res State β}
    (hr : r.took k s n P) (hf : ∀ a t, TreeTook k s n t → P a t → (f a t).stops k t m e) :
    (r.bind f).stops k s (n + m) e := by
  obtain ⟨a, t, rfl, ht, ha⟩ := hr
  obtain ⟨u, hu, htu⟩ := hf a t ht ha
  exact ⟨u, hu, ht.trans htu⟩

/-- What follows a piece that fails is not run (R270). -/
theorem Res.stops_bind {r : Res State α} (hr : r.stops k s n e) (f : α → State → Res State β) :
    (r.bind f).stops k s n e := by
  obtain ⟨t, rfl, ht⟩ := hr
  exact ⟨t, rfl, ht⟩

/-- The bits taken before a piece count as well. -/
theorem TreeTook.took {P : α → State → Prop} {r : Res State α} (h : TreeTook k s n t) (hr : r.took k t m P) :
    r.took k s (n + m) P := by
  obtain ⟨a, u, rfl, hu, ha⟩ := hr
  exact ⟨a, u, rfl, h.trans hu, ha⟩

theorem TreeTook.stops {r : Res State α} (h : TreeTook k s n t) (hr : r.stops k t m e) : r.stops k s (n + m) e := by
  obtain ⟨u, rfl, hu⟩ := hr
  exact ⟨u, rfl, h.trans hu⟩

end

/-! ## Fields (R209) -/

section

variable {s : State} {k : Fin Config.curSlots} {D cnt n : Nat}

/-- `ReadBits` inside TREAD through a ready cursor. -/
theorem readOrFree_took (hr : Readable (freeTree s) k) (n : Nat) :
    (readOrFree k n s).took k s n fun bits t => bits = (pending (s.chan k)).take n ∧ t.nodes = s.nodes := by
  obtain ⟨t, he, hstep, hdel⟩ := onChan_read hr n
  obtain ⟨ch, hch, rfl⟩ := onChan_eq_ok.1 he
  rw [freeTree_chan] at hch
  refine ⟨_, s.putChan k ch, ?_, ⟨hstep, hdel⟩, rfl, rfl⟩
  rw [readOrFree, onChan_of_ok hch]

/-- A field within the declared size that the stream holds whole. -/
theorem need_took {field rest : Bits} (hr : Readable (freeTree s) k) (hp : pending (s.chan k) = field ++ rest)
    (hn : field.length = n) (hD : cnt + n ≤ D) :
    (need k D cnt n s).took k s n fun bits t => bits = field ∧ t.nodes = s.nodes := by
  obtain ⟨bits, t, he, ht, hbits, hnodes⟩ := readOrFree_took hr n
  rw [hp, ← hn, List.take_left] at hbits
  refine ⟨bits, t, ?_, ht, hbits, hnodes⟩
  rw [need, if_neg (not_lt.2 hD), he, Res.bind_ok, if_neg (by rw [hbits]; omega)]

/-- A field beyond the declared size is not read. -/
theorem need_beyond (s : State) (hD : D < cnt + n) : (need k D cnt n s).stops k s 0 (.corruptedTree 1) :=
  ⟨s, if_pos hD, TreeTook.of_freeTree rfl⟩

/-- A field within the declared size that the stream does not hold whole. -/
theorem need_cutOff (hr : Readable (freeTree s) k) (hn : (pending (s.chan k)).length < n) (hD : cnt + n ≤ D) :
    (need k D cnt n s).stops k s (pending (s.chan k)).length (.unexpectedEof cnt) := by
  obtain ⟨bits, t, he, ht, hbits, _⟩ := readOrFree_took hr n
  refine ⟨t, ?_, ht.step, ht.delivered.all (le_of_lt hn)⟩
  rw [need, if_neg (not_lt.2 hD), he, Res.bind_ok, if_pos (by rw [hbits, List.length_take]; omega)]

end

/-! ## Leaves (R209) -/

/-- The fields of a leaf after its state bit (R101): the flag, the length of a word that is not a full one, the word. -/
def leafFields (w : WordSize) (word : Bits) : List Bits :=
  if word.length = Config.wbits w then [[false], word] else [[true], uintbits Config.lenf word.length, word]

theorem PrefixTree.nodeFields_leaf (w : WordSize) (word : Bits) :
    (PrefixTree.leaf word).nodeFields w = [[true] :: leafFields w word] := by
  unfold PrefixTree.nodeFields leafFields
  split <;> rfl

/-- A field of a leaf, and those before it: the flag, the length of a word that is not a full one, or the word. -/
theorem leafFields_cases {w : WordSize} {word field : Bits} {done more : List Bits}
    (h : leafFields w word = done ++ field :: more) :
    (done = [] ∧ field.length = 1) ∨
      (word.length ≠ Config.wbits w ∧ done = [[true]] ∧ field = uintbits Config.lenf word.length) ∨
      (done.flatten = leafHead w word.length ∧ field = word) := by
  unfold leafFields at h
  unfold leafHead
  split at h
  · rcases done with _ | ⟨a, _ | ⟨b, done⟩⟩
    · obtain ⟨rfl, _⟩ := List.cons.inj h
      exact .inl ⟨rfl, rfl⟩
    · obtain ⟨rfl, rfl, _⟩ := by simpa using h
      exact .inr (.inr (by simp [*]))
    · simp at h
  · rcases done with _ | ⟨a, _ | ⟨b, _ | ⟨c, done⟩⟩⟩
    · obtain ⟨rfl, _⟩ := List.cons.inj h
      exact .inl ⟨rfl, rfl⟩
    · obtain ⟨rfl, rfl, _⟩ := by simpa using h
      exact .inr (.inl (by simp [*]))
    · obtain ⟨rfl, rfl, rfl, _⟩ := by simpa using h
      exact .inr (.inr (by simp [*]))
    · simp at h

section

variable {s : State} {k : Fin Config.curSlots} {w : WordSize} {D cnt m : Nat} {e : Err} {rest : Bits}

/-- The flag and the length field of a word that differs; a length of `WBITS` or more is refused. -/
theorem readLeafLen_field {len : Nat} (hr : Readable (freeTree s) k) (hlen : len < 2 ^ Config.lenf)
    (hp : pending (s.chan k) = true :: uintbits Config.lenf len ++ rest) (hD : cnt + (1 + Config.lenf) ≤ D) :
    ∃ t, TreeTook k s (1 + Config.lenf) t ∧ t.nodes = s.nodes ∧
      readLeafLen k D cnt s = if Config.wbits s.w ≤ len then .raise (.corruptedTree 2) (freeTree t)
        else .ok (len, cnt + (1 + Config.lenf)) t := by
  obtain ⟨_, t, e1, ht, rfl, hn⟩ := need_took (field := [true]) (n := 1) hr hp rfl (show cnt + 1 ≤ D by omega)
  have hpt : pending (t.chan k) = uintbits Config.lenf len ++ rest := ht.pending_append (a := [true]) hp
  obtain ⟨_, u, e2, hu, rfl, hn'⟩ :=
    need_took (ht.readable hr) hpt (uintbits_length _ _) (show cnt + 1 + Config.lenf ≤ D by omega)
  refine ⟨u, ht.trans hu, hn'.trans hn, ?_⟩
  have hw : u.wbits = Config.wbits s.w := congrArg Config.wbits (hu.w_eq.trans ht.w_eq)
  rw [readLeafLen, e1, Res.bind_ok, if_neg (by simp), e2, Res.bind_ok, bitsuint_uintbits hlen, hw, Nat.add_assoc]

/-- The flag and the length of a leaf's word. -/
theorem readLeafLen_took {len : Nat} (hr : Readable (freeTree s) k) (hlen : len ≤ Config.wbits s.w)
    (hp : pending (s.chan k) = leafHead s.w len ++ rest) (hD : cnt + (leafHead s.w len).length ≤ D) :
    (readLeafLen k D cnt s).took k s (leafHead s.w len).length fun r t =>
      r = (len, cnt + (leafHead s.w len).length) ∧ t.nodes = s.nodes := by
  unfold leafHead at hp hD ⊢
  by_cases hfull : len = Config.wbits s.w
  · rw [if_pos hfull] at hp hD ⊢
    obtain ⟨_, t, e1, ht, rfl, hn⟩ := need_took (n := 1) hr hp rfl hD
    refine ⟨(len, cnt + 1), t, ?_, ht, rfl, hn⟩
    rw [readLeafLen, e1, Res.bind_ok, if_pos rfl, hfull, ← ht.w_eq]
    rfl
  · rw [if_neg hfull] at hp hD ⊢
    rw [List.length_cons, uintbits_length, Nat.add_comm Config.lenf] at hD ⊢
    have hlt : len < 2 ^ Config.lenf := Nat.lt_of_le_of_lt (hlen.trans (wbits_le s.w)) (by decide)
    obtain ⟨t, ht, hn, e⟩ := readLeafLen_field hr hlt hp hD
    rw [if_neg (by omega)] at e
    exact ⟨_, t, e, ht, rfl, hn⟩

/-- A leaf after its state bit. -/
theorem readLeaf_took {word : Bits} (hr : Readable (freeTree s) k) (hlen : word.length ≤ Config.wbits s.w)
    (hp : pending (s.chan k) = leafHead s.w word.length ++ (word ++ rest))
    (hD : cnt + (leafHead s.w word.length ++ word).length ≤ D) :
    (readLeaf k D cnt s).took k s (leafHead s.w word.length ++ word).length fun r t =>
      r = (word, cnt + (leafHead s.w word.length ++ word).length) ∧ t.nodes = s.nodes := by
  rw [List.length_append] at hD ⊢
  refine Res.took_bind (readLeafLen_took hr hlen hp (by omega)) fun r t ht ⟨hr', hn⟩ => ?_
  subst hr'
  refine Res.took_map (need_took (ht.readable hr) (ht.pending_append hp) rfl (by omega)) fun bits u ⟨hb, hn'⟩ => ?_
  exact ⟨rfl, by rw [hb, Nat.add_assoc], hn'.trans hn⟩

/-- A leaf whose field `field` is refused, the fields before it being there. -/
theorem readLeaf_stops {word field : Bits} {done more : List Bits} (hr : Readable (freeTree s) k)
    (hlen : word.length ≤ Config.wbits s.w) (hf : leafFields s.w word = done ++ field :: more)
    (hp : pending (s.chan k) = done.flatten ++ rest) (hD : cnt + done.flatten.length ≤ D)
    (hfield : ∀ u, TreeTook k s done.flatten.length u →
      (need k D (cnt + done.flatten.length) field.length u).stops k u m e) :
    (readLeaf k D cnt s).stops k s (done.flatten.length + m) e := by
  rcases leafFields_cases hf with ⟨rfl, h1⟩ | ⟨_, rfl, rfl⟩ | ⟨hd, rfl⟩
  · rw [h1] at hfield
    have hflag := hfield s (TreeTook.of_freeTree rfl)
    rw [List.flatten_nil, List.length_nil, Nat.zero_add]
    exact Res.stops_bind (Res.stops_bind hflag _) _
  · refine Res.stops_bind (Res.took_bind_stops (need_took hr hp rfl hD) fun fl t ht ⟨hfl, _⟩ => ?_) _
    rw [if_neg (by rw [hfl]; simp)]
    have hlenField := hfield t ht
    rw [uintbits_length] at hlenField
    exact Res.stops_bind hlenField _
  · rw [hd] at hp hD hfield ⊢
    refine Res.took_bind_stops (readLeafLen_took hr hlen hp hD) fun r t ht ⟨hr', _⟩ => ?_
    subst hr'
    exact Res.stops_bind (hfield t ht) _

/-- A leaf whose length field is `WBITS` or more. -/
theorem readLeaf_badLength {len : Nat} (hr : Readable (freeTree s) k) (hw : Config.wbits s.w ≤ len)
    (hlen : len < 2 ^ Config.lenf) (hp : pending (s.chan k) = true :: uintbits Config.lenf len ++ rest)
    (hD : cnt + (1 + Config.lenf) ≤ D) : (readLeaf k D cnt s).stops k s (1 + Config.lenf) (.corruptedTree 2) := by
  obtain ⟨t, ht, _, e⟩ := readLeafLen_field hr hlen hp hD
  rw [if_pos hw] at e
  exact Res.stops_bind ⟨t, e, ht⟩ _

end

/-! ## Nodes (R209) -/

/-- The nodes `ReadNode` makes of a code tree in a pool of `n` nodes: its root, number `n`, then those of the two trees
below it. -/
def PrefixTree.pool : PrefixTree → Nat → List Node
  | .leaf word, _ => [asLeaf word freshNode]
  | .inner l r, n =>
    { freshNode with left := some (n + 1), right := some (n + 1 + (l.pool (n + 1)).length) } ::
      (l.pool (n + 1) ++ r.pool (n + 1 + (l.pool (n + 1)).length))

theorem PrefixTree.pool_length (w : WordSize) (T : PrefixTree) (n : Nat) : (T.pool n).length = T.size w := by
  induction T generalizing n with
  | leaf word => rw [PrefixTree.size_leaf]; rfl
  | inner l r ihl ihr =>
    rw [PrefixTree.pool, PrefixTree.size_inner, List.length_cons, List.length_append, ihr, ihl]

/-- A field of a node of a code tree, and those before it: the state bit, or a field of a leaf behind it. -/
theorem PrefixTree.node_cases {w : WordSize} {done more : List Bits} {field : Bits} (T : PrefixTree)
    (hT : T.ok w = true) (h : done ++ field :: more ∈ T.nodeFields w) :
    (done = [] ∧ field.length = 1) ∨ ∃ word done', word.length ≤ Config.wbits w ∧ done = [true] :: done' ∧
      leafFields w word = done' ++ field :: more := by
  induction T with
  | leaf word =>
    rw [PrefixTree.nodeFields_leaf, List.mem_singleton, List.append_eq_cons_iff] at h
    rcases h with ⟨rfl, h⟩ | ⟨done', rfl, h⟩
    · obtain ⟨rfl, _⟩ := List.cons.inj h
      exact .inl ⟨rfl, rfl⟩
    · exact .inr ⟨word, done', of_decide_eq_true hT, rfl, h⟩
  | inner l r ihl ihr =>
    obtain ⟨hl, hr⟩ := Bool.and_eq_true_iff.1 hT
    rw [PrefixTree.nodeFields, List.mem_cons, List.mem_append, List.append_eq_singleton_iff] at h
    rcases h with (⟨rfl, h⟩ | ⟨_, h⟩) | h | h
    · obtain ⟨rfl, _⟩ := List.cons.inj h
      exact .inl ⟨rfl, rfl⟩
    · cases h
    · exact ihl hl h
    · exact ihr hr h

/-- An entry of two lists in a row is in the first one, or in the second one behind the whole first one. -/
theorem append_eq_append_cons {α : Type} {xs ys before after : List α} {a : α} (h : xs ++ ys = before ++ a :: after) :
    (∃ after', xs = before ++ a :: after') ∨ ∃ before', before = xs ++ before' ∧ ys = before' ++ a :: after := by
  rcases List.append_eq_append_iff.1 h with h' | ⟨bs, rfl, h'⟩
  · exact .inr h'
  · rcases bs with _ | ⟨b, bs⟩
    · exact .inr ⟨[], by simp, h'.symm⟩
    · obtain ⟨rfl, _⟩ := List.cons.inj h'
      exact .inl ⟨bs, rfl⟩

/-- `ReadNode` after its node, number `n`, is allocated and its state bit is read (R209). -/
def nodeRest (k : Fin Config.curSlots) (D fuel n cnt : Nat) (bit : Bits) (s : State) : Res State (Nat × Nat) :=
  if bit = [true] then
    (readLeaf k D cnt s).bind fun r s => .ok (n, r.2) (updateNode n (asLeaf r.1) s)
  else
    (readNode k D fuel cnt s).bind fun l s =>
      (readNode k D fuel l.2 (updateNode n (fun x => { x with left := some l.1 }) s)).bind fun r s =>
        .ok (n, r.2) (updateNode n (fun x => { x with right := some r.1 }) s)

/-- The state with one more node in the pool. -/
def withFresh (s : State) : State := { s with nodes := s.nodes ++ [freshNode] }

section

variable {s : State} {k : Fin Config.curSlots} {D cnt fuel m : Nat} {e : Err} {rest : Bits} {w : WordSize}

/-- A node beyond `NODE_CAP` (R310). -/
theorem readNode_full (hcap : s.nodes.length = Config.nodeCap s.w) :
    (readNode k D (fuel + 1) cnt s).stops k s 0 (.outOfMemory 1) := by
  refine ⟨s, ?_, TreeTook.of_freeTree rfl⟩
  rw [readNode, if_pos hcap]

/-- A node that the pool has room for: it is allocated, its state bit is read, and the rest depends on that bit. -/
theorem readNode_allocates (hcap : s.nodes.length < Config.nodeCap s.w) : readNode k D (fuel + 1) cnt s =
    (need k D cnt 1 (withFresh s)).bind (nodeRest k D fuel s.nodes.length (cnt + 1)) := by
  rw [readNode, if_neg hcap.ne, alloc, if_neg hcap.ne]
  rfl

/-- A node whose state bit is there. -/
theorem readNode_bit {bit : Bool} (hr : Readable (freeTree s) k) (hcap : s.nodes.length < Config.nodeCap s.w)
    (hp : pending (s.chan k) = bit :: rest) (hD : cnt + 1 ≤ D) :
    ∃ t, TreeTook k s 1 t ∧ t.nodes = s.nodes ++ [freshNode] ∧ pending (t.chan k) = rest ∧
      readNode k D (fuel + 1) cnt s = nodeRest k D fuel s.nodes.length (cnt + 1) [bit] t := by
  obtain ⟨_, t, e, ht, rfl, hn⟩ := need_took (s := withFresh s) (field := [bit]) (n := 1) hr hp rfl hD
  refine ⟨t, ⟨ht.step, ht.delivered⟩, hn, ht.pending_append (a := [bit]) hp, ?_⟩
  rw [readNode_allocates hcap, e, Res.bind_ok]

/-- What the updates of an internal node make of the pool. -/
theorem modify_append_cons {α : Type} (xs ys : List α) (x : α) (f : α → α) :
    (xs ++ x :: ys).modify xs.length f = xs ++ f x :: ys := by
  induction xs with
  | nil => rfl
  | cons y xs ih => exact congrArg (y :: ·) ih

/-- An internal node after its first child is read. -/
theorem nodeRest_left {t : State} {l : PrefixTree} {nodes : List Node} {n c : Nat} (hn : t.nodes = nodes ++ [freshNode])
    (hl : (readNode k D fuel cnt t).took k t n fun r u =>
      r = (t.nodes.length, c) ∧ u.nodes = t.nodes ++ l.pool t.nodes.length) :
    ∃ u, TreeTook k t n u ∧
      u.nodes = nodes ++ { freshNode with left := some (nodes.length + 1) } :: l.pool (nodes.length + 1) ∧
      nodeRest k D fuel nodes.length cnt [false] t = (readNode k D fuel c u).bind fun r v =>
        .ok (nodes.length, r.2) (updateNode nodes.length (fun x => { x with right := some r.1 }) v) := by
  have hlen : t.nodes.length = nodes.length + 1 := by rw [hn, List.length_append, List.length_singleton]
  obtain ⟨_, u, e, hu, rfl, hnu⟩ := hl
  rw [hlen, hn, List.append_assoc, List.singleton_append] at hnu
  refine ⟨updateNode nodes.length (fun x => { x with left := some (nodes.length + 1) }) u,
    ⟨hu.step, hu.delivered⟩, ?_, ?_⟩
  · rw [updateNode_nodes, hnu, modify_append_cons]
  · rw [nodeRest, if_neg (by simp), e, Res.bind_ok, hlen]

/-- `ReadNode` on the whole stream of a code tree. -/
theorem readNode_took (T : PrefixTree) (hr : Readable (freeTree s) k) (hw : s.w = w) (hT : T.ok w = true)
    (hp : pending (s.chan k) = T.stream w ++ rest) (hcap : s.nodes.length + T.size w ≤ Config.nodeCap w)
    (hf : T.size w ≤ fuel) (hD : cnt + (T.stream w).length ≤ D) :
    (readNode k D fuel cnt s).took k s (T.stream w).length fun r t =>
      r = (s.nodes.length, cnt + (T.stream w).length) ∧ t.nodes = s.nodes ++ T.pool s.nodes.length := by
  have hsize := T.size_pos w
  induction T generalizing s cnt fuel rest with
  | leaf word =>
    obtain ⟨f, rfl⟩ : ∃ f, fuel = f + 1 := ⟨fuel - 1, by omega⟩
    rw [PrefixTree.stream_leaf] at hp hD ⊢
    rw [List.length_cons, Nat.add_comm _ 1] at hD ⊢
    obtain ⟨t, ht, hn, hpt, e⟩ :=
      readNode_bit (fuel := f) (cnt := cnt) (D := D) hr (by rw [hw]; omega) hp (by omega)
    obtain rfl := ht.w_eq.trans hw
    rw [e, nodeRest, if_pos rfl]
    refine ht.took (Res.took_map (readLeaf_took (ht.readable hr) (of_decide_eq_true hT)
      (hpt.trans (List.append_assoc _ _ _)) (by omega)) fun r u ⟨hr', hnu⟩ => ⟨rfl, ?_, ?_⟩)
    · rw [hr', Nat.add_assoc]
    · rw [updateNode_nodes, hnu, hn, hr', modify_append_last]
      rfl
  | inner l r ihl ihr =>
    obtain ⟨f, rfl⟩ : ∃ f, fuel = f + 1 := ⟨fuel - 1, by omega⟩
    rw [PrefixTree.stream_inner] at hp hD ⊢
    rw [PrefixTree.size_inner] at hcap hf
    rw [List.length_cons, List.length_append, Nat.add_comm _ 1] at hD ⊢
    rw [List.cons_append, List.append_assoc] at hp
    obtain ⟨hTl, hTr⟩ := Bool.and_eq_true_iff.1 hT
    obtain ⟨t, ht, hn, hpt, e⟩ :=
      readNode_bit (fuel := f) (cnt := cnt) (D := D) hr (by rw [hw]; omega) hp (by omega)
    have hlen : t.nodes.length = s.nodes.length + 1 := by rw [hn, List.length_append, List.length_singleton]
    obtain ⟨u, hu, hnu, e'⟩ := nodeRest_left hn
      (ihl (cnt := cnt + 1) (fuel := f) (ht.readable hr) (ht.w_eq.trans hw) hTl hpt (by omega) (by omega) (by omega)
        (l.size_pos w))
    have hlen' : u.nodes.length = s.nodes.length + 1 + l.size w := by
      rw [hnu, List.length_append, List.length_cons, PrefixTree.pool_length w]
      omega
    rw [e, e']
    refine ht.took (hu.took (Res.took_map (ihr (hu.readable (ht.readable hr)) (hu.w_eq.trans (ht.w_eq.trans hw)) hTr
      (hu.pending_append hpt) (by omega) (by omega) (by omega) (r.size_pos w)) ?_))
    rintro _ v ⟨rfl, hnv⟩
    refine ⟨rfl, by simp only [Prod.mk.injEq, true_and]; omega, ?_⟩
    rw [updateNode_nodes, hnv, hlen', hnu, List.append_assoc, List.cons_append, modify_append_cons, PrefixTree.pool,
      PrefixTree.pool_length w]

/-- A node of a code tree whose field `field` is refused, the fields before it being there. -/
theorem readNode_stops_field {T : PrefixTree} {done more : List Bits} {field : Bits} (hr : Readable (freeTree s) k)
    (hnode : done ++ field :: more ∈ T.nodeFields s.w) (hT : T.ok s.w = true)
    (hcap : s.nodes.length < Config.nodeCap s.w) (hp : pending (s.chan k) = done.flatten ++ rest)
    (hD : cnt + done.flatten.length ≤ D)
    (hfield : ∀ u, TreeTook k s done.flatten.length u →
      (need k D (cnt + done.flatten.length) field.length u).stops k u m e) :
    (readNode k D (fuel + 1) cnt s).stops k s (done.flatten.length + m) e := by
  rcases T.node_cases hT hnode with ⟨rfl, h1⟩ | ⟨word, done, hlen, rfl, hf⟩
  · rw [h1] at hfield
    rw [readNode_allocates hcap]
    have hfresh : TreeTook k s 0 (withFresh s) := TreeTook.of_freeTree rfl
    exact hfresh.stops (Res.stops_bind (hfield _ hfresh) _)
  · rw [List.flatten_cons, List.length_append, List.length_singleton] at hD hfield ⊢
    obtain ⟨t, ht, hn, hpt, e⟩ := readNode_bit (fuel := fuel) (cnt := cnt) (D := D) hr hcap hp (by omega)
    rw [e, nodeRest, if_pos rfl, Nat.add_assoc]
    rw [← ht.w_eq] at hlen hf
    refine ht.stops (Res.stops_bind (readLeaf_stops (ht.readable hr) hlen hf hpt (by omega) fun u hu => ?_) _)
    rw [Nat.add_assoc]
    exact hfield u (ht.trans hu)

/-- A leaf of a code tree at which the stream has a length of `WBITS` or more instead. -/
theorem readNode_badLength {len : Nat} (hr : Readable (freeTree s) k) (hcap : s.nodes.length < Config.nodeCap s.w)
    (hlen : Config.wbits s.w ≤ len) (hlt : len < 2 ^ Config.lenf)
    (hp : pending (s.chan k) = [true, true] ++ uintbits Config.lenf len ++ rest) (hD : cnt + (2 + Config.lenf) ≤ D) :
    (readNode k D (fuel + 1) cnt s).stops k s (2 + Config.lenf) (.corruptedTree 2) := by
  obtain ⟨t, ht, hn, hpt, e⟩ := readNode_bit (fuel := fuel) (cnt := cnt) (D := D) hr hcap hp (by omega)
  rw [e, nodeRest, if_pos rfl]
  rw [← ht.w_eq] at hlen
  have := ht.stops (readLeaf_badLength (cnt := cnt + 1) (D := D) (ht.readable hr) hlen hlt hpt (by omega))
  rw [← Nat.add_assoc] at this
  exact Res.stops_bind this _

/-- An error at one node of a code tree, the nodes before it being there, ends the reading of the tree. -/
theorem readNode_stops {before after : List (List Bits)} {node : List Bits} (T : PrefixTree)
    (hT : T.nodeFields w = before ++ node :: after) (hok : T.ok w = true) (hr : Readable (freeTree s) k) (hw : s.w = w)
    (hp : pending (s.chan k) = before.flatten.flatten ++ rest)
    (hcap : s.nodes.length + before.length ≤ Config.nodeCap w) (hf : before.length < fuel)
    (hD : cnt + before.flatten.flatten.length ≤ D)
    (hnode : ∀ u f, TreeTook k s before.flatten.flatten.length u → u.nodes.length = s.nodes.length + before.length →
      (readNode k D (f + 1) (cnt + before.flatten.flatten.length) u).stops k u m e) :
    (readNode k D fuel cnt s).stops k s (before.flatten.flatten.length + m) e := by
  have h0 : TreeTook k s 0 s := TreeTook.of_freeTree rfl
  induction T generalizing s cnt fuel before rest after with
  | leaf word =>
    obtain ⟨f, rfl⟩ : ∃ f, fuel = f + 1 := ⟨fuel - 1, by omega⟩
    rw [PrefixTree.nodeFields_leaf, List.singleton_eq_append_iff] at hT
    rcases hT with ⟨rfl, _⟩ | ⟨_, h⟩
    · exact h0.stops (hnode s f h0 rfl)
    · cases h
  | inner l r ihl ihr =>
    obtain ⟨f, rfl⟩ : ∃ f, fuel = f + 1 := ⟨fuel - 1, by omega⟩
    rcases before with _ | ⟨first, before⟩
    · exact h0.stops (hnode s f h0 rfl)
    · rw [PrefixTree.nodeFields, List.cons_append] at hT
      obtain ⟨rfl, hT'⟩ := List.cons.inj hT
      obtain ⟨hokl, hokr⟩ := Bool.and_eq_true_iff.1 hok
      simp only [List.flatten_cons, List.flatten_append, List.flatten_nil, List.append_nil, List.length_append,
        List.length_cons, List.length_nil, Nat.zero_add] at hp hcap hf hD hnode ⊢
      rw [List.append_assoc, List.singleton_append] at hp
      obtain ⟨t, ht, hn, hpt, e⟩ :=
        readNode_bit (fuel := f) (cnt := cnt) (D := D) hr (by rw [hw]; omega) hp (by omega)
      have hwt := ht.w_eq.trans hw
      have hrt := ht.readable hr
      have hlen : t.nodes.length = s.nodes.length + 1 := by rw [hn, List.length_append, List.length_singleton]
      rw [e, Nat.add_assoc]
      refine ht.stops ?_
      rcases append_eq_append_cons hT' with ⟨after', hl⟩ | ⟨before', rfl, hr'⟩
      · rw [nodeRest, if_neg (by simp)]
        refine Res.stops_bind (ihl hl hokl hrt hwt hpt (by omega) (by omega) (by omega) (fun u f' hu hnu => ?_)
          (TreeTook.of_freeTree rfl)) _
        rw [Nat.add_assoc]
        exact hnode u f' (ht.trans hu) (by omega)
      · simp only [List.flatten_append, List.length_append] at hpt hcap hf hD hnode ⊢
        rw [← PrefixTree.stream] at hpt hD hnode ⊢
        rw [← PrefixTree.size] at hcap hf hnode
        rw [List.append_assoc] at hpt
        obtain ⟨u, hu, hnu, e'⟩ := nodeRest_left hn (readNode_took (cnt := cnt + 1) (fuel := f) (D := D) l hrt hwt hokl
          hpt (by omega) (by omega) (by omega))
        have hlen' : u.nodes.length = t.nodes.length + l.size w := by
          rw [hnu, List.length_append, List.length_cons, PrefixTree.pool_length w]
          omega
        rw [e', Nat.add_assoc]
        refine hu.stops (Res.stops_bind (ihr hr' hokr (hu.readable hrt) (hu.w_eq.trans hwt) (hu.pending_append hpt)
          (by omega) (by omega) (by omega) (fun v f' hv hnv => ?_) (TreeTook.of_freeTree rfl)) _)
        rw [Nat.add_assoc, Nat.add_assoc]
        exact hnode v f' (ht.trans (hu.trans hv)) (by omega)

end

/-! ## How TREAD fails (O48) -/

section

variable {s : State} {k : Fin Config.curSlots} {ca : BitVec 4} {n : Nat} {e : Err} {rest : Bits}

theorem Readable.freeTree (hr : Readable s k) : Readable (freeTree s) k :=
  ⟨hr.inv.freeTree, hr.isOpen, hr.mode, hr.noFail⟩

/-- TREAD through a ready cursor is `ReadNode` on an empty pool, then ROOT and the size (R208). -/
theorem bodyOf_tread (hk : s.cursorOf? ca = some k) (hr : Readable s k) : bodyOf (.tread ca) s =
    (readNode k s.a0.toNat (Config.nodeCap s.w + 1) 0 (freeTree s)).bind fun r t =>
      .ok () { t with root := some r.1, a0 := resultReg r.2 } :=
  bodyOf_of_checked (i := .tread ca) (oneCursor_some hk _ _) hr.openFor

/-- A `ReadNode` that fails ends TREAD, and the tree is freed (R208, R271). -/
theorem exec_tread_of_stops (hk : s.cursorOf? ca = some k) (hr : Readable s k)
    (h : (readNode k s.a0.toNat (Config.nodeCap s.w + 1) 0 (freeTree s)).stops k (freeTree s) n e) :
    ∃ t, exec (.tread ca) s = .next t ∧ TreadFailed s t k e.code e.info n := by
  obtain ⟨u, he, hstep, hdel⟩ := h
  have hu : TreeTook k s n u := ⟨hstep, hdel⟩
  refine ⟨_, exec_of_raise ((bodyOf_tread hk hr).trans (by rw [he, Res.bind_raise])), ?_, ?_, ?_⟩
  · conv_lhs => rw [hu.eq]
    rfl
  · exact OnlyCursor.congr (t := u) hu.onlyCursor rfl
  · exact Delivered.congr (t := u) hu.deliveredBits rfl rfl

/-- TREAD of a stream that agrees with that of a code tree up to a node at which `ReadNode` fails. -/
theorem exec_tread_of_node_stops {T : PrefixTree} {before after : List (List Bits)} {node : List Bits}
    (hk : s.cursorOf? ca = some k) (hr : Readable s k) (hT : T.ok s.w = true)
    (hsplit : T.nodeFields s.w = before ++ node :: after) (hcap : before.length ≤ Config.nodeCap s.w)
    (hD : before.flatten.flatten.length ≤ s.a0.toNat) (hp : pending (s.chan k) = before.flatten.flatten ++ rest)
    (hnode : ∀ u f, Readable (freeTree u) k → u.w = s.w → u.nodes.length = before.length → pending (u.chan k) = rest →
      (readNode k s.a0.toNat (f + 1) before.flatten.flatten.length u).stops k u n e) :
    ∃ t, exec (.tread ca) s = .next t ∧ TreadFailed s t k e.code e.info (before.flatten.flatten.length + n) := by
  have hr0 : Readable (freeTree (freeTree s)) k := hr.freeTree
  refine exec_tread_of_stops hk hr (readNode_stops T hsplit hT hr0 rfl hp (by simpa using hcap) (by omega) (by omega)
    fun u f hu hnu => ?_)
  rw [Nat.zero_add]
  refine hnode u f (hu.readable hr0) hu.w_eq ?_ (hu.pending_append hp)
  rw [hnu, freeTree_nodes, List.length_nil, Nat.zero_add]

/-- TREAD of a stream that agrees with that of a code tree up to a field that is refused. -/
theorem exec_tread_of_field_stops {T : PrefixTree} {before after : List (List Bits)} {done more : List Bits}
    {field : Bits} {c : Nat} (hk : s.cursorOf? ca = some k) (hr : Readable s k) (hT : T.ok s.w = true)
    (hsplit : T.nodeFields s.w = before ++ (done ++ field :: more) :: after) (hcap : before.length < Config.nodeCap s.w)
    (hc : c = before.flatten.flatten.length + done.flatten.length) (hD : c ≤ s.a0.toNat)
    (hp : pending (s.chan k) = before.flatten.flatten ++ done.flatten ++ rest)
    (hfield : ∀ u, Readable (freeTree u) k → pending (u.chan k) = rest →
      (need k s.a0.toNat c field.length u).stops k u n e) :
    ∃ t, exec (.tread ca) s = .next t ∧ TreadFailed s t k e.code e.info (c + n) := by
  subst hc
  rw [List.append_assoc] at hp
  rw [Nat.add_assoc]
  refine exec_tread_of_node_stops hk hr hT hsplit hcap.le (by omega) hp fun u f hru hw hnu hpu => ?_
  rw [← hw] at hT hcap
  refine readNode_stops_field (T := T) (more := more) hru ?_ hT (by omega) hpu (by omega) fun v hv =>
    hfield v (hv.readable hru) (hv.pending_append hpu)
  rw [hw, hsplit]
  simp

/-- A field that would end beyond the declared size (R209). -/
theorem exec_tread_beyond {T : PrefixTree} {before after : List (List Bits)} {done more : List Bits} {field : Bits}
    (hk : s.cursorOf? ca = some k) (hr : Readable s k) (hT : T.ok s.w = true)
    (hsplit : T.nodeFields s.w = before ++ (done ++ field :: more) :: after) (hcap : before.length < Config.nodeCap s.w)
    (hp : pending (s.chan k) = before.flatten.flatten ++ done.flatten ++ rest)
    (hle : before.flatten.flatten.length + done.flatten.length ≤ s.a0.toNat)
    (hlt : s.a0.toNat < before.flatten.flatten.length + done.flatten.length + field.length) :
    ∃ t, exec (.tread ca) s = .next t ∧
      TreadFailed s t k 3 1 (before.flatten.flatten.length + done.flatten.length) :=
  exec_tread_of_field_stops hk hr hT hsplit hcap rfl hle hp fun u _ _ => need_beyond u hlt

end

/-- Settles O48: the four refusals meet `ReadNode` at one node, which readNode_stops carries to the end of TREAD. -/
theorem treadRefuses : Obligations.TreadRefuses := by
  rintro s ca k T before node after pre hk hr hT hsplit rfl hpre
  refine ⟨fun rest hfull hp => ?_, fun hcap => ⟨?_, fun len rest _ hbad hlen hD hp => ?_⟩⟩
  · refine exec_tread_of_node_stops (n := 0) (e := .outOfMemory 1) hk hr hT hsplit hfull.le hpre hp
      fun u f _ hw hnu _ => readNode_full ?_
    rw [hnu, hfull, hw]
  · rintro done field more rfl
    simp only [List.length_append]
    refine ⟨fun rest hp hle hlt => exec_tread_beyond hk hr hT hsplit hcap hp hle hlt, fun part hp hpart hle => ?_⟩
    refine exec_tread_of_field_stops (e := .unexpectedEof _) hk hr hT hsplit hcap rfl (by omega) hp fun u hru hpu => ?_
    rw [← hpu] at hpart ⊢
    exact need_cutOff hru hpart hle
  · rw [List.append_assoc, List.append_assoc] at hp
    refine exec_tread_of_node_stops (n := 10) (e := .corruptedTree 2) hk hr hT hsplit hcap.le hpre hp
      fun u f hru hw hnu hpu => ?_
    exact readNode_badLength hru (by rw [hnu, hw]; exact hcap) (by rw [hw]; exact hbad) hlen
      (hpu.trans (List.append_assoc _ _ _).symm) hD

end Sys2Proof.Machine

/-! # Proofs, family "treecodec": TREAD of a tree's stream gives the tree back (O47)

The tree at a node of a pool is told by the code tree it stands for: its stream, its leaves with their paths and its
number of nodes. TREAD makes of a stream a pool that stands for the code tree of that stream. -/

namespace Sys2Proof.Machine

open Sys2Proof

/-! ## The code tree a node stands for (R100, R101) -/

/-- The tree of at most `fuel` levels at node `n` of the pool `nodes` has the shape and the words of a code tree. -/
inductive StandsFor (nodes : List Node) : Nat → Nat → PrefixTree → Prop
  | leaf {fuel n : Nat} {word : Bits} (kind : (nodeAt nodes n).leaf = true)
      (bitLen : (nodeAt nodes n).bitLen = word.length) (wb : (nodeAt nodes n).wb = wordOfBits word) :
      StandsFor nodes (fuel + 1) n (.leaf word)
  | inner {fuel n a b : Nat} {l r : PrefixTree} (kind : (nodeAt nodes n).leaf = false)
      (left : (nodeAt nodes n).left = some a) (right : (nodeAt nodes n).right = some b)
      (hl : StandsFor nodes fuel a l) (hr : StandsFor nodes fuel b r) : StandsFor nodes (fuel + 1) n (.inner l r)

/-- Every tree of a lawful pool stands for a code tree. -/
theorem exists_standsFor {w : WordSize} {nodes : List Node} {fuel n : Nat}
    (hpool : ∀ x ∈ nodes, NodeInv w nodes.length x) (h : treeOk nodes fuel n = true) :
    ∃ T : PrefixTree, T.ok w = true ∧ StandsFor nodes fuel n T := by
  induction fuel generalizing n with
  | zero => cases h
  | succ fuel ih =>
    rcases treeOk_shape h with hleaf | ⟨hinner, a, b, ha, hb, hoka, hokb⟩
    · obtain ⟨hlen, hclear, _, _⟩ := (hpool _ (nodeAt_mem (treeOk_lt h))).leafOk hleaf
      refine ⟨.leaf (wordBits (nodeAt nodes n).wb (nodeAt nodes n).bitLen), ?_,
        .leaf hleaf (wordBits_length _ _).symm ?_⟩
      · rw [PrefixTree.ok, wordBits_length]
        exact decide_eq_true hlen
      · exact (wordOfBits_wordBits (hlen.trans (wbits_le w)) hclear).symm
    · obtain ⟨l, hTl, hl⟩ := ih hoka
      obtain ⟨r, hTr, hr⟩ := ih hokb
      exact ⟨.inner l r, Bool.and_eq_true_iff.2 ⟨hTl, hTr⟩, .inner hinner ha hb hl hr⟩

/-- The leaves of a code tree in pre-order, each with its word, its length and its path behind `path`. -/
def PrefixTree.leaves : PrefixTree → Bits → List (WordBytes × Nat × Bits)
  | .leaf word, path => [(wordOfBits word, word.length, path)]
  | .inner l r, path => l.leaves (path ++ [false]) ++ r.leaves (path ++ [true])

/-- The stream of a leaf is that of its code tree (R101, R207). -/
theorem leafStream_eq {w : WordSize} {x : Node} {word : Bits} (hlen : word.length ≤ Config.wbits w)
    (hb : x.bitLen = word.length) (hwb : x.wb = wordOfBits word) :
    leafStream w x = (PrefixTree.leaf word).stream w := by
  rw [leafStream, PrefixTree.stream_leaf, leafHead, hb, hwb, wordBits_wordOfBits _ (hlen.trans (wbits_le w))]
  split <;> simp

section

variable {w : WordSize} {nodes : List Node} {fuel n : Nat} {T : PrefixTree}

theorem StandsFor.treeStream_eq (hs : StandsFor nodes fuel n T) (hT : T.ok w = true) :
    treeStream w nodes fuel n = T.stream w := by
  induction hs with
  | leaf kind bitLen wb =>
    rw [treeStream_leaf _ kind]
    exact leafStream_eq (of_decide_eq_true hT) bitLen wb
  | inner kind left right _ _ ihl ihr =>
    obtain ⟨hTl, hTr⟩ := Bool.and_eq_true_iff.1 hT
    rw [treeStream_inner _ kind left right, ihl hTl, ihr hTr, PrefixTree.stream_inner]
    rfl

theorem treeSize_leaf (fuel : Nat) (h : (nodeAt nodes n).leaf = true) : treeSize nodes (fuel + 1) n = 1 := by
  simp [treeSize, h]

theorem treeSize_inner {a b : Nat} (fuel : Nat) (h : (nodeAt nodes n).leaf = false)
    (ha : (nodeAt nodes n).left = some a) (hb : (nodeAt nodes n).right = some b) :
    treeSize nodes (fuel + 1) n = 1 + treeSize nodes fuel a + treeSize nodes fuel b := by
  simp [treeSize, h, ha, hb]

theorem StandsFor.treeSize_eq (hs : StandsFor nodes fuel n T) (w : WordSize) : treeSize nodes fuel n = T.size w := by
  induction hs with
  | leaf kind _ _ => rw [treeSize_leaf _ kind, PrefixTree.size_leaf]
  | inner kind left right _ _ ihl ihr =>
    rw [treeSize_inner _ kind left right, ihl, ihr, PrefixTree.size_inner]
    omega

/-- What `treeShape` keeps of a leaf and its path. -/
def leafShape (p : Node × Bits) : WordBytes × Nat × Bits := (p.1.wb, p.1.bitLen, p.2)

theorem StandsFor.leafPaths_map (hs : StandsFor nodes fuel n T) (path : Bits) :
    (leafPaths nodes fuel n path).map leafShape = T.leaves path := by
  induction hs generalizing path with
  | leaf kind bitLen wb =>
    rw [leafPaths_leaf _ _ kind, List.map_singleton, leafShape, bitLen, wb]
    rfl
  | inner kind left right _ _ ihl ihr =>
    rw [leafPaths_inner _ _ kind left right, List.map_append, ihl, ihr]
    rfl

theorem StandsFor.treeShape_eq (hs : StandsFor nodes nodes.length n T) : treeShape nodes n = T.leaves [] :=
  hs.leafPaths_map []

/-- The codes of a tree are told by its word size and its code tree (R191, R192). -/
theorem StandsFor.treeCodes_eq {s t : State} {fuel' m : Nat} (hs : StandsFor s.nodes fuel n T)
    (ht : StandsFor t.nodes fuel' m T) (hw : t.w = s.w) (hshape : treeShape t.nodes m = treeShape s.nodes n) :
    treeCodes t m = treeCodes s n := by
  cases hs with
  | leaf kind bitLen wb =>
    cases ht with
    | leaf kind' bitLen' wb' =>
      simp only [treeCodes_leaf kind, treeCodes_leaf kind', leafCode, slotOf, bitLen, wb, bitLen', wb', hw]
  | inner kind _ _ _ _ =>
    cases ht with
    | inner kind' _ _ _ _ =>
      rw [treeCodes_inner kind, treeCodes_inner kind', hw]
      have hcodes := congrArg (List.map fun p => (wordSlot s.w p.1 p.2.1, p.2.2)) hshape
      rwa [treeShape, treeShape, List.map_map, List.map_map] at hcodes

end

/-! ## The pool TREAD makes stands for the code tree it reads -/

theorem nodeAt_append_cons (xs ys : List Node) (x : Node) : nodeAt (xs ++ x :: ys) xs.length = x := by
  simp [nodeAt, List.getD_eq_getElem?_getD]

/-- The nodes of a code tree behind those of `xs`, whatever comes after them. -/
theorem PrefixTree.pool_standsFor (T : PrefixTree) {nodes xs ys : List Node} {fuel n : Nat}
    (h : nodes = xs ++ (T.pool n ++ ys)) (hn : xs.length = n) (hf : (T.pool n).length ≤ fuel) :
    StandsFor nodes fuel n T := by
  induction T generalizing xs ys fuel n with
  | leaf word =>
    obtain ⟨fuel, rfl⟩ : ∃ f, fuel = f + 1 := ⟨fuel - 1, by rw [PrefixTree.pool, List.length_singleton] at hf; omega⟩
    have hself : nodeAt nodes n = asLeaf word freshNode := by
      rw [h, ← hn]
      exact nodeAt_append_cons xs ys _
    exact .leaf (congrArg Node.leaf hself) (congrArg Node.bitLen hself) (congrArg Node.wb hself)
  | inner l r ihl ihr =>
    rw [PrefixTree.pool, List.length_cons, List.length_append] at hf
    rw [PrefixTree.pool, List.cons_append, List.append_assoc] at h
    obtain ⟨fuel, rfl⟩ : ∃ f, fuel = f + 1 := ⟨fuel - 1, by omega⟩
    have hself := congrArg (nodeAt · n) h
    simp only [← hn, nodeAt_append_cons] at hself
    rw [hn] at hself
    refine .inner (congrArg Node.leaf hself) (congrArg Node.left hself) (congrArg Node.right hself) ?_ ?_
    · exact ihl (xs := xs ++ [_]) (by rw [h, List.append_assoc, List.singleton_append])
        (by rw [List.length_append, hn, List.length_singleton]) (by omega)
    · exact ihr (xs := xs ++ _ :: l.pool (n + 1)) (by rw [h, List.append_assoc, List.cons_append])
        (by rw [List.length_append, List.length_cons, hn]; omega) (by omega)

/-- A tree that has been read has no frequencies (R210). -/
theorem PrefixTree.pool_freq (T : PrefixTree) (n : Nat) : ∀ x ∈ T.pool n, x.freq = 0 := by
  induction T generalizing n with
  | leaf word =>
    intro x hx
    obtain rfl := List.mem_singleton.1 hx
    rfl
  | inner l r ihl ihr =>
    intro x hx
    rcases List.mem_cons.1 hx with rfl | hx
    · rfl
    · exact (List.mem_append.1 hx).elim (ihl _ x) (ihr _ x)

/-! ## A tree that shares no node fits the pool (R36) -/

theorem nodesUnder_length {nodes : List Node} {fuel n : Nat} (h : treeOk nodes fuel n = true) :
    (nodesUnder nodes fuel n).length = treeSize nodes fuel n := by
  induction fuel generalizing n with
  | zero => cases h
  | succ fuel ih =>
    rcases treeOk_shape h with hl | ⟨hl, a, b, ha, hb, hoka, hokb⟩
    · rw [nodesUnder_leaf _ hl, treeSize_leaf _ hl]
      rfl
    · rw [nodesUnder_inner _ hl ha hb, treeSize_inner _ hl ha hb, List.length_cons, List.length_append, ih hoka,
        ih hokb]
      omega

theorem Owned.treeSize_le {s : State} {r : Nat} (ho : Owned s) (h : Inv s) (hr : s.root = some r) :
    treeSize s.nodes s.nodes.length r ≤ Config.nodeCap s.w := by
  have htree := h.root r hr
  have hsub : nodesUnder s.nodes s.nodes.length r ⊆ List.range s.nodes.length := fun n hn =>
    List.mem_range.2 (nodesUnder_lt htree hn)
  have hle := (List.subperm_of_subset (ho.root r hr) hsub).length_le
  rw [nodesUnder_length htree, List.length_range] at hle
  exact hle.trans h.poolCap

/-! ## TREAD of a whole stream -/

/-- Where a list of weights passes a bound below its sum. -/
theorem exists_split_of_lt_sum {α : Type} (f : α → Nat) {l : List α} {a : Nat} (h : a < (l.map f).sum) :
    ∃ before x after, l = before ++ x :: after ∧ (before.map f).sum ≤ a ∧ a < (before.map f).sum + f x := by
  induction l generalizing a with
  | nil => exact absurd h (Nat.not_lt_zero a)
  | cons y l ih =>
    by_cases hy : a < f y
    · exact ⟨[], y, l, rfl, Nat.zero_le _, by simpa using hy⟩
    · rw [List.map_cons, List.sum_cons] at h
      obtain ⟨before, x, after, rfl, h1, h2⟩ := ih (a := a - f y) (by omega)
      refine ⟨y :: before, x, after, rfl, ?_, ?_⟩ <;> rw [List.map_cons, List.sum_cons] <;> omega

theorem length_flatten_flatten {α : Type} (L : List (List (List α))) :
    L.flatten.flatten.length = (L.map fun l => l.flatten.length).sum := by
  rw [List.flatten_flatten, List.length_flatten, List.map_map]
  rfl

section

variable {s : State} {k : Fin Config.curSlots} {ca : BitVec 4} {T : PrefixTree} {rest : Bits}

/-- A declared size below the length of a code tree's stream ends inside some field of some node. -/
theorem PrefixTree.exists_field_of_lt {w : WordSize} {D : Nat} (h : D < (T.stream w).length) :
    ∃ before done field more after, T.nodeFields w = before ++ (done ++ field :: more) :: after ∧
      before.flatten.flatten.length + done.flatten.length ≤ D ∧
      D < before.flatten.flatten.length + done.flatten.length + field.length := by
  rw [PrefixTree.stream, length_flatten_flatten] at h
  obtain ⟨before, node, after, e, h1, h2⟩ := exists_split_of_lt_sum _ h
  rw [← length_flatten_flatten] at h1 h2
  have hnode : D - before.flatten.flatten.length < (node.map List.length).sum := by
    rw [← List.length_flatten]
    omega
  obtain ⟨done, field, more, rfl, h3, h4⟩ := exists_split_of_lt_sum _ hnode
  rw [← List.length_flatten] at h3 h4
  exact ⟨before, done, field, more, after, e, by omega, by omega⟩

/-- TREAD of a code tree's stream with a smaller declared size (R209). -/
theorem exec_tread_of_lt (hk : s.cursorOf? ca = some k) (hr : Readable s k) (hT : T.ok s.w = true)
    (hcap : T.size s.w ≤ Config.nodeCap s.w) (hp : pending (s.chan k) = T.stream s.w ++ rest)
    (hD : s.a0.toNat < (T.stream s.w).length) : ∃ t n, exec (.tread ca) s = .next t ∧ TreadFailed s t k 3 1 n := by
  obtain ⟨before, done, field, more, after, e, h1, h2⟩ := PrefixTree.exists_field_of_lt hD
  rw [PrefixTree.size, e, List.length_append, List.length_cons] at hcap
  have hp' : pending (s.chan k) =
      before.flatten.flatten ++ done.flatten ++ (field ++ (more.flatten ++ (after.flatten.flatten ++ rest))) := by
    rw [hp, PrefixTree.stream, e]
    simp
  obtain ⟨t, ht, hfail⟩ := exec_tread_beyond hk hr hT e (by omega) hp' h1 h2
  exact ⟨t, _, ht, hfail⟩

/-- TREAD of a code tree's stream with a declared size that suffices (R208). -/
theorem exec_tread_of_le (hk : s.cursorOf? ca = some k) (hr : Readable s k) (hT : T.ok s.w = true)
    (hcap : T.size s.w ≤ Config.nodeCap s.w) (hp : pending (s.chan k) = T.stream s.w ++ rest)
    (hD : (T.stream s.w).length ≤ s.a0.toNat) : ∃ t, exec (.tread ca) s = .next t ∧
      t = { s with
        nodes := T.pool 0, root := some 0, heap := [], a0 := BitVec.ofNat 64 (T.stream s.w).length, cursors := t.cursors
        env := t.env, err := 0, einfo := 0 } ∧
      OnlyCursor s t k ∧ Delivered s t k (T.stream s.w).length := by
  have hr0 : Readable (freeTree (freeTree s)) k := hr.freeTree
  obtain ⟨_, u, he, ⟨hstep, hdel⟩, rfl, hn⟩ := readNode_took (s := freeTree s) (w := s.w) (k := k) (D := s.a0.toNat)
    (cnt := 0) (fuel := Config.nodeCap s.w + 1) T hr0 rfl hT hp (by simpa using hcap) (by omega) (by omega)
  rw [freeTree_nodes, List.length_nil, Nat.zero_add] at he
  rw [freeTree_nodes, List.length_nil, List.nil_append] at hn
  have hu : TreeTook k s (T.stream s.w).length u := ⟨hstep, hdel⟩
  have hheap : u.heap = [] := by
    have hgives := readNode_gives k s.a0.toNat (Config.nodeCap s.w + 1) 0 (freeTree_reading hr.inv hr.openFor)
    rw [he] at hgives
    exact hgives.reading.heap
  have hb := (bodyOf_tread hk hr).trans (by rw [he, Res.bind_ok])
  rw [resultReg_of_lt (hD.trans_lt s.a0.isLt)] at hb
  refine ⟨_, exec_of_ok hb, ?_, ?_, ?_⟩
  · conv_lhs => rw [hu.eq, hn, hheap]
    rfl
  · exact OnlyCursor.congr (t := u) hu.onlyCursor rfl
  · exact Delivered.congr (t := u) hu.deliveredBits rfl rfl

end

/-- Settles O47: the tree at ROOT stands for a code tree that fits the pool, and so does the tree TREAD makes of its
stream. -/
theorem treadOfStream : Obligations.TreadOfStream := by
  rintro s₀ r bits rest s ca k hinv howned hroot hw rfl hk hr hp
  obtain ⟨T, hT, hs⟩ := exists_standsFor hinv.pool (hinv.root r hroot)
  have hcap := howned.treeSize_le hinv hroot
  rw [hs.treeSize_eq s.w]
  rw [hs.treeSize_eq s.w, hw] at hcap
  rw [hs.treeStream_eq hT, hw] at hp ⊢
  rw [hw] at hT
  refine ⟨fun hD => ?_, fun hD => ?_⟩
  · obtain ⟨t, ht, hstate, honly, hdel⟩ := exec_tread_of_le hk hr hT hcap hp hD
    have hnodes : t.nodes = T.pool 0 := by rw [hstate]
    have hst : StandsFor t.nodes t.nodes.length 0 T :=
      T.pool_standsFor (xs := []) (ys := []) (by simpa using hnodes) rfl (by rw [hnodes])
    have hshape : treeShape t.nodes 0 = treeShape s₀.nodes r := hst.treeShape_eq.trans hs.treeShape_eq.symm
    refine ⟨t, ht, by rw [hnodes]; exact hstate, hshape, hs.treeCodes_eq hst ?_ hshape, ?_, ?_, honly, hdel⟩
    · rw [hw, hstate]
    · rw [hnodes, PrefixTree.pool_length s.w]
    · rw [hnodes]
      exact T.pool_freq 0
  · obtain ⟨t, _, ht, hfail⟩ := exec_tread_of_lt hk hr hT hcap hp hD
    exact ⟨t, ht, hfail.state⟩

end Sys2Proof.Machine

/-! # Proofs, family "payload": bits taken from one cursor and put through another, whatever `IO_FAIL` answers

ENCODE and DECODE take bits through a read cursor and put bits through a write cursor on another file. What they take is
what was pending at the start, so what they do is a list of transfers that is known from the start. This part says what
such a list leaves: when it ends, when no access is refused, and when one is. -/

namespace Sys2Proof.Machine

open Sys2Proof

/-! ## Primitives that fail -/

section

variable {ch ch1 ch' : Chan} {n m : Nat} {e : Err}

theorem Took.nil (ch : Chan) : Took ch ch 0 := ⟨ReadStep.refl ch, rfl, by rw [Nat.zero_min, Nat.add_zero]⟩

theorem Took.trans (h : Took ch ch1 n) (h' : Took ch1 ch' m) : Took ch ch' (n + m) := by
  refine ⟨h.step.trans h'.step, by rw [h'.pending, h.pending, List.drop_drop], ?_⟩
  rw [h'.pos, h.pos, h.pending, List.length_drop]
  omega

/-- A question to `IO_FAIL` matters neither to what a reader has taken nor to what a writer has written. -/
theorem Took.asked (h : Took ch ch' n) : Took ch { ch' with env := ch'.env.asked } n :=
  ⟨h.step.trans ⟨⟨rfl, rfl, rfl, rfl, EnvStep.asked _ _, fun _ i => i.store rfl i.filePresent⟩, SameStore.asked _⟩,
    h.pending, h.pos⟩

theorem Put.asked {s : Bits} (p : Put ch ch' s) : Put ch { ch' with env := ch'.env.asked } s :=
  ⟨p.step.trans ⟨rfl, rfl, rfl, rfl, EnvStep.asked _ _, fun _ i => i.store rfl i.filePresent⟩, p.image, p.pos, p.noHole,
    p.fpos, p.outside⟩

/-- A read of one bit fails at a refused fill: the buffer is used up, and the stream goes on (R125). -/
theorem readBit_of_raise (h : readBit ch = .raise e ch') (i : CursorInv ch.env ch.cur) :
    e = .ioFailure ∧ Took ch ch' 0 ∧ pending ch ≠ [] ∧ ch'.cur.valid ≤ ch'.cur.byteP := by
  rcases readBit_cases ch with ⟨_, eq⟩ | ⟨hv, ⟨_, _, _, _, eq⟩ | ⟨_, _, eq⟩ | ⟨_, _, hr, eq⟩ | ⟨_, _, eq⟩⟩ <;>
    cases eq.symm.trans h
  rcases fillAt_cases ch.cur.fpos ch with ⟨_, eq'⟩ | ⟨b, hb, ⟨_, eq'⟩ | ⟨hpos, _, eq'⟩ | ⟨_, _, eq'⟩⟩ <;>
    cases eq'.symm.trans hr
  refine ⟨rfl, (Took.nil ch).asked, List.ne_nil_of_length_pos ?_, hv⟩
  have hcount := fillCount_le ch.cur.bufsz ch.cur.fpos b.length
  have hbit := ch.cur.bitP.isLt
  rw [pending_length i, fileBytes_some hb]
  omega

/-- A read that fails has taken fewer bits than asked for and than there are, up to a refused fill (R126). -/
theorem readBits_of_raise (h : readBits n ch = .raise e ch') (hm : ch.cur.mode = .read) (i : CursorInv ch.env ch.cur)
    (hw : ch.env.sound) : e = .ioFailure ∧
      ∃ x, x < n ∧ x < (pending ch).length ∧ Took ch ch' x ∧ ch'.cur.valid ≤ ch'.cur.byteP := by
  induction n generalizing ch with
  | zero => cases h
  | succ n ih =>
    rcases Res.bind_eq_raise.1 h with hbit | ⟨b, ch1, hbit, hrest⟩
    · obtain ⟨he, htook, hne, hv⟩ := readBit_of_raise hbit i
      exact ⟨he, 0, Nat.succ_pos n, List.length_pos_iff.2 hne, htook, hv⟩
    · cases b with
      | none => cases hrest
      | some b =>
        obtain ⟨hbits, t⟩ := readBits_took_of_ok (n := 1) (ch' := ch1) (s := [b])
          (by simp [readBits, hbit]) hm i hw
        have hlen := congrArg List.length hbits
        rcases Res.bind_eq_raise.1 hrest with hrest | ⟨_, _, _, hok⟩
        · obtain ⟨he, x, hxn, hxp, htook, hv⟩ :=
            ih hrest (t.step.1.mode.trans hm) (t.step.1.inv hw i) (t.step.1.env.sound hw)
          rw [t.pending, List.length_drop] at hxp
          exact ⟨he, 1 + x, by omega, by omega, t.trans htook, hv⟩
        · cases hok

/-- A write of one bit fails at a refused flush of a full buffer (R122). -/
theorem writeBit_of_raise {b : Bool} (h : writeBit b ch = .raise e ch') (hm : ch.cur.mode = .write)
    (i : CursorInv ch.env ch.cur) (hh : ch.cur.fpos ≤ (fileBytes ch).length) :
    e = .ioFailure ∧ Put ch ch' [] ∧ ch'.cur.byteP = ch'.cur.bufsz := by
  rcases writeBit_cases b ch with ⟨_, eq⟩ | ⟨hfull, ⟨_, _, eq⟩ | ⟨_, _, hf, eq⟩ | ⟨_, _, eq⟩⟩ <;> cases eq.symm.trans h
  rcases flush_cases ch with ⟨_, eq'⟩ | ⟨_, ⟨_, eq'⟩ | ⟨_, _, _, eq'⟩ | ⟨_, _, _, _, eq'⟩⟩ <;> cases eq'.symm.trans hf
  exact ⟨rfl, (Put.nil hm i hh).asked, hfull⟩

/-- A write that fails has written fewer bits than it was to, up to a refused flush of a full buffer (R126). -/
theorem writeBits_of_raise {s : Bits} (h : writeBits s ch = .raise e ch') (hm : ch.cur.mode = .write)
    (i : CursorInv ch.env ch.cur) (hw : ch.env.sound) (hh : ch.cur.fpos ≤ (fileBytes ch).length) :
    e = .ioFailure ∧ ∃ x, x < s.length ∧ Put ch ch' (s.take x) ∧ ch'.cur.byteP = ch'.cur.bufsz := by
  induction s generalizing ch with
  | nil => cases h
  | cons b s ih =>
    rcases Res.bind_eq_raise.1 h with hbit | ⟨_, ch1, hbit, hrest⟩
    · obtain ⟨he, hput, hfull⟩ := writeBit_of_raise hbit hm i hh
      exact ⟨he, 0, Nat.succ_pos _, hput, hfull⟩
    · have p := writeBit_put_of_ok hbit hm i hw hh
      obtain ⟨he, x, hx, hput, hfull⟩ :=
        ih hrest (p.step.mode.trans hm) (p.step.inv hw i) (p.step.env.sound hw) p.noHole
      exact ⟨he, x + 1, Nat.succ_lt_succ hx, p.cons hput hm i hh, hfull⟩

/-- Two runs of bits written one after the other. -/
theorem Put.trans {a b : Bits} (p : Put ch ch1 a) (q : Put ch1 ch' b) (hm : ch.cur.mode = .write)
    (i : CursorInv ch.env ch.cur) (hh : ch.cur.fpos ≤ (fileBytes ch).length) : Put ch ch' (a ++ b) := by
  have hpos := p.pos
  rw [absBitPos_write (p.step.mode.trans hm), absBitPos_write hm] at hpos
  have hadd := flushedBytes_add (m := b.length) i.sizePos p.step.bufsz p.fpos hpos
  have hin : absBitPos ch.cur ≤ 8 * (Machine.image ch).length := by
    have := pendingBytes_pos hm
    rw [image_length hm i hh]
    omega
  refine ⟨p.step.trans q.step, ?_, ?_, q.noHole, ?_, fun off ho => ?_⟩
  · rw [q.image, p.image, p.pos, written_append _ _ hin]
  · rw [q.pos, p.pos, List.length_append, Nat.add_assoc]
  · rw [q.fpos, p.fpos, Nat.add_assoc, hadd, List.length_append]
  · have hp := p.fpos
    have hq := q.fpos
    rw [q.outside off (by omega), p.outside off (by omega)]

end

/-- What a writer has written, as the block sees it. -/
theorem Put.stored_chan {s t : State} {k : Fin Config.curSlots} {bits : Bits} (p : Put (s.chan k) (t.chan k) bits) :
    Stored s t k bits := by
  obtain ⟨himage, hpos, hfpos, hin, hout⟩ := p.stored
  rw [State.putChan_chan_self] at himage hin
  rw [State.putChan_cur_self] at hpos hfpos hin hout
  exact ⟨himage, hpos, hfpos, hin, hout⟩

/-! ## A reader and a writer -/

/-- A lawful block with an open read cursor `ka` and an open write cursor `kb` on another file, at most at its end
(R63, R73). -/
structure Paired (ka kb : Fin Config.curSlots) (s : State) : Prop where
  inv : Inv s
  reader : OpenFor s ka .read
  writer : OpenFor s kb .write
  apart : (s.cur ka).fid ≠ (s.cur kb).fid
  noHole : (s.cur kb).fpos ≤ (fileBytes (s.chan kb)).length

/-- What is left after `n` bits were asked for through `ka` and `bits` were written through `kb`. -/
structure Piped (ka kb : Fin Config.curSlots) (s t : State) (n : Nat) (bits : Bits) : Prop where
  paired : Paired ka kb t
  streamed : Streamed (fun j => j = ka ∨ j = kb) s t
  pending : pending (t.chan ka) = (pending (s.chan ka)).drop n
  pos : absBitPos (t.cur ka) = absBitPos (s.cur ka) + min n (Machine.pending (s.chan ka)).length
  put : Put (s.chan kb) (t.chan kb) bits

section

variable {ka kb : Fin Config.curSlots} {s t u : State} {n m : Nat} {a b bits : Bits}

theorem Paired.of_ready (hr : Readable s ka) (hw : Writable s kb n) (hf : (s.cur ka).fid ≠ (s.cur kb).fid) :
    Paired ka kb s := ⟨hr.inv, hr.openFor, hw.openFor, hf, hw.noHole⟩

theorem Paired.sound (h : Paired ka kb s) : s.env.sound := ⟨h.inv.params, h.inv.memory⟩

theorem Paired.readerInv (h : Paired ka kb s) : CursorInv s.env (s.cur ka) := h.inv.cursors ka h.reader.isOpen

theorem Paired.writerInv (h : Paired ka kb s) : CursorInv s.env (s.cur kb) := h.inv.cursors kb h.writer.isOpen

/-- What is left of a pair when only its two cursors have moved. -/
theorem Paired.streamed (h : Paired ka kb s) (hi : Inv t) (hs : Streamed (fun j => j = ka ∨ j = kb) s t)
    (hh : (t.cur kb).fpos ≤ (fileBytes (t.chan kb)).length) : Paired ka kb t := by
  refine ⟨hi, ⟨(hs.moved.isOpen ka).trans h.reader.isOpen, hs.mode h.reader.mode⟩,
    ⟨(hs.moved.isOpen kb).trans h.writer.isOpen, hs.mode h.writer.mode⟩, ?_, hh⟩
  rw [hs.moved.fid, hs.moved.fid]
  exact h.apart

/-- The reader's steps are no business of the writer. -/
theorem Paired.piped_take (h : Paired ka kb s) (hs : CursorStep ka s t) (took : Took (s.chan ka) (t.chan ka) n) :
    Piped ka kb s t n [] := by
  have hne : kb ≠ ka := fun e => h.apart (by rw [e])
  have hstore : SameStore s.env t.env := took.step.2
  obtain ⟨hcur, hfile, himage⟩ := image_other hs hne hstore.files h.noHole h.writerInv h.writer.mode
  have hnoHole : (t.cur kb).fpos ≤ (fileBytes (t.chan kb)).length := by rw [hcur, hfile]; exact h.noHole
  have hstreamed := hs.streamed (P := fun j => j = ka ∨ j = kb) (.inl rfl)
  have hnil := Put.nil (ch := s.chan kb) h.writer.mode h.writerInv h.noHole
  have henv : EnvStep (s.cur kb).fid s.env t.env := by
    obtain ⟨hpar, hfiles, _⟩ := hstore
    have hf : ∀ f, t.env.file f = s.env.file f := fun f => by rw [Env.file, Env.file, hfiles]
    refine ⟨hpar, fun _ _ => by rw [hfiles], fun _ => by rw [hfiles]; exact id, fun b hb => ?_, ?_, hs.step.env.answers⟩
    · exact ⟨b, (hf _).symm.trans hb, le_max_left _ _⟩
    · rw [hpar, hfiles]
      exact id
  refine ⟨h.streamed (hs.inv h.reader.isOpen h.inv) hstreamed hnoHole, hstreamed, took.pending, took.pos, ?_⟩
  have hchan : t.chan kb = ⟨s.cur kb, t.env⟩ := by rw [State.chan, hcur]
  refine ⟨?_, himage.trans hnil.image, ?_, hnoHole, ?_, fun off _ => by rw [hfile]⟩ <;> rw [hchan]
  · exact ⟨rfl, rfl, rfl, rfl, henv, fun _ i => i.store henv.par (henv.present _ i.filePresent)⟩
  · exact hnil.pos
  · exact hnil.fpos

/-- The writer's steps are no business of the reader. -/
theorem Paired.piped_put (h : Paired ka kb s) (hs : CursorStep kb s t) (p : Put (s.chan kb) (t.chan kb) bits) :
    Piped ka kb s t 0 bits := by
  obtain ⟨hpending, hcur⟩ := pending_other hs (fun e => h.apart (by rw [e])) h.apart
  have hstreamed := hs.streamed (P := fun j => j = ka ∨ j = kb) (.inr rfl)
  refine ⟨h.streamed (hs.inv h.writer.isOpen h.inv) hstreamed p.noHole, hstreamed, hpending, ?_, p⟩
  rw [hcur, Nat.zero_min, Nat.add_zero]

theorem Piped.refl (h : Paired ka kb s) : Piped ka kb s s 0 [] :=
  h.piped_take (CursorStep.refl ka s) (Took.nil _)

theorem Piped.trans (h : Paired ka kb s) (h1 : Piped ka kb s t n a) (h2 : Piped ka kb t u m b) :
    Piped ka kb s u (n + m) (a ++ b) := by
  refine ⟨h2.paired, h1.streamed.trans h2.streamed, by rw [h2.pending, h1.pending, List.drop_drop], ?_,
    h1.put.trans h2.put h.writer.mode h.writerInv h.noHole⟩
  rw [h2.pos, h1.pos, h1.pending, List.length_drop]
  omega

theorem Piped.onlyCursors (h : Piped ka kb s t n bits) : OnlyCursors s t ka kb :=
  ⟨fun j hj hj' => h.streamed.moved.others j fun e => e.elim hj hj', h.streamed.moved.isOpen, h.streamed.moved.mode,
    h.streamed.moved.fid, h.streamed.moved.bufsz⟩

theorem OnlyCursors.congr (h : OnlyCursors s t ka kb) (hc : u.cursors = t.cursors) : OnlyCursors s u ka kb := by
  have hcur := State.cur_congr hc
  obtain ⟨hj, ho, hm, hf, hb⟩ := h
  refine ⟨fun j hne hne' => (hcur j).trans (hj j hne hne'), fun j => ?_, fun j => ?_, fun j => ?_, fun j => ?_⟩ <;>
    rw [hcur j]
  exacts [ho j, hm j, hf j, hb j]

end

/-! ## Lists of transfers -/

/-- One transfer: bits asked for through the reader, or bits put through the writer. -/
inductive Transfer where
  | take (n : Nat)
  | put (bits : Bits)

/-- How many bits a list of transfers asks for. -/
def taken : List Transfer → Nat
  | [] => 0
  | .take n :: ms => n + taken ms
  | .put _ :: ms => taken ms

/-- The bits a list of transfers puts. -/
def puts : List Transfer → Bits
  | [] => []
  | .take _ :: ms => puts ms
  | .put bits :: ms => bits ++ puts ms

/-- The transfer `x` on the block. -/
def Transfer.run (ka kb : Fin Config.curSlots) (x : Transfer) (s : State) : Res State Unit :=
  match x with
  | .take n => (onChan ka (readBits n) s).bind fun _ t => .ok () t
  | .put bits => onChan kb (writeBits bits) s

/-- Transfers one after the other. -/
def runTransfers (ka kb : Fin Config.curSlots) : List Transfer → State → Res State Unit
  | [], s => .ok () s
  | x :: ms, s => (x.run ka kb s).bind fun _ t => runTransfers ka kb ms t

theorem taken_append (ms ms' : List Transfer) : taken (ms ++ ms') = taken ms + taken ms' := by
  induction ms with
  | nil => exact (Nat.zero_add _).symm
  | cons x ms ih => cases x <;> simp only [List.cons_append, taken, ih, Nat.add_assoc]

theorem puts_append (ms ms' : List Transfer) : puts (ms ++ ms') = puts ms ++ puts ms' := by
  induction ms with
  | nil => rfl
  | cons x ms ih => cases x <;> simp only [List.cons_append, puts, ih, List.append_assoc]

/-- What a list of transfers does is what its first one does and what the others do. -/
theorem taken_cons (x : Transfer) (ms : List Transfer) : taken (x :: ms) = taken [x] + taken ms :=
  taken_append [x] ms

theorem puts_cons (x : Transfer) (ms : List Transfer) : puts (x :: ms) = puts [x] ++ puts ms := puts_append [x] ms

section

variable {ka kb : Fin Config.curSlots} {s t : State} {x : Transfer} {ms : List Transfer} {e : Err}

/-- A read that succeeds delivers the pending bits. -/
theorem Paired.piped_of_read {n : Nat} {bits : Bits} (h : Paired ka kb s) (ht : onChan ka (readBits n) s = .ok bits t) :
    bits = (pending (s.chan ka)).take n ∧ Piped ka kb s t n [] := by
  have hs := onChan_readBits n h.reader.mode
  rw [ht] at hs
  obtain ⟨ch, hch, rfl⟩ := onChan_eq_ok.1 ht
  obtain ⟨hbits, took⟩ := readBits_took_of_ok hch h.reader.mode h.readerInv h.sound
  exact ⟨hbits, h.piped_take hs (by rwa [State.putChan_chan_self])⟩

theorem Paired.piped_of_write {bits : Bits} (h : Paired ka kb s) (ht : onChan kb (writeBits bits) s = .ok () t) :
    Piped ka kb s t 0 bits := by
  have hs := onChan_writeBits bits h.writer.mode
  rw [ht] at hs
  obtain ⟨ch, hch, rfl⟩ := onChan_eq_ok.1 ht
  have p := writeBits_put_of_ok hch h.writer.mode h.writerInv h.sound h.noHole
  exact h.piped_put hs (by rwa [State.putChan_chan_self])

/-- A transfer that succeeds. -/
theorem Transfer.piped_of_ok (h : Paired ka kb s) (ht : x.run ka kb s = .ok () t) :
    Piped ka kb s t (taken [x]) (puts [x]) := by
  cases x with
  | take n =>
    obtain ⟨bits, u, hu, hut⟩ := Res.bind_eq_ok.1 ht
    cases hut
    exact (h.piped_of_read hu).2
  | put bits =>
    simp only [taken, puts, List.append_nil]
    exact h.piped_of_write ht

/-- Transfers that all succeed. -/
theorem piped_of_runTransfers (h : Paired ka kb s) (ht : runTransfers ka kb ms s = .ok () t) :
    Piped ka kb s t (taken ms) (puts ms) := by
  induction ms generalizing s with
  | nil =>
    cases ht
    exact Piped.refl h
  | cons x ms ih =>
    obtain ⟨_, u, hx, hms⟩ := Res.bind_eq_ok.1 ht
    have p := Transfer.piped_of_ok h hx
    rw [taken_cons, puts_cons]
    exact Piped.trans h p (ih p.paired hms)

/-! ## No access refused -/

/-- A transfer succeeds when no access is refused and what it puts fits the file. -/
theorem Transfer.run_ok (h : Paired ka kb s) (hn : noFail s.env)
    (hf : absBitPos (s.cur kb) + (puts [x]).length ≤ 8 * s.env.par.maxFileBytes) : ∃ t, x.run ka kb s = .ok () t := by
  cases x with
  | take n =>
    obtain ⟨t, ht, _⟩ := onChan_read ⟨h.inv, h.reader.isOpen, h.reader.mode, hn⟩ n
    exact ⟨t, by rw [Transfer.run, ht, Res.bind_ok]⟩
  | put bits =>
    rw [puts, puts, List.append_nil] at hf
    obtain ⟨t, ht, _⟩ := onChan_write bits ⟨h.inv, h.writer.isOpen, h.writer.mode, h.noHole, hn, hf⟩
    exact ⟨t, ht⟩

theorem runTransfers_ok (h : Paired ka kb s) (hn : noFail s.env)
    (hf : absBitPos (s.cur kb) + (puts ms).length ≤ 8 * s.env.par.maxFileBytes) :
    ∃ t, runTransfers ka kb ms s = .ok () t := by
  induction ms generalizing s with
  | nil => exact ⟨s, rfl⟩
  | cons x ms ih =>
    rw [puts_cons, List.length_append] at hf
    obtain ⟨u, hx⟩ := Transfer.run_ok (x := x) h hn (by omega)
    have p := Transfer.piped_of_ok h hx
    have hpos : absBitPos (u.cur kb) = absBitPos (s.cur kb) + (puts [x]).length := p.put.pos
    have hpar : u.env.par = s.env.par := p.put.step.env.par
    obtain ⟨t, ht⟩ := ih p.paired (p.put.step.env.noFail hn) (by rw [hpos, hpar]; omega)
    exact ⟨t, by rw [runTransfers, hx, Res.bind_ok, ht]⟩

/-! ## An access refused -/

/-- What is left of a list of transfers that a refused access has ended: the bits of the earlier transfers and a part of
those of its own; the buffer of its cursor is used up, or full. -/
def RefusedIn (ka kb : Fin Config.curSlots) (ms : List Transfer) (s t : State) : Prop :=
  (∃ before n after x, ms = before ++ .take n :: after ∧ x < n ∧ taken before + x < (pending (s.chan ka)).length ∧
      Piped ka kb s t (taken before + x) (puts before) ∧ (t.cur ka).valid ≤ (t.cur ka).byteP) ∨
    ∃ before bits after x, ms = before ++ .put bits :: after ∧ x < bits.length ∧
      Piped ka kb s t (taken before) (puts before ++ bits.take x) ∧ (t.cur kb).byteP = (t.cur kb).bufsz

/-- A transfer fails at a refused access only. -/
theorem Transfer.refusedIn (h : Paired ka kb s) (ht : x.run ka kb s = .raise e t) (ms : List Transfer) :
    e = .ioFailure ∧ RefusedIn ka kb (x :: ms) s t := by
  cases x with
  | take n =>
    have hs := onChan_readBits n h.reader.mode
    rcases Res.bind_eq_raise.1 ht with ht | ⟨_, _, _, hok⟩
    · rw [ht] at hs
      obtain ⟨ch, hch, rfl⟩ := onChan_eq_raise.1 ht
      obtain ⟨he, x, hxn, hxp, took, hv⟩ := readBits_of_raise hch h.reader.mode h.readerInv h.sound
      refine ⟨he, .inl ⟨[], n, ms, x, rfl, hxn, ?_, ?_, by rwa [State.putChan_cur_self]⟩⟩ <;> rw [taken, Nat.zero_add]
      · exact hxp
      · exact h.piped_take hs (by rwa [State.putChan_chan_self])
    · cases hok
  | put bits =>
    have hs := onChan_writeBits bits h.writer.mode
    have ht' : onChan kb (writeBits bits) s = .raise e t := ht
    rw [ht'] at hs
    obtain ⟨ch, hch, rfl⟩ := onChan_eq_raise.1 ht'
    obtain ⟨he, x, hx, p, hfull⟩ := writeBits_of_raise hch h.writer.mode h.writerInv h.sound h.noHole
    exact ⟨he, .inr ⟨[], bits, ms, x, rfl, hx, h.piped_put hs (by rwa [State.putChan_chan_self]),
      by rwa [State.putChan_cur_self]⟩⟩

/-- An access refused after a transfer that succeeded. -/
theorem RefusedIn.cons {u : State} (h : Paired ka kb s) (p : Piped ka kb s u (taken [x]) (puts [x]))
    (hr : RefusedIn ka kb ms u t) : RefusedIn ka kb (x :: ms) s t := by
  rcases hr with ⟨before, n, after, y, rfl, hy, hlt, hp, hv⟩ | ⟨before, bits, after, y, rfl, hy, hp, hfull⟩
  · refine .inl ⟨x :: before, n, after, y, rfl, hy, ?_, ?_, hv⟩ <;> rw [taken_cons, Nat.add_assoc]
    · rw [p.pending, List.length_drop] at hlt
      omega
    · rw [puts_cons]
      exact Piped.trans h p hp
  · refine .inr ⟨x :: before, bits, after, y, rfl, hy, ?_, hfull⟩
    rw [taken_cons, puts_cons, List.append_assoc]
    exact Piped.trans h p hp

/-- Transfers fail at a refused access only. -/
theorem refusedIn_of_runTransfers (h : Paired ka kb s) (ht : runTransfers ka kb ms s = .raise e t) :
    e = .ioFailure ∧ RefusedIn ka kb ms s t := by
  induction ms generalizing s with
  | nil => cases ht
  | cons x ms ih =>
    rcases Res.bind_eq_raise.1 ht with hx | ⟨_, u, hx, hms⟩
    · exact Transfer.refusedIn h hx ms
    · have p := Transfer.piped_of_ok h hx
      obtain ⟨he, hr⟩ := ih p.paired hms
      exact ⟨he, hr.cons h p⟩

end

end Sys2Proof.Machine

/-! # Proofs, family "payload": ENCODE and DECODE as lists of transfers -/

namespace Sys2Proof.Machine

open Sys2Proof

/-! ## Plans -/

/-- What a loop over a stream is to do: its transfers, and then what it answers or the error it raises. -/
structure Plan (α : Type) where
  transfers : List Transfer
  outcome : Except Err α

section

variable {α β : Type} {ka kb : Fin Config.curSlots} {s t : State} {p : Plan α} {e : Err}

/-- The plan behind the transfers `ms`. -/
def Plan.after (ms : List Transfer) (p : Plan α) : Plan α := ⟨ms ++ p.transfers, p.outcome⟩

/-- The end of a plan. -/
def Plan.answer (p : Plan α) (s : State) : Res State α :=
  match p.outcome with
  | .ok a => .ok a s
  | .error e => .raise e s

def Plan.run (ka kb : Fin Config.curSlots) (p : Plan α) (s : State) : Res State α :=
  (runTransfers ka kb p.transfers s).bind fun _ t => p.answer t

theorem Plan.run_take (n : Nat) (p : Plan α) (s : State) :
    (p.after [.take n]).run ka kb s = (onChan ka (readBits n) s).bind fun _ t => p.run ka kb t := by
  simp only [Plan.run, Plan.after, List.cons_append, List.nil_append, runTransfers, Transfer.run, Res.bind_assoc,
    Res.bind_ok]
  rfl

theorem Plan.run_put (bits : Bits) (p : Plan α) (s : State) :
    (p.after [.put bits]).run ka kb s = (onChan kb (writeBits bits) s).bind fun _ t => p.run ka kb t := by
  simp only [Plan.run, Plan.after, List.cons_append, List.nil_append, runTransfers, Transfer.run, Res.bind_assoc]
  rfl

theorem Plan.after_after (ms ms' : List Transfer) (p : Plan α) : (p.after ms').after ms = p.after (ms ++ ms') := by
  simp only [Plan.after, List.append_assoc]

/-- When no access is refused and what is put fits the file, a plan comes to its end. -/
theorem Plan.run_ready (hr : Readable s ka) (hw : Writable s kb (puts p.transfers).length)
    (hf : (s.cur ka).fid ≠ (s.cur kb).fid) :
    ∃ t, p.run ka kb s = p.answer t ∧ Piped ka kb s t (taken p.transfers) (puts p.transfers) := by
  have h := Paired.of_ready hr hw hf
  obtain ⟨t, ht⟩ := runTransfers_ok h hr.noFail hw.fits
  exact ⟨t, by rw [Plan.run, ht, Res.bind_ok], piped_of_runTransfers h ht⟩

/-- What a ready command that follows a plan leaves of its cursors: the plan's transfers are done. -/
structure Transferred (ka kb : Fin Config.curSlots) (ms : List Transfer) (s t : State) : Prop where
  only : OnlyCursors s t ka kb
  stored : Stored s t kb (puts ms)
  pending : pending (t.chan ka) = (pending (s.chan ka)).drop (taken ms)
  pos : absBitPos (t.cur ka) = absBitPos (s.cur ka) + min (taken ms) (Machine.pending (s.chan ka)).length

/-- The registers do not matter. -/
theorem Piped.transferred {ms : List Transfer} {u : State} (h : Piped ka kb s t (taken ms) (puts ms))
    (hc : u.cursors = t.cursors) (he : u.env = t.env) : Transferred ka kb ms s u := by
  have hcur := State.cur_congr hc ka
  have hchan : u.chan ka = t.chan ka := by rw [State.chan, State.chan, hcur, he]
  refine ⟨h.onlyCursors.congr hc, h.put.stored_chan.congr hc he, ?_, ?_⟩
  · rw [hchan]
    exact h.pending
  · rw [hcur]
    exact h.pos

/-- A ready command that follows a plan to its error. -/
theorem exec_of_plan_error {i : Instr} {f : α → State → Res State Unit}
    (hbody : bodyOf i s = (p.run ka kb s).bind f) (hout : p.outcome = .error e) (hr : Readable s ka)
    (hw : Writable s kb (puts p.transfers).length) (hf : (s.cur ka).fid ≠ (s.cur kb).fid) :
    ∃ t, exec i s = .next t ∧ t = failed { s with cursors := t.cursors, env := t.env } e.code e.info ∧
      Transferred ka kb p.transfers s t := by
  obtain ⟨t, ht, hp⟩ := Plan.run_ready hr hw hf
  rw [ht, Plan.answer, hout] at hbody
  refine ⟨_, exec_of_raise hbody, ?_, hp.transferred rfl rfl⟩
  conv_lhs => rw [hp.streamed.block]
  rfl

/-- A ready command that follows a plan to its answer, and gives two results. -/
theorem exec_of_plan_ok {i : Instr} {f : α → State → Res State Unit} {a : α} {x y : Reg}
    (hbody : bodyOf i s = (p.run ka kb s).bind f) (hout : p.outcome = .ok a)
    (hres : ∀ u, u = { s with cursors := u.cursors, env := u.env } → f a u = .ok () { u with a0 := x, a1 := y })
    (hr : Readable s ka) (hw : Writable s kb (puts p.transfers).length) (hf : (s.cur ka).fid ≠ (s.cur kb).fid) :
    ∃ t, exec i s = .next t ∧
      t = { s with a0 := x, a1 := y, cursors := t.cursors, env := t.env, err := 0, einfo := 0 } ∧
      Transferred ka kb p.transfers s t := by
  obtain ⟨t, ht, hp⟩ := Plan.run_ready hr hw hf
  rw [ht, Plan.answer, hout, Res.bind_ok, hres t hp.streamed.block] at hbody
  refine ⟨_, exec_of_ok hbody, ?_, hp.transferred rfl rfl⟩
  conv_lhs => rw [hp.streamed.block]
  rfl

/-- A plan fails at a refused access, or with its own error. -/
theorem Plan.run_raise (h : Paired ka kb s) (ht : p.run ka kb s = .raise e t) :
    (e = .ioFailure ∧ RefusedIn ka kb p.transfers s t) ∨ p.outcome = .error e := by
  rcases Res.bind_eq_raise.1 ht with ht | ⟨_, u, _, hu⟩
  · exact .inl (refusedIn_of_runTransfers h ht)
  · refine .inr ?_
    unfold Plan.answer at hu
    split at hu
    · cases hu
    · rename_i hout
      cases hu
      exact hout

end

/-! ## ENCODE (R221) -/

/-- What ENCODE's loop is to do with the words to come: `tot` bits are written so far. -/
def encodePlan (w : WordSize) (code : Nat → Option Bits) : List (WordBytes × Nat) → Nat → Plan Nat
  | [], tot => Plan.after [.take (Config.wbits w)] ⟨[], .ok tot⟩
  | p :: ws, tot => Plan.after [.take (Config.wbits w)] <|
    match code (wordSlot w p.1 p.2) with
    | none => ⟨[], .error (.noCode (wordSlot w p.1 p.2))⟩
    | some pat => Plan.after [.put pat] <|
      if p.2 < Config.wbits w then ⟨[], .ok (tot + pat.length)⟩ else encodePlan w code ws (tot + pat.length)

section

variable {ka kb : Fin Config.curSlots} {s t : State}

/-- The tokeniser asks for a word's bits and answers the first word of the pending stream (R150). -/
theorem nextWord_of_read (h : Paired ka kb s) :
    nextWord ka s = (onChan ka (readBits (Config.wbits s.w)) s).bind fun _ t =>
      .ok (wordsOf s.w (pending (s.chan ka))).head? t := by
  refine Res.bind_congr fun bits t ht => ?_
  obtain ⟨hbits, _⟩ := h.piped_of_read ht
  by_cases hp : pending (s.chan ka) = []
  · rw [hp, List.take_nil] at hbits
    rw [hp, hbits]
    rfl
  · obtain ⟨b, bs, rfl⟩ : ∃ b bs, bits = b :: bs := List.exists_cons_of_ne_nil fun hnil => by
      have hpos := wbits_pos s.w
      rw [hnil, eq_comm, List.take_eq_nil_iff] at hbits
      exact hbits.elim hpos.ne' hp
    rw [wordsOf_cons _ hp, List.head?_cons, show Config.wbits s.w = s.wbits from rfl, ← hbits]

/-- ENCODE's loop does what is planned for the words of the pending stream. -/
theorem encodeLoop_eq {fuel : Nat} (tot : Nat) (h : Paired ka kb s) (hf : (pending (s.chan ka)).length < fuel) :
    encodeLoop ka kb fuel tot s = (encodePlan s.w s.codeAt (wordsOf s.w (pending (s.chan ka))) tot).run ka kb s := by
  induction fuel generalizing tot s with
  | zero => exact absurd hf (Nat.not_lt_zero _)
  | succ fuel ih =>
    rw [encodeLoop, nextWord_of_read h, Res.bind_assoc]
    by_cases hp : pending (s.chan ka) = []
    · rw [hp, wordsOf_nil, encodePlan, Plan.run_take]
      rfl
    · have hpos := wbits_pos s.w
      have hlen := List.length_pos_iff.2 hp
      rw [wordsOf_cons s.w hp, encodePlan, Plan.run_take, List.head?_cons]
      generalize wordOfBits ((pending (s.chan ka)).take (Config.wbits s.w)) = x
      generalize ((pending (s.chan ka)).take (Config.wbits s.w)).length = len
      refine Res.bind_congr fun _ t ht => ?_
      have ptake := (h.piped_of_read ht).2
      obtain ⟨ch, _, rfl⟩ := onChan_eq_ok.1 ht
      have hcode : (s.putChan ka ch).codeAt (wordSlot (s.putChan ka ch).w x len) = s.codeAt (wordSlot s.w x len) := rfl
      simp only [Res.bind_ok, hcode]
      cases s.codeAt (wordSlot s.w x len) with
      | none => rfl
      | some pat =>
        simp only [Plan.run_put]
        refine Res.bind_congr fun _ u hu => ?_
        have pput := ptake.paired.piped_of_write hu
        obtain ⟨ch', _, rfl⟩ := onChan_eq_ok.1 hu
        have hrest := pput.pending.trans ptake.pending
        have hfuel := congrArg List.length hrest
        rw [List.length_drop] at hfuel
        by_cases hshort : len < Config.wbits s.w
        · rw [if_pos hshort]
          exact if_pos hshort
        · rw [if_neg hshort]
          refine (if_neg hshort).trans ?_
          rw [ih _ pput.paired (by omega), hrest]
          rfl

/-- Behind its checks ENCODE does what is planned for the pending stream, and gives the number of bits (R221). -/
theorem bodyOf_encode {ca cb : BitVec 4} (ha : s.cursorOf? ca = some ka) (hb : s.cursorOf? cb = some kb)
    (h : Paired ka kb s) : bodyOf (.encode ca cb) s =
      ((encodePlan s.w s.codeAt (wordsOf s.w (pending (s.chan ka))) 0).run ka kb s).bind fun tot t =>
        .ok () { t with a0 := resultReg tot } := by
  have hbody := bodyOf_of_checked (i := .encode ca cb) (twoCursors_some ha hb _ _) h.reader
  rw [bodyOf_of_checked hbody h.writer, encodeLoop_eq 0 h (pending_lt_fuel _)]

end

end Sys2Proof.Machine

/-! # Proofs, family "payload": ENCODE (O49, O50) -/

namespace Sys2Proof.Machine

open Sys2Proof

section

variable {w : WordSize} {code : Nat → Option Bits}

/-- When every word of a stream has a code, ENCODE's loop takes the whole stream and puts the codes. -/
theorem encodePlan_coded {bits : Bits} {pats : List Bits} (tot : Nat)
    (h : (wordsOf w bits).map (fun p => code (wordSlot w p.1 p.2)) = pats.map some) :
    ∃ ms, encodePlan w code (wordsOf w bits) tot = ⟨ms, .ok (tot + pats.flatten.length)⟩ ∧ puts ms = pats.flatten ∧
      bits.length ≤ taken ms := by
  induction bits using bits_wordInduction w generalizing pats tot with
  | nil =>
    obtain rfl : pats = [] := List.map_eq_nil_iff.1 h.symm
    exact ⟨_, rfl, rfl, Nat.zero_le _⟩
  | short bits hb hlt =>
    rw [wordsOf_short w hb hlt] at h ⊢
    obtain ⟨pat, rest, rfl, hcode, hrest⟩ := List.map_eq_cons_iff.1 h.symm
    obtain rfl := List.map_eq_nil_iff.1 hrest
    refine ⟨[.take (Config.wbits w), .put pat], ?_, rfl, hlt.le⟩
    simp only [encodePlan, ← hcode, if_pos hlt, Plan.after, List.flatten_cons, List.flatten_nil, List.append_nil,
      List.cons_append, List.nil_append]
  | full bits hle ih =>
    rw [wordsOf_full w hle] at h ⊢
    obtain ⟨pat, rest, rfl, hcode, hrest⟩ := List.map_eq_cons_iff.1 h.symm
    obtain ⟨ms, hplan, hputs, htaken⟩ := ih (tot + pat.length) hrest.symm
    rw [List.length_drop] at htaken
    refine ⟨.take (Config.wbits w) :: .put pat :: ms, ?_, congrArg (pat ++ ·) hputs, by rw [taken, taken]; omega⟩
    simp only [encodePlan, ← hcode, if_neg (lt_irrefl (Config.wbits w)), hplan, Plan.after, List.flatten_cons,
      List.length_append, Nat.add_assoc, List.cons_append, List.nil_append]

/-- At the first word without a code ENCODE's loop has put the codes of the full words before it, and it ends there. -/
theorem encodePlan_uncoded {ws rest : List (WordBytes × Nat)} {x : WordBytes} {len : Nat} {pats : List Bits} (tot : Nat)
    (hfull : ∀ p ∈ ws, p.2 = Config.wbits w) (h : ws.map (fun p => code (wordSlot w p.1 p.2)) = pats.map some)
    (hx : code (wordSlot w x len) = none) :
    ∃ ms, encodePlan w code (ws ++ (x, len) :: rest) tot = ⟨ms, .error (.noCode (wordSlot w x len))⟩ ∧
      puts ms = pats.flatten ∧ taken ms = Config.wbits w * (ws.length + 1) := by
  induction ws generalizing pats tot with
  | nil =>
    obtain rfl : pats = [] := List.map_eq_nil_iff.1 h.symm
    refine ⟨[.take (Config.wbits w)], ?_, rfl, (Nat.mul_one _).symm⟩
    simp only [List.nil_append, encodePlan, hx, Plan.after, List.append_nil]
  | cons p ws ih =>
    obtain ⟨pat, rest', rfl, hcode, hrest⟩ := List.map_eq_cons_iff.1 h.symm
    obtain ⟨hp, hws⟩ := List.forall_mem_cons.1 hfull
    obtain ⟨ms, hplan, hputs, htaken⟩ := ih (tot + pat.length) hws hrest.symm
    refine ⟨.take (Config.wbits w) :: .put pat :: ms, ?_, congrArg (pat ++ ·) hputs, ?_⟩
    · simp only [List.cons_append, encodePlan, ← hcode, if_neg hp.not_lt, hplan, Plan.after, List.nil_append]
    · rw [taken, taken, htaken, List.length_cons, Nat.mul_succ _ (ws.length + 1), Nat.add_comm]

end

/-- Settles O49: the plan of a stream whose words all have codes ends without error, and its length fits A0. -/
theorem encodeWritesCodes : Obligations.EncodeWritesCodes := by
  intro s ca cb ka kb pats ha hb hr hf hcodes hw
  obtain ⟨ms, hplan, hputs, htaken⟩ := encodePlan_coded 0 hcodes
  rw [← hputs] at hw
  have hbody := bodyOf_encode ha hb (Paired.of_ready hr hw hf)
  rw [hplan] at hbody
  obtain ⟨t, ht, hstate, htr⟩ := exec_of_plan_ok (x := BitVec.ofNat 64 pats.flatten.length) (y := s.a1) hbody rfl
    (fun u hu => by rw [Nat.zero_add, resultReg_of_lt (hputs ▸ hw.length_lt), hu]) hr hw hf
  refine ⟨t, ht, hstate, htr.only, hputs ▸ htr.stored, ?_, ?_⟩
  · exact htr.pending.trans (List.drop_of_length_le htaken)
  · exact htr.pos.trans (by rw [Nat.min_eq_right htaken])

/-- Settles O50: the words before the one without a code are not the last, so they are full. -/
theorem encodeStopsAtNoCode : Obligations.EncodeStopsAtNoCode := by
  intro s ca cb ka kb ws x len rest pats ha hb hr hf hwords hcodes hx hw
  have hfull : ∀ p ∈ ws, p.2 = Config.wbits s.w := fun p hp => by
    refine full_of_mem_dropLast s.w (pending (s.chan ka)) p ?_
    rw [hwords, List.dropLast_append_of_ne_nil (List.cons_ne_nil _ _)]
    exact List.mem_append_left _ hp
  obtain ⟨ms, hplan, hputs, htaken⟩ := encodePlan_uncoded (rest := rest) 0 hfull hcodes hx
  rw [← hputs] at hw
  have hbody := bodyOf_encode ha hb (Paired.of_ready hr hw hf)
  rw [hwords, hplan] at hbody
  obtain ⟨t, ht, hstate, htr⟩ := exec_of_plan_error hbody rfl hr hw hf
  exact ⟨t, ht, hstate, htr.only, hputs ▸ htr.stored, htaken ▸ htr.pending⟩

end Sys2Proof.Machine

/-! # Proofs, family "payload": DECODE (O51, O52) -/

namespace Sys2Proof.Machine

open Sys2Proof

/-- What DECODE's loop is to do with `n` of the bits to come: `k` bits are consumed, `em` words emitted, and the walk is
at node `cur`. -/
def decodePlan (nodes : List Node) (root : Nat) : Nat → Nat → Nat → Nat → Bits → Plan (Nat × Option Nat)
  | 0, _, em, cur, _ => ⟨[], .ok (em, some cur)⟩
  | _ + 1, k, _, _, [] => Plan.after [.take 1] ⟨[], .error (.unexpectedEof k)⟩
  | n + 1, k, em, cur, b :: bs => Plan.after [.take 1] <|
    match walkStep nodes root cur b with
    | .fail sub => ⟨[], .error (.corruptedTree sub)⟩
    | .goto nx => decodePlan nodes root n (k + 1) em nx bs
    | .emit leaf =>
      Plan.after [.put (leafBits (nodeAt nodes leaf))] (decodePlan nodes root n (k + 1) (em + 1) root bs)

section

variable {ka kb : Fin Config.curSlots} {s t : State}

theorem readBits_one (ch : Chan) : readBits 1 ch = (readBit ch).bind fun b ch' => .ok b.toList ch' := by
  refine Res.bind_congr fun b ch' _ => ?_
  cases b <;> rfl

/-- Reading one bit is asking for one bit. -/
theorem onChan_readBit_bind {α : Type} (k : Fin Config.curSlots) (s : State) (f : Option Bool → State → Res State α) :
    (onChan k readBit s).bind f = (onChan k (readBits 1) s).bind fun bits t => f bits.head? t := by
  have h : onChan k (readBits 1) s = (onChan k readBit s).bind fun b t => .ok b.toList t := by
    rw [show readBits 1 = fun ch => (readBit ch).bind fun b ch' => .ok b.toList ch' from funext readBits_one,
      onChan_bind]
    exact Res.bind_congr fun b t _ => by simp [onChan]
  rw [h, Res.bind_assoc]
  exact Res.bind_congr fun b t _ => by cases b <;> rfl

/-- DECODE's loop does what is planned for the pending stream. -/
theorem decodeLoop_eq {root : Nat} (n k em cur : Nat) (h : Paired ka kb s) (hr : s.root = some root) :
    decodeLoop ka kb n k em (some cur) s =
      (decodePlan s.nodes root n k em cur (pending (s.chan ka))).run ka kb s := by
  induction n generalizing k em cur s with
  | zero => rfl
  | succ n ih =>
    rw [decodeLoop]
    simp only [hr]
    rw [onChan_readBit_bind]
    cases hp : pending (s.chan ka) with
    | nil =>
      rw [decodePlan, Plan.run_take]
      refine Res.bind_congr fun bits t ht => ?_
      obtain ⟨rfl, _⟩ := h.piped_of_read ht
      rw [hp]
      rfl
    | cons b bs =>
      rw [decodePlan, Plan.run_take]
      refine Res.bind_congr fun bits t ht => ?_
      obtain ⟨rfl, ptake⟩ := h.piped_of_read ht
      have hrest : pending (t.chan ka) = bs := by rw [ptake.pending, hp]; rfl
      obtain ⟨ch, _, rfl⟩ := onChan_eq_ok.1 ht
      simp only [hp, List.take_succ_cons, List.head?_cons, Option.getD_some, State.putChan_nodes]
      cases hstep : walkStep s.nodes root cur b with
      | fail sub => rfl
      | goto nx =>
        simp only
        rw [ih _ _ _ ptake.paired hr, hrest]
        rfl
      | emit leaf =>
        simp only [Plan.run_put]
        refine Res.bind_congr fun _ u hu => ?_
        have pput := ptake.paired.piped_of_write hu
        obtain ⟨ch', _, rfl⟩ := onChan_eq_ok.1 hu
        rw [ih _ _ _ pput.paired hr, pput.pending, hrest]
        rfl

/-- Behind its checks DECODE is its loop and two results (R223). -/
theorem bodyOf_decode {ca cb : BitVec 4} (ha : s.cursorOf? ca = some ka) (hb : s.cursorOf? cb = some kb)
    (hr : OpenFor s ka .read) (hw : OpenFor s kb .write) : bodyOf (.decode ca cb) s =
      (decodeLoop ka kb s.a0.toNat 0 0 s.root s).bind fun r t =>
        .ok () { t with a0 := resultReg r.1, a1 := if r.2 = t.root then 0 else 1 } :=
  bodyOf_of_checked (bodyOf_of_checked (i := .decode ca cb) (twoCursors_some ha hb _ _) hr) hw

/-- With a tree, the loop does what is planned for the pending stream. -/
theorem bodyOf_decode_plan {ca cb : BitVec 4} {r : Nat} (ha : s.cursorOf? ca = some ka) (hb : s.cursorOf? cb = some kb)
    (h : Paired ka kb s) (hr : s.root = some r) : bodyOf (.decode ca cb) s =
      ((decodePlan s.nodes r s.a0.toNat 0 0 r (pending (s.chan ka))).run ka kb s).bind fun r t =>
        .ok () { t with a0 := resultReg r.1, a1 := if r.2 = t.root then 0 else 1 } := by
  rw [bodyOf_decode ha hb h.reader h.writer, hr, decodeLoop_eq _ _ _ _ h hr]

end

/-- The bits of the words of leaves, in order (R223). -/
def leavesBits (nodes : List Node) (leaves : List Nat) : Bits := leaves.flatMap fun n => leafBits (nodeAt nodes n)

section

variable {nodes : List Node} {root : Nat}

/-- Along bits that can be followed, DECODE's loop takes them, puts the words of the leaves it reaches, and goes on. -/
theorem decodePlan_walk {bits : Bits} {cur last : Nat} {leaves : List Nat} (n k em : Nat) (rest : Bits)
    (h : walkBits nodes root cur bits = some (leaves, last)) :
    ∃ ms, taken ms = bits.length ∧ puts ms = leavesBits nodes leaves ∧
      decodePlan nodes root (bits.length + n) k em cur (bits ++ rest) =
        (decodePlan nodes root n (k + bits.length) (em + leaves.length) last rest).after ms := by
  induction bits generalizing k em cur leaves with
  | nil =>
    cases h
    exact ⟨[], rfl, rfl, by rw [List.length_nil, Nat.zero_add]; rfl⟩
  | cons b bs ih =>
    rw [walkBits] at h
    rw [List.length_cons, Nat.add_right_comm, List.cons_append, decodePlan, ← Nat.add_assoc, Nat.add_right_comm]
    cases hstep : walkStep nodes root cur b with
    | fail sub =>
      rw [hstep] at h
      cases h
    | goto nx =>
      rw [hstep] at h
      obtain ⟨ms, htaken, hputs, hplan⟩ := ih (k + 1) em h
      refine ⟨.take 1 :: ms, by rw [taken, htaken, Nat.add_comm], hputs, ?_⟩
      simp only [hplan]
      rfl
    | emit leaf =>
      rw [hstep] at h
      obtain ⟨⟨leaves', last'⟩, hwalk, hpair⟩ := Option.map_eq_some_iff.1 h
      cases hpair
      obtain ⟨ms, htaken, hputs, hplan⟩ := ih (k + 1) (em + 1) hwalk
      refine ⟨.take 1 :: .put (leafBits (nodeAt nodes leaf)) :: ms, by rw [taken, taken, htaken, Nat.add_comm],
        congrArg (leafBits (nodeAt nodes leaf) ++ ·) hputs, ?_⟩
      simp only [hplan, List.length_cons]
      rw [Nat.add_right_comm em, Nat.add_assoc em]
      rfl

/-- A walk reaches at most one leaf with each bit. -/
theorem length_leaves_le {bits : Bits} {cur last : Nat} {leaves : List Nat}
    (h : walkBits nodes root cur bits = some (leaves, last)) : leaves.length ≤ bits.length := by
  induction bits generalizing cur leaves with
  | nil =>
    cases h
    exact Nat.le_refl _
  | cons b bs ih =>
    rw [walkBits] at h
    split at h
    · cases h
    · exact (ih h).trans (Nat.le_succ _)
    · obtain ⟨⟨leaves', last'⟩, hwalk, hpair⟩ := Option.map_eq_some_iff.1 h
      cases hpair
      exact Nat.succ_le_succ (ih hwalk)

/-- With a leaf root, every `0` is its code (R224). -/
theorem walkBits_leaf_root (h : (nodeAt nodes root).leaf = true) (n : Nat) :
    walkBits nodes root root (List.replicate n false) = some (List.replicate n root, root) := by
  have hstep : walkStep nodes root root false = .emit root := by simp [walkStep, h]
  induction n with
  | zero => rfl
  | succ n ih => simp only [List.replicate_succ, walkBits, hstep, ih, Option.map_some]

end

/-- Settles O51: the walk over all A0 bits is the whole plan. -/
theorem decodeWritesWords : Obligations.DecodeWritesWords := by
  intro s ca cb ka kb r leaves last ha hb hr hf hroot hle hwalk hw
  have hlen : ((pending (s.chan ka)).take s.a0.toNat).length = s.a0.toNat := List.length_take_of_le hle
  have hcount : leaves.length < 2 ^ 64 := (length_leaves_le hwalk).trans_lt (hlen.trans_lt s.a0.isLt)
  obtain ⟨ms, htaken, hputs, hplan⟩ := decodePlan_walk 0 0 0 ((pending (s.chan ka)).drop s.a0.toNat) hwalk
  have hbody := bodyOf_decode_plan ha hb (Paired.of_ready hr hw hf) hroot
  rw [List.take_append_drop, hlen, Nat.add_zero, decodePlan, Plan.after, List.append_nil] at hplan
  rw [hlen] at htaken
  rw [hplan] at hbody
  obtain ⟨t, ht, hstate, htr⟩ := exec_of_plan_ok (x := BitVec.ofNat 64 leaves.length) (y := if last = r then 0 else 1)
    hbody rfl (fun u hu => by rw [Nat.zero_add, resultReg_of_lt hcount, hu]; simp [hroot]) hr (by rwa [hputs]) hf
  obtain ⟨honly, hstored, hpending, hpos⟩ := htr
  rw [hputs] at hstored
  rw [htaken] at hpending hpos
  exact ⟨t, ht, hstate, honly, hstored, hpending, hpos.trans (by rw [Nat.min_eq_left hle])⟩

/-- DECODE when the walk along `bits` is followed by one more bit, which is not there or cannot be followed. -/
theorem exec_decode_of_walk {s : State} {ca cb : BitVec 4} {ka kb : Fin Config.curSlots} {bits rest : Bits}
    {r n last : Nat} {leaves : List Nat} {e : Err} (ha : s.cursorOf? ca = some ka) (hb : s.cursorOf? cb = some kb)
    (hr : Readable s ka) (hw : Writable s kb (leavesBits s.nodes leaves).length) (hf : (s.cur ka).fid ≠ (s.cur kb).fid)
    (hroot : s.root = some r) (hp : pending (s.chan ka) = bits ++ rest) (hn : s.a0.toNat = bits.length + (n + 1))
    (hwalk : walkBits s.nodes r r bits = some (leaves, last))
    (hend : decodePlan s.nodes r (n + 1) bits.length leaves.length last rest = Plan.after [.take 1] ⟨[], .error e⟩) :
    ∃ t, exec (.decode ca cb) s = .next t ∧ t = failed { s with cursors := t.cursors, env := t.env } e.code e.info ∧
      OnlyCursors s t ka kb ∧ Stored s t kb (leavesBits s.nodes leaves) ∧ pending (t.chan ka) = rest.drop 1 := by
  obtain ⟨ms, htaken, hputs, hplan⟩ := decodePlan_walk (n + 1) 0 0 rest hwalk
  rw [Nat.zero_add, Nat.zero_add, hend, Plan.after_after, ← hn, ← hp] at hplan
  have hbody := bodyOf_decode_plan ha hb (Paired.of_ready hr hw hf) hroot
  rw [hplan] at hbody
  have hputs' : puts (ms ++ [.take 1] ++ []) = leavesBits s.nodes leaves := by
    rw [List.append_nil, puts_append, hputs]
    exact List.append_nil _
  have htaken' : taken (ms ++ [.take 1] ++ []) = bits.length + 1 := by
    rw [List.append_nil, taken_append, htaken]
    rfl
  obtain ⟨t, ht, hstate, honly, hstored, hpending, _⟩ := exec_of_plan_error hbody rfl hr (by rwa [← hputs'] at hw) hf
  refine ⟨t, ht, hstate, honly, hputs' ▸ hstored, hpending.trans ?_⟩
  rw [hp, Plan.after, htaken', List.drop_length_add_append]

/-- Settles O52: a walk that ends too early is followed by a bit that is not there, or cannot be followed. -/
theorem decodeStops : Obligations.DecodeStops := by
  intro s ca cb ka kb ha hb hr hf
  refine ⟨fun ho hm => ?_, fun r leaves last hroot hlt hwalk hw => ?_, fun r n rest hroot hleaf hlt hp hw => ?_⟩
  · have hbody := bodyOf_decode ha hb hr.openFor ⟨ho, hm⟩
    refine ⟨fun h0 => exec_of_ok (t := { s with a0 := 0, a1 := 0 }) ?_, fun h0 hroot => ?_⟩
    · rw [hbody, h0]
      simp [decodeLoop, resultReg]
    · obtain ⟨n, hn⟩ : ∃ n, s.a0.toNat = n + 1 := Nat.exists_eq_succ_of_ne_zero fun h => h0 (BitVec.eq_of_toNat_eq h)
      refine exec_of_raise (e := .corruptedTree 5) (hbody.trans ?_)
      rw [hn, decodeLoop]
      simp only [hroot]
      rfl
  · obtain ⟨n, hn⟩ : ∃ n, s.a0.toNat = (pending (s.chan ka)).length + (n + 1) :=
      ⟨s.a0.toNat - (pending (s.chan ka)).length - 1, by omega⟩
    exact exec_decode_of_walk ha hb hr hw hf hroot (List.append_nil _).symm hn hwalk rfl
  · obtain ⟨m, hm⟩ : ∃ m, s.a0.toNat = (List.replicate n false).length + (m + 1) :=
      ⟨s.a0.toNat - n - 1, by rw [List.length_replicate]; omega⟩
    have hbits : leavesBits s.nodes (List.replicate n r) =
        (List.replicate n (leafBits (nodeAt s.nodes r))).flatten := by
      rw [leavesBits, List.flatMap, List.map_replicate]
    have hlen : (leavesBits s.nodes (List.replicate n r)).length = n * (nodeAt s.nodes r).bitLen := by
      simp [hbits, leafBits]
    rw [← hlen] at hw
    rw [← hbits]
    exact exec_decode_of_walk (e := .corruptedTree 3) ha hb hr hw hf hroot hp hm (walkBits_leaf_root hleaf n)
      (by simp [decodePlan, walkStep, hleaf])

end Sys2Proof.Machine

/-! # Proofs, family "payload": DECODE over a tree inverts ENCODE with the tree's codes (O53) -/

namespace Sys2Proof.Machine

open Sys2Proof

/-! ## The leaves of a tree and their shape -/

section

variable {nodes : List Node} {r : Nat}

theorem leafPaths_fst {fuel n : Nat} (path : Bits) (h : treeOk nodes fuel n = true) :
    (leafPaths nodes fuel n path).map Prod.fst = (leavesOf nodes fuel n).map (nodeAt nodes) := by
  induction fuel generalizing n path with
  | zero => rfl
  | succ fuel ih =>
    rcases treeOk_shape h with hleaf | ⟨hinner, a, b, ha, hb, hoka, hokb⟩
    · rw [leafPaths_leaf _ _ hleaf, leavesOf_leaf _ hleaf]
      rfl
    · rw [leafPaths_inner _ _ hinner ha hb, leavesOf_inner _ hinner ha hb, List.map_append, List.map_append, ih _ hoka,
        ih _ hokb]

/-- A tree whose root is a leaf has one leaf, at the end of the empty path. -/
theorem treeShape_leaf (h : treeOk nodes nodes.length r = true) (hleaf : (nodeAt nodes r).leaf = true) :
    treeShape nodes r = [leafShape (nodeAt nodes r, [])] := by
  obtain ⟨fuel, hfuel⟩ : ∃ fuel, nodes.length = fuel + 1 := Nat.exists_eq_succ_of_ne_zero (treeOk_lt h).ne_bot
  rw [treeShape, hfuel, leafPaths_leaf _ _ hleaf]
  rfl

/-- The walk to a leaf that the shape of a tree with an internal root tells of. -/
theorem walkBits_of_mem_treeShape {wb : WordBytes} {len : Nat} {path : Bits} (h : treeOk nodes nodes.length r = true)
    (hinner : (nodeAt nodes r).leaf = false) (hx : (wb, len, path) ∈ treeShape nodes r) :
    ∃ m, walkBits nodes r r path = some ([m], r) ∧ (nodeAt nodes m).wb = wb ∧ (nodeAt nodes m).bitLen = len := by
  obtain ⟨⟨x, p⟩, hmem, he⟩ := List.mem_map.1 hx
  cases he
  have hstart : WalksTo nodes r [] r := by rw [WalksTo, hinner]; rfl
  obtain ⟨m, rfl, hleaf, hw⟩ := hstart.of_mem_leafPaths hinner h hmem
  exact ⟨m, hw.leaf hleaf, rfl, rfl⟩

/-- The shape of a tree tells whether its root is a leaf: then the empty path leads to one. -/
theorem leaf_iff_nil_mem_treeShape (h : treeOk nodes nodes.length r = true) :
    (nodeAt nodes r).leaf = true ↔ ∃ wb len, (wb, len, []) ∈ treeShape nodes r := by
  refine ⟨fun hleaf => ?_, fun ⟨wb, len, hx⟩ => ?_⟩
  · rw [treeShape_leaf h hleaf]
    exact ⟨_, _, List.mem_singleton_self _⟩
  · by_contra hne
    obtain ⟨m, hwalk, _⟩ := walkBits_of_mem_treeShape h (by simpa using hne) hx
    cases hwalk

/-- The code of the leaf at the end of `path`: a leaf root has the code `0` (R191). -/
def codeOfPath (nodes : List Node) (r : Nat) (path : Bits) : Bits := if (nodeAt nodes r).leaf then [false] else path

/-- DECODE's walk along a leaf's code emits the leaf and is back at the root (R195, R223). -/
theorem walkBits_codeOfPath {wb : WordBytes} {len : Nat} {path : Bits} (h : treeOk nodes nodes.length r = true)
    (hx : (wb, len, path) ∈ treeShape nodes r) :
    ∃ m, walkBits nodes r r (codeOfPath nodes r path) = some ([m], r) ∧ (nodeAt nodes m).wb = wb ∧
      (nodeAt nodes m).bitLen = len := by
  by_cases hleaf : (nodeAt nodes r).leaf = true
  · rw [treeShape_leaf h hleaf, List.mem_singleton] at hx
    cases hx
    rw [codeOfPath, if_pos hleaf]
    exact ⟨r, walkBits_leaf_root hleaf 1, rfl, rfl⟩
  · rw [codeOfPath, if_neg hleaf]
    exact walkBits_of_mem_treeShape h (by simpa using hleaf) hx

/-- A copy of a tree's shape has the tree's codes. -/
theorem codeOfPath_congr {nodes' : List Node} {r' : Nat} (h : treeOk nodes nodes.length r = true)
    (h' : treeOk nodes' nodes'.length r' = true) (he : treeShape nodes' r' = treeShape nodes r) (path : Bits) :
    codeOfPath nodes' r' path = codeOfPath nodes r path := by
  have hleaf : (nodeAt nodes' r').leaf = true ↔ (nodeAt nodes r).leaf = true := by
    rw [leaf_iff_nil_mem_treeShape h, leaf_iff_nil_mem_treeShape h', he]
  simp only [codeOfPath, hleaf]

/-- Every code of a tree is that of a leaf of its slot. -/
theorem exists_leaf_of_mem_treeCodes {s : State} {i : Nat} {pat : Bits} (h : treeOk s.nodes s.nodes.length r = true)
    (hp : (i, pat) ∈ treeCodes s r) : ∃ n ∈ leavesOf s.nodes s.nodes.length r, slotOf s.w (nodeAt s.nodes n) = i ∧
      ∃ path, pat = codeOfPath s.nodes r path ∧ leafShape (nodeAt s.nodes n, path) ∈ treeShape s.nodes r := by
  have hpath : ∃ x path, pat = codeOfPath s.nodes r path ∧ slotOf s.w x = i ∧
      (x, path) ∈ leafPaths s.nodes s.nodes.length r [] := by
    by_cases hleaf : (nodeAt s.nodes r).leaf = true
    · rw [treeCodes_leaf hleaf, List.mem_singleton] at hp
      cases hp
      obtain ⟨fuel, hfuel⟩ : ∃ fuel, s.nodes.length = fuel + 1 := Nat.exists_eq_succ_of_ne_zero (treeOk_lt h).ne_bot
      refine ⟨_, [], (if_pos hleaf).symm, rfl, ?_⟩
      rw [hfuel, leafPaths_leaf _ _ hleaf]
      exact List.mem_singleton_self _
    · rw [treeCodes_inner (by simpa using hleaf), List.mem_map] at hp
      obtain ⟨⟨x, path⟩, hx, he⟩ := hp
      cases he
      exact ⟨x, path, (if_neg hleaf).symm, rfl, hx⟩
  obtain ⟨x, path, rfl, rfl, hx⟩ := hpath
  have hfst := List.mem_map_of_mem (f := Prod.fst) hx
  rw [leafPaths_fst [] h, List.mem_map] at hfst
  obtain ⟨n, hn, rfl⟩ := hfst
  exact ⟨n, hn, rfl, path, rfl, List.mem_map_of_mem (f := leafShape) hx⟩

end

/-! ## The word of a leaf and the word of its slot -/

theorem leaf_of_mem_leavesOf {nodes : List Node} {fuel n m : Nat} (h : treeOk nodes fuel n = true)
    (hm : m ∈ leavesOf nodes fuel n) : (nodeAt nodes m).leaf = true ∧ m < nodes.length := by
  induction fuel generalizing n with
  | zero => cases h
  | succ fuel ih =>
    rcases treeOk_shape h with hleaf | ⟨hinner, a, b, ha, hb, hoka, hokb⟩
    · rw [leavesOf_leaf _ hleaf, List.mem_singleton] at hm
      exact hm ▸ ⟨hleaf, treeOk_lt h⟩
    · rw [leavesOf_inner _ hinner ha hb, List.mem_append] at hm
      exact hm.elim (ih hoka) (ih hokb)

/-- A word and a leaf with the word's slot: full words are told by their slot, and tail words by the leaf's own. -/
theorem leaf_word_of_slot {w : WordSize} {x : Node} {wb : WordBytes} {len : Nat} (hx : x.bitLen ≤ Config.wbits w)
    (hclear : wordClear x.wb x.bitLen = true) (hlen : len ≤ Config.wbits w) (hwb : wordClear wb len = true)
    (hslot : slotOf w x = wordSlot w wb len)
    (htail : len < Config.wbits w → x.bitLen < Config.wbits w → x.wb = wb ∧ x.bitLen = len) :
    x.wb = wb ∧ x.bitLen = len := by
  have hx' := widx_lt w x.wb
  have hwb' := widx_lt w wb
  rw [slotOf, wordSlot] at hslot
  by_cases hfull : len = Config.wbits w
  · by_cases hxfull : x.bitLen = Config.wbits w
    · rw [if_pos hxfull, if_pos hfull] at hslot
      rw [hxfull] at hclear
      rw [hfull] at hwb
      refine ⟨?_, hxfull.trans hfull.symm⟩
      rw [← idxword_widx w hclear, hslot, idxword_widx w hwb]
    · rw [if_neg hxfull, if_pos hfull] at hslot
      omega
  · by_cases hxfull : x.bitLen = Config.wbits w
    · rw [if_pos hxfull, if_neg hfull] at hslot
      omega
    · exact htail (by omega) (by omega)

/-! ## The walk along the codes of words -/

/-- When each code walks from the root to a leaf that holds its word, the codes in a row walk to the words. -/
theorem walkBits_codes {nodes : List Node} {r : Nat} {code : WordBytes × Nat → Option Bits}
    {ws : List (WordBytes × Nat)} {pats : List Bits} (h : ws.map code = pats.map some)
    (hcode : ∀ p ∈ ws, ∀ pat, code p = some pat →
      ∃ m, walkBits nodes r r pat = some ([m], r) ∧ leafBits (nodeAt nodes m) = wordBits p.1 p.2) :
    ∃ leaves, walkBits nodes r r pats.flatten = some (leaves, r) ∧ leaves.length = ws.length ∧
      leavesBits nodes leaves = ws.flatMap fun p => wordBits p.1 p.2 := by
  induction ws generalizing pats with
  | nil =>
    obtain rfl : pats = [] := List.map_eq_nil_iff.1 h.symm
    exact ⟨[], rfl, rfl, rfl⟩
  | cons p ws ih =>
    obtain ⟨pat, rest, rfl, hp, hrest⟩ := List.map_eq_cons_iff.1 h.symm
    obtain ⟨hhead, htail⟩ := List.forall_mem_cons.1 hcode
    obtain ⟨m, hm, hbits⟩ := hhead pat hp.symm
    obtain ⟨leaves, hwalk, hlen, hword⟩ := ih hrest.symm htail
    refine ⟨m :: leaves, ?_, congrArg (· + 1) hlen, ?_⟩
    · rw [List.flatten_cons, walkBits_append, hm, Option.bind_some, hwalk]
      rfl
    · rw [List.flatMap_cons, ← hword, ← hbits]
      rfl

/-- Settles O53: the codes of the stream's words walk, in any tree of the same shape, to leaves that hold these words,
so DECODE writes the stream (O51). -/
theorem decodeInvertsEncode : Obligations.DecodeInvertsEncode := by
  intro s c r stream pats h hroot hc herr hcodes htail d r' ca cb ka kb rest ha hb hr hw hf hdw hroot' hshape hp ha0
  have hok := h.root r hroot
  have hok' := hr.inv.root r' hroot'
  have hbuilt := codesBuilt_of_exec h hroot hc herr
  have hword (p : WordBytes × Nat) (hpmem : p ∈ wordsOf s.w stream) (pat : Bits)
      (hpat : c.codeAt (wordSlot s.w p.1 p.2) = some pat) : ∃ m, walkBits d.nodes r' r' pat = some ([m], r') ∧
        leafBits (nodeAt d.nodes m) = wordBits p.1 p.2 := by
    obtain ⟨n, hn, hslot, path, rfl, hmem⟩ := exists_leaf_of_mem_treeCodes hok (hbuilt.codeAt_iff.1 hpat)
    obtain ⟨hleaf, hlt⟩ := leaf_of_mem_leavesOf hok hn
    obtain ⟨hbitLen, hclear, _, _⟩ := (h.pool _ (nodeAt_mem hlt)).leafOk hleaf
    obtain ⟨_, hlen, hpclear⟩ := wordOk_of_mem s.w stream p hpmem
    obtain ⟨hwb, hbl⟩ := leaf_word_of_slot hbitLen hclear hlen hpclear hslot fun hshort => htail p hpmem hshort n hn
    rw [← hshape] at hmem
    obtain ⟨m, hwalk, hmwb, hmlen⟩ := walkBits_codeOfPath hok' hmem
    rw [codeOfPath_congr hok hok' hshape] at hwalk
    exact ⟨m, hwalk, by rw [leafBits, hmwb, hmlen, hwb, hbl]⟩
  obtain ⟨leaves, hwalk, hcount, hbits⟩ := walkBits_codes hcodes hword
  rw [flatMap_wordsOf] at hbits
  obtain ⟨t, ht, hstate, honly, hstored, hpending, _⟩ := decodeWritesWords d ca cb ka kb r' leaves r' ha hb hr hf hroot'
    (by rw [hp, ha0, List.length_append]; exact Nat.le_add_right _ _) (by rwa [hp, ha0, List.take_left])
    (by rw [← hbits] at hw; exact hw)
  rw [if_pos rfl, hcount] at hstate
  rw [hp, ha0, List.drop_left] at hpending
  exact ⟨t, ht, hstate, honly, hbits ▸ hstored, hpending⟩

end Sys2Proof.Machine

/-! # Proofs, family "payload": a store access of ENCODE or DECODE refused (O21) -/

namespace Sys2Proof.Machine

open Sys2Proof

/-! ## Where a plan can be cut -/

/-- A transfer of a plan is its first one or one behind it. -/
theorem Plan.after_eq_append_cons {α : Type} {a x : Transfer} {p : Plan α} {before after : List Transfer}
    (h : (p.after [a]).transfers = before ++ x :: after) :
    (before = [] ∧ x = a) ∨ ∃ before', before = a :: before' ∧ p.transfers = before' ++ x :: after := by
  cases before with
  | nil =>
    obtain ⟨hx, _⟩ := List.cons.inj h
    exact .inl ⟨rfl, hx.symm⟩
  | cons b before =>
    obtain ⟨rfl, hrest⟩ := List.cons.inj h
    exact .inr ⟨before, rfl, hrest⟩

section

variable {w : WordSize} {code : Nat → Option Bits} {before after : List Transfer} {x : Transfer}

/-- Before any transfer of ENCODE's loop some of the words are taken, and their codes are put; or all but the code of
the last of them, if the transfer is to put it. -/
theorem encodePlan_cut {ws : List (WordBytes × Nat)} {tot : Nat}
    (h : (encodePlan w code ws tot).transfers = before ++ x :: after) :
    ∃ done pats, done <+: ws ∧ done.map (fun p => code (wordSlot w p.1 p.2)) = pats.map some ∧
      taken before = Config.wbits w * done.length ∧
      ((x = .take (Config.wbits w) ∧ puts before = pats.flatten) ∨
        ∃ pats' pat, x = .put pat ∧ pats = pats' ++ [pat] ∧ puts before = pats'.flatten) := by
  induction ws generalizing tot before with
  | nil =>
    rcases Plan.after_eq_append_cons h with ⟨rfl, rfl⟩ | ⟨_, _, h⟩
    · exact ⟨[], [], List.nil_prefix, rfl, rfl, .inl ⟨rfl, rfl⟩⟩
    · exact absurd h (by simp)
  | cons p ws ih =>
    rw [encodePlan] at h
    rcases Plan.after_eq_append_cons h with ⟨rfl, rfl⟩ | ⟨before, rfl, hcoded⟩
    · exact ⟨[], [], List.nil_prefix, rfl, rfl, .inl ⟨rfl, rfl⟩⟩
    cases hcode : code (wordSlot w p.1 p.2) with
    | none =>
      rw [hcode] at hcoded
      exact absurd hcoded (by simp)
    | some pat =>
      rw [hcode] at hcoded
      rcases Plan.after_eq_append_cons hcoded with ⟨rfl, rfl⟩ | ⟨before, rfl, hrest⟩
      · exact ⟨[p], [pat], List.prefix_append [p] ws, by simp [hcode], (Nat.mul_one _).symm,
          .inr ⟨[], pat, rfl, rfl, rfl⟩⟩
      · split at hrest
        · exact absurd hrest (by simp)
        · obtain ⟨done, pats, hpre, hmap, htaken, hx⟩ := ih hrest
          refine ⟨p :: done, pat :: pats, (List.prefix_cons_inj p).2 hpre, by simp [hcode, hmap], ?_, ?_⟩
          · rw [taken, taken, htaken, List.length_cons, Nat.mul_succ, Nat.add_comm]
          · rcases hx with ⟨rfl, hputs⟩ | ⟨pats', pat', rfl, rfl, hputs⟩
            · exact .inl ⟨rfl, congrArg (pat ++ ·) hputs⟩
            · exact .inr ⟨pat :: pats', pat', rfl, rfl, congrArg (pat ++ ·) hputs⟩

/-- ENCODE's own error is not `IOFailure`. -/
theorem encodePlan_outcome (ws : List (WordBytes × Nat)) (tot : Nat) :
    (encodePlan w code ws tot).outcome ≠ .error .ioFailure := by
  induction ws generalizing tot with
  | nil => exact nofun
  | cons p ws ih =>
    rw [encodePlan]
    cases code (wordSlot w p.1 p.2) with
    | none => exact nofun
    | some pat =>
      simp only [Plan.after]
      split
      · exact nofun
      · exact ih _

end

section

variable {nodes : List Node} {root : Nat}

theorem leavesBits_concat (leaves : List Nat) (leaf : Nat) :
    leavesBits nodes (leaves ++ [leaf]) = leavesBits nodes leaves ++ leafBits (nodeAt nodes leaf) := by
  simp [leavesBits]

/-- Before any transfer of DECODE's loop some of the bits are taken and the words of the leaves they walk to are put; or
all but the word of the last of them, if the transfer is to put it. -/
theorem decodePlan_cut {before after : List Transfer} {x : Transfer} {n k em cur : Nat} {bits : Bits}
    (h : (decodePlan nodes root n k em cur bits).transfers = before ++ x :: after) :
    ∃ leaves last, walkBits nodes root cur (bits.take (taken before)) = some (leaves, last) ∧
      taken before ≤ n ∧ taken before ≤ bits.length ∧
      ((x = .take 1 ∧ taken before < n ∧ puts before = leavesBits nodes leaves) ∨
        ∃ leaves' leaf, x = .put (leafBits (nodeAt nodes leaf)) ∧ leaves = leaves' ++ [leaf] ∧ last = root ∧
          puts before = leavesBits nodes leaves') := by
  induction n generalizing k em cur bits before with
  | zero => exact absurd h (by simp [decodePlan])
  | succ n ih =>
    cases bits with
    | nil =>
      rcases Plan.after_eq_append_cons h with ⟨rfl, rfl⟩ | ⟨_, _, h⟩
      · exact ⟨[], cur, rfl, Nat.zero_le _, Nat.zero_le _, .inl ⟨rfl, Nat.succ_pos _, rfl⟩⟩
      · exact absurd h (by simp)
    | cons b bs =>
      rw [decodePlan] at h
      rcases Plan.after_eq_append_cons h with ⟨rfl, rfl⟩ | ⟨before, rfl, hstepped⟩
      · exact ⟨[], cur, rfl, Nat.zero_le _, Nat.zero_le _, .inl ⟨rfl, Nat.succ_pos _, rfl⟩⟩
      rw [taken, Nat.add_comm 1, List.take_succ_cons, walkBits, List.length_cons]
      simp only [Nat.add_le_add_iff_right, Nat.add_lt_add_iff_right]
      cases hstep : walkStep nodes root cur b with
      | fail sub =>
        rw [hstep] at hstepped
        exact absurd hstepped (by simp)
      | goto nx =>
        rw [hstep] at hstepped
        exact ih hstepped
      | emit leaf =>
        rw [hstep] at hstepped
        rcases Plan.after_eq_append_cons hstepped with ⟨rfl, rfl⟩ | ⟨before, rfl, hrest⟩
        · exact ⟨[leaf], root, rfl, Nat.zero_le _, Nat.zero_le _, .inr ⟨[], leaf, rfl, rfl, rfl, rfl⟩⟩
        · obtain ⟨leaves, last, hwalk, hn, hlen, hx⟩ := ih hrest
          refine ⟨leaf :: leaves, last, congrArg (Option.map _) hwalk, hn, hlen, ?_⟩
          rcases hx with ⟨rfl, hlt, hputs⟩ | ⟨leaves', leaf', rfl, rfl, hlast, hputs⟩
          · exact .inl ⟨rfl, hlt, congrArg (leafBits (nodeAt nodes leaf) ++ ·) hputs⟩
          · exact .inr ⟨leaf :: leaves', leaf', rfl, rfl, hlast, congrArg (leafBits (nodeAt nodes leaf) ++ ·) hputs⟩

/-- DECODE's own error is not `IOFailure`. -/
theorem decodePlan_outcome (n k em cur : Nat) (bits : Bits) :
    (decodePlan nodes root n k em cur bits).outcome ≠ .error .ioFailure := by
  induction n generalizing k em cur bits with
  | zero => exact nofun
  | succ n ih =>
    cases bits with
    | nil => exact nofun
    | cons b bs =>
      rw [decodePlan]
      cases walkStep nodes root cur b with
      | fail sub => exact nofun
      | goto nx => exact ih _ _ _ _
      | emit leaf => exact ih _ _ _ _

end

/-! ## The words of a part of a stream -/

section

variable (w : WordSize)

/-- The first words of a stream are the words of its first bits. -/
theorem wordsOf_take (k : Nat) (bits : Bits) :
    wordsOf w (bits.take (Config.wbits w * k)) = (wordsOf w bits).take k := by
  induction k generalizing bits with
  | zero => rfl
  | succ k ih =>
    by_cases hb : bits = []
    · rw [hb, List.take_nil, wordsOf_nil, List.take_nil]
    · have hne : bits.take (Config.wbits w * (k + 1)) ≠ [] := by
        have := wbits_pos w
        simp [hb, this.ne']
      rw [wordsOf_cons w hb, wordsOf_cons w hne, List.take_succ_cons, ← ih, Nat.mul_succ, Nat.add_comm, List.take_take,
        Nat.min_eq_left (Nat.le_add_right _ _), List.drop_take, Nat.add_sub_cancel_left]

/-- Bits that are no whole word do not count among the full words. -/
theorem fullWords_take_add {k m : Nat} {bits : Bits} (hm : m < Config.wbits w)
    (hlen : Config.wbits w * k + m ≤ bits.length) :
    fullWords w (bits.take (Config.wbits w * k + m)) = (wordsOf w bits).take k := by
  induction k generalizing bits with
  | zero =>
    rw [Nat.mul_zero, Nat.zero_add, List.take_zero]
    by_cases hnil : bits.take m = []
    · rw [hnil]
      rfl
    · exact fullWords_short w hnil ((List.length_take_le _ _).trans_lt hm)
  | succ k ih =>
    rw [Nat.mul_succ, Nat.add_comm _ (Config.wbits w), Nat.add_assoc] at hlen ⊢
    have hle : Config.wbits w ≤ (bits.take (Config.wbits w + (Config.wbits w * k + m))).length := by
      rw [List.length_take]
      omega
    rw [fullWords_full w hle, wordsOf_full w (by omega), List.take_succ_cons, List.take_take,
      Nat.min_eq_left (Nat.le_add_right _ _), List.drop_take, Nat.add_sub_cancel_left,
      ih (by rw [List.length_drop]; omega)]

end

/-! ## Commands that follow a plan -/

section

variable {ka kb : Fin Config.curSlots} {s t : State}

theorem RefusedIn.piped {ms : List Transfer} (h : RefusedIn ka kb ms s t) : ∃ n bits, Piped ka kb s t n bits := by
  rcases h with ⟨_, _, _, _, _, _, _, hp, _⟩ | ⟨_, _, _, _, _, _, hp, _⟩
  exacts [⟨_, _, hp⟩, ⟨_, _, hp⟩]

/-- Nothing but the cursors and the environment has changed. -/
theorem RefusedIn.block {ms : List Transfer} (h : RefusedIn ka kb ms s t) :
    t = { s with cursors := t.cursors, env := t.env } := by
  obtain ⟨_, _, hp⟩ := h.piped
  exact hp.streamed.block

theorem RefusedIn.onlyCursors {ms : List Transfer} (h : RefusedIn ka kb ms s t) : OnlyCursors s t ka kb := by
  obtain ⟨_, _, hp⟩ := h.piped
  exact hp.onlyCursors

/-- A command that follows a plan and ends with `IOFailure` is cut where a store access was refused. -/
theorem exec_of_plan_refused {α : Type} {p : Plan α} {i : Instr} {f : α → State → Res State Unit} (h : Paired ka kb s)
    (hbody : bodyOf i s = (p.run ka kb s).bind f) (hf : ∀ a u, ∃ v, f a u = .ok () v)
    (hout : p.outcome ≠ .error .ioFailure) (ht : exec i s = .next t) (he : t.err = 1) :
    ∃ u, t = failed { s with cursors := u.cursors, env := u.env } 1 0 ∧ RefusedIn ka kb p.transfers s u := by
  rw [exec_eq_finish, finish_eq_next, hbody] at ht
  rcases ht with ⟨u, _, rfl⟩ | ⟨e, u, hu, rfl⟩
  · exact absurd he (by simp [endOk])
  · obtain rfl : e = .ioFailure := Err.code_eq_one.1 he
    rcases Res.bind_eq_raise.1 hu with hu | ⟨a, v, _, hv⟩
    · rcases Plan.run_raise h hu with ⟨_, hr⟩ | hbad
      · refine ⟨u, ?_, hr⟩
        conv_lhs => rw [hr.block]
        rfl
      · exact absurd hbad hout
    · obtain ⟨v', hok⟩ := hf a v
      rw [hok] at hv
      cases hv

/-- DECODE asks the store only when there is a tree: without one it ends at once, or with `CorruptedTree` (R223). -/
theorem root_of_decode_refused {ca cb : BitVec 4} (ha : s.cursorOf? ca = some ka) (hb : s.cursorOf? cb = some kb)
    (h : Paired ka kb s) (ht : exec (.decode ca cb) s = .next t) (he : t.err = 1) : ∃ r, s.root = some r := by
  cases hroot : s.root with
  | some r => exact ⟨r, rfl⟩
  | none =>
    rw [exec_eq_finish, bodyOf_decode ha hb h.reader h.writer, hroot] at ht
    cases hn : s.a0.toNat with
    | zero =>
      rw [hn] at ht
      cases ht
      exact absurd he (by simp [endOk])
    | succ n =>
      rw [hn, decodeLoop] at ht
      simp only [hroot] at ht
      cases ht
      exact absurd he (by simp [Err.code])

/-- Where ENCODE is cut: at a fill while a word is taken, or at a flush while a code is put. -/
theorem RefusedIn.encode
    (h : RefusedIn ka kb (encodePlan s.w s.codeAt (wordsOf s.w (pending (s.chan ka))) 0).transfers s t) :
    ∃ (n x : Nat) (pats : List Bits), pending (t.chan ka) = (pending (s.chan ka)).drop n ∧
      absBitPos (t.cur ka) = absBitPos (s.cur ka) + n ∧ Stored s t kb (pats.flatten.take x) ∧
      (n < (pending (s.chan ka)).length ∧ (t.cur ka).valid ≤ (t.cur ka).byteP ∧ x = pats.flatten.length ∧
          (fullWords s.w ((pending (s.chan ka)).take n)).map (fun p => s.codeAt (wordSlot s.w p.1 p.2)) =
            pats.map some ∨
        n ≤ (pending (s.chan ka)).length ∧ (t.cur kb).byteP = (t.cur kb).bufsz ∧
          pats.dropLast.flatten.length ≤ x ∧ x < pats.flatten.length ∧
          (wordsOf s.w ((pending (s.chan ka)).take n)).map (fun p => s.codeAt (wordSlot s.w p.1 p.2)) =
            pats.map some) := by
  rcases h with ⟨before, n, after, x, hms, hx, hlt, hp, hv⟩ | ⟨before, bits, after, x, hms, hx, hp, hfull⟩
  · obtain ⟨done, pats, hpre, hcodes, htaken, ⟨hn, hputs⟩ | ⟨_, _, hput, _⟩⟩ := encodePlan_cut hms
    · cases hn
      refine ⟨taken before + x, pats.flatten.length, pats, hp.pending, ?_, ?_, .inl ⟨hlt, hv, rfl, ?_⟩⟩
      · rw [hp.pos, Nat.min_eq_left hlt.le]
      · rw [List.take_length, ← hputs]
        exact hp.put.stored_chan
      · rw [htaken] at hlt ⊢
        rw [fullWords_take_add s.w hx hlt.le, ← List.prefix_iff_eq_take.1 hpre, hcodes]
    · cases hput
  · obtain ⟨done, pats, hpre, hcodes, htaken, ⟨hn, _⟩ | ⟨pats', pat, hput, rfl, hputs⟩⟩ := encodePlan_cut hms
    · cases hn
    · cases hput
      refine ⟨min (taken before) (pending (s.chan ka)).length, pats'.flatten.length + x, pats' ++ [bits], ?_, hp.pos,
        ?_, .inr ⟨Nat.min_le_right _ _, hfull, ?_, ?_, ?_⟩⟩
      · rw [← List.drop_eq_drop_min, hp.pending]
      · rw [List.flatten_append, List.take_length_add_append, List.flatten_singleton, ← hputs]
        exact hp.put.stored_chan
      · rw [List.dropLast_concat]
        exact Nat.le_add_right _ _
      · rw [List.flatten_append, List.flatten_singleton, List.length_append]
        exact Nat.add_lt_add_left hx _
      · rw [← List.take_eq_take_min, htaken, wordsOf_take, ← List.prefix_iff_eq_take.1 hpre, hcodes]

/-- Where DECODE is cut: at a fill before a bit is taken, or at a flush while a word is put. -/
theorem RefusedIn.decode {r : Nat}
    (h : RefusedIn ka kb (decodePlan s.nodes r s.a0.toNat 0 0 r (pending (s.chan ka))).transfers s t) :
    ∃ (n x last : Nat) (leaves : List Nat), n ≤ s.a0.toNat ∧ n ≤ (pending (s.chan ka)).length ∧
      walkBits s.nodes r r ((pending (s.chan ka)).take n) = some (leaves, last) ∧
      pending (t.chan ka) = (pending (s.chan ka)).drop n ∧ absBitPos (t.cur ka) = absBitPos (s.cur ka) + n ∧
      Stored s t kb ((leavesBits s.nodes leaves).take x) ∧
      (n < s.a0.toNat ∧ n < (pending (s.chan ka)).length ∧ (t.cur ka).valid ≤ (t.cur ka).byteP ∧
          x = (leavesBits s.nodes leaves).length ∨
        last = r ∧ (t.cur kb).byteP = (t.cur kb).bufsz ∧ (leavesBits s.nodes leaves.dropLast).length ≤ x ∧
          x < (leavesBits s.nodes leaves).length) := by
  rcases h with ⟨before, n, after, x, hms, hx, hlt, hp, hv⟩ | ⟨before, bits, after, x, hms, hx, hp, hfull⟩
  · obtain ⟨leaves, last, hwalk, hle, hlen, ⟨hn, hlt', hputs⟩ | ⟨_, _, hput, _⟩⟩ := decodePlan_cut hms
    · cases hn
      obtain rfl : x = 0 := Nat.lt_one_iff.1 hx
      refine ⟨taken before, (leavesBits s.nodes leaves).length, last, leaves, hle, hlen, hwalk, hp.pending, ?_, ?_,
        .inl ⟨hlt', hlt, hv, rfl⟩⟩
      · rw [hp.pos, Nat.add_zero, Nat.min_eq_left hlen]
      · rw [List.take_length, ← hputs]
        exact hp.put.stored_chan
    · cases hput
  · obtain ⟨leaves, last, hwalk, hle, hlen, ⟨hn, _⟩ | ⟨leaves', leaf, hput, rfl, hlast, hputs⟩⟩ := decodePlan_cut hms
    · cases hn
    · cases hput
      refine ⟨taken before, (leavesBits s.nodes leaves').length + x, last, leaves' ++ [leaf], hle, hlen, hwalk,
        hp.pending, ?_, ?_, .inr ⟨hlast, hfull, ?_, ?_⟩⟩
      · rw [hp.pos, Nat.min_eq_left hlen]
      · rw [leavesBits_concat, List.take_length_add_append, ← hputs]
        exact hp.put.stored_chan
      · rw [List.dropLast_concat]
        exact Nat.le_add_right _ _
      · rw [leavesBits_concat, List.length_append]
        exact Nat.add_lt_add_left hx _

end

/-- Settles O21: a fill is refused at a transfer that takes, an automatic flush at one that puts. -/
theorem refusedInCodec : Obligations.RefusedInCodec := by
  intro s t ca cb ka kb hinv ha hb hao ham hbo hbm hf hh he
  have h : Paired ka kb s := ⟨hinv, ⟨hao, ham⟩, ⟨hbo, hbm⟩, hf, hh⟩
  refine ⟨fun ht => ?_, fun ht => ?_⟩
  · obtain ⟨u, rfl, hr⟩ :=
      exec_of_plan_refused h (bodyOf_encode ha hb h) (fun _ _ => ⟨_, rfl⟩) (encodePlan_outcome _ _) ht he
    obtain ⟨n, x, pats, hpending, hpos, hstored, hcut⟩ := hr.encode
    exact ⟨rfl, hr.onlyCursors.congr rfl, n, x, pats, hpending, hpos, hstored.congr rfl rfl, hcut⟩
  · obtain ⟨r, hroot⟩ := root_of_decode_refused ha hb h ht he
    obtain ⟨u, rfl, hr⟩ := exec_of_plan_refused h (bodyOf_decode_plan ha hb h hroot) (fun _ _ => ⟨_, rfl⟩)
      (decodePlan_outcome _ _ _ _ _) ht he
    obtain ⟨n, x, last, leaves, hle, hlen, hwalk, hpending, hpos, hstored, hcut⟩ := hr.decode
    exact ⟨rfl, hr.onlyCursors.congr rfl, n, x, r, last, leaves, hroot, hle, hlen, hwalk, hpending, hpos,
      hstored.congr rfl rfl, hcut⟩

end Sys2Proof.Machine

/-! # Proofs, family "system": NOP and CFGW (O23) -/

namespace Sys2Proof.Machine

open Sys2Proof

/-- An operand of CFGW that names no word size (R237). -/
theorem wordSizeOf?_eq_none {imm : BitVec 16} (h1 : imm ≠ 1) (h2 : imm ≠ 2) : wordSizeOf? imm = none := by
  rw [wordSizeOf?, if_neg h1, if_neg h2]

/-- An operand of CFGW that names a word size (R237). -/
theorem wordSizeOf?_eq_some {imm : BitVec 16} {w : WordSize} (h : imm = 1 ∧ w = .one ∨ imm = 2 ∧ w = .two) :
    wordSizeOf? imm = some w := by
  rcases h with ⟨rfl, rfl⟩ | ⟨rfl, rfl⟩ <;> rfl

theorem cfgw_of_none {imm : BitVec 16} (h : wordSizeOf? imm = none) (s : State) :
    cfgw imm s = .raise (.badOperand 0) s := by
  rw [cfgw, h]

theorem cfgw_of_some {imm : BitVec 16} {w : WordSize} (h : wordSizeOf? imm = some w) (s : State) :
    cfgw imm s = .ok () (setWordSize w s) := by
  rw [cfgw, h]

/-- Settles O23: NOP is only the end of a command, and CFGW is decided by the word size its operand names. -/
theorem nopEndsAndCfgwEmpties : Obligations.NopEndsAndCfgwEmpties := by
  refine ⟨fun s => ⟨exec_of_ok (i := .nop) (t := s) rfl, rfl⟩, fun s imm => ⟨fun h1 h2 => ?_, fun w hw => ?_, ?_⟩⟩
  · exact exec_of_raise (i := .cfgw imm) (cfgw_of_none (wordSizeOf?_eq_none h1 h2) s)
  · exact exec_of_ok (i := .cfgw imm) (cfgw_of_some (wordSizeOf?_eq_some hw) s)
  · rw [encodeWord, packWord_oneCursor]
    rfl

end Sys2Proof.Machine

/-! # Proofs, family "exceptions": values that are no command (O6) -/

namespace Sys2Proof

open Sys2Proof.Machine

/-- A write to CMD of a value that does not decode takes the error `IllegalCommand`. -/
theorem Machine.step_illegal {s : State} {v : Reg} {rest : List HostEvent} {d : DecodeError}
    (h : s.inbox = .write cmdOffset v :: rest) (hd : decodeCmd s.env.par.ncur v = .error d) :
    step s = .next (takeError (.illegalCommand v) { s with inbox := rest }) := by
  rw [step_cons h]
  simp only [hostStep, if_true, runCmd, hd]
  rfl

/-- Settles O6: a value that decodes is legal by the table (O2), and one that does not decode only takes the error. -/
theorem illegalCommand : Obligations.IllegalCommand := by
  intro s v rest h hl
  cases hd : decodeCmd s.env.par.ncur v with
  | ok i => exact absurd ((decoderFollowsTable.1 _ v).1.1 ⟨i, hd⟩) hl
  | error d => exact Machine.step_illegal h hd

end Sys2Proof

/-! # Proofs, family "exceptions": how a command ends (O14)

A body that succeeds may have written results, a body that fails may not: `Res.yields` states one property of the success
and one of the failure of a piece, and every statement of this family is read off such a property of the bodies. -/

namespace Sys2Proof.Machine

open Sys2Proof

/-! ## What a piece leaves when it succeeds and when it fails -/

/-- `P` holds of the state left by a piece that succeeds, `Q` of the error and the state left by one that fails. -/
def Res.yields {σ α : Type} (P : σ → Prop) (Q : Err → σ → Prop) : Res σ α → Prop
  | .ok _ t => P t
  | .raise e t => Q e t
  | .stuck _ => True

section

variable {σ α β : Type} {P P' : σ → Prop} {Q Q' : Err → σ → Prop}

theorem Res.yields_bind {r : Res σ α} {k : α → σ → Res σ β} (hr : r.yields P Q)
    (hk : ∀ a t, P t → (k a t).yields P' Q) : (r.bind k).yields P' Q := by
  cases r with
  | ok a t => exact hk a t hr
  | raise e t => exact hr
  | stuck f => trivial

theorem Res.yields_mono {r : Res σ α} (hr : r.yields P Q) (hP : ∀ t, P t → P' t) (hQ : ∀ e t, Q e t → Q' e t) :
    r.yields P' Q' := by
  cases r with
  | ok a t => exact hP t hr
  | raise e t => exact hQ e t hr
  | stuck f => trivial

theorem Res.yields_of_leaves {r : Res σ α} (hr : r.leaves P) : r.yields P fun _ => P := by
  cases r <;> exact hr

end

section

variable {P : State → Prop} {Q : Err → State → Prop} {i : Instr} {s : State}

/-- A one-cursor body is illegal where its field names no cursor (R92, R276). -/
theorem oneCursor_yields {c : BitVec 4} {f : Fin Config.curSlots → State → Res State Unit}
    (h0 : s.cursorOf? c = none → Q (.illegalCommand (encodeCmd i)) s)
    (hf : ∀ k, (f k s).yields P Q) : (oneCursor i c f s).yields P Q := by
  unfold oneCursor
  split
  · exact hf _
  · exact h0 ‹_›

theorem twoCursors_yields {a b : BitVec 4} {f : Fin Config.curSlots → Fin Config.curSlots → State → Res State Unit}
    (h0 : s.cursorOf? a = none ∨ s.cursorOf? b = none → Q (.illegalCommand (encodeCmd i)) s)
    (hf : ∀ k m, (f k m s).yields P Q) : (twoCursors i a b f s).yields P Q := by
  unfold twoCursors
  split
  · exact hf _ _
  · rename_i hn
    refine h0 ?_
    cases ha : s.cursorOf? a with
    | none => exact .inl rfl
    | some k =>
      cases hb : s.cursorOf? b with
      | none => exact .inr rfl
      | some m => exact absurd hb (hn k m ha)

/-- The cursor check fails on a closed cursor and on one of the other direction (R135). -/
theorem curCheck_yields {k : Fin Config.curSlots} {m : Mode} {f : Unit → State → Res State Unit}
    (hclosed : Q (.cursorState 1) s) (hwrong : Q (.cursorState 3) s) (hf : OpenFor s k m → (f () s).yields P Q) :
    ((curCheck k m s).bind f).yields P Q := by
  rcases curCheck_cases k m s with ⟨ho, hm, e⟩ | ⟨_, e⟩ | ⟨_, _, e⟩ <;> rw [e]
  · exact hf ⟨ho, hm⟩
  · exact hclosed
  · exact hwrong

/-- A command ends its body without error or with the body's error (R270). -/
theorem exec_yields {t : State} (hb : (bodyOf i s).yields P Q) (h : exec i s = .next t) :
    (∃ u, t = endOk u ∧ P u) ∨ ∃ e u, t = takeError e u ∧ Q e u := by
  rw [exec_eq_finish] at h
  rcases finish_eq_next.1 h with ⟨u, hu, rfl⟩ | ⟨e, u, hu, rfl⟩ <;> rw [hu] at hb
  · exact .inl ⟨u, rfl, hb⟩
  · exact .inr ⟨e, u, rfl, hb⟩

end

/-! ## Registers and status on the way to the end of a command -/

/-- The general registers (R21). -/
def State.regs (s : State) : Reg × Reg × Reg × Reg := (s.a0, s.a1, s.a2, s.a3)

/-- What STATUS tells of the commands before (R23). -/
def State.history (s : State) : Bool × BitVec 8 := (s.sticky, s.firstErr)

/-- The general registers and the history in STATUS are as they were. -/
def Steady (s t : State) : Prop := t.regs = s.regs ∧ t.history = s.history

/-- A body from `s` that succeeds keeps the history in STATUS; one that fails keeps A0 to A3 as well. -/
abbrev Res.controlled {α : Type} (s : State) (r : Res State α) : Prop :=
  r.yields (fun t => t.history = s.history) fun _ t => Steady s t

theorem Steady.refl (s : State) : Steady s s := ⟨rfl, rfl⟩

theorem CursorStep.steady {k : Fin Config.curSlots} {s t : State} (h : CursorStep k s t) : Steady s t := by
  rw [h.eq]
  exact ⟨rfl, rfl⟩

theorem Streamed.steady {P : Fin Config.curSlots → Prop} {s t : State} (h : Streamed P s t) : Steady s t := by
  rw [h.block]
  exact ⟨rfl, rfl⟩

/-- The tables, the pool and the codes are no registers. -/
theorem steady_of_freeTree {s t : State} (h : freeTree t = freeTree s) : Steady s t := by
  rw [eq_of_freeTree h]
  exact ⟨rfl, rfl⟩

theorem steady_of_clearCodes {s t : State} (h : clearCodes t = clearCodes s) : Steady s t := by
  rw [eq_of_clearCodes h]
  exact ⟨rfl, rfl⟩

theorem steady_of_clearHistogram {s t : State} (h : clearHistogram t = clearHistogram s) : Steady s t := by
  rw [eq_of_clearHistogram h]
  exact ⟨rfl, rfl⟩

section

variable {α : Type} {s : State} {k : Fin Config.curSlots}

/-- A body that writes no general register. -/
theorem Res.controlled_of_leaves {r : Res State α} (h : r.leaves (Steady s)) : r.controlled s :=
  Res.yields_mono (Res.yields_of_leaves h) (fun _ ht => ht.2) fun _ _ ht => ht

/-- A body whose last step, which cannot fail, writes the results. -/
theorem Res.controlled_result {r : Res State α} {f : α → State → State} (h : r.leaves (Steady s))
    (hf : ∀ a t, (f a t).history = t.history) : (r.bind fun a t => .ok () (f a t)).controlled s :=
  Res.yields_bind (Res.yields_of_leaves h) fun a t ht => (hf a t).trans ht.2

theorem onChan_steady {f : Chan → Res Chan α} (h : (onChan k f s).leaves (CursorStep k s)) :
    (onChan k f s).leaves (Steady s) :=
  Res.leaves_mono (fun _ ht => ht.steady) h

theorem copen_steady (m : Mode) (k : Fin Config.curSlots) (s : State) : (copen m k s).leaves (Steady s) := by
  rcases copen_cases m k s with ⟨e, he⟩ | he | ⟨_, _, _, _, _, he⟩ <;> rw [he] <;> exact ⟨rfl, rfl⟩

theorem cclose_steady (k : Fin Config.curSlots) (s : State) : (cclose k s).leaves (Steady s) := by
  unfold cclose
  split
  · exact Steady.refl s
  · refine Res.leaves_bind (P := Steady s) ?_ fun _ t _ ht => ht
    split
    · exact onChan_steady (onChan_flush ‹_›)
    · exact Steady.refl s

theorem chseek_steady (k : Fin Config.curSlots) (s : State) : (chseek k s).leaves (Steady s) := by
  refine curCheck_leaves (Steady.refl s) fun _ => ?_
  split
  · exact Steady.refl s
  · split
    · trivial
    · split <;> exact ⟨rfl, rfl⟩

end

/-- A one-cursor body that is illegal has done nothing. -/
theorem oneCursor_controlled {i : Instr} {c : BitVec 4} {f : Fin Config.curSlots → State → Res State Unit} {s : State}
    (hf : ∀ k, (f k s).controlled s) : (oneCursor i c f s).controlled s :=
  oneCursor_yields (fun _ => Steady.refl s) hf

/-- A body that fails its cursor check has done nothing. -/
theorem curCheck_controlled {k : Fin Config.curSlots} {m : Mode} {f : Unit → State → Res State Unit} {s : State}
    (hf : OpenFor s k m → (f () s).controlled s) : ((curCheck k m s).bind f).controlled s :=
  curCheck_yields (Steady.refl s) (Steady.refl s) hf

/-- Every command but SRST keeps the history in STATUS up to its end, and writes its results only when nothing can fail
any more. -/
theorem bodyOf_controlled {i : Instr} (hi : i ≠ .srst) (s : State) : (bodyOf i s).controlled s := by
  have hs := Steady.refl s
  cases i with
  | nop | hclr | tbinit => exact rfl
  | srst => exact absurd rfl hi
  | cfgw imm =>
    simp only [bodyOf, cfgw]
    split
    · exact hs
    · exact rfl
  | copen ca m => exact oneCursor_controlled fun k => Res.controlled_of_leaves (copen_steady m k s)
  | cclose ca => exact oneCursor_controlled fun k => Res.controlled_of_leaves (cclose_steady k s)
  | crdbits ca | crdbytes ca =>
    refine oneCursor_controlled fun k => curCheck_controlled fun ho => ?_
    split
    · exact hs
    · exact Res.controlled_result (onChan_steady (onChan_readBits _ ho.mode)) fun _ _ => rfl
  | cwrbits ca | cwrbytes ca =>
    refine oneCursor_controlled fun k => curCheck_controlled fun ho => ?_
    split
    · exact hs
    · exact Res.controlled_of_leaves (onChan_steady (onChan_writeBits _ ho.mode))
  | cflush ca =>
    exact oneCursor_controlled fun k => curCheck_controlled fun ho =>
      Res.controlled_of_leaves (onChan_steady (onChan_flush ho.mode))
  | cseekbits ca =>
    exact oneCursor_controlled fun k => curCheck_controlled fun ho =>
      Res.controlled_of_leaves (onChan_steady (onChan_seekTo ho.mode s.a0.isLt))
  | ctell ca =>
    refine oneCursor_controlled fun k => ?_
    unfold ctell
    split
    · exact hs
    · exact rfl
  | chseek ca => exact oneCursor_controlled fun k => Res.controlled_of_leaves (chseek_steady k s)
  | hscan ca =>
    refine oneCursor_controlled fun k => curCheck_controlled fun ho => ?_
    have hl := scanLoop_streamed (s := clearHistogram s) (P := fun _ => True) trivial (streamFuel (s.chan k)) 0 ho.mode
    refine Res.controlled_result (Res.leaves_mono (fun t ht => ?_) hl) fun _ _ => rfl
    exact Streamed.steady (s := clearHistogram s) (t := clearHistogram t) ht
  | frd =>
    simp only [bodyOf, frd]
    split
    · exact hs
    · exact rfl
  | fwr => exact Res.controlled_of_leaves (Res.leaves_mono (fun _ => steady_of_clearHistogram) (fwr_clearHistogram s))
  | tbins => exact Res.controlled_of_leaves (Res.leaves_mono (fun _ => steady_of_freeTree) (tbins_freeTree s))
  | tbext => exact Res.controlled_of_leaves (Res.leaves_mono (fun _ => steady_of_freeTree) (tbext_freeTree s))
  | tbuild => exact Res.controlled_of_leaves (Res.leaves_mono (fun _ => steady_of_freeTree) (tbuild_freeTree s))
  | nrd =>
    simp only [bodyOf, nrd]
    split
    · exact hs
    · exact rfl
  | ctbuild =>
    exact Res.controlled_of_leaves
      (Res.leaves_mono (fun _ => steady_of_clearCodes (s := s)) (buildCodes_clearCodes (clearCodes s)))
  | ctrd =>
    simp only [bodyOf, ctrd]
    split
    · exact hs
    · split <;> exact rfl
  | twrite ca =>
    refine oneCursor_controlled fun k => curCheck_controlled fun ho => ?_
    split
    · exact hs
    · exact Res.controlled_result (Res.leaves_mono (fun _ ht => ht.steady) (writeNode_step k _ _ ho.mode)) fun _ _ => rfl
  | tread ca =>
    refine oneCursor_controlled fun k => curCheck_controlled fun ho => ?_
    have hl := readNode_treeRead (s := freeTree s) (P := fun _ => True) trivial s.a0.toNat (Config.nodeCap s.w + 1) 0 ho.mode
    refine Res.controlled_result (Res.leaves_mono (fun t ht => ?_) hl) fun _ _ => rfl
    exact Streamed.steady (s := freeTree s) (t := freeTree t) ht
  | encode ca cb =>
    refine twoCursors_yields (fun _ => hs) fun k m => curCheck_controlled fun ha => curCheck_controlled fun hb => ?_
    have hl := encodeLoop_streamed (P := fun _ => True) trivial trivial (streamFuel (s.chan k)) 0 ha.mode hb.mode
    exact Res.controlled_result (Res.leaves_mono (fun _ ht => ht.steady) hl) fun _ _ => rfl
  | decode ca cb =>
    refine twoCursors_yields (fun _ => hs) fun k m => curCheck_controlled fun ha => curCheck_controlled fun hb => ?_
    have hl := decodeLoop_streamed (P := fun _ => True) trivial trivial s.a0.toNat 0 0 s.root ha.mode hb.mode
    exact Res.controlled_result (Res.leaves_mono (fun _ ht => ht.steady) hl) fun _ _ => rfl

/-- Settles O14: SRST cannot fail, the body of every other command is controlled, and its end writes the rest. -/
theorem endOfCommand : Obligations.EndOfCommand := by
  intro i s t h
  by_cases hi : i = .srst
  · subst hi
    obtain rfl := exec_srst h
    exact .inl ⟨rfl, rfl, fun hn => absurd rfl hn⟩
  · rcases exec_yields (bodyOf_controlled hi s) h with ⟨u, rfl, hu⟩ | ⟨e, u, rfl, hregs, hu⟩ <;>
      obtain ⟨hsticky, hfirst⟩ := Prod.mk.inj hu
    · exact .inl ⟨rfl, rfl, fun _ => ⟨hsticky, hfirst⟩⟩
    · simp only [State.regs, Prod.mk.injEq] at hregs
      refine .inr ⟨e.code_ne_zero, rfl, ?_, hregs⟩
      show firstErrAfter u.sticky u.firstErr e.code = _
      rw [hsticky, hfirst]
      rfl

end Sys2Proof.Machine

/-! # Proofs, family "exceptions": the errors of the pieces of commands, and what they free (R271, R285)

An error is traced to the piece that raises it: the primitives of a cursor fail with `IOFailure` only, the loops and the
tree commands with errors on their command's list, and those that R271 names free the tree or the codes as they fail. -/

namespace Sys2Proof.Machine

open Sys2Proof

/-- The table of R285 lists the error for the command. -/
def Listed (i : Instr) (e : Err) : Prop := listsError (errorsOf i) e.code e.info

/-- A look into the table, which runs on a command and an error whatever their operands are. -/
theorem listed_of_table {i : Instr} {e : Err}
    (h : ((errorsOf i).any fun p => p.1 == e.code && p.2.all (· == e.info)) = true) : Listed i e := by
  obtain ⟨p, hp, hlisted⟩ := List.any_eq_true.1 h
  obtain ⟨hcode, hinfo⟩ := Bool.and_eq_true_iff.1 hlisted
  refine ⟨p, hp, eq_of_beq hcode, fun v hv => ?_⟩
  rw [hv] at hinfo
  exact eq_of_beq hinfo

/-- The piece fails only with `Q`, of the error and the state left. -/
abbrev Res.fails {σ α : Type} (Q : Err → σ → Prop) (r : Res σ α) : Prop := r.yields (fun _ => True) Q

/-- The piece fails only with `IOFailure`. -/
abbrev Res.ioOnly {σ α : Type} (r : Res σ α) : Prop := r.fails fun e _ => e = .ioFailure

section

variable {σ α : Type} {i : Instr}

theorem Res.fails_mono {Q Q' : Err → σ → Prop} {r : Res σ α} (hr : r.fails Q) (h : ∀ e t, Q e t → Q' e t) :
    r.fails Q' :=
  Res.yields_mono hr (fun _ ht => ht) h

theorem Res.ioOnly.listed {r : Res σ α} (hr : r.ioOnly) (hi : Listed i .ioFailure) : r.fails fun e _ => Listed i e :=
  Res.fails_mono hr fun _ _ he => he ▸ hi

end

/-! ## The cursor primitives -/

/-- A primitive that is served fails only when it is refused. -/
theorem Res.ioOnly_of_served {α : Type} {ch : Chan} {r : Res Chan α} (h : r.served ch) : r.ioOnly := by
  cases r with
  | ok a ch' => trivial
  | raise e ch' => exact h.1
  | stuck f => trivial

theorem flush_ioOnly (ch : Chan) : (flush ch).ioOnly := by
  rcases flush_cases ch with ⟨_, e⟩ | ⟨_, ⟨_, e⟩ | ⟨_, _, _, e⟩ | ⟨_, _, _, _, e⟩⟩ <;> rw [e]
  · trivial
  · trivial
  · exact rfl
  · trivial

theorem writeBit_ioOnly (b : Bool) (ch : Chan) : (writeBit b ch).ioOnly := by
  unfold writeBit
  split
  · exact Res.yields_bind (flush_ioOnly ch) fun _ _ _ => trivial
  · trivial

theorem writeBits_ioOnly (s : Bits) (ch : Chan) : (writeBits s ch).ioOnly := by
  induction s generalizing ch with
  | nil => trivial
  | cons b s ih => exact Res.yields_bind (writeBit_ioOnly b ch) fun _ ch' _ => ih ch'

section

variable {α : Type} {k : Fin Config.curSlots} {s : State}

theorem onChan_ioOnly {f : Chan → Res Chan α} (h : (f (s.chan k)).ioOnly) : (onChan k f s).ioOnly := by
  unfold onChan
  cases hf : f (s.chan k) with
  | ok a ch => trivial
  | raise e ch =>
    rw [hf] at h
    exact h
  | stuck x => trivial

theorem onChan_readBits_ioOnly (n : Nat) : (onChan k (readBits n) s).ioOnly :=
  onChan_ioOnly (Res.ioOnly_of_served (readBits_served n _))

theorem onChan_writeBits_ioOnly (bits : Bits) : (onChan k (writeBits bits) s).ioOnly :=
  onChan_ioOnly (writeBits_ioOnly bits _)

theorem nextWord_ioOnly : (nextWord k s).ioOnly :=
  Res.yields_bind (onChan_readBits_ioOnly _) fun bits _ _ => by cases bits <;> trivial

/-! ## The loops over streams -/

theorem scanLoop_ioOnly (fuel nw : Nat) : (scanLoop k fuel nw s).ioOnly := by
  induction fuel generalizing nw s with
  | zero => trivial
  | succ fuel ih =>
    refine Res.yields_bind nextWord_ioOnly fun r t _ => ?_
    match r with
    | none => trivial
    | some (x, len) =>
      simp only
      split
      · exact ih (nw + 1)
      · trivial

/-- ENCODE's loop fails at a store access or at a word without a code (R221). -/
theorem encodeLoop_listed (m : Fin Config.curSlots) (ca cb : BitVec 4) (fuel tot : Nat) :
    (encodeLoop k m fuel tot s).fails fun e _ => Listed (.encode ca cb) e := by
  have hio : Listed (.encode ca cb) .ioFailure := listed_of_table rfl
  induction fuel generalizing tot s with
  | zero => trivial
  | succ fuel ih =>
    refine Res.yields_bind (nextWord_ioOnly.listed hio) fun r t _ => ?_
    match r with
    | none => trivial
    | some (x, len) =>
      simp only
      split
      · exact listed_of_table rfl
      · refine Res.yields_bind ((onChan_writeBits_ioOnly _).listed hio) fun _ u _ => ?_
        split
        · trivial
        · exact ih _

/-- A payload bit that cannot be followed is `1` at a leaf root, or leads to no node (R223, R268). -/
theorem walkStep_fail {nodes : List Node} {root cur sub : Nat} {b : Bool} (h : walkStep nodes root cur b = .fail sub) :
    sub = 3 ∨ sub = 4 := by
  unfold walkStep at h
  split at h
  · split at h
    · exact .inl (WalkStep.fail.inj h).symm
    · cases h
  · split at h
    · exact .inr (WalkStep.fail.inj h).symm
    · split at h <;> cases h

/-- DECODE's loop fails without a tree, at a store access, at the end of the stream or at a bit that cannot be followed
(R223). -/
theorem decodeLoop_listed (m : Fin Config.curSlots) (ca cb : BitVec 4) (n c em : Nat) (cur : Option Nat) :
    (decodeLoop k m n c em cur s).fails fun e _ => Listed (.decode ca cb) e := by
  have hio : Listed (.decode ca cb) .ioFailure := listed_of_table rfl
  induction n generalizing c em cur s with
  | zero => trivial
  | succ n ih =>
    unfold decodeLoop
    split
    · exact listed_of_table rfl
    · refine Res.yields_bind ((onChan_ioOnly (Res.ioOnly_of_served (readBit_served _))).listed hio) fun b t _ => ?_
      cases b with
      | none => exact listed_of_table rfl
      | some b =>
        simp only
        split
        · rename_i hw
          rcases walkStep_fail hw with rfl | rfl <;>
            exact listed_of_table rfl
        · exact ih _ _ _
        · exact Res.yields_bind ((onChan_writeBits_ioOnly _).listed hio) fun _ u _ => ih _ _ _

end

/-! ## Failures that free the tree or the codes (R271) -/

/-- No node, no root and an empty heap (R35). -/
def Freed (t : State) : Prop := t.nodes = [] ∧ t.root = none ∧ t.heap = []

theorem freeTree_freed (s : State) : Freed (freeTree s) := ⟨rfl, rfl, rfl⟩

/-- The building loop frees the tree on overflow and on a full pool (R171). -/
theorem buildTree_fails (fuel : Nat) (s : State) :
    (buildTree fuel s).fails fun e t => e = .emptyInput ∨ Listed .tbext e ∧ Freed t := by
  induction fuel generalizing s with
  | zero => trivial
  | succ fuel ih =>
    rcases buildTree_cases fuel s with ⟨_, e⟩ | ⟨r, _, e⟩ | ⟨a, b, rest, rest', _, _, e⟩ <;> rw [e]
    · exact .inl rfl
    · trivial
    · rcases merge_cases a b { s with heap := heapRest (freqOf s.nodes) rest' } with ⟨_, e⟩ | ⟨_, _, e⟩ | ⟨_, _, e⟩ <;>
        rw [e]
      · exact .inr ⟨listed_of_table rfl, freeTree_freed _⟩
      · exact .inr ⟨listed_of_table rfl, freeTree_freed _⟩
      · exact ih _

theorem tbext_fails (s : State) : (tbext s).fails fun e t => e = .emptyInput ∨ Listed .tbext e ∧ Freed t := by
  unfold tbext
  split
  · exact .inl rfl
  · exact buildTree_fails _ s

/-- TBUILD on a lawful block fails with nothing to build or with an overflow, never with a full pool (R174, D23). -/
theorem tbuild_fails {s : State} (h : Inv s) : (tbuild s).fails fun e t => Listed .tbuild e ∧ Freed t := by
  obtain ⟨u, hb, hu, hist⟩ := tbuild_eq_tbext h
  rw [hb]
  by_cases hnil : u.heap = []
  · rw [tbext_of_nil hnil, hist.eq_freeTree (hist.heap_eq_nil.1 hnil)]
    exact ⟨listed_of_table rfl, freeTree_freed s⟩
  · have hroom : u.nodes.length + u.heap.length - 1 ≤ Config.nodeCap u.w := by
      have := h.usedSlots_length
      rw [hist.nodes_length, hist.heap_length, hist.w_eq, Config.nodeCap]
      omega
    obtain ⟨hover, -, htree⟩ := buildTree_builds hu hnil
    rw [tbext_of_ne hnil]
    rcases le_or_gt (2 ^ 64) (heapSum u) with hbig | hsmall
    · rw [hover hbig hroom]
      exact ⟨listed_of_table rfl, freeTree_freed u⟩
    · obtain ⟨t, r, ht, -⟩ := htree hsmall hroom
      rw [ht]
      trivial

/-- CTBUILD on a lawful block fails without a tree or at a slot that would have two codes (R191, R194). -/
theorem buildCodes_fails {s : State} (h : Inv s) :
    (buildCodes (clearCodes s)).fails fun e t => Listed .ctbuild e ∧ t.code = [] := by
  cases hr : s.root with
  | none =>
    rw [buildCodes, clearCodes_root, hr]
    exact ⟨listed_of_table rfl, rfl⟩
  | some r =>
    obtain ⟨hok, hclash⟩ := bodyOf_ctbuild_stores h hr
    rw [bodyOf] at hok hclash
    by_cases hn : (keysOf (treeCodes s r ++ (clearCodes s).code)).Nodup
    · obtain ⟨code, e, -⟩ := hok hn
      rw [e]
      trivial
    · rw [hclash hn]
      exact ⟨listed_of_table rfl, rfl⟩

/-! ## Reading a tree (R208, R209) -/

/-- A piece of TREAD fails with an error on TREAD's list and the tree freed. -/
abbrev Res.treeFails {α : Type} (ca : BitVec 4) (r : Res State α) : Prop :=
  r.fails fun e t => Listed (.tread ca) e ∧ Freed t

section

variable {ca : BitVec 4} {k : Fin Config.curSlots} {s : State}

theorem need_fails (D cnt n : Nat) : (need k D cnt n s).treeFails ca := by
  unfold need
  split
  · exact ⟨listed_of_table rfl, freeTree_freed s⟩
  · refine Res.yields_bind (P := fun _ => True) ?_ fun bits t _ => ?_
    · have hio := onChan_readBits_ioOnly (k := k) (s := s) n
      unfold readOrFree
      cases hr : onChan k (readBits n) s with
      | ok bits t => trivial
      | raise e t =>
        rw [hr] at hio
        obtain rfl : e = .ioFailure := hio
        exact ⟨listed_of_table rfl, freeTree_freed t⟩
      | stuck f => trivial
    · split
      · exact ⟨listed_of_table rfl, freeTree_freed t⟩
      · trivial

theorem readLeafLen_fails (D cnt : Nat) : (readLeafLen k D cnt s).treeFails ca := by
  refine Res.yields_bind (need_fails D cnt 1) fun fl t _ => ?_
  split
  · trivial
  · refine Res.yields_bind (need_fails D (cnt + 1) Config.lenf) fun len u _ => ?_
    split
    · exact ⟨listed_of_table rfl, freeTree_freed u⟩
    · trivial

theorem readLeaf_fails (D cnt : Nat) : (readLeaf k D cnt s).treeFails ca :=
  Res.yields_bind (readLeafLen_fails D cnt) fun r _ _ => Res.yields_bind (need_fails D r.2 r.1) fun _ _ _ => trivial

theorem readNode_fails (D fuel cnt : Nat) : (readNode k D fuel cnt s).treeFails ca := by
  have hfull : Listed (.tread ca) (.outOfMemory 1) := listed_of_table rfl
  induction fuel generalizing cnt s with
  | zero => exact ⟨hfull, freeTree_freed s⟩
  | succ fuel ih =>
    by_cases hcap : s.nodes.length = Config.nodeCap s.w
    · rw [readNode, if_pos hcap]
      exact ⟨hfull, freeTree_freed s⟩
    · rw [readNode, if_neg hcap, alloc, if_neg hcap, Res.bind_ok]
      refine Res.yields_bind (need_fails D cnt 1) fun st t _ => ?_
      split
      · exact Res.yields_bind (readLeaf_fails D (cnt + 1)) fun _ _ _ => trivial
      · exact Res.yields_bind (ih (cnt + 1)) fun l _ _ => Res.yields_bind (ih l.2) fun _ _ _ => trivial

/-- TREAD fails at its cursor checks, or with the tree freed. -/
theorem tread_fails : (tread k s).fails fun e t => Listed (.tread ca) e ∧ (e.code = 18 ∨ Freed t) := by
  refine curCheck_yields ⟨listed_of_table rfl, .inl rfl⟩ ⟨listed_of_table rfl, .inl rfl⟩ fun _ => ?_
  exact Res.yields_bind (Res.fails_mono (readNode_fails _ _ 0) fun _ _ ⟨hl, hf⟩ => ⟨hl, .inr hf⟩) fun _ _ _ => trivial

end

end Sys2Proof.Machine

/-! # Proofs, family "exceptions": the errors of each command, and what a failure frees (O15, O16) -/

namespace Sys2Proof.Machine

open Sys2Proof

section

variable {i : Instr} {s : State} {k : Fin Config.curSlots}

theorem cursorOf?_ne_none {c : BitVec 4} (hc : cursorNoOk s.env.par.ncur c = true) : s.cursorOf? c ≠ none := by
  obtain ⟨k, hk, -⟩ := cursorOf?_of_ok hc
  rw [hk]
  exact Option.some_ne_none k

/-- A well-formed one-cursor command is not illegal (R92, R94). -/
theorem oneCursor_fails {c : BitVec 4} {f : Fin Config.curSlots → State → Res State Unit} {Q : Err → State → Prop}
    (hc : cursorNoOk s.env.par.ncur c = true) (hf : ∀ k, (f k s).fails Q) : (oneCursor i c f s).fails Q :=
  oneCursor_yields (fun hn => absurd hn (cursorOf?_ne_none hc)) hf

theorem twoCursors_fails {a b : BitVec 4} {f : Fin Config.curSlots → Fin Config.curSlots → State → Res State Unit}
    {Q : Err → State → Prop} (hc : (cursorNoOk s.env.par.ncur a && cursorNoOk s.env.par.ncur b) = true)
    (hf : ∀ k m, (f k m s).fails Q) : (twoCursors i a b f s).fails Q := by
  obtain ⟨ha, hb⟩ := Bool.and_eq_true_iff.1 hc
  exact twoCursors_yields (fun hn => (hn.elim (cursorOf?_ne_none ha) (cursorOf?_ne_none hb)).elim) hf

/-- COPEN's checks in order (R128). -/
theorem copen_listed (ca : BitVec 4) (m : Mode) : (copen m k s).fails fun e _ => Listed (.copen ca m) e := by
  unfold copen
  split
  · exact listed_of_table rfl
  · split
    · exact listed_of_table rfl
    · split
      · exact listed_of_table rfl
      · split
        · exact listed_of_table rfl
        · trivial

theorem cclose_listed (ca : BitVec 4) : (cclose k s).fails fun e _ => Listed (.cclose ca) e := by
  unfold cclose
  split
  · exact listed_of_table rfl
  · refine Res.yields_bind (P := fun _ => True) ?_ fun _ _ _ => trivial
    split
    · exact (onChan_ioOnly (flush_ioOnly _)).listed (listed_of_table rfl)
    · trivial

theorem chseek_listed (ca : BitVec 4) : (chseek k s).fails fun e _ => Listed (.chseek ca) e := by
  refine curCheck_yields (listed_of_table rfl) (listed_of_table rfl) fun _ => ?_
  split
  · exact listed_of_table rfl
  · split
    · trivial
    · split
      · exact listed_of_table rfl
      · trivial

theorem fwr_listed (s : State) : (fwr s).fails fun e _ => Listed .fwr e := by
  unfold fwr
  split
  · exact listed_of_table rfl
  · split
    · split
      · trivial
      · exact listed_of_table rfl
    · trivial

theorem tbins_listed (s : State) : (tbins s).fails fun e _ => Listed .tbins e := by
  unfold tbins
  split
  · exact listed_of_table rfl
  · split
    · exact listed_of_table rfl
    · split
      · exact listed_of_table rfl
      · rcases addLeaf_cases _ s with ⟨_, e⟩ | ⟨_, e⟩ <;> rw [e]
        · exact listed_of_table rfl
        · trivial

/-- TWRITE of a lawful tree is one write of its stream (R206, R207). -/
theorem twrite_listed (ca : BitVec 4) (h : Inv s) : (twrite k s).fails fun e _ => Listed (.twrite ca) e := by
  refine curCheck_yields (listed_of_table rfl) (listed_of_table rfl) fun _ => ?_
  cases hr : s.root with
  | none => exact listed_of_table rfl
  | some r =>
    simp only
    rw [writeNode_eq (h.root r hr), Res.bind_assoc]
    exact Res.yields_bind ((onChan_writeBits_ioOnly _).listed (listed_of_table rfl)) fun _ _ _ => trivial

/-- A well-formed command on a lawful block fails only with errors its list in R285 has. -/
theorem bodyOf_listed (h : Inv s) (hw : i.wf s.env.par.ncur = true) : (bodyOf i s).fails fun e _ => Listed i e := by
  cases i with
  | nop | srst | hclr | tbinit => trivial
  | cfgw imm =>
    simp only [bodyOf, cfgw]
    split
    · exact listed_of_table rfl
    · trivial
  | copen ca m => exact oneCursor_fails hw fun k => copen_listed ca m
  | cclose ca => exact oneCursor_fails hw fun k => cclose_listed ca
  | crdbits ca | crdbytes ca =>
    refine oneCursor_fails hw fun k => curCheck_yields (listed_of_table rfl) (listed_of_table rfl) fun _ => ?_
    split
    · exact listed_of_table rfl
    · exact Res.yields_bind ((onChan_readBits_ioOnly _).listed (listed_of_table rfl)) fun _ _ _ => trivial
  | cwrbits ca | cwrbytes ca =>
    refine oneCursor_fails hw fun k => curCheck_yields (listed_of_table rfl) (listed_of_table rfl) fun _ => ?_
    split
    · exact listed_of_table rfl
    · exact (onChan_writeBits_ioOnly _).listed (listed_of_table rfl)
  | cflush ca =>
    exact oneCursor_fails hw fun k => curCheck_yields (listed_of_table rfl) (listed_of_table rfl) fun _ =>
      (onChan_ioOnly (flush_ioOnly _)).listed (listed_of_table rfl)
  | cseekbits ca =>
    exact oneCursor_fails hw fun k => curCheck_yields (listed_of_table rfl) (listed_of_table rfl) fun _ =>
      (onChan_ioOnly (Res.ioOnly_of_served (seekTo_served _ _))).listed (listed_of_table rfl)
  | ctell ca =>
    refine oneCursor_fails hw fun k => ?_
    unfold ctell
    split
    · exact listed_of_table rfl
    · trivial
  | chseek ca => exact oneCursor_fails hw fun k => chseek_listed ca
  | hscan ca =>
    exact oneCursor_fails hw fun k => curCheck_yields (listed_of_table rfl) (listed_of_table rfl) fun _ =>
      Res.yields_bind ((scanLoop_ioOnly _ 0).listed (listed_of_table rfl)) fun _ _ _ => trivial
  | frd =>
    simp only [bodyOf, frd]
    split
    · exact listed_of_table rfl
    · trivial
  | fwr => exact fwr_listed s
  | tbins => exact tbins_listed s
  | tbext =>
    refine Res.fails_mono (tbext_fails s) fun e t he => ?_
    rcases he with rfl | ⟨hl, _⟩
    · exact listed_of_table rfl
    · exact hl
  | tbuild => exact Res.fails_mono (tbuild_fails h) fun _ _ he => he.1
  | nrd =>
    simp only [bodyOf, nrd]
    split
    · exact listed_of_table rfl
    · trivial
  | ctbuild => exact Res.fails_mono (buildCodes_fails h) fun _ _ he => he.1
  | ctrd =>
    simp only [bodyOf, ctrd]
    split
    · exact listed_of_table rfl
    · split <;> trivial
  | twrite ca => exact oneCursor_fails hw fun k => twrite_listed ca h
  | tread ca => exact oneCursor_fails hw fun k => Res.fails_mono tread_fails fun _ _ he => he.1
  | encode ca cb =>
    exact twoCursors_fails hw fun k m => curCheck_yields (listed_of_table rfl) (listed_of_table rfl) fun _ =>
      curCheck_yields (listed_of_table rfl) (listed_of_table rfl) fun _ =>
        Res.yields_bind (encodeLoop_listed m ca cb _ 0) fun _ _ _ => trivial
  | decode ca cb =>
    exact twoCursors_fails hw fun k m => curCheck_yields (listed_of_table rfl) (listed_of_table rfl) fun _ =>
      curCheck_yields (listed_of_table rfl) (listed_of_table rfl) fun _ =>
        Res.yields_bind (decodeLoop_listed m ca cb _ 0 0 _) fun _ _ _ => trivial

/-- A command that ends with `ERR` not 0 ends with an error its body fails with (R270). -/
theorem exec_fails {t : State} {Q : Err → State → Prop} (hb : (bodyOf i s).fails Q) (h : exec i s = .next t)
    (he : t.err ≠ 0) : ∃ e u, t = takeError e u ∧ Q e u := by
  rcases exec_yields hb h with ⟨u, rfl, _⟩ | hu
  · exact absurd rfl he
  · exact hu

end

/-- Settles O15: the errors of the bodies are on the lists of R285. -/
theorem errorsOfCommand : Obligations.ErrorsOfCommand := by
  intro i s t h hw ht he
  obtain ⟨e, u, rfl, hl⟩ := exec_fails (bodyOf_listed h hw) ht he
  exact hl

/-- Settles O16: the bodies of the four commands fail with the tree freed or the codes cleared, and taking the error leaves
both as they are. -/
theorem failureFrees : Obligations.FailureFrees := by
  intro s t h he
  refine ⟨?_, fun ht => ?_⟩
  · rintro (⟨ht, hne⟩ | ht | ⟨ca, hca, ht, hne⟩)
    · obtain ⟨e, u, rfl, rfl | ⟨_, hf⟩⟩ := exec_fails (i := .tbext) (tbext_fails s) ht he
      · exact absurd rfl hne
      · exact hf
    · obtain ⟨e, u, rfl, _, hf⟩ := exec_fails (i := .tbuild) (tbuild_fails h) ht he
      exact hf
    · obtain ⟨e, u, rfl, _, hc | hf⟩ :=
        exec_fails (i := .tread ca) (oneCursor_fails hca fun k => tread_fails (ca := ca)) ht he
      · exact absurd hc hne
      · exact hf
  · obtain ⟨e, u, rfl, _, hcode⟩ := exec_fails (i := .ctbuild) (buildCodes_fails h) ht he
    exact hcode

end Sys2Proof.Machine

/-! # Proofs, family "reset and hazards": every command ends, and the tables are apart (O10, O55)

A body has no outcome only where a file is absent under a cursor, a tree does not end or a loop reaches its bound; the
invariant excludes the first two, and `streamFuel` is above what a stream can deliver (log entries 7 and 10). -/

namespace Sys2Proof.Machine

open Sys2Proof

/-! ## Checks before the work -/

/-- A check that raises where it fails leaves the rest to come to an end. -/
theorem Res.ends_guard {σ α : Type} {c : Prop} [Decidable c] {e : Err} {s : σ} {r : Res σ α} (h : ¬ c → r.ends) :
    (if c then .raise e s else r).ends := by
  split
  · exact Res.ends_raise e s
  · exact h ‹_›

section

variable {i : Instr} {s : State} {k : Fin Config.curSlots}

/-- A one-cursor body ends when it does so on the cursor it names: without one it is illegal (R92, R276). -/
theorem oneCursor_ends {c : BitVec 4} {f : Fin Config.curSlots → State → Res State Unit} (hf : ∀ k, (f k s).ends) :
    (oneCursor i c f s).ends := by
  unfold oneCursor
  split
  · exact hf _
  · exact Res.ends_raise _ _

theorem twoCursors_ends {a b : BitVec 4} {f : Fin Config.curSlots → Fin Config.curSlots → State → Res State Unit}
    (hf : ∀ k m, (f k m s).ends) : (twoCursors i a b f s).ends := by
  unfold twoCursors
  split
  · exact hf _ _
  · exact Res.ends_raise _ _

/-- What follows the cursor check runs on an open cursor of the direction asked (R135). -/
theorem curCheck_ends {m : Mode} {f : Unit → State → Res State Unit} (hf : OpenFor s k m → (f () s).ends) :
    ((curCheck k m s).bind f).ends := by
  rcases curCheck_cases k m s with ⟨ho, hm, e⟩ | ⟨_, e⟩ | ⟨_, _, e⟩ <;> rw [e]
  · exact hf ⟨ho, hm⟩
  · exact Res.ends_raise _ _
  · exact Res.ends_raise _ _

/-! ## The cursor commands (40_bitcursor.md) -/

theorem copen_ends (m : Mode) : (copen m k s).ends := by
  rcases copen_cases m k s with ⟨e, he⟩ | he | ⟨_, _, _, _, _, he⟩ <;> rw [he]
  · exact Res.ends_raise _ _
  · exact Res.ends_raise _ _
  · exact Res.ends_ok _ _

theorem cclose_ends (h : Inv s) : (cclose k s).ends := by
  refine Res.ends_guard fun ho => Res.ends_bind ?_ fun _ _ _ => Res.ends_ok _ _
  split
  · exact onChan_ends (flush_ends (h.ready ⟨by simpa using ho, ‹_›⟩).present)
  · exact Res.ends_ok _ _

theorem readToDb_ends (n : Nat) (hr : Ready s k .read) : (readToDb n k s).ends :=
  Res.ends_bind (onChan_ends (readBits_ends n hr.mode hr.present)) fun _ _ _ => Res.ends_ok _ _

theorem seekTo_ends (p : Nat) {ch : Chan} (hp : Present ch) : (seekTo p ch).ends :=
  Res.ends_bind (fillAt_ends hp) fun _ _ _ => Res.ends_ok _ _

theorem chseek_ends (h : Inv s) : (chseek k s).ends := by
  refine curCheck_ends fun ho => Res.ends_guard fun _ => ?_
  split
  · rename_i hf
    have hp : (s.env.file (s.cur k).fid).isSome = true := (h.ready ho).present
    rw [hf] at hp
    cases hp
  · exact Res.ends_guard fun _ => Res.ends_ok _ _

/-! ## The histogram and the streams of words (41_wordalphabet_histogram.md, 45_payload_codec.md) -/

theorem hscan_ends (h : Inv s) : (hscan k s).ends := by
  refine curCheck_ends fun ho => ?_
  obtain ⟨L, _, hw, hf⟩ := streamFuel_enough (s.chan k)
  have hl := scanLoop_ends 0 ((h.ready ho).same (t := clearHistogram s) rfl rfl) hw hf
  exact Res.ends_bind hl fun _ _ _ => Res.ends_ok _ _

theorem fwr_ends (s : State) : (fwr s).ends := by
  unfold fwr
  split
  · exact Res.ends_raise _ _
  · split
    · split
      · exact Res.ends_ok _ _
      · exact Res.ends_raise _ _
    · exact Res.ends_ok _ _

/-- The two cursors of ENCODE differ, since they differ in direction. -/
theorem encodeStream_ends {m : Fin Config.curSlots} (h : Inv s) : (encodeStream k m s).ends := by
  refine curCheck_ends fun ha => curCheck_ends fun hb => ?_
  have hne : k ≠ m := by
    rintro rfl
    cases ha.mode.symm.trans hb.mode
  obtain ⟨L, hL, hw, hf⟩ := streamFuel_enough (s.chan k)
  exact Res.ends_bind (encodeLoop_ends 0 hne hL (h.ready ha) (h.ready hb) hw hf) fun _ _ _ => Res.ends_ok _ _

theorem decodeStream_ends {m : Fin Config.curSlots} (h : Inv s) : (decodeStream k m s).ends :=
  curCheck_ends fun ha => curCheck_ends fun hb =>
    Res.ends_bind (decodeLoop_ends s.a0.toNat 0 0 s.root (h.ready ha) (h.ready hb)) fun _ _ _ => Res.ends_ok _ _

/-! ## The tree and its codes (42_treebuilder.md, 43_codetable.md, 44_treecodec.md) -/

theorem addLeaf_ends (j : Nat) (s : State) : (addLeaf j s).ends := by
  rcases addLeaf_cases j s with ⟨_, e⟩ | ⟨_, e⟩ <;> rw [e]
  · exact Res.ends_raise _ _
  · exact Res.ends_ok _ _

theorem addLeaves_ends (js : List Nat) (s : State) : (addLeaves js s).ends := by
  induction js generalizing s with
  | nil => exact Res.ends_ok _ _
  | cons j js ih => exact Res.ends_guard fun _ => Res.ends_bind (addLeaf_ends j s) fun _ t _ => ih t

theorem buildTree_ends (fuel : Nat) (s : State) : (buildTree fuel s).ends := by
  induction fuel generalizing s with
  | zero => exact Res.ends_ok _ _
  | succ fuel ih =>
    rcases buildTree_cases fuel s with ⟨_, e⟩ | ⟨_, _, e⟩ | ⟨a, b, _, rest, _, _, e⟩ <;> rw [e]
    · exact Res.ends_raise _ _
    · exact Res.ends_ok _ _
    · rcases merge_cases a b { s with heap := heapRest (freqOf s.nodes) rest } with ⟨_, e⟩ | ⟨_, _, e⟩ | ⟨_, _, e⟩ <;> rw [e]
      · exact Res.ends_raise _ _
      · exact Res.ends_raise _ _
      · exact ih _

theorem tbins_ends (s : State) : (tbins s).ends := by
  unfold tbins
  split
  · exact Res.ends_raise _ _
  · exact Res.ends_guard fun _ => Res.ends_guard fun _ => addLeaf_ends _ s

theorem tbext_ends (s : State) : (tbext s).ends := Res.ends_guard fun _ => buildTree_ends _ s

theorem tbuild_ends (s : State) : (tbuild s).ends := Res.ends_bind (addLeaves_ends _ _) fun _ t _ => tbext_ends t

theorem buildCodes_ends (h : Inv s) : (buildCodes s).ends := by
  unfold buildCodes
  split
  · exact Res.ends_raise _ _
  · rename_i r hr
    split
    · exact storeCode_ends _ _ _
    · exact codeWalk_ends [] (h.root r hr)

theorem ctrd_ends (s : State) : (ctrd s).ends := by
  unfold ctrd
  split
  · exact Res.ends_raise _ _
  · split
    · exact Res.ends_ok _ _
    · exact Res.ends_ok _ _

theorem twrite_ends (h : Inv s) : (twrite k s).ends := by
  refine curCheck_ends fun ho => ?_
  split
  · exact Res.ends_raise _ _
  · rename_i r hr
    exact Res.ends_bind (writeNode_ends (h.root r hr) (h.ready ho)) fun _ _ _ => Res.ends_ok _ _

theorem tread_ends (h : Inv s) : (tread k s).ends :=
  curCheck_ends fun ho =>
    Res.ends_bind (readNode_reads k _ _ 0 ((h.ready ho).same (t := freeTree s) rfl rfl)).1 fun _ _ _ => Res.ends_ok _ _

/-! ## Every command -/

/-- The body of every command comes to an end in a block that satisfies the invariant (R292). -/
theorem bodyOf_ends (i : Instr) (h : Inv s) : (bodyOf i s).ends := by
  cases i with
  | nop | srst | hclr | tbinit => exact Res.ends_ok _ _
  | cfgw imm =>
    simp only [bodyOf, cfgw]
    split
    · exact Res.ends_raise _ _
    · exact Res.ends_ok _ _
  | copen ca m => exact oneCursor_ends fun k => copen_ends m
  | cclose ca => exact oneCursor_ends fun k => cclose_ends h
  | crdbits ca | crdbytes ca =>
    exact oneCursor_ends fun k => curCheck_ends fun ho => Res.ends_guard fun _ => readToDb_ends _ (h.ready ho)
  | cwrbits ca | cwrbytes ca =>
    exact oneCursor_ends fun k => curCheck_ends fun ho => Res.ends_guard fun _ =>
      onChan_ends (writeBits_ends _ ho.mode (h.ready ho).present)
  | cflush ca => exact oneCursor_ends fun k => curCheck_ends fun ho => onChan_ends (flush_ends (h.ready ho).present)
  | cseekbits ca => exact oneCursor_ends fun k => curCheck_ends fun ho => onChan_ends (seekTo_ends _ (h.ready ho).present)
  | ctell ca => exact oneCursor_ends fun k => Res.ends_guard fun _ => Res.ends_ok _ _
  | chseek ca => exact oneCursor_ends fun k => chseek_ends h
  | hscan ca => exact oneCursor_ends fun k => hscan_ends h
  | frd =>
    simp only [bodyOf, frd]
    split
    · exact Res.ends_raise _ _
    · exact Res.ends_ok _ _
  | fwr => exact fwr_ends s
  | tbins => exact tbins_ends s
  | tbext => exact tbext_ends s
  | tbuild => exact tbuild_ends s
  | nrd => exact Res.ends_guard fun _ => Res.ends_ok _ _
  | ctbuild => exact buildCodes_ends h.clearCodes
  | ctrd => exact ctrd_ends s
  | twrite ca => exact oneCursor_ends fun k => twrite_ends h
  | tread ca => exact oneCursor_ends fun k => tread_ends h
  | encode ca cb => exact twoCursors_ends fun k m => encodeStream_ends h
  | decode ca cb => exact twoCursors_ends fun k m => decodeStream_ends h

end

/-- Settles O10: a command is the end of its body, and under the invariant every body has an outcome. -/
theorem commandAlwaysEnds : Obligations.CommandAlwaysEnds := by
  intro s i h
  rw [exec_eq_finish]
  exact finish_ends (bodyOf_ends i h)

/-- Settles O55: SRST owns every part, and any other command keeps the parts it does not own. -/
theorem tablesApart : Obligations.TablesApart := by
  intro i s t h
  by_cases hi : i = .srst
  · subst hi
    simp [partsOf]
  · have hb := (exec_frame hi h).block
    exact ⟨hb.wordSize, hb.histogram, hb.tree, hb.codes, hb.buffer⟩

end Sys2Proof.Machine
